-- ==== Sys2Proof/Word.lean ====
section
/-! DEFINITION. The word types of the DZ40: what the manual treats as bits. Quantities, ages and counts
that saturate are `Nat` or `Int` in the model; only octets, wrapping counters and the station tag are
bit vectors. -/

namespace Sys2Proof

/-- One octet of the zone line, of the head link or of the configuration memory (R1, R37, R183). -/
abbrev Byte := BitVec 8

/-- A counter "16 bits wide" that wraps (R18, R29, R49, R93, R151, R165, R168). -/
abbrev Counter := BitVec 16

/-- The 24-bit station tag, compared as an unsigned number (R16). -/
abbrev Tag := BitVec 24

end Sys2Proof
end

