-- ==== Sys2Proof/Syntax.lean ====
section
/-! DEFINITION. The commands of the DZ40: one constructor for each row of spec/opcode_table.json, with the
data the event brings from outside the part as its operands. -/

namespace Sys2Proof

/-- The ROLE strap (R182). -/
inductive Role where
  | zone
  | plant
  deriving DecidableEq, Repr

/-- The two positions of the reversing valve (R134); also the value of the VALVE_POL strap, as the position
that energises the valve output (R182). -/
inductive Valve where
  | cooling
  | heating
  deriving DecidableEq, Repr

/-- The two kinds of reset (R188). -/
inductive ResetKind where
  | power
  | input
  deriving DecidableEq, Repr

/-- The seven straps as the loader latches them (R182). `addr` is 0 to 15; `energised` is VALVE_POL. -/
structure Straps where
  role : Role
  addr : Nat
  cfgmem : Bool
  energised : Valve
  deriving DecidableEq, Repr

/-- What the plant's pins show at one sensor timer expiry: the four thermistor conversions in centidegrees
and the pressure conversion in pascals as the part's conversion gives them, in range or not (R41, R42), and
the levels of the two contact inputs (R44). -/
structure PinSample where
  supplyAir : Int
  indoorCoil : Int
  outdoorAir : Int
  outdoorCoil : Int
  staticPressure : Int
  inverterFault : Bool
  condensateFloat : Bool
  deriving DecidableEq, Repr

/-- The commands (events) that reach the part, in the order of spec/opcode_table.json. -/
inductive Instr where
  /-- POWER_ON_RESET (R188): a power-on reset or a detected supply dip is asserted. -/
  | powerOnReset
  /-- RESET_INPUT_ASSERTED (R166). -/
  | resetInputAsserted
  /-- RESET_RELEASE (R182): the reset of the given kind is released, with the straps as they then stand. -/
  | resetRelease (kind : ResetKind) (straps : Straps)
  /-- READ_ATTEMPT (R183): a sequential read ends, with the octets the memory acknowledged, in order. Fewer
  octets than the image length are a failed attempt. -/
  | readAttempt (octets : List Byte)
  /-- READ_RETRY_TIMER (R183). -/
  | readRetryTimer
  /-- TOKEN_REFILL_TIMER (R7). -/
  | tokenRefillTimer
  /-- LINE_IDLE (R2). -/
  | lineIdle
  /-- ATTEMPT_BEGIN (R13). -/
  | attemptBegin
  /-- ATTEMPT_COMPLETE (R14). -/
  | attemptComplete
  /-- COLLISION (R15): the bit of the frame, counted from 0 at its first start bit, that read back
  differently. -/
  | collision (bit : Nat)
  /-- FRAME_RECEIVED (R5): the octets that follow those the receiver has already taken. -/
  | frameReceived (octets : List Byte)
  /-- FRAME_ABANDONED (R4): the octets taken before the gap. -/
  | frameAbandoned (octets : List Byte)
  /-- ZONE_PERIODIC_TIMER (R9). -/
  | zonePeriodicTimer
  /-- PLANT_PERIODIC_TIMER (R9). -/
  | plantPeriodicTimer
  /-- SUMMARY_TIMER (R9). -/
  | summaryTimer
  /-- AGE_TIMER (R26). -/
  | ageTimer
  /-- GRACE_TIMER (R33). -/
  | graceTimer
  /-- HEAD_FRAME_ARRIVAL (R37): the octets that follow those the head receiver has already taken. -/
  | headFrameArrival (octets : List Byte)
  /-- HEAD_FRAME_ABANDONED (R37): the octets taken before the gap or the framing error. -/
  | headFrameAbandoned (octets : List Byte)
  /-- LOSS_TIMER (R38). -/
  | lossTimer
  /-- SENSOR_TIMER (R36): the pins' sample, read in the plant role only, and which of two things of this
  expiry is taken first: the requests of a contact change, or the examination of a step's sensor exit. -/
  | sensorTimer (pins : PinSample) (contactsFirst : Bool)
  /-- DEMAND_TIMER (R52). -/
  | demandTimer
  /-- HOMING_STEP_COMPLETION (R85), with the sampled stall input. -/
  | homingStepCompletion (stall : Bool)
  /-- STEP_COMPLETION (R90), with the sampled stall input. -/
  | stepCompletion (stall : Bool)
  /-- BUDGET_REFILL_TIMER (R87). -/
  | budgetRefillTimer
  /-- REHOME_AGE_TIMER (R92). -/
  | rehomeAgeTimer
  /-- PLANT_CONTROL_TIMER (R97). -/
  | plantControlTimer
  /-- OFF_HOLD_TIMER (R111). -/
  | offHoldTimer
  /-- PROTECTION_TIMER (R127). -/
  | protectionTimer
  /-- LISTENING_TIMER (R134). -/
  | listeningTimer
  /-- STEP_DELAY_EXPIRY (R140). -/
  | stepDelayExpiry
  /-- STEP_TIME_EXIT (R140). -/
  | stepTimeExit
  /-- STEP_TIME_LIMIT (R140). -/
  | stepTimeLimit
  /-- EMERGENCY_HOLD_TICK (R147). -/
  | emergencyHoldTick
  /-- RETAINED_TIMER (R154). -/
  | retainedTimer
  /-- FROST_TIMER (R169). -/
  | frostTimer
  /-- START_BIT_SEEN (R13). -/
  | startBitSeen
  /-- FRAMING_ERROR (R4): the octets taken before the octet whose stop bit sampled at 0. -/
  | framingError (octets : List Byte)
  deriving DecidableEq, Repr

end Sys2Proof
end

