-- ==== Sys2Proof/Decode.lean ====
section
/-! DEFINITION. Reading a command from a table word. spec/opcode_table.json gives no row any bits: the
commands are events, not encodings, so no word spells one. -/

namespace Sys2Proof

/-- The command that the low `nbits` bits of `w` spell by spec/opcode_table.json: none, since no row of the
table has bits. -/
def decodeTableWord (nbits w : Nat) : Option Instr :=
  match nbits, w with
  | _, _ => none

end Sys2Proof
end

