-- ==== Sys2Proof/Config.lean ====
section
/-! DEFINITION. What the manual leaves open and the part goes on: free values, constants with no body, so
that nothing proved about the model can rest on a number the model chose. -/

namespace Sys2Proof

/-- FREE VALUE (notes/assumptions/9.md). Whether the stepper motor is energised while the Damper Drive is
HOLDING or WAITING_BUDGET. R84, R94 and R187 say only that it is not energised in UNHOMED, in FAULTED and
before READY. -/
opaque Config.motorEnergisedAtRest : Bool

end Sys2Proof
end

