-- ==== Sys2Proof/Machine/State.lean ====
section
/-! DEFINITION. The state of one DZ40, block by block, as plain data, and its value while a power-on reset is
asserted. Docstrings cite the rules that name each item; INVENTORY.md lists every item with its reset value. -/

namespace Sys2Proof.Machine

/-! ## Names of the manual -/

/-- A zone's call (R57). -/
inductive Call where
  | off | idle | cool | heat | dry
  deriving DecidableEq, Repr

/-- The plant's mode (R96). -/
inductive Mode where
  | off | fan | cool | dry | heat
  deriving DecidableEq, Repr

/-- The group of a mode or of a call (R96; section 4.4). -/
inductive Group where
  | none | cooling | heating
  deriving DecidableEq, Repr

/-- The derived plant state (R152). -/
inductive PlantState where
  | idle | starting | running | stopping | changeover | defrost | emergency | lockout | standby
  deriving DecidableEq, Repr

/-- The system switch on the plant head (R40). -/
inductive SystemSwitch where
  | off | fan | cool | heat | auto
  deriving DecidableEq, Repr

/-- An opening in whole percent, or unknown (R21). -/
inductive Opening where
  | unknown
  | percent (p : Nat)
  deriving DecidableEq, Repr

/-- A station's two report kinds: the main kind (ZONE or PLANT by role) and SUMMARY (R8). -/
inductive ReportKind where
  | main | summary
  deriving DecidableEq, Repr

/-- Stop causes, in the order of their codes 1 to 10 (R162, R194). -/
inductive StopCause where
  | demand | condensate | freeze | supply | airflow | static | inverter | changeover | standby | reset
  deriving DecidableEq, Repr

/-! ## Configuration Loader -/

/-- The load state (R183, R184). -/
inductive LoadState where
  | idle | configHalt | reading | checking | ready
  deriving DecidableEq, Repr

/-- The load result, in the order of its codes 0 to 7 (R192). -/
inductive LoadResult where
  | none | loaded | loadedClamped | noMemory | noAck | badVersion | badLength | badCrc
  deriving DecidableEq, Repr

/-- The zone parameter set (R185). -/
structure ZoneParams where
  weight : Nat
  halfBand : Nat
  rhTarget : Nat
  kp : Nat
  ki : Nat
  kl : Nat
  omin : Nat
  faultOpening : Nat
  optOut : Bool
  deriving DecidableEq, Repr

/-- The plant parameter set (R185). -/
structure PlantParams where
  startThreshold : Nat
  stopThreshold : Nat
  cmin : Nat
  fanAirflow : Nat
  pmax : Nat
  ptrip : Nat
  minRun : Nat
  antiShort : Nat
  defrostInterval : Nat
  deriving DecidableEq, Repr

/-- The Configuration Loader (section 11.2), with the two reset lines it waits on (R188). -/
structure Loader where
  /-- load state (R183) -/
  state : LoadState
  /-- the latched straps (R182) -/
  straps : Straps
  /-- which read attempt is in progress or was the last to fail, 0 before the first (R183) -/
  attempts : Nat
  /-- the 20 ms wait after a failed attempt is running (R183) -/
  retryWait : Bool
  /-- the held zone parameter set, none while no set is held (R185) -/
  zone : Option ZoneParams
  /-- the held plant parameter set, none while no set is held (R185) -/
  plant : Option PlantParams
  /-- the station tag (R184, R186) -/
  tag : Tag
  /-- CONFIG_DEFAULTED (R184) -/
  defaulted : Bool
  /-- CONFIG_CLAMPED (R185) -/
  clamped : Bool
  /-- the load result (R184) -/
  result : LoadResult
  /-- a power-on reset is asserted (R188) -/
  powerAsserted : Bool
  /-- the RESET input is asserted (R188) -/
  inputAsserted : Bool
  /-- the kind of the latest reset (R178) -/
  latest : ResetKind
  deriving DecidableEq, Repr

/-! ## Line Interface -/

/-- Pending flag, renewal mark and collision count of one report kind (R8, R15). -/
structure KindState where
  pending : Bool
  renewal : Bool
  k : Nat
  deriving DecidableEq, Repr

/-- The receiver's states, each with the octets it has taken so far (R4). -/
inductive Receiver where
  | hunt
  | sync
  | header
  | length (header : Byte)
  | payload (header len : Byte) (taken : List Byte)
  | check (header len : Byte) (payload : List Byte) (crcHigh : Option Byte)
  deriving DecidableEq, Repr

/-- A transmission attempt in progress: its kind, the gap count at which it began (R13; from its own first start
bit on both counts are held at 0), the frame built from the sample, and the sampled damper target and published
opening that completion records (R10, R11, R14). -/
structure Attempt where
  kind : ReportKind
  gap : Nat
  frame : List Byte
  target : Opening
  f : Nat
  deriving DecidableEq, Repr

/-- The Line Interface (chapter 1). -/
structure LineState where
  /-- transmit tokens, 0 to 3 (R7) -/
  tokens : Nat
  main : KindState
  summary : KindState
  /-- the quiet count in bit times (R2) -/
  quiet : Nat
  /-- the gap count in bit times (R2) -/
  gap : Nat
  /-- an octet is on the line, so both counts are held at 0 (R2) -/
  octetOnLine : Bool
  /-- the kind chosen by a station that is ready and waits for its gap (R12) -/
  waiting : Option ReportKind
  /-- the attempt in progress (R14) -/
  attempt : Option Attempt
  rx : Receiver
  /-- YIELDED (R17) -/
  yielded : Bool
  /-- the summary page index is 1 (R192) -/
  pageOne : Bool
  /-- line counters (R18) -/
  good : Counter
  crcDiscards : Counter
  malformed : Counter
  collisions : Counter
  dropped : Counter
  conflicts : Counter
  /-- the damper target carried by the last completed ZONE frame (R10) -/
  lastTarget : Option Opening
  /-- the published opening carried by the last completed PLANT frame (R11) -/
  lastF : Option Nat
  deriving DecidableEq, Repr

/-! ## Peer Table -/

/-- The flags of a zone record (R21). -/
structure ZoneFlags where
  sensorFault : Bool
  damperFault : Bool
  demandSaturated : Bool
  reliefOptOut : Bool
  plantLost : Bool
  configDefaulted : Bool
  configClamped : Bool
  deriving DecidableEq, Repr

/-- A zone record (R21). -/
structure ZoneRecord where
  call : Call
  ds : Nat
  dl : Nat
  weight : Nat
  tier : Nat
  base : Opening
  relief : Nat
  position : Opening
  roomTemp : Int
  roomRh : Nat
  target : Int
  flags : ZoneFlags
  deriving DecidableEq, Repr

/-- The flags of a plant record (R22). -/
structure PlantFlags where
  airflowLimited : Bool
  pressureLimiting : Bool
  defrostPending : Bool
  budgetEmpty : Bool
  peerLate : Bool
  configDefaulted : Bool
  configClamped : Bool
  deriving DecidableEq, Repr

/-- A plant record (R22). -/
structure PlantRecord where
  mode : Mode
  state : PlantState
  delivering : Bool
  f : Nat
  capacity : Nat
  blower : Nat
  supplyAir : Int
  outdoorAir : Int
  flags : PlantFlags
  deriving DecidableEq, Repr

/-- What a present entry holds; the constructor is the entry's class (R20). -/
inductive Contents where
  | zone (r : ZoneRecord)
  | plant (r : PlantRecord)
  deriving DecidableEq, Repr

/-- The states FRESH and LATE of a present entry (R19). -/
inductive Freshness where
  | fresh | late
  deriving DecidableEq, Repr

/-- A present entry's state, age in tenths of a second and contents (R20). -/
structure Presence where
  freshness : Freshness
  age : Nat
  contents : Contents
  deriving DecidableEq, Repr

/-- One entry of the peer table; `held` is none in an EMPTY entry (R19, R20). The entry at the station's own
address holds nothing here: the own entry is computed from the station's blocks, so it carries every new
value at the moment it arises (R23; `State.ownContents` in Machine/Flags.lean). -/
structure PeerEntry where
  address : Nat
  held : Option Presence
  deriving DecidableEq, Repr

/-- A one-shot timer that is not started, runs, or has expired (R33, R134). -/
inductive OneShot where
  | stopped | running | expired
  deriving DecidableEq, Repr

/-- The Peer Table (chapter 2). -/
structure Peers where
  /-- fifteen entries in address order, 1 to 15 (R19) -/
  entries : List PeerEntry
  /-- the followed plant's address (R31) -/
  followed : Option Nat
  /-- PLANT_LOST (R33) -/
  plantLost : Bool
  /-- the 8 s grace timer (R33) -/
  grace : OneShot
  /-- late-event counter (R27) -/
  lateEvents : Counter
  /-- peers-lost counter (R28) -/
  peersLost : Counter
  deriving DecidableEq, Repr

/-! ## Sensor Inputs -/

/-- A measured input's state (R36). -/
inductive InputState where
  | unseeded | tracking | holding | faulted
  deriving DecidableEq, Repr

/-- A measured input's record (section 3.1, R36). `previous` is used by room temperature alone (R43). -/
structure Input where
  state : InputState
  raw : Option Int
  filtered : Option Int
  previous : Option Int
  hold : Nat
  recovery : Nat
  deriving DecidableEq, Repr

/-- A reading's class at a sensor timer expiry (R43). -/
inductive Reading where
  | none | missing | invalid | rejected | good
  deriving DecidableEq, Repr

/-- A contact input: its state and its last sample (R44). -/
structure Contact where
  asserted : Bool
  last : Option Bool
  deriving DecidableEq, Repr

/-- The head link's state (R38). -/
inductive HeadLink where
  | waiting | present | missing
  deriving DecidableEq, Repr

/-- The head receiver: hunting, taking the head-kind octet, or taking the octets that follow it (R37). -/
inductive HeadReceiver where
  | hunt
  | kind
  | body (kind : Byte) (taken : List Byte)
  deriving DecidableEq, Repr

/-- Sensor Inputs (chapter 3). -/
structure Sensors where
  roomTemp : Input
  roomRh : Input
  supplyAir : Input
  indoorCoil : Input
  outdoorAir : Input
  outdoorCoil : Input
  staticPressure : Input
  link : HeadLink
  /-- the 5 s loss timer runs (R38) -/
  lossRunning : Bool
  /-- a head arrival since the previous sensor timer expiry (R43) -/
  arrived : Bool
  headRx : HeadReceiver
  /-- the target temperature (R39) -/
  target : Int
  /-- the zone switch is ON (R39) -/
  zoneSwitch : Bool
  systemSwitch : SystemSwitch
  /-- continuous fan is selected (R40) -/
  continuousFan : Bool
  /-- a plant head frame has arrived since READY (R110) -/
  headSeen : Bool
  inverter : Contact
  condensate : Contact
  /-- sensor-fault entry counter (R49) -/
  faultEntries : Counter
  deriving DecidableEq, Repr

/-! ## Demand Engine -/

/-- The Demand Engine's copy of the followed plant's mode and delivering (R54). -/
structure DemandView where
  mode : Mode
  delivering : Bool
  deriving DecidableEq, Repr

/-- The Demand Engine (R51). -/
structure Demand where
  call : Call
  /-- integral accumulator I, hundredths of a demand unit -/
  integral : Int
  /-- previous raw sum U -/
  rawSum : Int
  ds : Nat
  dl : Nat
  saturated : Bool
  errorClamped : Bool
  view : Option DemandView
  deriving DecidableEq, Repr

/-! ## Airflow Share Unit -/

/-- The Airflow Share Unit's copy of the followed plant's facts (R74). -/
structure ShareView where
  mode : Mode
  state : PlantState
  f : Nat
  deriving DecidableEq, Repr

/-- The demand inputs of the last hand-off (R71, R73). -/
structure DemandInputs where
  call : Call
  ds : Nat
  dl : Nat
  tempFault : Bool
  deriving DecidableEq, Repr

/-- The Airflow Share Unit (R73). -/
structure Share where
  tier : Nat
  base : Opening
  relief : Nat
  target : Opening
  view : Option ShareView
  inputs : DemandInputs
  deriving DecidableEq, Repr

/-! ## Damper Drive -/

/-- The Damper Drive's states (R84). -/
inductive DriveState where
  | unhomed | homing | holding | moving | waitingBudget | faulted
  deriving DecidableEq, Repr

/-- The direction of the step in progress (R84). -/
inductive Direction where
  | opening | closing
  deriving DecidableEq, Repr

/-- The Damper Drive (R84). -/
structure Damper where
  state : DriveState
  /-- position in steps, none for unknown -/
  position : Option Nat
  taken : Option Nat
  stored : Option Nat
  homingSteps : Nat
  /-- travel budget (R87) -/
  budget : Nat
  /-- age of the latest re-home in seconds (R92) -/
  rehomeAge : Option Nat
  /-- the step in progress, none while the step timer is stopped (R84) -/
  step : Option Direction
  /-- re-home counter (R93) -/
  rehomes : Counter
  deriving DecidableEq, Repr

/-! ## Mode Selector -/

/-- The Mode Selector (R96). The group is that of the mode. -/
structure ModeSelector where
  mode : Mode
  modeAge : Nat
  shiftAge : Nat
  quiet : Nat
  dominance : Nat
  /-- admitted weights (R99) -/
  wc : Nat
  wh : Nat
  wd : Nat
  /-- the 5 s off-hold timer runs (R110) -/
  offHold : Bool
  deriving DecidableEq, Repr

/-! ## Capacity Controller -/

/-- The Capacity Controller (R113). -/
structure Capacity where
  /-- capacity request C (R115) -/
  c : Nat
  startCount : Nat
  stopCount : Nat
  freezeCap : Nat
  supplyCap : Nat
  loopSpeed : Nat
  /-- speed command, the speed output (R118) -/
  speedCommand : Nat
  /-- the speed command follows the loop (R118) -/
  speedFollows : Bool
  /-- required airflow A (R120) -/
  airflow : Nat
  effective : Nat
  effectiveRunning : Nat
  fmax : Nat
  /-- published required opening F (R121) -/
  f : Nat
  blowerLimit : Nat
  /-- loop blower value (R123) -/
  loopBlower : Nat
  /-- blower command, the blower output (R123) -/
  blowerCommand : Nat
  airflowLimited : Bool
  pressureLimiting : Bool
  staticCount : Nat
  freezeCount : Nat
  airflowCount : Nat
  deriving DecidableEq, Repr

/-! ## Procedure Engine -/

/-- The cause of an EMERGENCY (R135). -/
inductive EmergencyCause where
  | static | inverter
  deriving DecidableEq, Repr

/-- The cause of a STOP; `demand` is the ordinary STOP, the others are protective (R135). -/
inductive StopReason where
  | demand | condensate | freeze | supply | airflow
  deriving DecidableEq, Repr

/-- A procedure request, or the running procedure (R134, R135). -/
inductive Proc where
  | emergency (cause : EmergencyCause)
  | stop (reason : StopReason)
  | defrost
  | changeover
  | start
  deriving DecidableEq, Repr

/-- The pending set: at most one request of each kind (R134). An EMERGENCY is never in it (R136). -/
structure Requests where
  stop : Option StopReason
  defrost : Bool
  changeover : Bool
  start : Bool
  deriving DecidableEq, Repr

/-- Step identifiers (R139). -/
inductive StepId where
  | s1 | s2 | s3 | s4
  | t1 | t2 | t3
  | x1 | x2 | x3
  | d1 | d2 | d3 | d4 | d5 | d6 | d7 | d8 | d9 | d10
  | e1 | e2
  deriving DecidableEq, Repr

/-- The engine state (R134). -/
inductive EngineState where
  | idle | waiting | running
  deriving DecidableEq, Repr

/-- Outcomes of the status record (R151). -/
inductive ProcOutcome where
  | none | inProgress | done | preempted | aborted | withdrawn
  deriving DecidableEq, Repr

/-- How D5 ended (R175). -/
inductive D5End where
  | exit | limit
  deriving DecidableEq, Repr

/-- The status record (R151). -/
structure Status where
  proc : Option Proc
  step : Option StepId
  outcome : ProcOutcome
  limited : Bool
  deriving DecidableEq, Repr

/-- The Procedure Engine (R134), with the two equipment outputs its steps switch. -/
structure Engine where
  state : EngineState
  running : Option Proc
  step : Option StepId
  /-- the current step's delay is running and its action not yet applied (R140) -/
  delaying : Bool
  stepTime : Nat
  /-- the current step's time exit, fixed when the step is taken (R143) -/
  exitTime : Option Nat
  /-- the current step's time limit, fixed when the step is taken (R177) -/
  timeLimit : Option Nat
  requests : Requests
  emergencyHold : Nat
  /-- valve position (R134) -/
  valve : Valve
  /-- compressor run output -/
  run : Bool
  /-- the value the running procedure's last applied speed action set (R118) -/
  speedHold : Option Nat
  /-- the value the running procedure's last applied blower action set (R123) -/
  blowerHold : Option Nat
  /-- how the running DEFROST's D5 ended, once it has reached its boundary (R146) -/
  d5 : Option D5End
  status : Status
  /-- counters (R134, R151) -/
  stepsLoaded : Counter
  marks : Counter
  done : Counter
  preempted : Counter
  aborted : Counter
  withdrawn : Counter
  refused : Counter
  /-- the 10 s listening timer (R134) -/
  listening : OneShot
  /-- STANDBY (R35) -/
  standby : Bool
  /-- the plant state last placed in the own entry (R152) -/
  shown : PlantState
  deriving DecidableEq, Repr

/-- What the engine does next inside one event: take a step, apply its action, reach its boundary, start a
procedure from the pending set, or rest until a further event (R138, R140, R141). -/
inductive Todo where
  | take (st : StepId)
  | apply
  | boundary (limited : Bool)
  | startNext
  | rest
  deriving DecidableEq, Repr

/-! ## Protection Unit -/

/-- A run record (R162). -/
structure RunRecord where
  startAge : Nat
  duration : Nat
  cause : StopCause
  short : Bool
  deriving DecidableEq, Repr

/-- The engine's requests to the unit (R157). -/
inductive GuardRequest where
  | start | stop | valve | spacing
  deriving DecidableEq, Repr

/-- The Protection Unit (R154). -/
structure Protection where
  stopAge : Nat
  valveAge : Nat
  /-- the open run's age, none when no run is open -/
  run : Option Nat
  budget : Nat
  progress : Nat
  /-- run history, oldest first (R162) -/
  history : List RunRecord
  doubling : Bool
  /-- remaining time of an active LOCKOUT -/
  lockout : Option Nat
  waiting : Option GuardRequest
  lockouts : Counter
  /-- a power-on reset has cleared the retained area and READY has not followed yet, so its items are held
  (R167) -/
  held : Bool
  deriving DecidableEq, Repr

/-! ## Frost Estimator -/

/-- The Frost Estimator (R168). -/
structure Frost where
  index : Nat
  first : Bool
  accumulation : Nat
  gapTimer : Nat
  interval : Nat
  timed : Nat
  normal : Counter
  limited : Counter
  deriving DecidableEq, Repr

/-! ## The station -/

/-- The whole part: the blocks of both roles, and the commands that wait, first in, first out. -/
structure State where
  loader : Loader
  line : LineState
  peers : Peers
  sensors : Sensors
  demand : Demand
  share : Share
  damper : Damper
  modeSel : ModeSelector
  capacity : Capacity
  engine : Engine
  protection : Protection
  frost : Frost
  pending : List Instr
  deriving DecidableEq, Repr

/-- Nothing of the part stops: every command has an outcome that is a next state, so there is no fault. Safe. -/
inductive Fault where
  deriving DecidableEq, Repr

/-- Refusals. `notModelled` would be raised by exec's arm for a command without a meaning; every command has
one, so nothing raises it. Safe. -/
inductive Refusal where
  | notModelled (mnemonic : String)
  deriving DecidableEq, Repr

/-! ## Reset values -/

/-- The value of an input after either reset (R36). -/
def Input.reset : Input :=
  { state := .unseeded, raw := none, filtered := none, previous := none, hold := 0, recovery := 0 }

/-- The value of a contact after either reset (R44). -/
def Contact.reset : Contact := { asserted := false, last := none }

/-- The value of a report kind after either reset (R8, R15). -/
def KindState.reset : KindState := { pending := false, renewal := false, k := 0 }

/-- The Line Interface after either reset (R2, R4, R7, R8, R10, R11, R15, R17, R18, R192). -/
def LineState.reset : LineState :=
  { tokens := 3, main := .reset, summary := .reset, quiet := 0, gap := 0, octetOnLine := false,
    waiting := none, attempt := none, rx := .hunt, yielded := false, pageOne := false,
    good := 0, crcDiscards := 0, malformed := 0, collisions := 0, dropped := 0, conflicts := 0,
    lastTarget := none, lastF := none }

/-- Fifteen EMPTY entries at the addresses 1 to 15 (R19). -/
def emptyEntries : List PeerEntry :=
  [1, 2, 3, 4, 5, 6, 7, 8, 9, 10, 11, 12, 13, 14, 15].map fun a => { address := a, held := none }

/-- The Peer Table after either reset (R19, R29, R31, R33). -/
def Peers.reset : Peers :=
  { entries := emptyEntries, followed := none, plantLost := false, grace := .stopped,
    lateEvents := 0, peersLost := 0 }

/-- Sensor Inputs after either reset (R36, R38, R39, R40, R44, R49). -/
def Sensors.reset : Sensors :=
  { roomTemp := .reset, roomRh := .reset, supplyAir := .reset, indoorCoil := .reset,
    outdoorAir := .reset, outdoorCoil := .reset, staticPressure := .reset,
    link := .waiting, lossRunning := false, arrived := false, headRx := .hunt,
    target := 2400, zoneSwitch := true, systemSwitch := .off, continuousFan := false,
    headSeen := false, inverter := .reset, condensate := .reset, faultEntries := 0 }

/-- The Demand Engine after either reset (R51). -/
def Demand.reset : Demand :=
  { call := .idle, integral := 0, rawSum := 0, ds := 0, dl := 0, saturated := false,
    errorClamped := false, view := none }

/-- The Airflow Share Unit after either reset (R73). Before READY no Omin is held; the base and the target
show the default Omin of 10 until READY hands the configured one over (DESIGN CHOICE,
notes/assumptions/7.md). -/
def Share.reset : Share :=
  { tier := 2, base := .percent 10, relief := 0, target := .percent 10, view := none,
    inputs := { call := .idle, ds := 0, dl := 0, tempFault := false } }

/-- The Damper Drive after either reset (R84, R87, R93). -/
def Damper.reset : Damper :=
  { state := .unhomed, position := none, taken := none, stored := none, homingSteps := 0,
    budget := 2400, rehomeAge := none, step := none, rehomes := 0 }

/-- The Mode Selector after either reset (R96). -/
def ModeSelector.reset : ModeSelector :=
  { mode := .off, modeAge := 0, shiftAge := 65535, quiet := 0, dominance := 0,
    wc := 0, wh := 0, wd := 0, offHold := false }

/-- The Capacity Controller after either reset (R113). -/
def Capacity.reset : Capacity :=
  { c := 0, startCount := 0, stopCount := 0, freezeCap := 1000, supplyCap := 1000, loopSpeed := 0,
    speedCommand := 0, speedFollows := false, airflow := 0, effective := 0, effectiveRunning := 0,
    fmax := 0, f := 0, blowerLimit := 1000, loopBlower := 0, blowerCommand := 0,
    airflowLimited := false, pressureLimiting := false, staticCount := 0, freezeCount := 0,
    airflowCount := 0 }

/-- The de-energised valve position for a VALVE_POL strap (R182, R134). -/
def deEnergised (energised : Valve) : Valve :=
  match energised with
  | .cooling => .heating
  | .heating => .cooling

/-- The Procedure Engine after either reset, for the straps in force (R134, R187). -/
def Engine.reset (energised : Valve) : Engine :=
  { state := .idle, running := none, step := none, delaying := false, stepTime := 0,
    exitTime := none, timeLimit := none,
    requests := { stop := none, defrost := false, changeover := false, start := false },
    emergencyHold := 0, valve := deEnergised energised, run := false, speedHold := none,
    blowerHold := none, d5 := none,
    status := { proc := none, step := none, outcome := .none, limited := false },
    stepsLoaded := 0, marks := 0, done := 0, preempted := 0, aborted := 0, withdrawn := 0,
    refused := 0, listening := .stopped, standby := false, shown := .idle }

/-- The Protection Unit after a power-on reset (R167). -/
def Protection.reset : Protection :=
  { stopAge := 0, valveAge := 0, run := none, budget := 1, progress := 0, history := [],
    doubling := false, lockout := none, waiting := none, lockouts := 0, held := true }

/-- The Frost Estimator after a power-on reset (R168). -/
def Frost.reset : Frost :=
  { index := 0, first := true, accumulation := 0, gapTimer := 0, interval := 0, timed := 0,
    normal := 0, limited := 0 }

/-- The straps before any latching: no rule gives them a value (DESIGN CHOICE, notes/assumptions/6.md). -/
def unlatchedStraps : Straps :=
  { role := .zone, addr := 0, cfgmem := false, energised := .heating }

/-- The loader after either reset, with the straps latched earlier and the reset lines as given (R182, R183). -/
def Loader.reset (straps : Straps) (power input : Bool) (latest : ResetKind) : Loader :=
  { state := .idle, straps := straps, attempts := 0, retryWait := false, zone := none, plant := none,
    tag := 0, defaulted := false, clamped := false, result := .none, powerAsserted := power,
    inputAsserted := input, latest := latest }

/-- The part while the power-on reset that begins its life is asserted (R188): every block at its reset
values, the retained record cleared, no command waiting. -/
def State.reset : State :=
  { loader := .reset unlatchedStraps true false .power,
    line := .reset, peers := .reset, sensors := .reset, demand := .reset, share := .reset,
    damper := .reset, modeSel := .reset, capacity := .reset,
    engine := .reset unlatchedStraps.energised,
    protection := .reset, frost := .reset, pending := [] }

end Sys2Proof.Machine
end

