-- ==== Sys2Proof/Machine/Operands.lean ====
section
/-! DEFINITION. Arithmetic and octets: rounding and saturation (section 4.2, 4.3), byte order and codes
(R189 to R196), the CRC and the line levels of a frame (R1, R3), the payload layouts both ways. -/

namespace Sys2Proof.Machine

/-! ## Rounding, clamping, saturation -/

/-- nearest(n / d), ties away from zero (section 4.2). -/
def nearest (n : Int) (d : Nat) : Int :=
  if 0 ≤ n then ((2 * n.toNat + d) / (2 * d) : Nat)
  else -((2 * n.natAbs + d) / (2 * d) : Nat)

/-- up(n / d), the ceiling (section 4.2). -/
def upDiv (n d : Nat) : Nat := (n + (d - 1)) / d

/-- Clamp to lo..hi (section 4.3). -/
def clamp (lo hi x : Int) : Int := max lo (min hi x)

/-- Clamp to lo..hi on naturals (section 4.3). -/
def clampNat (lo hi x : Nat) : Nat := max lo (min hi x)

/-- Add and saturate at `top` (section 4.3). -/
def satAdd (top x n : Nat) : Nat := min top (x + n)

/-- The ages that saturate at 65 535 (R20, R92, R96, R154, R168). -/
def ageUp (x n : Nat) : Nat := satAdd 65535 x n

/-! ## Octets -/

/-- The low octet of a number. -/
def octet (n : Nat) : Byte := BitVec.ofNat 8 n

/-- A two-octet field, high octet first (R189). -/
def put16 (n : Nat) : List Byte := [octet (n / 256), octet n]

/-- A three-octet field, high octet first (R189). -/
def put24 (n : Nat) : List Byte := octet (n / 65536) :: put16 n

/-- A four-octet field, high octet first (R189). -/
def put32 (n : Nat) : List Byte := octet (n / 16777216) :: put24 n

/-- A signed temperature, 16-bit two's complement (R189). -/
def putTemp (t : Int) : List Byte := put16 (t % 65536).toNat

/-- A counter, high octet first (R189). -/
def putCounter (c : Counter) : List Byte := put16 c.toNat

/-- The octet at an offset. -/
def octetAt (p : List Byte) (i : Nat) : Nat := (p.getD i 0).toNat

/-- A two-octet field at an offset, high octet first (R189). -/
def get16 (p : List Byte) (i : Nat) : Nat := octetAt p i * 256 + octetAt p (i + 1)

/-- A three-octet field at an offset (R189). -/
def get24 (p : List Byte) (i : Nat) : Nat := octetAt p i * 65536 + get16 p (i + 1)

/-- A four-octet field at an offset (R189). -/
def get32 (p : List Byte) (i : Nat) : Nat := octetAt p i * 16777216 + get24 p (i + 1)

/-- A signed temperature at an offset (R189). -/
def getTemp (p : List Byte) (i : Nat) : Int :=
  if get16 p i < 32768 then (get16 p i : Int) else (get16 p i : Int) - 65536

/-- Bit `i` of the octet at an offset. -/
def flagAt (p : List Byte) (offset i : Nat) : Bool := (p.getD offset 0).getLsbD i

/-- A flag at bit `i` of an octet (R189). -/
def flagBit (b : Bool) (i : Nat) : Nat := if b then 2 ^ i else 0

/-! ## CRC-16 (R3) -/

/-- One bit of the CRC computation: shift left and reduce by the generator 0x1021. -/
def crcShift (c : BitVec 16) : BitVec 16 :=
  if c.msb then (c <<< 1) ^^^ 0x1021#16 else c <<< 1

/-- `n` bits of the CRC computation. -/
def crcShifts : Nat → BitVec 16 → BitVec 16
  | 0, c => c
  | n + 1, c => crcShifts n (crcShift c)

/-- One octet enters the computation, most significant bit first. -/
def crcOctet (c : BitVec 16) (o : Byte) : BitVec 16 :=
  crcShifts 8 (c ^^^ (o.setWidth 16 <<< 8))

/-- The CRC-16 of a list of octets, from the value 0xFFFF and without inversion (R3). -/
def crc16 (octets : List Byte) : BitVec 16 := octets.foldl crcOctet 0xFFFF#16

/-- The two octets of a check value, high octet first (R3, R195, R196). -/
def crcOctets (octets : List Byte) : List Byte := put16 (crc16 octets).toNat

/-! ## The line levels of a frame (R1) -/

/-- The levels of one octet: start bit 0, eight data bits with the least significant first, stop bit 1. -/
def octetLevels (o : Byte) : List Bool :=
  false :: (([0, 1, 2, 3, 4, 5, 6, 7].map fun i => o.getLsbD i) ++ [true])

/-- The levels of a frame's octets, back to back (R1). -/
def frameLevels (frame : List Byte) : List Bool := frame.flatMap octetLevels

/-! ## Codes (R189 to R196) -/

/-- Call codes (R190). -/
def Call.code (c : Call) : Nat :=
  match c with
  | .off => 0 | .idle => 1 | .cool => 2 | .heat => 3 | .dry => 4

/-- The call of a code, none for an undefined code (R190). -/
def Call.ofCode (n : Nat) : Option Call :=
  match n with
  | 0 => some .off | 1 => some .idle | 2 => some .cool | 3 => some .heat | 4 => some .dry | _ => none

/-- Mode codes (R191). -/
def Mode.code (m : Mode) : Nat :=
  match m with
  | .off => 0 | .fan => 1 | .cool => 2 | .dry => 3 | .heat => 4

/-- The mode of a code (R191). -/
def Mode.ofCode (n : Nat) : Option Mode :=
  match n with
  | 0 => some .off | 1 => some .fan | 2 => some .cool | 3 => some .dry | 4 => some .heat | _ => none

/-- Plant state codes (R191). -/
def PlantState.code (p : PlantState) : Nat :=
  match p with
  | .idle => 0 | .starting => 1 | .running => 2 | .stopping => 3 | .changeover => 4
  | .defrost => 5 | .emergency => 6 | .lockout => 7 | .standby => 8

/-- The plant state of a code (R191). -/
def PlantState.ofCode (n : Nat) : Option PlantState :=
  match n with
  | 0 => some .idle | 1 => some .starting | 2 => some .running | 3 => some .stopping
  | 4 => some .changeover | 5 => some .defrost | 6 => some .emergency | 7 => some .lockout
  | 8 => some .standby | _ => none

/-- Delivering codes (R191). -/
def deliveringOfCode (n : Nat) : Option Bool :=
  match n with
  | 0 => some false | 1 => some true | _ => none

/-- System switch codes (R196). -/
def SystemSwitch.ofCode (n : Nat) : Option SystemSwitch :=
  match n with
  | 0 => some .off | 1 => some .fan | 2 => some .cool | 3 => some .heat | 4 => some .auto | _ => none

/-- Opening codes: 0 to 100, or 255 for unknown (R189). -/
def Opening.code (o : Opening) : Nat :=
  match o with
  | .unknown => 255
  | .percent p => p

/-- The opening of an octet: 255 is unknown, 101 to 254 become 100 (R6). -/
def Opening.ofCode (n : Nat) : Opening := if n = 255 then .unknown else .percent (min 100 n)

/-- Input state codes (section 12.4). -/
def InputState.code (i : InputState) : Nat :=
  match i with
  | .unseeded => 0 | .tracking => 1 | .holding => 2 | .faulted => 3

/-- Head link codes (section 12.4). -/
def HeadLink.code (h : HeadLink) : Nat :=
  match h with
  | .waiting => 0 | .present => 1 | .missing => 2

/-- Load result codes (section 12.4). -/
def LoadResult.code (r : LoadResult) : Nat :=
  match r with
  | .none => 0 | .loaded => 1 | .loadedClamped => 2 | .noMemory => 3 | .noAck => 4
  | .badVersion => 5 | .badLength => 6 | .badCrc => 7

/-- Drive state codes (R193). -/
def DriveState.code (d : DriveState) : Nat :=
  match d with
  | .unhomed => 0 | .homing => 1 | .holding => 2 | .moving => 3 | .waitingBudget => 4 | .faulted => 5

/-- Stop cause codes (R194). -/
def StopCause.code (c : StopCause) : Nat :=
  match c with
  | .demand => 1 | .condensate => 2 | .freeze => 3 | .supply => 4 | .airflow => 5 | .static => 6
  | .inverter => 7 | .changeover => 8 | .standby => 9 | .reset => 10

/-- Procedure codes (R194). -/
def procCode (p : Option Proc) : Nat :=
  match p with
  | none => 0
  | some (.emergency _) => 1
  | some (.stop _) => 2
  | some .defrost => 3
  | some .changeover => 4
  | some .start => 5

/-- The stop cause of a STOP's reason (R135, R162). -/
def StopReason.cause (r : StopReason) : StopCause :=
  match r with
  | .demand => .demand | .condensate => .condensate | .freeze => .freeze | .supply => .supply
  | .airflow => .airflow

/-- The stop cause of an EMERGENCY (R135, R147). -/
def EmergencyCause.cause (c : EmergencyCause) : StopCause :=
  match c with
  | .static => .static | .inverter => .inverter

/-- The status record's cause octet: a CHANGEOVER, DEFROST or START carries none (section 12.4). -/
def procCauseCode (p : Option Proc) : Nat :=
  match p with
  | some (.emergency c) => c.cause.code
  | some (.stop r) => r.cause.code
  | some .defrost | some .changeover | some .start | none => 0

/-- Step id codes (R194). -/
def stepCode (st : Option StepId) : Nat :=
  match st with
  | none => 0
  | some .s1 => 1 | some .s2 => 2 | some .s3 => 3 | some .s4 => 4
  | some .t1 => 5 | some .t2 => 6 | some .t3 => 7
  | some .x1 => 8 | some .x2 => 9 | some .x3 => 10
  | some .d1 => 11 | some .d2 => 12 | some .d3 => 13 | some .d4 => 14 | some .d5 => 15
  | some .d6 => 16 | some .d7 => 17 | some .d8 => 18 | some .d9 => 19 | some .d10 => 20
  | some .e1 => 21 | some .e2 => 22

/-- Outcome codes (R194). -/
def ProcOutcome.code (o : ProcOutcome) : Nat :=
  match o with
  | .none => 0 | .inProgress => 1 | .done => 2 | .preempted => 3 | .aborted => 4 | .withdrawn => 5

/-- Engine state codes (R194). -/
def EngineState.code (e : EngineState) : Nat :=
  match e with
  | .idle => 0 | .waiting => 1 | .running => 2

/-! ## Frames (R3, R5) -/

/-- The report kind codes (R3). -/
def zoneKind : Nat := 1
/-- The report kind codes (R3). -/
def plantKind : Nat := 2
/-- The report kind codes (R3). -/
def summaryKind : Nat := 3

/-- The kind code of a header octet (R3). -/
def headerKind (h : Byte) : Nat := h.toNat / 16

/-- The source address of a header octet (R3). -/
def headerAddress (h : Byte) : Nat := h.toNat % 16

/-- R5's check at the header: kind 1, 2 or 3, and source address 1 to 15. -/
def headerGood (h : Byte) : Bool :=
  (headerKind h = 1 ∨ headerKind h = 2 ∨ headerKind h = 3) ∧ headerAddress h ≠ 0

/-- R5's check at the length: 18 for ZONE, 20 for PLANT, 16 or 30 for SUMMARY. -/
def lengthGood (h len : Byte) : Bool :=
  (headerKind h = 1 ∧ len.toNat = 18) ∨ (headerKind h = 2 ∧ len.toNat = 20) ∨
    (headerKind h = 3 ∧ (len.toNat = 16 ∨ len.toNat = 30))

/-- A frame of R3: sync, header, length, payload and CRC. -/
def buildFrame (kind address : Nat) (payload : List Byte) : List Byte :=
  [0xD2#8, 0x2D#8] ++ ([octet (kind * 16 + address), octet payload.length] ++ payload) ++
    crcOctets ([octet (kind * 16 + address), octet payload.length] ++ payload)

/-! ## ZONE payload (R190) -/

/-- The flags octet of a ZONE payload (R190). -/
def ZoneFlags.octet (f : ZoneFlags) : Byte :=
  Machine.octet (flagBit f.sensorFault 0 + flagBit f.damperFault 1 + flagBit f.demandSaturated 2 +
    flagBit f.reliefOptOut 3 + flagBit f.plantLost 4 + flagBit f.configDefaulted 5 +
    flagBit f.configClamped 6)

/-- A ZONE payload of 18 octets (R190). -/
def encodeZone (tag : Tag) (r : ZoneRecord) : List Byte :=
  put24 tag.toNat ++ [octet (r.call.code * 16 + r.tier)] ++ put16 r.ds ++ put16 r.dl ++
    [octet r.weight, octet r.base.code, octet r.relief, octet r.position.code] ++
    putTemp r.roomTemp ++ put16 r.roomRh ++ [octet ((r.target - 1600) / 50).toNat, r.flags.octet]

/-- A ZONE payload's record with every numeric field clamped, none where the call's code is undefined
(R5, R6, R190). -/
def decodeZone (p : List Byte) : Option ZoneRecord :=
  match Call.ofCode (octetAt p 3 / 16) with
  | none => none
  | some call =>
    some
      { call := call
        ds := min 1000 (get16 p 4)
        dl := min 1000 (get16 p 6)
        weight := clampNat 1 100 (octetAt p 8)
        tier := min 2 (octetAt p 3 % 16)
        base := Opening.ofCode (octetAt p 9)
        relief := min 100 (octetAt p 10)
        position := Opening.ofCode (octetAt p 11)
        roomTemp := clamp (-2000) 6000 (getTemp p 12)
        roomRh := min 1000 (get16 p 14)
        target := clamp 1600 3000 (1600 + 50 * (octetAt p 16 : Int))
        flags :=
          { sensorFault := flagAt p 17 0, damperFault := flagAt p 17 1,
            demandSaturated := flagAt p 17 2, reliefOptOut := flagAt p 17 3,
            plantLost := flagAt p 17 4, configDefaulted := flagAt p 17 5,
            configClamped := flagAt p 17 6 } }

/-! ## PLANT payload (R191) -/

/-- The flags octet of a PLANT payload (R191). -/
def PlantFlags.octet (f : PlantFlags) : Byte :=
  Machine.octet (flagBit f.airflowLimited 0 + flagBit f.pressureLimiting 1 + flagBit f.defrostPending 2 +
    flagBit f.budgetEmpty 3 + flagBit f.peerLate 4 + flagBit f.configDefaulted 5 +
    flagBit f.configClamped 6)

/-- A PLANT payload of 20 octets (R191). -/
def encodePlant (tag : Tag) (r : PlantRecord) : List Byte :=
  put24 tag.toNat ++ [octet r.mode.code, octet r.state.code, octet (flagBit r.delivering 0)] ++
    put32 r.f ++ put16 r.capacity ++ put16 r.blower ++ putTemp r.supplyAir ++ putTemp r.outdoorAir ++
    [r.flags.octet, 0#8]

/-- A PLANT payload's record with every numeric field clamped, none where an enumeration's code is
undefined (R5, R6, R191). -/
def decodePlant (p : List Byte) : Option PlantRecord :=
  match Mode.ofCode (octetAt p 3), PlantState.ofCode (octetAt p 4), deliveringOfCode (octetAt p 5) with
  | some mode, some state, some delivering =>
    some
      { mode := mode
        state := state
        delivering := delivering
        f := min 140000 (get32 p 6)
        capacity := min 1000 (get16 p 10)
        blower := min 1000 (get16 p 12)
        supplyAir := clamp (-4000) 9000 (getTemp p 14)
        outdoorAir := clamp (-4000) 9000 (getTemp p 16)
        flags :=
          { airflowLimited := flagAt p 18 0, pressureLimiting := flagAt p 18 1,
            defrostPending := flagAt p 18 2, budgetEmpty := flagAt p 18 3, peerLate := flagAt p 18 4,
            configDefaulted := flagAt p 18 5, configClamped := flagAt p 18 6 } }
  | _, _, _ => none

/-- The station tag of a ZONE or PLANT payload (R16, R190, R191). -/
def payloadTag (p : List Byte) : Tag := BitVec.ofNat 24 (get24 p 0)

/-- The contents of a good ZONE or PLANT frame, none where an enumeration is undefined or the kind is
SUMMARY (R5, R6). -/
def decodeContents (h : Byte) (p : List Byte) : Option Contents :=
  if headerKind h = zoneKind then (decodeZone p).map .zone
  else if headerKind h = plantKind then (decodePlant p).map .plant
  else none

/-- R5's check of the enumerated fields; a SUMMARY payload has none that is checked (R189). -/
def enumsGood (h : Byte) (p : List Byte) : Bool :=
  headerKind h = summaryKind || (decodeContents h p).isSome

/-! ## The configuration image (R195) -/

/-- The image length of version 1 (R195). -/
def imageLength : Nat := 38

/-- The zone parameters of an image, before clamping (R195). -/
def imageZone (p : List Byte) : List Nat :=
  [octetAt p 6, get16 p 7, get16 p 9, get16 p 11, octetAt p 13, octetAt p 14, octetAt p 15,
    octetAt p 16, octetAt p 17]

/-- The default zone parameters (R185). -/
def zoneDefaults : ZoneParams :=
  { weight := 10, halfBand := 50, rhTarget := 550, kp := 400, ki := 20, kl := 50, omin := 10,
    faultOpening := 30, optOut := false }

/-- The default plant parameters (R185). -/
def plantDefaults : PlantParams :=
  { startThreshold := 150, stopThreshold := 80, cmin := 250, fanAirflow := 400, pmax := 250,
    ptrip := 350, minRun := 300, antiShort := 180, defrostInterval := 1800 }

/-- The zone parameter set of an image, clamped (R185, R195). -/
def zoneOfImage (p : List Byte) : ZoneParams :=
  { weight := clampNat 1 100 (octetAt p 6)
    halfBand := clampNat 25 200 (get16 p 7)
    rhTarget := clampNat 400 700 (get16 p 9)
    kp := clampNat 0 1000 (get16 p 11)
    ki := clampNat 0 100 (octetAt p 13)
    kl := clampNat 1 100 (octetAt p 14)
    omin := clampNat 0 100 (octetAt p 15)
    faultOpening := clampNat 0 50 (octetAt p 16)
    optOut := decide (octetAt p 17 ≠ 0) }

/-- Whether any field of the zone set lay outside its range (R185). -/
def zoneClamped (p : List Byte) : Bool :=
  imageZone p ≠
    [(zoneOfImage p).weight, (zoneOfImage p).halfBand, (zoneOfImage p).rhTarget, (zoneOfImage p).kp,
      (zoneOfImage p).ki, (zoneOfImage p).kl, (zoneOfImage p).omin, (zoneOfImage p).faultOpening,
      if (zoneOfImage p).optOut then 1 else 0]

/-- The plant parameters of an image, before clamping (R195). -/
def imagePlant (p : List Byte) : List Nat :=
  [get16 p 18, get16 p 20, get16 p 22, get16 p 24, get16 p 26, get16 p 28, get16 p 30, get16 p 32,
    get16 p 34]

/-- The plant parameter set of an image, clamped: the start threshold and Pmax first, the stop threshold and
Ptrip against them (R185, R195). -/
def plantOfImage (p : List Byte) : PlantParams :=
  let start := clampNat 100 400 (get16 p 18)
  let pmax := clampNat 100 400 (get16 p 26)
  { startThreshold := start
    stopThreshold := clampNat 50 (start - 20) (get16 p 20)
    cmin := clampNat 150 500 (get16 p 22)
    fanAirflow := clampNat 200 1000 (get16 p 24)
    pmax := pmax
    ptrip := clampNat (pmax + 50) 500 (get16 p 28)
    minRun := clampNat 120 900 (get16 p 30)
    antiShort := clampNat 120 600 (get16 p 32)
    defrostInterval := clampNat 1200 5400 (get16 p 34) }

/-- Whether any field of the plant set lay outside its range (R185). -/
def plantClamped (p : List Byte) : Bool :=
  imagePlant p ≠
    [(plantOfImage p).startThreshold, (plantOfImage p).stopThreshold, (plantOfImage p).cmin,
      (plantOfImage p).fanAirflow, (plantOfImage p).pmax, (plantOfImage p).ptrip,
      (plantOfImage p).minRun, (plantOfImage p).antiShort, (plantOfImage p).defrostInterval]

/-- The tests of CHECKING in order, with the result of the first that fails (R184). -/
def imageTest (p : List Byte) : Option LoadResult :=
  if octetAt p 0 ≠ 1 then some .badVersion
  else if get16 p 1 ≠ imageLength then some .badLength
  else if (crc16 (p.take 36)).toNat ≠ get16 p 36 then some .badCrc
  else none

/-! ## The head frame (R196) -/

/-- How many octets follow the head-kind octet: the readings and two check octets (R196). -/
def headBodyLength (kind : Byte) : Nat := if kind = 1#8 then 9 else 4

end Sys2Proof.Machine
end

