-- ==== Sys2Proof/Machine/Flags.lean ====
section
/-! DEFINITION. What the station's blocks say when read: the parameters in force, input validity, the derived
plant state and flags, the own entry and the peer table's present entries, and the pins. -/

namespace Sys2Proof.Machine

/-! ## Loader -/

/-- The part is READY (R187). -/
def State.ready (s : State) : Bool := s.loader.state = .ready

/-- A reset of either kind is asserted (R188). -/
def State.inReset (s : State) : Bool := s.loader.powerAsserted || s.loader.inputAsserted

/-- READY in the zone role (R182). -/
def State.zoneReady (s : State) : Bool := s.ready && s.loader.straps.role = .zone

/-- READY in the plant role (R182). -/
def State.plantReady (s : State) : Bool := s.ready && s.loader.straps.role = .plant

/-- The station's own address (R182). -/
def State.address (s : State) : Nat := s.loader.straps.addr

/-- The zone parameters in force; the defaults stand in while no set is held, when no block reads them. -/
def State.zp (s : State) : ZoneParams := s.loader.zone.getD zoneDefaults

/-- The plant parameters in force; the defaults stand in while no set is held, when no block reads them. -/
def State.pp (s : State) : PlantParams := s.loader.plant.getD plantDefaults

/-! ## Groups -/

/-- The group of a mode (R96). -/
def Mode.group (m : Mode) : Group :=
  match m with
  | .off | .fan => .none
  | .cool | .dry => .cooling
  | .heat => .heating

/-- The group of a call (section 4.4). -/
def Call.group (c : Call) : Group :=
  match c with
  | .off | .idle => .none
  | .cool | .dry => .cooling
  | .heat => .heating

/-- The other group (R105). -/
def Group.other (g : Group) : Group :=
  match g with
  | .none => .none
  | .cooling => .heating
  | .heating => .cooling

/-! ## Sensor inputs as their consumers read them (R48) -/

/-- The input is valid: TRACKING or HOLDING. -/
def Input.valid (i : Input) : Bool :=
  match i.state with
  | .tracking | .holding => true
  | .unseeded | .faulted => false

/-- The filtered value, 0 while there is none; read only where the input is valid. -/
def Input.value (i : Input) : Int := i.filtered.getD 0

/-- The value an own entry carries: the filtered value, or `floor` while the input is UNSEEDED or has none
(R49, R50). -/
def Input.reported (i : Input) (floor : Int) : Int :=
  match i.state with
  | .unseeded => floor
  | .tracking | .holding | .faulted => i.filtered.getD floor

/-- The outdoor air as the Frost Estimator takes it: 0 while the input is faulted (R172, R174). -/
def Sensors.outdoorAirValue (x : Sensors) : Int := if x.outdoorAir.valid then x.outdoorAir.value else 0

/-! ## Damper -/

/-- The actual position field: nearest(position / 12), or unknown (R91). -/
def Damper.reported (d : Damper) : Opening :=
  match d.state, d.position with
  | .holding, some p | .moving, some p | .waitingBudget, some p => .percent (nearest p 12).toNat
  | _, _ => .unknown

/-- A number from an opening, with unknown counting as 0 (R21). -/
def Opening.orZero (o : Opening) : Nat :=
  match o with
  | .unknown => 0
  | .percent p => p

/-! ## Procedure Engine -/

/-- Priorities of the procedure kinds (R135). -/
def Proc.priority (p : Proc) : Nat :=
  match p with
  | .emergency _ => 7
  | .stop _ => 5
  | .defrost => 4
  | .changeover => 3
  | .start => 2

/-- A running START, CHANGEOVER or DEFROST (R101, R120, R124, R125). -/
def Engine.startsOrDefrosts (e : Engine) : Bool :=
  match e.running with
  | some .start | some .changeover | some .defrost => true
  | some (.emergency _) | some (.stop _) | none => false

/-- A DEFROST is running (R133, R169). -/
def Engine.defrosting (e : Engine) : Bool := e.running = some .defrost

/-- A CHANGEOVER at one of its own steps (R152). -/
def Engine.atChangeoverStep (e : Engine) : Bool :=
  e.step = some .x1 || e.step = some .x2 || e.step = some .x3

/-- The plant state of R152's table, its first row that holds. -/
def plantStateOf (e : Engine) (p : Protection) : PlantState :=
  if e.standby then .standby
  else
    match e.running with
    | some (.emergency _) => .emergency
    | some .defrost => .defrost
    | some .changeover => if e.atChangeoverStep then .changeover else .starting
    | some .start => .starting
    | some (.stop _) => .stopping
    | none => if p.lockout.isSome then .lockout else if e.run then .running else .idle

/-- The derived plant state (R152). -/
def State.plantState (s : State) : PlantState := plantStateOf s.engine s.protection

/-- Delivering: while RUNNING, and while STARTING at S4 (R152). -/
def State.delivering (s : State) : Bool :=
  match s.plantState with
  | .running => true
  | .starting => s.engine.step = some .s4
  | .idle | .stopping | .changeover | .defrost | .emergency | .lockout | .standby => false

/-- The valve position of a mode's group; none for OFF and FAN (R139). -/
def Mode.valve (m : Mode) : Option Valve :=
  match m with
  | .cool | .dry => some .cooling
  | .heat => some .heating
  | .off | .fan => none

/-! ## The peer table as its readers find it -/

/-- Some zone entry of the table is LATE (R29). -/
def Peers.anyZoneLate (p : Peers) : Bool :=
  p.entries.any fun e =>
    match e.held with
    | some { freshness := .late, contents := .zone _, .. } => true
    | _ => false

/-- The own zone record, from the station's own blocks (R21, R23, R49). -/
def State.ownZone (s : State) : ZoneRecord :=
  { call := s.demand.call
    ds := s.demand.ds
    dl := s.demand.dl
    weight := s.zp.weight
    tier := s.share.tier
    base := s.share.base
    relief := s.share.relief
    position := s.damper.reported
    roomTemp := s.sensors.roomTemp.reported (-2000)
    roomRh := (s.sensors.roomRh.reported 0).toNat
    target := s.sensors.target
    flags :=
      { sensorFault := s.sensors.roomTemp.state = .faulted || s.sensors.roomRh.state = .faulted
        damperFault := s.damper.state = .faulted
        demandSaturated := s.demand.saturated
        reliefOptOut := s.zp.optOut
        plantLost := s.peers.plantLost
        configDefaulted := s.loader.defaulted
        configClamped := s.loader.clamped } }

/-- The own plant record, from the station's own blocks (R22, R23, R50); in STANDBY mode OFF, published
opening 0 and both commands 0 (R35). -/
def State.ownPlant (s : State) : PlantRecord :=
  { mode := if s.engine.standby then .off else s.modeSel.mode
    state := s.plantState
    delivering := s.delivering
    f := if s.engine.standby then 0 else s.capacity.f
    capacity := if s.engine.standby then 0 else s.capacity.speedCommand
    blower := if s.engine.standby then 0 else s.capacity.blowerCommand
    supplyAir := s.sensors.supplyAir.reported (-4000)
    outdoorAir := s.sensors.outdoorAir.reported (-4000)
    flags :=
      { airflowLimited := s.capacity.airflowLimited
        pressureLimiting := s.capacity.pressureLimiting
        defrostPending := s.engine.requests.defrost
        budgetEmpty := decide (s.protection.budget = 0)
        peerLate := s.peers.anyZoneLate
        configDefaulted := s.loader.defaulted
        configClamped := s.loader.clamped } }

/-- The own entry's contents, of the role's class (R23). -/
def State.ownContents (s : State) : Contents :=
  match s.loader.straps.role with
  | .zone => .zone s.ownZone
  | .plant => .plant s.ownPlant

/-- What an entry holds to its readers: the own entry is FRESH with age 0 while the part is READY, and every
other entry is as stored (R19, R23). -/
def State.presence (s : State) (e : PeerEntry) : Option Presence :=
  if e.address = s.address then
    if s.ready then some { freshness := .fresh, age := 0, contents := s.ownContents } else none
  else e.held

/-- The presence at an address, none where the entry is EMPTY or there is no such entry (R19). -/
def State.entryAt (s : State) (a : Nat) : Option Presence :=
  (s.peers.entries.find? fun e => e.address = a).bind s.presence

/-- The present zone entries in ascending address order, each with its freshness (R19, R30). -/
def State.zoneEntries (s : State) : List (Freshness × ZoneRecord) :=
  s.peers.entries.filterMap fun e =>
    match s.presence e with
    | some { freshness := fr, contents := .zone r, .. } => some (fr, r)
    | _ => none

/-- The tier a reader counts an entry with: 0 for a LATE entry (R30). -/
def countedTier (e : Freshness × ZoneRecord) : Nat :=
  match e.1 with
  | .fresh => e.2.tier
  | .late => 0

/-- The plant record of an entry of the plant class. -/
def PeerEntry.plant (e : PeerEntry) : Option PlantRecord :=
  match e.held with
  | some { contents := .plant r, .. } => some r
  | _ => none

/-- The stored entry at an address. -/
def Peers.entry (p : Peers) (a : Nat) : Option PeerEntry := p.entries.find? fun e => e.address = a

/-- The plant record at an address. -/
def Peers.plantAt (p : Peers) (a : Nat) : Option PlantRecord := (p.entry a).bind PeerEntry.plant

/-- The followed plant by R31's rule: the lowest-addressed present plant entry not in STANDBY. -/
def Peers.choose (p : Peers) : Option Nat :=
  (p.entries.find? fun e =>
    match e.plant with
    | some r => r.state ≠ .standby
    | none => false).map PeerEntry.address

/-- The followed plant's record (R31). -/
def Peers.followedRecord (p : Peers) : Option PlantRecord := p.followed.bind p.plantAt

/-! ## Protection Unit -/

/-- The anti-short-cycle interval in force (R155). -/
def State.antiShortInterval (s : State) : Nat :=
  if s.protection.doubling then 2 * s.pp.antiShort else s.pp.antiShort

/-- The condensate float lets a compressor start: released, or the mode is HEAT (R124, R158). -/
def State.floatPermits (s : State) : Bool :=
  !s.sensors.condensate.asserted || s.modeSel.mode = .heat

/-- The conditions of a START grant (R158). -/
def State.startPermitted (s : State) : Bool :=
  (match s.protection.history.getLast? with
    | none => true
    | some r => decide (420 ≤ r.startAge)) &&
  decide (s.antiShortInterval ≤ s.protection.stopAge) &&
  decide (30 ≤ s.protection.valveAge) &&
  decide (1 ≤ s.protection.budget) &&
  s.protection.lockout.isNone &&
  s.floatPermits &&
  decide (s.engine.emergencyHold = 0)

/-- The conditions of a STOP grant (R157). -/
def State.stopPermitted (s : State) : Bool :=
  match s.protection.run with
  | none => true
  | some age => decide (s.pp.minRun ≤ age)

/-- The conditions under which the unit answers a request (R157). -/
def State.permitted (s : State) (g : GuardRequest) : Bool :=
  match g with
  | .start => s.startPermitted
  | .stop => s.stopPermitted
  | .valve => decide (60 ≤ s.protection.stopAge) && decide (60 ≤ s.protection.valveAge)
  | .spacing => decide (60 ≤ s.protection.stopAge)

/-! ## Frost Estimator -/

/-- Heat-running (R169). -/
def State.heatRunning (s : State) : Bool :=
  s.modeSel.mode = .heat && s.engine.run && !s.engine.defrosting

/-! ## Standing aside -/

/-- STANDBY or YIELDED: the plant's controllers take no further expiries (R35, R112, R114, R153, R180). -/
def State.aside (s : State) : Bool := s.engine.standby || s.line.yielded

/-! ## Pins (R182, R187, section 11.6) -/

/-- The valve output: energised in the VALVE_POL position (R139, R182). -/
def State.valveEnergised (s : State) : Bool := s.engine.valve = s.loader.straps.energised

/-- The stepper enable: not energised in UNHOMED and FAULTED, energised while steps are issued, and a free
value at rest (R84, R94, R187). -/
def Damper.energised (d : Damper) : Bool :=
  match d.state with
  | .unhomed | .faulted => false
  | .homing | .moving => true
  | .holding | .waitingBudget => Config.motorEnergisedAtRest

/-- The multiplexed equipment pins (section 11.6). -/
inductive EqPin where
  | eq1 | eq2 | eq3 | eq4 | eq5 | eq6 | eq7 | eq8 | eq9 | eq10 | eq11
  deriving DecidableEq, Repr

/-- What an EQ pin does and, where it is an output, what stands at it (section 11.6). Speed and blower are the
duty in permille. -/
inductive PinSignal where
  /-- no function yet: from the assertion of a reset to the strap latching, at its safe level -/
  | unassigned
  /-- held as an input and unused -/
  | unused
  | stepperStep (inProgress : Bool)
  | stepperDirection (direction : Option Direction)
  | stepperEnable (energised : Bool)
  | stallInput
  | compressorRun (on : Bool)
  | valve (energised : Bool)
  | speed (permille : Nat)
  | blower (permille : Nat)
  | supplyAirInput | indoorCoilInput | outdoorAirInput | outdoorCoilInput
  | staticPressureInput
  | inverterFaultInput
  | condensateFloatInput
  deriving DecidableEq, Repr

/-- An EQ pin in the zone role (section 11.6). -/
def State.zonePin (s : State) (p : EqPin) : PinSignal :=
  match p with
  | .eq1 => .stepperStep s.damper.step.isSome
  | .eq2 => .stepperDirection s.damper.step
  | .eq3 => .stepperEnable s.damper.energised
  | .eq4 => .stallInput
  | .eq5 | .eq6 | .eq7 | .eq8 | .eq9 | .eq10 | .eq11 => .unused

/-- An EQ pin in the plant role (section 11.6). -/
def State.plantPin (s : State) (p : EqPin) : PinSignal :=
  match p with
  | .eq1 => .compressorRun s.engine.run
  | .eq2 => .valve s.valveEnergised
  | .eq3 => .speed s.capacity.speedCommand
  | .eq4 => .blower s.capacity.blowerCommand
  | .eq5 => .supplyAirInput
  | .eq6 => .indoorCoilInput
  | .eq7 => .outdoorAirInput
  | .eq8 => .outdoorCoilInput
  | .eq9 => .staticPressureInput
  | .eq10 => .inverterFaultInput
  | .eq11 => .condensateFloatInput

/-- The straps have been latched since the latest reset: the loader has left IDLE (R182, R183). -/
def State.latched (s : State) : Bool := s.loader.state ≠ .idle

/-- An EQ pin: it takes the latched role's function at the strap latching and keeps it until the next reset
(R182, section 11.6). -/
def State.eqPin (s : State) (p : EqPin) : PinSignal :=
  if s.latched then
    match s.loader.straps.role with
    | .zone => s.zonePin p
    | .plant => s.plantPin p
  else .unassigned

/-- LINE_EN: the line driver is enabled during an attempt (R14, R15, R187). -/
def State.lineDriven (s : State) : Bool := s.line.attempt.isSome

end Sys2Proof.Machine
end

