-- ==== Sys2Proof/Machine/Ops.lean ====
section
/-! DEFINITION. The named operations the commands share: setting one block, raising a report, the line's
readiness, the counts of the line, the Damper Drive, and a station's record of its plant state. -/

namespace Sys2Proof.Machine

/-! ## Setting one block -/

/-- `s` with its `loader` replaced. -/
def State.setLoader (s : State) (x : Loader) : State := { s with loader := x }

/-- `s` with its `line` replaced. -/
def State.setLine (s : State) (x : LineState) : State := { s with line := x }

/-- `s` with its `peers` replaced. -/
def State.setPeers (s : State) (x : Peers) : State := { s with peers := x }

/-- `s` with its `sensors` replaced. -/
def State.setSensors (s : State) (x : Sensors) : State := { s with sensors := x }

/-- `s` with its `demand` replaced. -/
def State.setDemand (s : State) (x : Demand) : State := { s with demand := x }

/-- `s` with its `share` replaced. -/
def State.setShare (s : State) (x : Share) : State := { s with share := x }

/-- `s` with its `damper` replaced. -/
def State.setDamper (s : State) (x : Damper) : State := { s with damper := x }

/-- `s` with its `modeSel` replaced. -/
def State.setModeSel (s : State) (x : ModeSelector) : State := { s with modeSel := x }

/-- `s` with its `capacity` replaced. -/
def State.setCapacity (s : State) (x : Capacity) : State := { s with capacity := x }

/-- `s` with its `engine` replaced. -/
def State.setEngine (s : State) (x : Engine) : State := { s with engine := x }

/-- `s` with its `protection` replaced. -/
def State.setProtection (s : State) (x : Protection) : State := { s with protection := x }

/-- `s` with its `frost` replaced. -/
def State.setFrost (s : State) (x : Frost) : State := { s with frost := x }

/-- `s` with its `pending` replaced. -/
def State.setPending (s : State) (x : List Instr) : State := { s with pending := x }

/-- A command that gives the next state `s`. -/
def advance (s : State) : Host.Outcome State Fault Refusal := .next s

/-! ## Raising reports (R8, R12) -/

/-- The state of one report kind (R8). -/
def LineState.kind (l : LineState) (k : ReportKind) : KindState :=
  match k with
  | .main => l.main
  | .summary => l.summary

/-- The line with the state of one report kind replaced. -/
def LineState.setKind (l : LineState) (k : ReportKind) (x : KindState) : LineState :=
  match k with
  | .main => { l with main := x }
  | .summary => { l with summary := x }

/-- An attempt of this kind is in progress. -/
def LineState.attempting (l : LineState) (k : ReportKind) : Bool :=
  match l.attempt with
  | some a => a.kind = k
  | none => false

/-- A trigger for a kind: its pending flag is set, and its renewal mark too while an attempt of the same kind
is in progress (R8). -/
def LineState.trigger (k : ReportKind) (l : LineState) : LineState :=
  l.setKind k { l.kind k with pending := true, renewal := (l.kind k).renewal || l.attempting k }

/-- Raise the main report's prompt (R10, R11). -/
def State.prompt (s : State) : State := s.setLine (s.line.trigger .main)

/-- The station is ready to send (R12). -/
def LineState.canSend (ready : Bool) (l : LineState) : Bool :=
  ready && !l.yielded && (l.main.pending || l.summary.pending) && decide (1 ≤ l.tokens) &&
    l.attempt.isNone

/-- The kind a station chooses when it becomes ready: the main kind if its flag is set (R12). -/
def LineState.chosenKind (l : LineState) : ReportKind :=
  if l.main.pending then .main else .summary

/-- The line after its readiness is looked at again: a station that becomes ready chooses a kind and restarts
its gap count, one that waits with SUMMARY chooses again when the main flag is set, and one that is not ready
does not wait (R12, R13). -/
def LineState.settle (ready : Bool) (l : LineState) : LineState :=
  if l.canSend ready then
    match l.waiting with
    | none => { l with waiting := some l.chosenKind, gap := 0 }
    | some .summary => if l.main.pending then { l with waiting := some .main, gap := 0 } else l
    | some .main => l
  else { l with waiting := none }

/-- The station after its readiness is looked at again (R12). -/
def State.settle (s : State) : State := s.setLine (s.line.settle s.ready)

/-- The end of a LOCKOUT prompts a PLANT report, whatever plant state shows: `before` is the remaining time that
stood before (R165). -/
def State.noteLockoutEnd (before : Option Nat) (s : State) : State :=
  if s.plantReady && before.isSome && s.protection.lockout.isNone then s.prompt else s

/-- The own entry takes a new plant state and the change prompts a PLANT report (R11, R152). -/
def State.notePlantState (s : State) : State :=
  if s.plantReady && decide (s.plantState ≠ s.engine.shown) then
    (s.setEngine { s.engine with shown := s.plantState }).prompt
  else s

/-- The end of a command that can move the plant: the plant state is shown, then readiness is settled. -/
def State.settlePlant (s : State) : State := s.notePlantState.settle

/-- The end of an attempt of a kind: the collision count returns to 0, and the pending flag is kept only by
the renewal mark, which is cleared (R8, R14, R15). -/
def KindState.release (x : KindState) : KindState :=
  { pending := x.pending && x.renewal, renewal := false, k := 0 }

/-! ## The counts of the line (R2) -/

/-- `n` bit times pass on both counts. -/
def LineState.pass (l : LineState) (n : Nat) : LineState :=
  { l with quiet := l.quiet + n, gap := l.gap + n }

/-- A start bit: both counts are held at 0 (R2). -/
def LineState.startBit (l : LineState) : LineState :=
  { l with quiet := 0, gap := 0, octetOnLine := true }

/-- The end of an octet's stop-bit position: both counts count from 0 (R2). -/
def LineState.octetEnd (l : LineState) : LineState :=
  { l with quiet := 0, gap := 0, octetOnLine := false }

/-- The quiet count reaches `n` bit times, if it has not yet; an octet on the line has ended by then (R2). -/
def LineState.quietReaches (l : LineState) (n : Nat) : LineState :=
  { l.pass (n - l.quiet) with octetOnLine := false }

/-- The gap count reaches `n` bit times, if it has not yet (R2, R13). -/
def LineState.gapReaches (l : LineState) (n : Nat) : LineState := l.pass (n - l.gap)

/-- The line is idle (R2). -/
def LineState.idle (l : LineState) : Bool := 30 ≤ l.quiet

/-- The slot of a kind's next attempt (R13). -/
def LineState.slot (l : LineState) (address : Nat) (k : ReportKind) : Nat :=
  if (l.kind k).k = 0 then address else (address + 5 * (l.kind k).k) % 16

/-- The station's gap G in bit times (R13). -/
def LineState.gapFor (l : LineState) (address : Nat) (k : ReportKind) : Nat :=
  30 + 10 * l.slot address k

/-! ## The Damper Drive (section 5.6 to 5.8) -/

/-- The direction of a step toward a target (R90). -/
def towards (position target : Nat) : Direction :=
  if position < target then .opening else .closing

/-- A target is taken: MOVING with a step begun, or WAITING_BUDGET with no budget (R88). -/
def Damper.take (d : Damper) (position target : Nat) : Damper :=
  if 1 ≤ d.budget then
    { d with taken := some target, state := .moving, step := some (towards position target) }
  else { d with taken := some target, state := .waitingBudget }

/-- Whether a target offered in HOLDING is taken (R88). -/
def offerTaken (position target : Nat) : Bool :=
  (24 ≤ target - position || 24 ≤ position - target || target = 0 || target = 1200) &&
    target ≠ position

/-- A target in steps is offered to the drive (R86, R88, R89). -/
def Damper.offer (d : Damper) (target : Nat) : Damper :=
  match d.state with
  | .unhomed | .homing => { d with stored := some target }
  | .faulted => d
  | .holding =>
    match d.position with
    | some p => if offerTaken p target then d.take p target else d
    | none => d
  | .moving => { d with taken := some target }
  | .waitingBudget =>
    if d.position = some target then { d with taken := some target, state := .holding }
    else { d with taken := some target }

/-- Entry to HOMING (R85). -/
def Damper.home (d : Damper) : Damper :=
  { d with state := .homing, position := none, homingSteps := 0, step := some .closing }

/-- The end of homing, with the stored target offered (R85). -/
def Damper.homed (d : Damper) : Damper :=
  let d' := { d with state := .holding, position := some 0, budget := 0, step := none, stored := none }
  match d.stored with
  | some t => d'.offer t
  | none => d'

/-- A homing step completes (R85). -/
def Damper.homingStep (d : Damper) (stall : Bool) : Damper :=
  let d' := { d with homingSteps := d.homingSteps + 1 }
  if stall || decide (1320 ≤ d'.homingSteps) then d'.homed else d'

/-- Entry to FAULTED (R94). -/
def Damper.fault (d : Damper) : Damper :=
  { d with state := .faulted, position := none, taken := none, stored := none, step := none }

/-- A stall in MOVING (R92). -/
def Damper.rehome (d : Damper) : Damper :=
  let d' := { d with rehomes := d.rehomes + 1 }
  match d.rehomeAge with
  | some age =>
    if age < 600 then d'.fault
    else { d' with rehomeAge := some 0, stored := d.taken, taken := none }.home
  | none => { d' with rehomeAge := some 0, stored := d.taken, taken := none }.home

/-- The position after a step in a direction (R90). -/
def stepped (position : Nat) (dir : Direction) : Nat :=
  match dir with
  | .opening => position + 1
  | .closing => position - 1

/-- What follows a step that ended at `p` without a stall (R90). -/
def Damper.afterStep (d : Damper) (p : Nat) : Damper :=
  if d.taken = some p then { d with state := .holding, step := none }
  else if d.budget = 0 then { d with state := .waitingBudget, step := none }
  else { d with step := some (towards p (d.taken.getD p)) }

/-- A step completes in MOVING (R90). -/
def Damper.moveStep (d : Damper) (stall : Bool) : Damper :=
  match d.position, d.step with
  | some p, some dir =>
    let d' := { d with position := some (stepped p dir), budget := d.budget - 1 }
    if stall then d'.rehome else d'.afterStep (stepped p dir)
  | _, _ => d

/-- The travel budget refill (R87). -/
def Damper.refill (d : Damper) : Damper :=
  let d' := if d.budget < 2400 then { d with budget := d.budget + 1 } else d
  match d.state, d.position, d.taken with
  | .waitingBudget, some p, some t =>
    if d'.budget = 50 then { d' with state := .moving, step := some (towards p t) } else d'
  | _, _, _ => d'

end Sys2Proof.Machine
end

