-- ==== Sys2Proof/Machine/Procedures.lean ====
section
/-! DEFINITION. The Procedure Engine and the Protection Unit as the plant's commands share them: outputs, runs
and LOCKOUT, the steps of the chains, starting, ending and displacing procedures, and taking requests
(chapters 8 and 9). -/

namespace Sys2Proof.Machine

/-! ## Outputs (R118, R123) -/

/-- The speed command and the blower command follow the run output and the running procedure's last applied
actions; a speed command that begins to follow the loop hands the loop its value (R118, R123). In STANDBY and
YIELDED both are 0 (R35, R153). -/
def State.driveOutputs (s : State) : State :=
  let c := s.capacity
  let e := s.engine
  let follows := e.run && e.speedHold.isNone
  let loop := if follows && !c.speedFollows then c.speedCommand else c.loopSpeed
  let speed := if e.run then e.speedHold.getD loop else 0
  let loopBlower := if e.run && decide (c.loopBlower < 100) then 100 else c.loopBlower
  let blower := if s.aside then 0 else e.blowerHold.getD loopBlower
  s.setCapacity
    { c with loopSpeed := loop, speedCommand := speed, speedFollows := follows, blowerCommand := blower }

/-- The compressor run output falls: the stop age becomes 0 (R156). -/
def State.runOff (s : State) : State :=
  if s.engine.run then
    (s.setEngine { s.engine with run := false }).setProtection { s.protection with stopAge := 0 }
  else s

/-- The compressor run output rises (R142, R146). -/
def State.runOn (s : State) : State := s.setEngine { s.engine with run := true }

/-- The valve output is driven to a position: a change makes the valve age 0 (R139, R156). -/
def State.driveValve (v : Valve) (s : State) : State :=
  if s.engine.valve = v then s
  else (s.setEngine { s.engine with valve := v }).setProtection { s.protection with valveAge := 0 }

/-- The valve action "mode group" (R139). -/
def State.driveModeValve (s : State) : State :=
  match s.modeSel.mode.valve with
  | some v => s.driveValve v
  | none => s

/-- The running procedure's last applied speed action: a value, or the loop (R139). -/
def State.holdSpeed (v : Option Nat) (s : State) : State :=
  s.setEngine { s.engine with speedHold := v }

/-- The running procedure's last applied blower action: a value, or the loop (R139). -/
def State.holdBlower (v : Option Nat) (s : State) : State :=
  s.setEngine { s.engine with blowerHold := v }

/-! ## Runs and LOCKOUT (R162 to R164) -/

/-- LOCKOUT begins (R110, R137, R164). -/
def State.beginLockout (s : State) : State :=
  let p := s.protection
  let e := s.engine
  let s1 := s.setProtection
    { p with lockout := some 1800, lockouts := if s.ready then p.lockouts + 1 else p.lockouts }
  let s2 := s1.setEngine
    { e with requests := { e.requests with start := false },
             refused := if e.requests.start then e.refused + 1 else e.refused }
  if s.sensors.systemSwitch = .off then s2.setModeSel { s.modeSel with offHold := true } else s2

/-- A record is short (R163). -/
def shortRun (cause : StopCause) (duration minRun : Nat) : Bool :=
  decide (cause ≠ .demand) && decide (cause ≠ .changeover) && decide (duration < minRun)

/-- A record joins the history; from a full one the oldest leaves first (R162). -/
def appendRecord (history : List RunRecord) (r : RunRecord) : List RunRecord :=
  (if 8 ≤ history.length then history.tail else history) ++ [r]

/-- The newest record of a history is short (R164). -/
def newestShort (history : List RunRecord) : Bool :=
  match history.getLast? with
  | some r => r.short
  | none => false

/-- The record of a run of this age closed with this cause (R162, R163). -/
def runRecord (cause : StopCause) (age minRun : Nat) : RunRecord :=
  { startAge := age, duration := age, cause := cause, short := shortRun cause age minRun }

/-- The open run, if any, is closed with a cause (R162 to R164). -/
def State.closeRun (cause : StopCause) (s : State) : State :=
  match s.protection.run with
  | none => s
  | some age =>
    let r := runRecord cause age s.pp.minRun
    let s1 := s.setProtection
      { s.protection with
        run := none, history := appendRecord s.protection.history r, doubling := r.short }
    if r.short && newestShort s.protection.history then s1.beginLockout else s1

/-- A run opens with age 0 (R162). -/
def State.openRun (s : State) : State := s.setProtection { s.protection with run := some 0 }

/-- The unit answers a request: it stops waiting, and a START grant takes a token (R157, R161). -/
def State.answer (g : GuardRequest) (s : State) : State :=
  let p := s.protection
  s.setProtection
    { p with waiting := none, budget := if g = .start then p.budget - 1 else p.budget }

/-- The engine withdraws its request, if one waits (R157). -/
def State.withdrawRequest (s : State) : State :=
  s.setProtection { s.protection with waiting := none }

/-! ## The Frost Estimator's hand-offs (R175, R176) -/

/-- The index D5's boundary settles (R175). -/
def Frost.settle (f : Frost) (d5 : D5End) : Frost :=
  { f with index := match d5 with
      | .exit => 0
      | .limit => 4000 }

/-- The end of a DEFROST, with its outcome and how D5 ended, if it did (R176). -/
def Frost.ended (f : Frost) (o : ProcOutcome) (d5 : Option D5End) : Frost :=
  match d5 with
  | none => f
  | some way =>
    let f1 := { f with interval := 0, timed := 0 }
    if o = .done then
      match way with
      | .exit => { f1 with first := false, normal := f1.normal + 1 }
      | .limit => { f1 with first := false, limited := f1.limited + 1 }
    else f1

/-! ## Steps (R139, R142 to R147) -/

/-- The first step of a procedure's chain. -/
def Proc.first (p : Proc) : StepId :=
  match p with
  | .emergency _ => .e1
  | .stop _ => .t1
  | .defrost => .d1
  | .changeover => .x1
  | .start => .s1

/-- A step's next link; the timeout links of D5 and D10 are the same (R142 to R147). -/
def StepId.next (st : StepId) : Option StepId :=
  match st with
  | .s1 => some .s2 | .s2 => some .s3 | .s3 => some .s4 | .s4 => none
  | .t1 => some .t2 | .t2 => some .t3 | .t3 => none
  | .x1 => some .x2 | .x2 => some .x3 | .x3 => some .s1
  | .d1 => some .d2 | .d2 => some .d3 | .d3 => some .d4 | .d4 => some .d5 | .d5 => some .d6
  | .d6 => some .d7 | .d7 => some .d8 | .d8 => some .d9 | .d9 => some .d10 | .d10 => none
  | .e1 => some .e2 | .e2 => none

/-- The steps whose record carries a mark. -/
def StepId.marked (st : StepId) : Bool :=
  match st with
  | .s3 | .t1 | .x1 | .d1 | .d10 | .e1 => true
  | .s1 | .s2 | .s4 | .t2 | .t3 | .x2 | .x3 | .d2 | .d3 | .d4 | .d5 | .d6 | .d7 | .d8 | .d9 | .e2 => false

/-- A step's delay in seconds (R146). -/
def StepId.delay (st : StepId) : Option Nat :=
  match st with
  | .d4 | .d9 => some 20
  | .s1 | .s2 | .s3 | .s4 | .t1 | .t2 | .t3 | .x1 | .x2 | .x3 | .d1 | .d2 | .d3 | .d5 | .d6 | .d7
  | .d8 | .d10 | .e1 | .e2 => none

/-- A step's time exit in seconds, as the mode stands when the step is taken (R142, R143, R146). -/
def StepId.exitTime (st : StepId) (m : Mode) : Option Nat :=
  match st with
  | .s1 | .d2 | .d7 => some 30
  | .s4 => some 60
  | .t2 => some (if m = .heat then 90 else 60)
  | .s2 | .s3 | .t1 | .t3 | .x1 | .x2 | .x3 | .d1 | .d3 | .d4 | .d5 | .d6 | .d8 | .d9 | .d10 | .e1
  | .e2 => none

/-- A step's time limit in seconds, as the first-defrost flag stands when the step is taken (R146, R177). -/
def StepId.timeLimit (st : StepId) (first : Bool) : Option Nat :=
  match st with
  | .d5 => some (if first then 840 else 600)
  | .d10 => some 120
  | .s1 | .s2 | .s3 | .s4 | .t1 | .t2 | .t3 | .x1 | .x2 | .x3 | .d1 | .d2 | .d3 | .d4 | .d6 | .d7
  | .d8 | .d9 | .e1 | .e2 => none

/-- The guard that applies to a step as it is taken (R142, R143, R145). -/
def State.guardOf (s : State) (st : StepId) : Option GuardRequest :=
  match st with
  | .s2 =>
    match s.modeSel.mode.valve with
    | some v => if v = s.engine.valve then none else some .valve
    | none => none
  | .s3 => some .start
  | .t1 =>
    if decide (s.engine.running = some (.stop .demand)) && s.protection.run.isSome then some .stop
    else none
  | .x1 => if s.protection.run.isSome then some .stop else none
  | .s1 | .s4 | .t2 | .t3 | .x2 | .x3 | .d1 | .d2 | .d3 | .d4 | .d5 | .d6 | .d7 | .d8 | .d9 | .d10
  | .e1 | .e2 => none

/-- The stop cause of a running STOP or EMERGENCY; DEMAND elsewhere, where no step reads it (R135). -/
def Engine.stopCause (e : Engine) : StopCause :=
  match e.running with
  | some (.stop r) => r.cause
  | some (.emergency c) => c.cause
  | some .defrost | some .changeover | some .start | none => .demand

/-- The hold an EMERGENCY brings in seconds (R135). -/
def EmergencyCause.hold (c : EmergencyCause) : Nat :=
  match c with
  | .static => 300
  | .inverter => 180

/-- The hold of the running EMERGENCY's request (R147). -/
def Engine.requestHold (e : Engine) : Nat :=
  match e.running with
  | some (.emergency c) => c.hold
  | some (.stop _) | some .defrost | some .changeover | some .start | none => 0

/-- A step's action, all parts at once (R142 to R147). -/
def State.act (st : StepId) (s : State) : State :=
  match st with
  | .s1 => s.holdBlower none
  | .s2 => s.driveModeValve
  | .s3 => (s.runOn.openRun).holdSpeed (some s.pp.cmin)
  | .s4 => s.holdSpeed (some s.pp.cmin)
  | .t1 => (s.runOff.closeRun s.engine.stopCause).holdSpeed (some 0)
  | .t2 => s.holdBlower (some s.pp.fanAirflow)
  | .t3 => s.holdBlower none
  | .x1 => (s.runOff.closeRun .changeover).holdSpeed (some 0)
  | .x2 => s.holdBlower (some s.pp.fanAirflow)
  | .x3 => s.driveModeValve
  | .d1 => (s.runOff.holdSpeed (some 0)).holdBlower (some 0)
  | .d2 => s
  | .d3 => s.driveValve .cooling
  | .d4 => s.runOn.holdSpeed (some 700)
  | .d5 => s
  | .d6 => s.runOff.holdSpeed (some 0)
  | .d7 => s
  | .d8 => s.driveValve .heating
  | .d9 => s.runOn.holdSpeed (some s.pp.cmin)
  | .d10 => s.holdBlower (some 0)
  | .e1 =>
    let s1 := ((s.runOff.closeRun s.engine.stopCause).holdSpeed (some 0)).holdBlower (some 0)
    s1.setEngine { s1.engine with emergencyHold := s.engine.requestHold }
  | .e2 => s

/-- A sensor exit holds: D5 on the outdoor coil, D10 on the indoor coil, each valid (R140, R146). -/
def State.sensorExit (s : State) (st : StepId) : Bool :=
  match st with
  | .d5 => s.sensors.outdoorCoil.valid && decide (1200 ≤ s.sensors.outdoorCoil.value)
  | .d10 => s.sensors.indoorCoil.valid && decide (3000 ≤ s.sensors.indoorCoil.value)
  | .s1 | .s2 | .s3 | .s4 | .t1 | .t2 | .t3 | .x1 | .x2 | .x3 | .d1 | .d2 | .d3 | .d4 | .d6 | .d7
  | .d8 | .d9 | .e1 | .e2 => false

/-- The exit condition of a step, examined as its action is applied, X2's report apart (R140). -/
def State.exitHolds (s : State) (st : StepId) : Bool :=
  match st with
  | .s2 | .s3 | .t1 | .t3 | .x1 | .x3 | .d1 | .d3 | .d4 | .d6 | .d8 | .d9 | .e1 => true
  | .d5 | .d10 => s.sensorExit st
  | .e2 => s.engine.emergencyHold = 0
  | .s1 | .s4 | .t2 | .x2 | .d2 | .d7 => false

/-! ## Starting and ending procedures (R138, R148, R151) -/

/-- The pending request of highest priority (R135, R138). -/
def Requests.top (r : Requests) : Option Proc :=
  match r.stop with
  | some reason => some (.stop reason)
  | none =>
    if r.defrost then some .defrost
    else if r.changeover then some .changeover
    else if r.start then some .start
    else none

/-- The pending set without its request of a kind (R138). -/
def Requests.without (r : Requests) (p : Proc) : Requests :=
  match p with
  | .stop _ => { r with stop := none }
  | .defrost => { r with defrost := false }
  | .changeover => { r with changeover := false }
  | .start => { r with start := false }
  | .emergency _ => r

/-- The pending set with nothing in it. -/
def Requests.empty : Requests := { stop := none, defrost := false, changeover := false, start := false }

/-- A pending request is of higher priority than the running procedure (R141, R148). -/
def Engine.outranked (e : Engine) : Bool :=
  match e.requests.top, e.running with
  | some q, some p => p.priority < q.priority
  | _, _ => false

/-- A request still makes sense as the engine comes to start it (R138). -/
def State.sensible (s : State) (p : Proc) : Bool :=
  match p with
  | .start => !s.engine.run
  | .defrost => decide (s.modeSel.mode = .heat) && s.engine.run && decide (s.engine.valve = .heating)
  | .emergency _ | .stop _ | .changeover => true

/-- An outcome's counter moves (R151). -/
def Engine.count (e : Engine) (o : ProcOutcome) : Engine :=
  match o with
  | .done => { e with done := e.done + 1 }
  | .preempted => { e with preempted := e.preempted + 1 }
  | .aborted => { e with aborted := e.aborted + 1 }
  | .withdrawn => { e with withdrawn := e.withdrawn + 1 }
  | .none | .inProgress => e

/-- The status record at a procedure's end: DONE keeps the step written at the boundary, the other outcomes
write the step at which the procedure stood (R141, R148 to R151). -/
def Engine.endStatus (e : Engine) (o : ProcOutcome) : Status :=
  { e.status with
    proc := e.running, outcome := o, step := if o = .done then e.status.step else e.step }

/-- The running procedure ends with an outcome: the status record and its counter, the Frost Estimator's
hand-off, and the outputs, which follow the loop (R118, R123, R148 to R151, R176). -/
def State.endProc (o : ProcOutcome) (s : State) : State :=
  let s1 := if s.engine.defrosting then s.setFrost (s.frost.ended o s.engine.d5) else s
  let s2 := s1.withdrawRequest
  let s3 := s2.setEngine
    { s2.engine.count o with
      state := .idle, running := none, step := none, delaying := false, stepTime := 0,
      exitTime := none, timeLimit := none, emergencyHold := 0, speedHold := none,
      blowerHold := none, d5 := none, status := s2.engine.endStatus o }
  s3.driveOutputs

/-- A procedure becomes the running one, and the status record takes it (R138). -/
def State.startProc (p : Proc) (s : State) : State :=
  s.setEngine
    { s.engine with
      state := .running, running := some p
      status := { s.engine.status with proc := some p, outcome := .inProgress, limited := false } }

/-! ## What the engine does inside one event (R138, R140, R141) -/

/-- A START that reaches S3 is withdrawn there, on the C of the last hand-off (R150). -/
def State.withdrawnAtS3 (s : State) (st : StepId) : Bool :=
  decide (s.engine.running = some .start) && decide (st = .s3) &&
    (decide (s.capacity.c < s.pp.stopThreshold) || decide (s.modeSel.mode.group = .none))

/-- A step becomes the current step (R140, R143, R177). -/
def State.current (st : StepId) (s : State) : State :=
  s.setEngine
    { s.engine with
      state := .running, step := some st, delaying := st.delay.isSome, stepTime := 0,
      exitTime := st.exitTime s.modeSel.mode, timeLimit := st.timeLimit s.frost.first }

/-- A step is taken: its guard is asked, its delay begins, or its action follows (R140, R148, R150). -/
def State.takeStep (st : StepId) (s : State) : Todo × State :=
  let s1 := s.current st
  if s1.withdrawnAtS3 st then (.startNext, s1.endProc .withdrawn)
  else
    match s1.guardOf st with
    | some g =>
      let s2 := (s1.setEngine { s1.engine with state := .waiting }).setProtection
        { s1.protection with waiting := some g }
      if s2.engine.outranked then (.startNext, s2.endProc .preempted)
      else if s2.permitted g then (.apply, s2.answer g)
      else (.rest, s2)
    | none => if s1.engine.delaying then (.rest, s1) else (.apply, s1)

/-- A mark: its counter and its prompt (R140). -/
def State.mark (st : StepId) (s : State) : State :=
  if st.marked then (s.setEngine { s.engine with marks := s.engine.marks + 1 }).prompt else s

/-- X2's action done, its report is asked for (R145, R157). -/
def State.askSpacing (s : State) : Todo × State :=
  if s.permitted .spacing then (.boundary false, s)
  else (.rest, s.setProtection { s.protection with waiting := some .spacing })

/-- The current step's action is applied and its exit examined (R140). -/
def State.applyStep (s : State) : Todo × State :=
  match s.engine.step with
  | none => (.rest, s)
  | some st =>
    let s1 := s.setEngine { s.engine with state := .running, delaying := false, stepTime := 0 }
    let s2 := ((s1.act st).driveOutputs).mark st
    if st = .x2 then s2.askSpacing
    else if s2.exitHolds st then (.boundary false, s2)
    else (.rest, s2)

/-- What a boundary writes: the status record, the steps-loaded counter, and D5's hand-off (R141, R175). -/
def State.writeBoundary (st : StepId) (limited : Bool) (s : State) : State :=
  let e := s.engine
  let s1 := s.setEngine
    { e with
      status := { e.status with proc := e.running, step := some st, limited := e.status.limited || limited }
      stepsLoaded := e.stepsLoaded + 1 }
  if st = .d5 then
    let way : D5End := if limited then .limit else .exit
    (s1.setFrost (s1.frost.settle way)).setEngine { s1.engine with d5 := some way }
  else s1

/-- The current step reaches its boundary, by its time limit or not (R141). -/
def State.boundary (limited : Bool) (s : State) : Todo × State :=
  match s.engine.step with
  | none => (.rest, s)
  | some st =>
    let s1 := s.writeBoundary st limited
    match st.next with
    | none => (.startNext, s1.endProc .done)
    | some n =>
      if s1.engine.outranked then (.startNext, s1.endProc .preempted) else (.take n, s1)

/-- A procedure starts from the pending set, or a request that no longer makes sense is dropped (R138). -/
def State.startNext (s : State) : Todo × State :=
  match s.engine.requests.top with
  | none => (.rest, s)
  | some p =>
    let s1 := s.setEngine { s.engine with requests := s.engine.requests.without p }
    if s1.sensible p then (.take p.first, s1.startProc p) else (.startNext, s1)

/-- One of the engine's moves inside an event. -/
def State.move (t : Todo) (s : State) : Todo × State :=
  match t with
  | .take st => s.takeStep st
  | .apply => s.applyStep
  | .boundary limited => s.boundary limited
  | .startNext => s.startNext
  | .rest => (.rest, s)

/-- The engine's moves until it rests. Every chain has a step that waits or takes time after at most four
others, and every start empties a place of the pending set, so 64 moves are enough (notes/assumptions/20.md). -/
def State.drive : Nat → Todo → State → State
  | 0, _, s => s
  | n + 1, t, s =>
    match t with
    | .rest => s
    | .take _ | .apply | .boundary _ | .startNext => State.drive n (s.move t).1 (s.move t).2

/-- The engine carries a move through to rest. -/
def State.run (t : Todo) (s : State) : State := s.drive 64 t

/-! ## Taking requests (R136, R137, R144, R147) -/

/-- The running procedure is preempted and the next one starts (R148). -/
def State.preempt (s : State) : State := (s.endProc .preempted).run .startNext

/-- The pending set has taken a request of this priority: an IDLE engine starts it, and a WAITING one is
preempted by a higher priority (R136, R148). -/
def State.entered (p : Proc) (s : State) : State :=
  match s.engine.state, s.engine.running with
  | .idle, _ => s.run .startNext
  | .waiting, some q => if q.priority < p.priority then s.preempt else s
  | .waiting, none | .running, _ => s

/-- An EMERGENCY starts at once; a running procedure is aborted first (R136, R149). -/
def State.startEmergency (c : EmergencyCause) (s : State) : State :=
  let s1 := if s.engine.running.isSome then s.endProc .aborted else s
  (s1.startProc (.emergency c)).run (.take .e1)

/-- An EMERGENCY merges into a running one: the greater hold stands, with its cause (R147). -/
def State.mergeEmergency (c : EmergencyCause) (s : State) : State :=
  if s.engine.emergencyHold < c.hold then
    s.setEngine
      { s.engine with
        emergencyHold := c.hold, running := some (.emergency c)
        status := { s.engine.status with proc := some (.emergency c) } }
  else s

/-- A protective STOP waives the guard of an ordinary STOP waiting at T1 (R144). -/
def State.mergeStop (r : StopReason) (s : State) : State :=
  if decide (s.engine.running = some (.stop .demand)) && decide (s.engine.state = .waiting) &&
      decide (s.engine.step = some .t1) && decide (r ≠ .demand) then
    ((s.setEngine { s.engine with running := some (.stop r) }).withdrawRequest).run .apply
  else s

/-- A STOP merged with a pending one: protective if either is, with the newer cause when both are (R136). -/
def mergeReason (old new : StopReason) : StopReason := if new = .demand then old else new

/-- A STOP is running (R136). -/
def Engine.stopping (e : Engine) : Bool :=
  match e.running with
  | some (.stop _) => true
  | some (.emergency _) | some .defrost | some .changeover | some .start | none => false

/-- An EMERGENCY is running (R136, R152). -/
def Engine.inEmergency (e : Engine) : Bool :=
  match e.running with
  | some (.emergency _) => true
  | some (.stop _) | some .defrost | some .changeover | some .start | none => false

/-- The pending set is replaced. -/
def State.setRequests (r : Requests) (s : State) : State := s.setEngine { s.engine with requests := r }

/-- A STOP reaches the engine (R136, R137, R144). -/
def State.takeStop (r : StopReason) (s : State) : State :=
  let q := s.engine.requests
  if s.engine.stopping then s.mergeStop r
  else
    match q.stop with
    | some old => s.setRequests { q with stop := some (mergeReason old r) }
    | none => (s.setRequests { q with stop := some r, start := false }).entered (.stop r)

/-- A DEFROST reaches the engine (R136). -/
def State.takeDefrost (s : State) : State :=
  let q := s.engine.requests
  if s.engine.defrosting || !s.sensible .defrost || q.defrost then s
  else (s.setRequests { q with defrost := true }).entered .defrost

/-- A CHANGEOVER reaches the engine (R136, R137). -/
def State.takeChangeover (s : State) : State :=
  let q := s.engine.requests
  if decide (s.engine.running = some .changeover) || q.changeover then s
  else (s.setRequests { q with changeover := true, start := false }).entered .changeover

/-- A START reaches the engine (R136, R137). -/
def State.takeStart (s : State) : State :=
  let q := s.engine.requests
  if s.protection.lockout.isSome then s.setEngine { s.engine with refused := s.engine.refused + 1 }
  else if decide (s.engine.running = some .start) || q.start then s
  else (s.setRequests { q with start := true, stop := none }).entered .start

/-- A procedure request reaches the engine (R134, R136). -/
def State.request (p : Proc) (s : State) : State :=
  if decide (s.engine.listening = .expired) && !s.aside then
    match p with
    | .emergency c => if s.engine.inEmergency then s.mergeEmergency c else s.startEmergency c
    | .stop r => s.takeStop r
    | .defrost => s.takeDefrost
    | .changeover => s.takeChangeover
    | .start => s.takeStart
  else s

/-! ## Withdrawal at the hand-off of C (R150) -/

/-- The valve does not stand in the position of a conditioning mode's group while the compressor runs, as
after a DEFROST preempted at D4 or D5 (R150). -/
def State.wrongWay (s : State) : Bool :=
  match s.modeSel.mode.valve with
  | some v => s.engine.run && decide (s.engine.valve ≠ v)
  | none => false

/-- The withdrawal test of the hand-off (R150). -/
def State.withdrawsNow (s : State) : Bool :=
  decide (s.engine.state = .waiting) &&
    ((decide (s.engine.running = some (.stop .demand)) && decide (s.engine.step = some .t1) &&
        decide (s.pp.startThreshold ≤ s.capacity.c) && !s.wrongWay) ||
      s.withdrawnAtS3 .s3 && decide (s.engine.step = some .s3))

/-- The engine takes the hand-off of C (R114, R150). -/
def State.handOffC (s : State) : State :=
  if s.withdrawsNow then (s.endProc .withdrawn).run .startNext else s

/-! ## Standing aside (R17, R35, R153) -/

/-- The equipment drops, the open run is closed with cause STANDBY, the running procedure is aborted and the
pending set emptied (R35 steps 1 and 2, R153, R162). -/
def State.dropPlant (s : State) : State :=
  let s1 := ((s.runOff.driveValve (deEnergised s.loader.straps.energised)).closeRun .standby)
  let s2 := if s1.engine.running.isSome then s1.endProc .aborted else s1
  (s2.withdrawRequest.setRequests .empty).driveOutputs

/-- Entry into STANDBY, at most once (R34, R35). -/
def State.enterStandby (s : State) : State :=
  if s.engine.standby then s
  else (s.setEngine { s.engine with standby := true }).dropPlant

end Sys2Proof.Machine
end

