-- ==== Sys2Proof/Machine/Control.lean ====
section
/-! DEFINITION. The plant control timer: the Mode Selector's stages (chapter 6) and the Capacity Controller's
period that its hand-off begins (chapter 7). -/

namespace Sys2Proof.Machine

/-! ## Weighing the calls (R98, R99) -/

/-- Σ weight × demand over the entries with a call (R98). -/
def callWeight (c : Call) (demand : ZoneRecord → Nat) (l : List (Freshness × ZoneRecord)) : Nat :=
  ((l.filter fun e => e.2.call = c).map fun e => e.2.weight * demand e.2).sum

/-- The system switch admits the cooling group's weights (R99). -/
def SystemSwitch.admitsCooling (x : SystemSwitch) : Bool :=
  match x with
  | .cool | .auto => true
  | .off | .fan | .heat => false

/-- The system switch admits the heating group's weight (R99). -/
def SystemSwitch.admitsHeating (x : SystemSwitch) : Bool :=
  match x with
  | .heat | .auto => true
  | .off | .fan | .cool => false

/-- Stage 2: the admitted weights (R98, R99). -/
def State.weigh (s : State) : State :=
  let l := s.zoneEntries
  let sw := s.sensors.systemSwitch
  s.setModeSel
    { s.modeSel with
      wc := if sw.admitsCooling then callWeight .cool ZoneRecord.ds l else 0
      wh := if sw.admitsHeating then callWeight .heat ZoneRecord.ds l else 0
      wd := if sw.admitsCooling then callWeight .dry ZoneRecord.dl l else 0 }

/-! ## Ages, timers and the decision (R100 to R108) -/

/-- The admitted weight of a group (R98). -/
def ModeSelector.groupWeight (m : ModeSelector) (g : Group) : Nat :=
  match g with
  | .none => 0
  | .cooling => m.wc + m.wd
  | .heating => m.wh

/-- Stage 3: the ages and the cross-group timers advance (R100, R105). -/
def ModeSelector.advance (m : ModeSelector) (sw : SystemSwitch) : ModeSelector :=
  let g := m.mode.group
  let current := m.groupWeight g
  let other := m.groupWeight g.other
  let counts := decide (sw = .auto) && decide (g ≠ .none) && decide (0 < other)
  { m with
    shiftAge := ageUp m.shiftAge 10
    modeAge := if g = .none then m.modeAge else ageUp m.modeAge 10
    quiet := if counts && decide (current = 0) then ageUp m.quiet 10 else 0
    dominance := if counts && decide (2 * current ≤ other) then ageUp m.dominance 10 else 0 }

/-- The mode of the cooling group by its weights (R103). -/
def ModeSelector.coolingMode (m : ModeSelector) : Mode :=
  if 0 < m.wd ∧ m.wc ≤ m.wd then .dry else .cool

/-- The mode a group is taken with (R102, R103). -/
def ModeSelector.modeOf (m : ModeSelector) (g : Group) : Mode :=
  match g with
  | .cooling => m.coolingMode
  | .heating => .heat
  | .none => m.mode

/-- The group the Mode Selector would take at this expiry, if any (R106, R107, R108). -/
def ModeSelector.wants (m : ModeSelector) (sw : SystemSwitch) : Option Group :=
  match sw, m.mode.group with
  | .off, _ | .fan, _ => none
  | .cool, .cooling => none
  | .cool, _ => some .cooling
  | .heat, .heating => none
  | .heat, _ => some .heating
  | .auto, .none => some (if m.groupWeight .cooling < m.groupWeight .heating then .heating else .cooling)
  | .auto, g =>
    if 300 ≤ m.quiet ∨ (600 ≤ m.dominance ∧ 1200 ≤ m.modeAge) then some g.other else none

/-- A group is taken: its mode, and the mode age and both timers from 0 (R102). -/
def ModeSelector.takeGroup (m : ModeSelector) (g : Group) : ModeSelector :=
  { m with mode := m.modeOf g, modeAge := 0, quiet := 0, dominance := 0 }

/-- The mode becomes OFF or FAN (R101). -/
def ModeSelector.leave (m : ModeSelector) (mode : Mode) : ModeSelector :=
  { m with mode := mode, modeAge := 0, quiet := 0, dominance := 0 }

/-- The shift inside the cooling group (R104). -/
def ModeSelector.shift (m : ModeSelector) : ModeSelector :=
  if m.mode.group = .cooling ∧ m.coolingMode ≠ m.mode ∧ 120 ≤ m.shiftAge then
    { m with mode := m.coolingMode, shiftAge := 0 }
  else m

/-- Stage 4: at most one change of mode; taking a group waits for an IDLE engine, and a deferred change leaves
the mode as it is (R101 to R108). -/
def ModeSelector.decide (m : ModeSelector) (sw : SystemSwitch) (idle : Bool) : ModeSelector :=
  match sw with
  | .off => m.leave .off
  | .fan => m.leave .fan
  | .cool | .heat | .auto =>
    match m.wants sw with
    | some g => if idle then m.takeGroup g else m
    | none => m.shift

/-- The group taken at this expiry, if one was (R102). -/
def ModeSelector.taken (m : ModeSelector) (sw : SystemSwitch) (idle : Bool) : Option Group :=
  if idle then m.wants sw else none

/-- Stages 2 to 4 (R97). -/
def State.selectMode (s : State) : State :=
  let s1 := s.weigh
  let m := s1.modeSel.advance s.sensors.systemSwitch
  s1.setModeSel (m.decide s.sensors.systemSwitch (s.engine.state = .idle))

/-- The group taken by this expiry, from the state it began in (R102). -/
def State.groupTaken (s : State) : Option Group :=
  let m := s.weigh.modeSel.advance s.sensors.systemSwitch
  m.taken s.sensors.systemSwitch (s.engine.state = .idle)

/-- Stage 5: the requests of the mode (R101, R102). -/
def State.requestForMode (taken : Option Group) (s : State) : State :=
  match taken with
  | some g =>
    if s.engine.run then
      if 0 < s.modeSel.groupWeight g then s.request .changeover else s.request (.stop .demand)
    else s
  | none =>
    if decide (s.modeSel.mode.group = .none) && (s.engine.run || s.engine.startsOrDefrosts) then
      s.request (.stop .demand)
    else s

/-- The Mode Selector's part of an expiry, with the prompt of a new mode (R11, R97, R109). -/
def State.modeExpiry (s : State) : State :=
  let s1 := s.selectMode
  let s2 := if s1.modeSel.mode ≠ s.modeSel.mode then s1.prompt else s1
  s2.requestForMode s.groupTaken

/-! ## The capacity request and the caps (R115, R116) -/

/-- Σw over the present zone entries (R115). -/
def State.totalWeight (s : State) : Nat := (s.zoneEntries.map fun e => e.2.weight).sum

/-- The capacity request C (R115). -/
def State.capacityRequest (s : State) : Nat :=
  let w := s.totalWeight
  if w = 0 then 0
  else
    match s.modeSel.mode with
    | .cool => (nearest s.modeSel.wc w).toNat
    | .heat => (nearest s.modeSel.wh w).toNat
    | .dry => min 600 (nearest s.modeSel.wd w).toNat
    | .off | .fan => 0

/-- Stage 2: C is formed and handed to the engine (R114, R115, R150). -/
def State.formC (s : State) : State :=
  (s.setCapacity { s.capacity with c := s.capacityRequest }).handOffC

/-- The freeze cap after a period (R116). -/
def State.nextFreezeCap (s : State) : Nat :=
  let cap := s.capacity.freezeCap
  let coil := s.sensors.indoorCoil
  if s.modeSel.mode.group = .cooling then
    if coil.valid then
      if coil.value < 100 then max s.pp.cmin (cap - 100)
      else if 400 ≤ coil.value then min 1000 (cap + 50)
      else cap
    else cap
  else 1000

/-- The supply cap after a period (R116). -/
def State.nextSupplyCap (s : State) : Nat :=
  let cap := s.capacity.supplyCap
  let air := s.sensors.supplyAir
  if s.modeSel.mode = .heat then
    if air.valid then
      if 5500 ≤ air.value then max s.pp.cmin (cap - 50)
      else if air.value < 5000 then min 1000 (cap + 50)
      else cap
    else cap
  else 1000

/-- Stage 3: the stepping caps (R116). -/
def State.adjustCaps (s : State) : State :=
  s.setCapacity { s.capacity with freezeCap := s.nextFreezeCap, supplyCap := s.nextSupplyCap }

/-! ## Airflow (R120, R121) -/

/-- The running airflow Ar; 0 in OFF and FAN (R120). -/
def runningAirflow (m : Mode) (c : Nat) : Nat :=
  let x := max 400 (300 + c * 7 / 10)
  match m with
  | .cool | .heat => x
  | .dry => max 300 (upDiv (x * 55) 100)
  | .off | .fan => 0

/-- What one entry adds to Fmax (R121). -/
def fmaxTerm (e : Freshness × ZoneRecord) : Nat :=
  if countedTier e = 0 then
    match e.2.base with
    | .unknown => 0
    | .percent p => e.2.weight * (p + e.2.relief)
  else e.2.weight * 100

/-- Fmax (R121). -/
def fmaxOf (l : List (Freshness × ZoneRecord)) : Nat := (l.map fmaxTerm).sum

/-- The needed opening for an airflow (R121). -/
def needed (airflow weight : Nat) : Nat := upDiv (airflow * weight) 10

/-- The airflow that can be carried out of one that is wanted (R121). -/
def carried (airflow weight fmax : Nat) : Nat :=
  if weight = 0 then 0
  else if needed airflow weight ≤ fmax then airflow
  else fmax * 10 / weight

/-- The opening published for an airflow (R121). -/
def published (airflow weight fmax : Nat) : Nat :=
  if weight = 0 then 0 else min (needed airflow weight) fmax

/-- AIRFLOW_LIMITED for an airflow (R121). -/
def limitsAirflow (airflow weight fmax : Nat) : Bool :=
  if weight = 0 then 0 < airflow else fmax < needed airflow weight

/-- Stage 4: Fmax and the effective running airflow (R120, R121). -/
def State.formRunning (s : State) : State :=
  let w := s.totalWeight
  let fmax := if w = 0 then 0 else fmaxOf s.zoneEntries
  s.setCapacity
    { s.capacity with
      fmax := fmax
      effectiveRunning := carried (runningAirflow s.modeSel.mode s.capacity.c) w fmax }

/-! ## Starting and stopping (R124, R125) -/

/-- The conditions under which the start count increases (R124). -/
def State.startCounts (s : State) : Bool :=
  decide (s.pp.startThreshold ≤ s.capacity.c) && decide (s.modeSel.mode.group ≠ .none) &&
    decide (300 ≤ s.capacity.effectiveRunning) && !s.sensors.inverter.asserted && s.floatPermits

/-- Stage 5, first part: the two counts (R124, R125). -/
def State.formCounts (s : State) : State :=
  s.setCapacity
    { s.capacity with
      startCount := if s.startCounts then min 2 (s.capacity.startCount + 1) else 0
      stopCount :=
        if s.capacity.c < s.pp.stopThreshold then min 3 (s.capacity.stopCount + 1) else 0 }

/-- Stage 5, second part: START is raised (R124). -/
def State.raiseStart (s : State) : State :=
  if decide (s.capacity.startCount = 2) && !s.engine.run && !s.engine.startsOrDefrosts then
    s.request .start
  else s

/-- Stage 5, third part: an ordinary STOP is raised (R125). -/
def State.raiseStop (s : State) : State :=
  if decide (s.capacity.stopCount = 3) && (s.engine.run || s.engine.startsOrDefrosts) then
    s.request (.stop .demand)
  else s

/-! ## Required airflow and blower (R120 to R123) -/

/-- The plant is conditioning (R120). -/
def State.conditioning (s : State) : Bool :=
  s.engine.run || s.engine.startsOrDefrosts || s.engine.requests.start || s.engine.requests.changeover

/-- The required airflow A (R120). -/
def State.requiredAirflow (s : State) : Nat :=
  match s.modeSel.mode with
  | .cool | .dry | .heat =>
    if s.conditioning then runningAirflow s.modeSel.mode s.capacity.c
    else if s.sensors.continuousFan then s.pp.fanAirflow else 0
  | .fan => s.pp.fanAirflow
  | .off => if s.conditioning then s.pp.fanAirflow else 0

/-- A new published opening calls for a prompt (R11). -/
def openingPrompts (last : Option Nat) (f : Nat) : Bool :=
  match last with
  | none => false
  | some l => decide (f ≠ l) && decide (l ≤ 20 * ((f - l) + (l - f)))

/-- Stage 6: A, F, the effective airflow and AIRFLOW_LIMITED, with F's prompt (R11, R120, R121). -/
def State.formAirflow (s : State) : State :=
  let a := s.requiredAirflow
  let w := s.totalWeight
  let f := published a w s.capacity.fmax
  let s1 := s.setCapacity
    { s.capacity with
      airflow := a, f := f, effective := carried a w s.capacity.fmax
      airflowLimited := limitsAirflow a w s.capacity.fmax }
  if decide (f ≠ s.capacity.f) && openingPrompts s.line.lastF f then s1.prompt else s1

/-- The blower limit after a period (R122). -/
def State.nextBlowerLimit (s : State) : Nat :=
  let p := s.sensors.staticPressure
  let limit := s.capacity.blowerLimit
  if p.valid then
    if (s.pp.pmax : Int) < p.value then limit - 50
    else if p.value < (s.pp.pmax : Int) - 30 then min 1000 (limit + 20)
    else limit
  else 800

/-- PRESSURE_LIMITING after a period (R122). -/
def State.nextPressureLimiting (s : State) : Bool :=
  let p := s.sensors.staticPressure
  let before := s.capacity.pressureLimiting || decide ((s.pp.pmax : Int) < p.value)
  p.valid && before && decide (s.nextBlowerLimit ≠ 1000)

/-- Stage 7: the blower limit, the loop blower value and the blower command (R122, R123). -/
def State.formBlower (s : State) : State :=
  let limit := s.nextBlowerLimit
  (s.setCapacity
    { s.capacity with
      blowerLimit := limit, pressureLimiting := s.nextPressureLimiting
      loopBlower := min s.capacity.effective limit }).driveOutputs

/-! ## The speed ramp (R117 to R119) -/

/-- The cap in force (R117). -/
def State.capInForce (s : State) : Nat :=
  let coilCap := if s.sensors.indoorCoil.valid then s.capacity.freezeCap else 600
  match s.modeSel.mode with
  | .cool => min 1000 coilCap
  | .dry => min 1000 (min coilCap 600)
  | .heat => min 1000 (if s.sensors.supplyAir.valid then s.capacity.supplyCap else 800)
  | .off | .fan => 1000

/-- The speed target (R117). -/
def State.speedTarget (s : State) : Nat :=
  clampNat s.pp.cmin s.capInForce (max s.capacity.c s.pp.cmin)

/-- The upward rate (R119). -/
def State.upwardRate (s : State) : Nat :=
  if s.zoneEntries.any fun e => e.2.flags.demandSaturated then 80 else 40

/-- One ramp step from a speed toward a target (R119). -/
def rampStep (speed target rate : Nat) : Nat :=
  if speed ≤ target then min target (speed + rate) else max target (speed - 100)

/-- Stage 8: one ramp step while the command follows the loop; otherwise the loop takes the command (R119). -/
def State.formSpeed (s : State) : State :=
  if s.capacity.speedFollows then
    let speed := rampStep s.capacity.loopSpeed s.speedTarget s.upwardRate
    s.setCapacity { s.capacity with loopSpeed := speed, speedCommand := speed }
  else s.setCapacity { s.capacity with loopSpeed := s.capacity.speedCommand }

/-- The Capacity Controller's period (R114). -/
def State.capacityPeriod (s : State) : State :=
  s.formC.adjustCaps.formRunning.formCounts.raiseStart.raiseStop.formAirflow.formBlower.formSpeed

/-- PLANT_CONTROL_TIMER (R97, R112, R114). -/
def execPlantControlTimer (s : State) : Host.Outcome State Fault Refusal :=
  if s.plantReady && !s.aside then advance s.modeExpiry.capacityPeriod.settlePlant else advance s

/-- OFF_HOLD_TIMER (R111, R112, R165). -/
def execOffHoldTimer (s : State) : Host.Outcome State Fault Refusal :=
  if s.plantReady && s.modeSel.offHold && !s.aside then
    let s1 := s.setModeSel { s.modeSel with offHold := false }
    advance ((s1.setProtection { s1.protection with lockout := none }).noteLockoutEnd
      s.protection.lockout).settlePlant
  else advance s

end Sys2Proof.Machine
end

