-- ==== Sys2Proof/Machine/Reports.lean ====
section
/-! DEFINITION. What a station sends: the sample of an attempt and the two SUMMARY pages (R14, R192 to R194). -/

namespace Sys2Proof.Machine

/-- The load result octet (section 12.4). -/
def Loader.resultOctet (l : Loader) : Byte :=
  octet (l.result.code + flagBit l.defaulted 6 + flagBit l.clamped 7)

/-- The damper position in steps, 65 535 for unknown (R193). -/
def Damper.positionField (d : Damper) : Nat := d.position.getD 65535

/-- Page 0 of a zone station's SUMMARY (R193). -/
def State.zoneSummary0 (s : State) : List Byte :=
  [octet 0] ++ putCounter s.line.good ++ putCounter s.line.crcDiscards ++ putCounter s.line.malformed ++
    putCounter s.line.collisions ++ putCounter s.line.dropped ++ putCounter s.peers.lateEvents ++
    putCounter s.peers.peersLost ++ [octet s.line.tokens]

/-- Page 1 of a zone station's SUMMARY (R193). -/
def State.zoneSummary1 (s : State) : List Byte :=
  [octet 1] ++ putCounter s.line.conflicts ++ putCounter s.damper.rehomes ++
    putCounter s.sensors.faultEntries ++
    [octet (s.sensors.roomTemp.state.code + 4 * s.sensors.roomRh.state.code + 16 * s.sensors.link.code),
      octet (s.damper.state.code + flagBit s.demand.errorClamped 7), s.loader.resultOctet,
      octet (s.peers.followed.getD 0)] ++
    put16 s.damper.positionField ++ put24 s.demand.integral.toNat

/-- Page 0 of a plant station's SUMMARY (R194). -/
def State.plantSummary0 (s : State) : List Byte :=
  [octet 0] ++ putCounter s.line.good ++ putCounter s.line.crcDiscards ++ putCounter s.line.malformed ++
    putCounter s.line.collisions ++ putCounter s.line.dropped ++ putCounter s.peers.lateEvents ++
    putCounter s.peers.peersLost ++ putCounter s.line.conflicts ++
    [octet s.line.tokens, s.loader.resultOctet,
      octet (s.sensors.supplyAir.state.code + 4 * s.sensors.indoorCoil.state.code +
        16 * s.sensors.outdoorAir.state.code + 64 * s.sensors.outdoorCoil.state.code),
      octet (s.sensors.staticPressure.state.code + 4 * s.sensors.link.code +
        flagBit s.sensors.inverter.asserted 4 + flagBit s.sensors.condensate.asserted 5)] ++
    put16 s.frost.index ++ putCounter s.frost.normal ++ putCounter s.frost.limited ++
    putCounter s.protection.lockouts ++ [octet s.protection.budget]

/-- The newest run record's octets of page 1; zeros for an empty history (R194, section 12.4). -/
def newestOctets (history : List RunRecord) : List Byte :=
  match history.getLast? with
  | some r =>
    put16 r.startAge ++ put16 r.duration ++ [octet (r.cause.code + flagBit r.short 7)]
  | none => [0, 0, 0, 0, 0]

/-- Page 1 of a plant station's SUMMARY (R194). -/
def State.plantSummary1 (s : State) : List Byte :=
  let e := s.engine
  [octet 1] ++ putCounter e.stepsLoaded ++ putCounter e.marks ++ putCounter e.done ++
    putCounter e.preempted ++ putCounter e.aborted ++ putCounter e.withdrawn ++ putCounter e.refused ++
    [octet (procCode e.status.proc), octet (procCauseCode e.status.proc),
      octet (stepCode e.status.step), octet (e.status.outcome.code + flagBit e.status.limited 7),
      octet e.state.code] ++
    put16 e.emergencyHold ++ put16 (s.protection.lockout.getD 0) ++
    [octet (s.protection.history.length + flagBit s.protection.doubling 7)] ++
    newestOctets s.protection.history

/-- The SUMMARY payload of the page the index names (R192). -/
def State.summaryPayload (s : State) : List Byte :=
  match s.loader.straps.role, s.line.pageOne with
  | .zone, false => s.zoneSummary0
  | .zone, true => s.zoneSummary1
  | .plant, false => s.plantSummary0
  | .plant, true => s.plantSummary1

/-- The frame of a kind's attempt, from the station's contents as they stand (R3, R14). -/
def State.sampleFrame (s : State) (k : ReportKind) : List Byte :=
  match k, s.loader.straps.role with
  | .main, .zone => buildFrame zoneKind s.address (encodeZone s.loader.tag s.ownZone)
  | .main, .plant => buildFrame plantKind s.address (encodePlant s.loader.tag s.ownPlant)
  | .summary, _ => buildFrame summaryKind s.address s.summaryPayload

/-- The attempt of a kind as it begins (R10, R11, R13, R14). -/
def State.sampleAttempt (s : State) (k : ReportKind) : Attempt :=
  { kind := k, gap := s.line.gap, frame := s.sampleFrame k, target := s.share.target, f := s.ownPlant.f }

end Sys2Proof.Machine
end

