-- ==== Sys2Proof/Machine/Sharing.lean ====
section
/-! DEFINITION. The Airflow Share Unit's recomputation (chapter 5, R73 to R83) and the followed plant's
notices (R31 to R33), which the zone's commands share. -/

namespace Sys2Proof.Machine

/-! ## Tier, base and relief -/

/-- The mode of the unit's plant view, none while there is no view (R74). -/
def Share.viewMode (x : Share) : Option Mode := x.view.map ShareView.mode

/-- A call in the group opposite to a mode's group (R77 row 5). -/
def opposite (c : Call) (m : Option Mode) : Bool :=
  match m with
  | some m => c.group ≠ .none && c.group = m.group.other
  | none => false

/-- A call in the group of a mode (R77 row 7). -/
def sameGroup (c : Call) (m : Option Mode) : Bool :=
  match m with
  | some m => c.group ≠ .none && c.group = m.group
  | none => false

/-- The own tier: the first row of R77's table that holds. -/
def State.chooseTier (s : State) : Nat :=
  let c := s.share.inputs.call
  if s.damper.state = .faulted then 0
  else if s.zp.optOut then 0
  else if s.line.yielded then 0
  else if s.peers.plantLost then 0
  else if opposite c s.share.viewMode then 0
  else if c.group = .none || s.share.inputs.tempFault then 2
  else if sameGroup c s.share.viewMode then 1
  else if s.share.viewMode = some .fan then 1
  else 2

/-- The view's plant state is DEFROST (R79). -/
def Share.frozen (x : Share) : Bool :=
  match x.view with
  | some v => v.state = .defrost
  | none => false

/-- Omin + nearest((100 − Omin) × demand / 1000) (R78 rows 6 and 7). -/
def baseFor (omin demand : Nat) : Nat :=
  omin + (nearest (((100 - omin) * demand : Nat) : Int) 1000).toNat

/-- The base opening for a tier: the first row of R78's table that holds. -/
def State.chooseBase (s : State) (tier : Nat) : Opening :=
  if s.damper.state = .faulted then .unknown
  else if s.line.yielded then .percent s.zp.omin
  else if s.peers.plantLost then .percent 100
  else if s.share.frozen then s.share.base
  else if s.share.inputs.tempFault then .percent s.zp.faultOpening
  else if tier = 1 then
    match s.share.inputs.call with
    | .cool | .heat => .percent (baseFor s.zp.omin s.share.inputs.ds)
    | .dry => .percent (baseFor s.zp.omin s.share.inputs.dl)
    | .off | .idle => .percent s.zp.omin
  else .percent s.zp.omin

/-- The published opening as the unit takes it: 0 with no view or mode OFF (R80). -/
def Share.publishedF (x : Share) : Nat :=
  match x.view with
  | some v => if v.mode = .off then 0 else v.f
  | none => 0

/-- Σ weight × base over the zone entries (R80). -/
def weightedBase (l : List (Freshness × ZoneRecord)) : Nat :=
  (l.map fun e => e.2.weight * e.2.base.orZero).sum

/-- Σ weight × (100 − base) over the entries counted in a tier (R80). -/
def headroom (tier : Nat) (l : List (Freshness × ZoneRecord)) : Nat :=
  ((l.filter fun e => countedTier e = tier).map fun e => e.2.weight * (100 - e.2.base.orZero)).sum

/-- up((100 − base) × min(S, H) / H), 0 when H is 0 (R81, R82). -/
def reliefShare (base shortfall room : Nat) : Nat :=
  if room = 0 then 0 else upDiv ((100 - base) * min shortfall room) room

/-- The relief opening (R81, R82), kept under the defrost freeze (R79). -/
def State.chooseRelief (s : State) : Nat :=
  let l := s.zoneEntries
  let shortfall := s.share.publishedF - weightedBase l
  let h1 := headroom 1 l
  if s.share.tier = 0 then 0
  else if s.share.frozen then s.share.relief
  else if s.share.tier = 1 then reliefShare s.share.base.orZero shortfall h1
  else reliefShare s.share.base.orZero (shortfall - h1) (headroom 2 l)

/-- Base plus relief, or unknown (R83). -/
def targetOf (base : Opening) (relief : Nat) : Opening :=
  match base with
  | .unknown => .unknown
  | .percent p => .percent (p + relief)

/-- The difference of two targets calls for a prompt: 5 points or more, or a change between known and
unknown (R10). -/
def targetMoved (old new : Opening) : Bool :=
  match old, new with
  | .percent a, .percent b => 5 ≤ a - b || 5 ≤ b - a
  | .unknown, .unknown => false
  | .unknown, .percent _ | .percent _, .unknown => true

/-- The target of a recomputation: a new value is compared with the last reported target and may prompt, and
a known target is offered to the drive (R10, R83). -/
def State.placeTarget (s : State) (target : Opening) : State :=
  let moved := decide (target ≠ s.share.target) &&
    (match s.line.lastTarget with
      | some last => targetMoved last target
      | none => false)
  let s1 := s.setShare { s.share with target := target }
  let s2 := if moved then s1.prompt else s1
  match target with
  | .percent p => s2.setDamper (s2.damper.offer (p * 12))
  | .unknown => s2

/-- Stages 1 to 3 of a recomputation: tier and base, with the prompt of a tier change (R76). -/
def State.placeTier (s : State) : State :=
  let tier := s.chooseTier
  let s1 := s.setShare { s.share with tier := tier, base := s.chooseBase tier }
  if tier ≠ s.share.tier then s1.prompt else s1

/-- A recomputation (R76). -/
def State.recompute (s : State) : State :=
  let s1 := s.placeTier
  let relief := s1.chooseRelief
  let s2 := s1.setShare { s1.share with relief := relief }
  s2.placeTarget (targetOf s2.share.base relief)

/-! ## The followed plant -/

/-- The facts a followed-plant notice can name (R32). -/
structure Facts where
  mode : Mode
  state : PlantState
  delivering : Bool
  f : Nat
  deriving DecidableEq, Repr

/-- The four facts of a plant record (R32). -/
def PlantRecord.facts (r : PlantRecord) : Facts :=
  { mode := r.mode, state := r.state, delivering := r.delivering, f := r.f }

/-- A fact is named: there was no followed plant, or its value differs (R32). -/
def named {α : Type} [DecidableEq α] (old : Option Facts) (fact : Facts → α) (new : Facts) : Bool :=
  match old with
  | none => true
  | some o => fact o ≠ fact new

/-- The Demand Engine's view after a notice (R54). -/
def DemandView.after (view : Option DemandView) (old : Option Facts) (new : Facts) :
    Option DemandView :=
  let mode := match view with
    | some v => if named old Facts.mode new then new.mode else v.mode
    | none => new.mode
  let delivering := match view with
    | some v => if named old Facts.delivering new then new.delivering else v.delivering
    | none => new.delivering
  if named old Facts.mode new || named old Facts.delivering new then
    some { mode := mode, delivering := delivering }
  else view

/-- The Airflow Share Unit's view after a notice (R74). -/
def ShareView.after (view : Option ShareView) (old : Option Facts) (new : Facts) : Option ShareView :=
  let v := view.getD { mode := new.mode, state := new.state, f := new.f }
  if named old Facts.mode new || named old Facts.state new || named old Facts.f new then
    some
      { mode := if named old Facts.mode new then new.mode else v.mode
        state := if named old Facts.state new then new.state else v.state
        f := if named old Facts.f new then new.f else v.f }
  else view

/-- A notice makes the Airflow Share Unit recompute: it names the mode, delivering or the published opening,
or a plant state that enters or leaves DEFROST (R75 items 2 and 3). -/
def noticeRecomputes (old : Option Facts) (new : Facts) : Bool :=
  named old Facts.mode new || named old Facts.delivering new || named old Facts.f new ||
    (match old with
      | some o => decide (o.state = .defrost) != decide (new.state = .defrost)
      | none => true)

/-- The notice of a followed plant's facts (R32), with PLANT_LOST just cleared or not. -/
def State.plantNotice (old : Option Facts) (new : Facts) (lostChanged : Bool) (s : State) : State :=
  let s1 := s.setDemand { s.demand with view := DemandView.after s.demand.view old new }
  let s2 := s1.setShare { s1.share with view := ShareView.after s1.share.view old new }
  if noticeRecomputes old new || lostChanged then s2.recompute else s2

/-- The notice of the loss of the plant (R32, R54, R74, R75 item 4). -/
def State.lossNotice (s : State) : State :=
  let s1 := s.setDemand { s.demand with view := none }
  (s1.setShare { s1.share with view := none }).recompute

/-- The followed plant is evaluated again, PLANT_LOST follows, and a notice is issued where the facts have
changed from `old`, those last followed (R31, R32, R33). -/
def State.evaluatePlant (old : Option Facts) (s : State) : State :=
  let choice := s.peers.choose
  match choice.bind s.peers.plantAt with
  | some r =>
    let s1 := s.setPeers { s.peers with followed := choice, plantLost := false }
    if decide (old = some r.facts) && !s.peers.plantLost then s1
    else s1.plantNotice old r.facts s.peers.plantLost
  | none =>
    if s.peers.followed.isNone then s
    else
      let lost := s.peers.plantLost || decide (s.peers.grace = .expired)
      let s1 := s.setPeers { s.peers with followed := none, plantLost := lost }
      let s2 := if lost && !s.peers.plantLost then s1.prompt else s1
      s2.lossNotice

end Sys2Proof.Machine
end

