-- ==== Sys2Proof/Machine/Line.lean ====
section
/-! DEFINITION. The zone line: the receiver, the checks of a frame and where a good one goes, the transmitter's
attempts, and the report timers (chapters 1 and 2). -/

namespace Sys2Proof.Machine

/-! ## The receiver (R4, R5) -/

/-- What an octet does besides moving the receiver (R5). -/
inductive FrameEvent where
  | none
  | malformed
  | crcDiscard
  | good (header : Byte) (payload : List Byte)
  deriving DecidableEq, Repr

/-- The end of a frame: the CRC first, then the enumerations (R5). -/
def frameEnd (h len : Byte) (payload : List Byte) (high low : Byte) : FrameEvent :=
  if crcOctets (h :: len :: payload) ≠ [high, low] then .crcDiscard
  else if enumsGood h payload then .good h payload
  else .malformed

/-- The receiver takes an octet whose stop bit sampled at 1 (R4, R5). -/
def Receiver.octet (r : Receiver) (o : Byte) : Receiver × FrameEvent :=
  match r with
  | .hunt => (if o = 0xD2#8 then .sync else .hunt, .none)
  | .sync => (if o = 0x2D#8 then .header else if o = 0xD2#8 then .sync else .hunt, .none)
  | .header => if headerGood o then (.length o, .none) else (.hunt, .malformed)
  | .length h =>
    if lengthGood h o then
      (if o = 0#8 then .check h o [] none else .payload h o [], .none)
    else (.hunt, .malformed)
  | .payload h len taken =>
    (if (taken ++ [o]).length = len.toNat then .check h len (taken ++ [o]) none
      else .payload h len (taken ++ [o]), .none)
  | .check h len body none => (.check h len body (some o), .none)
  | .check h len body (some high) => (.hunt, frameEnd h len body high o)

/-- The receiver is inside a frame, from HEADER onward (R4). -/
def Receiver.inFrame (r : Receiver) : Bool :=
  match r with
  | .hunt | .sync => false
  | .header | .length _ | .payload _ _ _ | .check _ _ _ _ => true

/-- A gap of more than 20 bit times: a frame in progress is abandoned and counted (R4). -/
def LineState.gapAbandon (l : LineState) : LineState :=
  if l.rx.inFrame then { l with rx := .hunt, malformed := l.malformed + 1 } else l

/-- An octet with a framing error: a frame in progress is abandoned and counted, and SYNC returns to HUNT
(R4). -/
def LineState.framingAbandon (l : LineState) : LineState :=
  if l.rx.inFrame then { l with rx := .hunt, malformed := l.malformed + 1 } else { l with rx := .hunt }

/-! ## YIELDED (R16, R17) -/

/-- What the Line Interface takes on entry to YIELDED (R17). -/
def LineState.yield (l : LineState) : LineState :=
  { l with yielded := true, waiting := none, main := .reset, summary := .reset }

/-- What the Demand Engine takes on entry to YIELDED (R72). -/
def Demand.yield (d : Demand) : Demand :=
  { d with call := .idle, ds := 0, rawSum := 0, saturated := false, errorClamped := false }

/-- The Demand Engine's part of the entry, with the prompt of a changed call (R57, R72). -/
def State.yieldDemand (s : State) : State :=
  let s1 := s.setDemand s.demand.yield
  if s.demand.call ≠ .idle then s1.prompt else s1

/-- Entry to YIELDED, once until the next reset (R17, R72, R75, R153). -/
def State.enterYielded (s : State) : State :=
  if s.line.yielded then s
  else
    let s1 := s.setLine s.line.yield
    match s.loader.straps.role with
    | .zone => s1.yieldDemand.recompute
    | .plant => s1.dropPlant

/-- The address-conflict counter moves (R16, R34). -/
def State.countConflict (s : State) : State :=
  s.setLine { s.line with conflicts := s.line.conflicts + 1 }

/-- The comparison of a frame that carries the station's own address (R16). -/
def State.compareTag (received : Tag) (s : State) : State :=
  let s1 := s.countConflict
  if s.loader.tag.toNat ≤ received.toNat then s1.enterYielded else s1

/-! ## Taking a report (R24, R34) -/

/-- The entry at an address becomes FRESH with age 0 and these contents (R24). -/
def Peers.take (p : Peers) (a : Nat) (c : Contents) : Peers :=
  { p with
    entries := p.entries.map fun e =>
      if e.address = a then { e with held := some { freshness := .fresh, age := 0, contents := c } }
      else e }

/-- The entry at an address is a present plant entry with a state other than STANDBY (R34). -/
def Peers.activePlant (p : Peers) (a : Nat) : Bool :=
  match p.plantAt a with
  | some r => r.state ≠ .standby
  | none => false

/-- Second-plant detection: `wasActive` says whether the entry was an active plant before this report (R34). -/
def State.detectPlant (a : Nat) (r : PlantRecord) (wasActive : Bool) (s : State) : State :=
  if r.state = .standby then s
  else if a < s.address then s.enterStandby
  else if wasActive then s
  else s.countConflict

/-- A good ZONE or PLANT frame from another address is taken (R24, R31, R34). The entry is written before the notice,
so the recomputation that a notice triggers reads the new entry (R24 lists the availability to readers last;
DESIGN CHOICE, notes/assumptions/29.md). -/
def State.takeReport (a : Nat) (c : Contents) (s : State) : State :=
  let old := s.peers.followedRecord.map PlantRecord.facts
  let wasPlant := (s.peers.plantAt a).isSome
  let wasActive := s.peers.activePlant a
  let s1 := s.setPeers (s.peers.take a c)
  match s.loader.straps.role, c with
  | .plant, .plant r => s1.detectPlant a r wasActive
  | .plant, .zone _ => s1
  | .zone, .plant _ => s1.evaluatePlant old
  | .zone, .zone _ => if wasPlant then s1.evaluatePlant old else s1

/-- Where a good frame goes (R6, R25). -/
def State.acceptFrame (h : Byte) (payload : List Byte) (s : State) : State :=
  match decodeContents h payload with
  | none => s
  | some c =>
    if headerAddress h = s.address then s.compareTag (payloadTag payload)
    else s.takeReport (headerAddress h) c

/-- What a frame event does (R5, R18). -/
def State.frameEvent (e : FrameEvent) (s : State) : State :=
  match e with
  | .none => s
  | .malformed => s.setLine { s.line with malformed := s.line.malformed + 1 }
  | .crcDiscard => s.setLine { s.line with crcDiscards := s.line.crcDiscards + 1 }
  | .good h payload => (s.setLine { s.line with good := s.line.good + 1 }).acceptFrame h payload

/-- The station takes an octet from the line (R4, R5). -/
def State.takeOctet (s : State) (o : Byte) : State :=
  (s.setLine { s.line with rx := (s.line.rx.octet o).1 }).frameEvent (s.line.rx.octet o).2

/-- The station takes octets in order; before READY and in CONFIG_HALT it takes none (R4). -/
def State.takeOctets (octets : List Byte) (s : State) : State :=
  if s.ready then octets.foldl State.takeOctet s else s

/-- FRAME_RECEIVED (R4, R5, R6, R13): its octets hold the counts at 0, and a waiting station defers. A station
that is itself transmitting takes nothing (R14, R16). -/
def execFrameReceived (octets : List Byte) (s : State) : Host.Outcome State Fault Refusal :=
  if s.inReset || s.line.attempt.isSome then advance s
  else advance ((s.setLine s.line.octetEnd).takeOctets octets).settlePlant

/-- The line after octets that ended in a gap or in an error: the counts begin at the last of them (R2). -/
def State.heard (octets : List Byte) (s : State) : State :=
  if octets.isEmpty then s else (s.setLine s.line.octetEnd).takeOctets octets

/-- FRAME_ABANDONED (R2, R4). -/
def execFrameAbandoned (octets : List Byte) (s : State) : Host.Outcome State Fault Refusal :=
  if s.inReset || s.line.attempt.isSome then advance s
  else
    let s1 := s.heard octets
    advance (s1.setLine ((s1.line.quietReaches 21).gapAbandon)).settlePlant

/-- FRAMING_ERROR (R1, R2, R4). -/
def execFramingError (octets : List Byte) (s : State) : Host.Outcome State Fault Refusal :=
  if s.inReset || s.line.attempt.isSome then advance s
  else
    let s1 := s.heard octets
    advance (s1.setLine (s1.line.framingAbandon.octetEnd)).settlePlant

/-! ## The counts (R2) -/

/-- LINE_IDLE (R2, R4): the gap that makes the line idle has abandoned a frame in progress. The station's own
octets hold the count at 0, so the line is never idle during an attempt. -/
def execLineIdle (s : State) : Host.Outcome State Fault Refusal :=
  if s.inReset || s.line.attempt.isSome then advance s
  else advance (s.setLine (s.line.quietReaches 30).gapAbandon)

/-- START_BIT_SEEN (R2, R13). -/
def execStartBitSeen (s : State) : Host.Outcome State Fault Refusal :=
  if s.inReset then advance s else advance (s.setLine s.line.startBit)

/-! ## Attempts (R12 to R15, R192) -/

/-- An attempt begins: its kind's renewal mark is cleared (R8, R14), and the station's own first start bit holds
both counts at 0 (R2). -/
def LineState.beginAttempt (l : LineState) (a : Attempt) : LineState :=
  { (l.setKind a.kind { l.kind a.kind with renewal := false }).startBit with
    attempt := some a, waiting := none }

/-- ATTEMPT_BEGIN (R4, R13, R14): the gap count reaches G, which it cannot while an octet on the line holds it at 0.
The gap has abandoned a frame in progress before the contents are sampled. -/
def execAttemptBegin (s : State) : Host.Outcome State Fault Refusal :=
  match s.line.waiting with
  | some k =>
    if s.line.canSend s.ready && !s.line.octetOnLine then
      let s1 := s.setLine (s.line.gapReaches (s.line.gapFor s.address k)).gapAbandon
      advance (s1.setLine (s1.line.beginAttempt (s1.sampleAttempt k)))
    else advance s
  | none => advance s

/-- What completion records of a kind: the last reported target of a zone or opening of a plant, or the other
summary page (R10, R11, R192). -/
def LineState.record (l : LineState) (role : Role) (a : Attempt) : LineState :=
  match a.kind, role with
  | .main, .zone => { l with lastTarget := some a.target }
  | .main, .plant => { l with lastF := some a.f }
  | .summary, _ => { l with pageOne := !l.pageOne }

/-- The line after an attempt completes (R7, R8, R14). -/
def LineState.completeAttempt (l : LineState) (role : Role) (a : Attempt) : LineState :=
  let l1 := (l.setKind a.kind (l.kind a.kind).release).record role a
  { l1.octetEnd with tokens := l1.tokens - 1, attempt := none, rx := .hunt }

/-- ATTEMPT_COMPLETE (R14, R192). -/
def execAttemptComplete (s : State) : Host.Outcome State Fault Refusal :=
  match s.line.attempt with
  | some a => advance (s.setLine (s.line.completeAttempt s.loader.straps.role a)).settle
  | none => advance s

/-- A kind after a collision: k counts, and at 8 the report is dropped (R15). -/
def KindState.collide (x : KindState) : KindState :=
  if 8 ≤ x.k + 1 then x.release else { x with k := x.k + 1 }

/-- The line after a collision: it is released in the middle of an octet (R15). -/
def LineState.collide (l : LineState) (a : Attempt) : LineState :=
  let l1 := l.setKind a.kind (l.kind a.kind).collide
  { l1.startBit with
    attempt := none, collisions := l1.collisions + 1
    dropped := if 8 ≤ (l.kind a.kind).k + 1 then l1.dropped + 1 else l1.dropped }

/-- COLLISION (R15): only a bit driven at 1 can read back differently (R1). The receiver carries on from the
whole octets read so far. -/
def execCollision (bit : Nat) (s : State) : Host.Outcome State Fault Refusal :=
  match s.line.attempt with
  | some a =>
    if (frameLevels a.frame)[bit]? = some true then
      advance (((s.setLine (s.line.collide a)).takeOctets (a.frame.take (bit / 10))).settlePlant)
    else advance s
  | none => advance s

/-! ## Tokens and report timers (R7, R9) -/

/-- TOKEN_REFILL_TIMER (R7). -/
def execTokenRefillTimer (s : State) : Host.Outcome State Fault Refusal :=
  if s.ready then advance (s.setLine { s.line with tokens := satAdd 3 s.line.tokens 1 }).settle
  else advance s

/-- ZONE_PERIODIC_TIMER (R9). -/
def execZonePeriodicTimer (s : State) : Host.Outcome State Fault Refusal :=
  if s.zoneReady then advance (s.setLine (s.line.trigger .main)).settle else advance s

/-- PLANT_PERIODIC_TIMER (R9). -/
def execPlantPeriodicTimer (s : State) : Host.Outcome State Fault Refusal :=
  if s.plantReady then advance (s.setLine (s.line.trigger .main)).settle else advance s

/-- SUMMARY_TIMER (R9). -/
def execSummaryTimer (s : State) : Host.Outcome State Fault Refusal :=
  if s.ready then advance (s.setLine (s.line.trigger .summary)).settle else advance s

/-! ## Ageing (R26 to R29) -/

/-- The LATE threshold of a class (R27). -/
def Contents.lateAge (c : Contents) : Nat :=
  match c with
  | .zone _ => 60
  | .plant _ => 30

/-- The removal threshold of a class (R28). -/
def Contents.removalAge (c : Contents) : Nat :=
  match c with
  | .zone _ => 160
  | .plant _ => 80

/-- An entry's age advances (R26). -/
def PeerEntry.older (e : PeerEntry) : PeerEntry :=
  { e with held := e.held.map fun h => { h with age := ageUp h.age 1 } }

/-- Every present entry other than the own one ages (R26). -/
def Peers.older (p : Peers) (own : Nat) : Peers :=
  { p with entries := p.entries.map fun e => if e.address = own then e else e.older }

/-- What a presence holds is replaced at an address. -/
def Peers.setHeld (p : Peers) (a : Nat) (h : Option Presence) : Peers :=
  { p with entries := p.entries.map fun e => if e.address = a then { e with held := h } else e }

/-- The thresholds applied to one presence, after its age has advanced (R27, R28). -/
def State.ageOut (a : Nat) (h : Presence) (s : State) : State :=
  match h.freshness with
  | .fresh =>
    if h.contents.lateAge ≤ h.age then
      s.setPeers
        { s.peers.setHeld a (some { h with freshness := .late }) with
          lateEvents := s.peers.lateEvents + 1 }
    else s
  | .late =>
    if h.contents.removalAge ≤ h.age then
      let old := s.peers.followedRecord.map PlantRecord.facts
      let s1 := s.setPeers
        { s.peers.setHeld a none with peersLost := s.peers.peersLost + 1 }
      match s.loader.straps.role, h.contents with
      | .zone, .plant _ => s1.evaluatePlant old
      | .zone, .zone _ | .plant, _ => s1
    else s

/-- The thresholds applied to the entry at an address, as it stands (R26). -/
def State.ageEntry (s : State) (a : Nat) : State :=
  if a = s.address then s
  else
    match (s.peers.entry a).bind PeerEntry.held with
    | some h => s.ageOut a h
    | none => s

/-- AGE_TIMER (R26): every age advances, then the thresholds are applied in ascending address order. -/
def execAgeTimer (s : State) : Host.Outcome State Fault Refusal :=
  if s.ready then
    let s1 := s.setPeers (s.peers.older s.address)
    advance ((s1.peers.entries.map PeerEntry.address).foldl State.ageEntry s1).settle
  else advance s

/-- PLANT_LOST is set: its prompt, and a recomputation (R33, R75). -/
def State.losePlant (s : State) : State :=
  (s.setPeers { s.peers with plantLost := true }).prompt.recompute

/-- GRACE_TIMER (R33). -/
def execGraceTimer (s : State) : Host.Outcome State Fault Refusal :=
  if s.zoneReady && decide (s.peers.grace = .running) then
    let s1 := s.setPeers { s.peers with grace := .expired }
    if s.peers.followed.isNone then advance s1.losePlant.settle else advance s1
  else advance s

end Sys2Proof.Machine
end

