-- ==== Sys2Proof/Machine/Plant.lean ====
section
/-! DEFINITION. The plant's other timers: protective requests (chapter 7), the engine's events (chapter 8), the
retained timer (chapter 9) and the frost timer (chapter 10). -/

namespace Sys2Proof.Machine

/-! ## The protection timer (R127 to R133) -/

/-- A count that stops at `top` and restarts when its condition lapses (R127). -/
def persist (condition : Bool) (top count : Nat) : Nat := if condition then min top (count + 1) else 0

/-- The static trip (R128). -/
def State.staticTrip (s : State) : State :=
  let p := s.sensors.staticPressure
  let n := persist (p.valid && decide ((s.pp.ptrip : Int) < p.value)) 10 s.capacity.staticCount
  let s1 := s.setCapacity { s.capacity with staticCount := n }
  if decide (n = 10) && decide (0 < s.capacity.blowerCommand) then s1.request (.emergency .static) else s1

/-- The inverter fault, raised again while the compressor is on (R129). -/
def State.inverterTrip (s : State) : State :=
  if s.sensors.inverter.asserted && s.engine.run then s.request (.emergency .inverter) else s

/-- The mode is COOL or DRY and the compressor is on (R130, R131). -/
def State.coolingOn (s : State) : Bool := s.modeSel.mode.group = .cooling && s.engine.run

/-- The condensate float, raised again while the compressor is on in COOL or DRY (R130). -/
def State.condensateStop (s : State) : State :=
  if s.sensors.condensate.asserted && s.coolingOn then s.request (.stop .condensate) else s

/-- The freeze stop (R131). -/
def State.freezeStop (s : State) : State :=
  let coil := s.sensors.indoorCoil
  let n := persist (s.coolingOn && coil.valid && decide (coil.value < -200)) 120 s.capacity.freezeCount
  let s1 := s.setCapacity { s.capacity with freezeCount := n }
  if n = 120 then s1.request (.stop .freeze) else s1

/-- The supply stop (R132). -/
def State.supplyStop (s : State) : State :=
  let air := s.sensors.supplyAir
  if decide (s.modeSel.mode = .heat) && s.engine.run && air.valid && decide (6500 ≤ air.value) then
    s.request (.stop .supply)
  else s

/-- The airflow stop (R133). -/
def State.airflowStop (s : State) : State :=
  let low := decide (s.capacity.blowerCommand < 300) || decide (s.capacity.effective < 300)
  let n := persist (s.engine.run && !s.engine.defrosting && low) 60 s.capacity.airflowCount
  let s1 := s.setCapacity { s.capacity with airflowCount := n }
  if n = 60 then s1.request (.stop .airflow) else s1

/-- PROTECTION_TIMER (R114, R127): R128 to R133, each on the values as they stand. -/
def execProtectionTimer (s : State) : Host.Outcome State Fault Refusal :=
  if s.plantReady && !s.aside then
    advance
      s.staticTrip.inverterTrip.condensateStop.freezeStop.supplyStop.airflowStop.settlePlant
  else advance s

/-! ## The engine's events (R134, R140, R147) -/

/-- LISTENING_TIMER (R134). -/
def execListeningTimer (s : State) : Host.Outcome State Fault Refusal :=
  if s.plantReady && decide (s.engine.listening = .running) then
    advance (s.setEngine { s.engine with listening := .expired })
  else advance s

/-- The step time reaches a value (R134). -/
def State.stepTimeReaches (n : Nat) (s : State) : State := s.setEngine { s.engine with stepTime := n }

/-- The current step is RUNNING with its action applied (R140). -/
def Engine.acting (e : Engine) : Bool := decide (e.state = .running) && !e.delaying

/-- STEP_DELAY_EXPIRY (R140). -/
def execStepDelayExpiry (s : State) : Host.Outcome State Fault Refusal :=
  if s.plantReady && decide (s.engine.state = .running) && s.engine.delaying then
    advance (s.run .apply).settlePlant
  else advance s

/-- STEP_TIME_EXIT (R140). -/
def execStepTimeExit (s : State) : Host.Outcome State Fault Refusal :=
  match s.engine.exitTime with
  | some t =>
    if s.plantReady && s.engine.acting then
      advance ((s.stepTimeReaches t).run (.boundary false)).settlePlant
    else advance s
  | none => advance s

/-- STEP_TIME_LIMIT (R140). -/
def execStepTimeLimit (s : State) : Host.Outcome State Fault Refusal :=
  match s.engine.timeLimit with
  | some t =>
    if s.plantReady && s.engine.acting then
      advance ((s.stepTimeReaches t).run (.boundary true)).settlePlant
    else advance s
  | none => advance s

/-- EMERGENCY_HOLD_TICK (R147): the hold decreases, and E2 ends when it reaches 0. -/
def execEmergencyHoldTick (s : State) : Host.Outcome State Fault Refusal :=
  if s.plantReady && decide (s.engine.step = some .e2) && s.engine.acting then
    let s1 := s.setEngine
      { s.engine with
        emergencyHold := s.engine.emergencyHold - 1, stepTime := s.engine.stepTime + 1 }
    if s1.engine.emergencyHold = 0 then advance (s1.run (.boundary false)).settlePlant else advance s1
  else advance s

/-! ## The retained timer (R154, R157, R161, R165) -/

/-- A record's start age goes on counting (R162). -/
def RunRecord.older (r : RunRecord) : RunRecord := { r with startAge := ageUp r.startAge 1 }

/-- Stages 1: the retained ages (R154). -/
def Protection.olderRetained (p : Protection) : Protection :=
  { p with stopAge := ageUp p.stopAge 1, history := p.history.map RunRecord.older }

/-- Stage 1: the ages that are not retained, which are held until READY (R154, R167). -/
def Protection.olderLive (p : Protection) : Protection :=
  { p with valveAge := ageUp p.valveAge 1, run := p.run.map fun a => ageUp a 1 }

/-- Stage 2: the start budget's refill (R161). -/
def Protection.refill (p : Protection) : Protection :=
  if 4 ≤ p.budget then p
  else if 900 ≤ p.progress + 1 then { p with budget := p.budget + 1, progress := 0 }
  else { p with progress := p.progress + 1 }

/-- Stage 3: an active LOCKOUT counts down and ends at 0 (R165). -/
def Protection.countDown (p : Protection) : Protection :=
  match p.lockout with
  | some n => { p with lockout := if n ≤ 1 then none else some (n - 1) }
  | none => p

/-- Stages 1 to 3 (R154, R165). -/
def State.retainedAdvance (s : State) : State :=
  let p1 := s.protection.olderRetained
  let p2 := if s.plantReady then p1.olderLive else p1
  (s.setProtection p2.refill.countDown).noteLockoutEnd s.protection.lockout

/-- Stage 4: the waiting request is examined (R157). -/
def State.examineRequest (s : State) : State :=
  match s.protection.waiting with
  | some g =>
    if s.permitted g then
      let s1 := s.answer g
      if g = .spacing then s1.run (.boundary false) else s1.run .apply
    else s
  | none => s

/-- RETAINED_TIMER (R154, R166, R167): in reset, while the RESET input is held and before READY too, unless a
power-on reset holds the retained area. -/
def execRetainedTimer (s : State) : Host.Outcome State Fault Refusal :=
  if s.protection.held then advance s
  else
    let s1 := s.retainedAdvance
    if s.plantReady then advance s1.examineRequest.settlePlant else advance s1

/-! ## The frost timer (R169 to R174) -/

/-- The accumulation rate of an outdoor coil value (R170). -/
def frostRate (coil : Int) : Nat :=
  if 200 ≤ coil then 0
  else if 0 ≤ coil then 80
  else if -400 ≤ coil then 200
  else if -1000 ≤ coil then 120
  else 60

/-- The index after an accumulation step (R170). -/
def accumulate (index : Nat) (coil : Input) (speed : Nat) : Nat :=
  if coil.valid then satAdd 10000 index (frostRate coil.value * speed / 1000) else index

/-- The gap of the coil-gap timer's test (R172). -/
def Sensors.gapWide (x : Sensors) : Bool :=
  x.outdoorCoil.valid && decide (1000 ≤ x.outdoorAirValue - x.outdoorCoil.value)

/-- Stage 3's accumulation (R170). -/
def Frost.accumulateStep (f : Frost) (heat : Bool) (coil : Input) (speed : Nat) : Frost :=
  if heat then
    if 60 ≤ f.accumulation + 1 then
      { f with accumulation := 0, index := accumulate f.index coil speed }
    else { f with accumulation := f.accumulation + 1 }
  else f

/-- Stage 3's timed count (R174). -/
def Frost.timedStep (f : Frost) (heat : Bool) (coil : Input) : Frost :=
  { f with timed := if coil.valid then 0 else if heat then satAdd 2700 f.timed 1 else f.timed }

/-- Stages 2 and 3 (R169). -/
def State.frostAdvance (s : State) : State :=
  let heat := s.heatRunning
  let coil := s.sensors.outdoorCoil
  let f1 := { s.frost with interval := ageUp s.frost.interval 1 }
  let f2 := f1.accumulateStep heat coil s.capacity.speedCommand
  let f3 := { f2 with gapTimer := if heat && s.sensors.gapWide then satAdd 900 f2.gapTimer 1 else 0 }
  s.setFrost (f3.timedStep heat coil)

/-- The frost trigger (R172). -/
def State.frostTrigger (s : State) : Bool :=
  s.sensors.outdoorCoil.valid && (decide (s.frost.index = 10000) || decide (s.frost.gapTimer = 900))

/-- The timed trigger (R174); the count reaches 2700 only while the outdoor coil is faulted. -/
def State.timedTrigger (s : State) : Bool :=
  decide (s.frost.timed = 2700) && decide (s.sensors.outdoorAirValue < 500)

/-- Stage 4: DEFROST is raised (R171, R173). -/
def State.defrostWanted (s : State) : Bool :=
  decide (s.pp.defrostInterval ≤ s.frost.interval) && (s.frostTrigger || s.timedTrigger) && s.heatRunning

/-- FROST_TIMER (R169, R180). -/
def execFrostTimer (s : State) : Host.Outcome State Fault Refusal :=
  if s.plantReady && !s.aside then
    let s1 := s.frostAdvance
    if s1.defrostWanted then advance (s1.request .defrost).settlePlant else advance s1
  else advance s

end Sys2Proof.Machine
end

