-- ==== Sys2Proof/Machine/Sensing.lean ====
section
/-! DEFINITION. Sensor Inputs: the head link, classification, filters, holds and faults, and the contact
inputs (chapter 3). -/

namespace Sys2Proof.Machine

/-! ## The head link (R37, R38) -/

/-- What a head frame's last octet brings: nothing, or a checked frame's kind and readings (R37). -/
inductive HeadEvent where
  | none
  | wall (temp : Int) (rh : Int) (target : Int) (zoneOn : Bool)
  | plant (switch : SystemSwitch) (fan : Bool)
  deriving DecidableEq, Repr

/-- The head kind of a role (R37, R196). -/
def headKind (role : Role) : Byte :=
  match role with
  | .zone => 1#8
  | .plant => 2#8

/-- A wall sensor head's readings (R39, R196). -/
def wallReadings (body : List Byte) : HeadEvent :=
  match octetAt body 6 with
  | 0 => .wall (getTemp body 0) (get16 body 2) (getTemp body 4) false
  | 1 => .wall (getTemp body 0) (get16 body 2) (getTemp body 4) true
  | _ => .none

/-- A plant head's readings (R40, R196). The continuous-fan selection counts as a switch field, so an undefined code
in it discards the frame (R37; DESIGN CHOICE, notes/assumptions/30.md). -/
def plantReadings (body : List Byte) : HeadEvent :=
  match SystemSwitch.ofCode (octetAt body 0), octetAt body 1 with
  | some switch, 0 => .plant switch false
  | some switch, 1 => .plant switch true
  | _, _ => .none

/-- The checks at a head frame's end: the check value, the head kind and the switch codes (R37). -/
def headFrameEnd (role : Role) (kind : Byte) (body : List Byte) : HeadEvent :=
  let readings := body.take (body.length - 2)
  if crcOctets (kind :: readings) ≠ body.drop (body.length - 2) then .none
  else if kind ≠ headKind role then .none
  else
    match role with
    | .zone => wallReadings readings
    | .plant => plantReadings readings

/-- The head receiver takes an octet (R37). -/
def HeadReceiver.octet (r : HeadReceiver) (role : Role) (o : Byte) : HeadReceiver × HeadEvent :=
  match r with
  | .hunt => (if o = 0xA5#8 then .kind else .hunt, .none)
  | .kind => (if o = 1#8 ∨ o = 2#8 then .body o [] else .hunt, .none)
  | .body k sofar =>
    if (sofar ++ [o]).length = headBodyLength k then (.hunt, headFrameEnd role k (sofar ++ [o]))
    else (.body k (sofar ++ [o]), .none)

/-- An arrival makes the link PRESENT and restarts the loss timer (R38). -/
def Sensors.arrive (x : Sensors) : Sensors :=
  { x with link := .present, lossRunning := true, arrived := true }

/-- A target rounded to the nearest multiple of 50 and clamped to 1600..3000 (R39). -/
def dialTarget (t : Int) : Int := clamp 1600 3000 (50 * nearest t 50)

/-- A wall sensor head's arrival (R39). -/
def Sensors.wallArrival (x : Sensors) (temp rh target : Int) (zoneOn : Bool) : Sensors :=
  { x.arrive with
    roomTemp := { x.roomTemp with raw := some temp }
    roomRh := { x.roomRh with raw := some rh }
    target := dialTarget target
    zoneSwitch := zoneOn }

/-- A plant head's arrival (R40). -/
def Sensors.plantArrival (x : Sensors) (switch : SystemSwitch) (fan : Bool) : Sensors :=
  { x.arrive with systemSwitch := switch, continuousFan := fan, headSeen := true }

/-- The off-hold timer at a plant head's arrival: started by a change to OFF and by the first frame after READY
that carries OFF, stopped by a change to any other position (R110). -/
def offHoldAfter (x : Sensors) (switch : SystemSwitch) (running : Bool) : Bool :=
  if switch = .off then running || decide (x.systemSwitch ≠ .off) || !x.headSeen
  else if switch ≠ x.systemSwitch then false
  else running

/-- What a head event does (R39, R40, R110, R112). -/
def State.headEvent (e : HeadEvent) (s : State) : State :=
  match e with
  | .none => s
  | .wall temp rh target zoneOn => s.setSensors (s.sensors.wallArrival temp rh target zoneOn)
  | .plant switch fan =>
    let hold := if s.aside then s.modeSel.offHold else offHoldAfter s.sensors switch s.modeSel.offHold
    (s.setModeSel { s.modeSel with offHold := hold }).setSensors (s.sensors.plantArrival switch fan)

/-- The station takes an octet from the head link (R37). -/
def State.headOctet (s : State) (o : Byte) : State :=
  let r := s.sensors.headRx.octet s.loader.straps.role o
  (s.setSensors { s.sensors with headRx := r.1 }).headEvent r.2

/-- HEAD_FRAME_ARRIVAL (R37, R38, R39, R40). -/
def execHeadFrameArrival (octets : List Byte) (s : State) : Host.Outcome State Fault Refusal :=
  if s.ready then advance (octets.foldl State.headOctet s) else advance s

/-- HEAD_FRAME_ABANDONED (R37): the receiver hunts again, and nothing is counted. -/
def execHeadFrameAbandoned (octets : List Byte) (s : State) : Host.Outcome State Fault Refusal :=
  if s.ready then
    let s1 := octets.foldl State.headOctet s
    advance (s1.setSensors { s1.sensors with headRx := .hunt })
  else advance s

/-- LOSS_TIMER (R38). -/
def execLossTimer (s : State) : Host.Outcome State Fault Refusal :=
  if s.ready && s.sensors.lossRunning then
    advance (s.setSensors { s.sensors with link := .missing, lossRunning := false })
  else advance s

/-! ## Classification (R43) -/

/-- The class of a new raw value for a range, without a step check (R43). -/
def classifyRange (low high raw : Int) : Reading :=
  if low ≤ raw ∧ raw ≤ high then .good else .invalid

/-- The class of a head-link input's reading, given its new raw value's class (R43). -/
def classifyHead (link : HeadLink) (arrived : Bool) (fresh : Reading) : Reading :=
  match link with
  | .missing => .missing
  | .waiting | .present => if arrived then fresh else .none

/-- The class of a room temperature's new raw value, with the step check (R43). -/
def classifyRoom (previous : Option Int) (raw : Int) : Reading :=
  match classifyRange (-2000) 6000 raw, previous with
  | .good, some p => if 300 < (raw - p).natAbs then .rejected else .good
  | r, _ => r

/-- The previous raw value after a class (R43). -/
def previousAfter (r : Reading) (previous raw : Option Int) : Option Int :=
  match r with
  | .good | .rejected => raw
  | .invalid | .missing => none
  | .none => previous

/-! ## Filtering, holding, faults (R45, R46, R47) -/

/-- The filtered value after a step of filter divisor `d` (R45). -/
def filterStep (d : Nat) (filtered : Option Int) (raw : Int) : Int :=
  match filtered with
  | some f => f + nearest (raw - f) d
  | none => raw

/-- A GOOD reading (R45, R47). -/
def Input.good (i : Input) (d : Nat) (raw : Int) : Input :=
  match i.state with
  | .unseeded => { i with state := .tracking, filtered := some raw, hold := 0 }
  | .tracking | .holding =>
    { i with state := .tracking, filtered := some (filterStep d i.filtered raw), hold := 0 }
  | .faulted =>
    if 10 ≤ i.recovery + 1 then
      { i with state := .tracking, filtered := some raw, hold := 0, recovery := 0 }
    else { i with recovery := i.recovery + 1 }

/-- The hold count moves, and at 30 the input enters FAULTED (R46). -/
def Input.count (i : Input) (n : Nat) (next : InputState) : Input :=
  if 30 ≤ n then { i with state := .faulted, hold := n, recovery := 0 }
  else { i with state := next, hold := n }

/-- A REJECTED, INVALID or MISSING reading (R46, R47). -/
def Input.bad (i : Input) : Input :=
  match i.state with
  | .tracking => i.count 1 .holding
  | .holding => i.count (i.hold + 1) .holding
  | .unseeded => i.count (i.hold + 1) .unseeded
  | .faulted => { i with recovery := 0 }

/-- A classified reading acts on an input's record (R45 to R47). -/
def Input.take (i : Input) (d : Nat) (r : Reading) (raw : Int) : Input :=
  match r with
  | .none => i
  | .good => i.good d raw
  | .missing | .invalid | .rejected => i.bad

/-- A plant input at a sensor timer expiry: a new reading at every expiry (R41, R42, R43). -/
def Input.measure (i : Input) (d : Nat) (low high raw : Int) : Input :=
  ({ i with raw := some raw }).take d (classifyRange low high raw) raw

/-- The room temperature at a sensor timer expiry (R43). -/
def Sensors.roomTempNext (x : Sensors) : Input :=
  let raw := x.roomTemp.raw.getD 0
  let r := classifyHead x.link x.arrived (classifyRoom x.roomTemp.previous raw)
  { x.roomTemp.take 4 r raw with
    previous := previousAfter r x.roomTemp.previous x.roomTemp.raw }

/-- The room RH at a sensor timer expiry (R43). -/
def Sensors.roomRhNext (x : Sensors) : Input :=
  let raw := x.roomRh.raw.getD 0
  x.roomRh.take 4 (classifyHead x.link x.arrived (classifyRange 0 1000 raw)) raw

/-- An input has entered FAULTED (R46, R49). -/
def faultEntered (old new : Input) : Bool := old.state ≠ .faulted && new.state = .faulted

/-- The zone's inputs after a sensor timer expiry, with the fault entries counted (R43, R45 to R47, R49). -/
def Sensors.zoneExpiry (x : Sensors) : Sensors :=
  let t := x.roomTempNext
  let h := x.roomRhNext
  { x with
    roomTemp := t, roomRh := h, arrived := false
    faultEntries := x.faultEntries + (if faultEntered x.roomTemp t then 1 else 0) +
      (if faultEntered x.roomRh h then 1 else 0) }

/-- The zone's sensor timer expiry, with the prompt of a fault entry (R10, R49). -/
def State.zoneSensors (s : State) : State :=
  let x := s.sensors.zoneExpiry
  let s1 := s.setSensors x
  if faultEntered s.sensors.roomTemp x.roomTemp || faultEntered s.sensors.roomRh x.roomRh then s1.prompt
  else s1

/-! ## Plant inputs (R41, R42, R44) -/

/-- A contact input takes a sample (R44). -/
def Contact.sample (c : Contact) (level : Bool) : Contact :=
  { asserted := if level ≠ c.asserted ∧ c.last = some level then level else c.asserted
    last := some level }

/-- The plant's inputs after a sensor timer expiry (R41 to R47). -/
def Sensors.plantExpiry (x : Sensors) (p : PinSample) : Sensors :=
  { x with
    supplyAir := x.supplyAir.measure 4 (-4000) 9000 p.supplyAir
    indoorCoil := x.indoorCoil.measure 4 (-4000) 9000 p.indoorCoil
    outdoorAir := x.outdoorAir.measure 4 (-4000) 9000 p.outdoorAir
    outdoorCoil := x.outdoorCoil.measure 4 (-4000) 9000 p.outdoorCoil
    staticPressure := x.staticPressure.measure 2 0 500 p.staticPressure
    inverter := x.inverter.sample p.inverterFault
    condensate := x.condensate.sample p.condensateFloat
    arrived := false }

/-- An expiry seeded an input: it had no filtered value and has one now (R50). -/
def seeded (old new : Input) : Bool := old.filtered.isNone && new.filtered.isSome

/-- The hand-off of the outdoor air's seeding value (R178); in STANDBY and YIELDED the estimator keeps every
item (R180). -/
def State.seedFrost (raw : Int) (s : State) : State :=
  if decide (s.loader.latest = .power) && decide (raw < 500) && !s.aside then
    s.setFrost { s.frost with index := max 6000 s.frost.index }
  else s

/-- The plant's measured and contact inputs move, and a seeding is handed over (R50, R178). -/
def State.plantSensors (p : PinSample) (s : State) : State :=
  let x := s.sensors.plantExpiry p
  let s1 := s.setSensors x
  if seeded s.sensors.outdoorAir x.outdoorAir then s1.seedFrost p.outdoorAir else s1

/-- A mode of the cooling group with the compressor on (R130, R131). -/
def State.coolingRuns (s : State) : Bool := s.modeSel.mode.group = .cooling && s.engine.run

/-- The requests of the contact inputs that have just become asserted: EMERGENCY with cause INVERTER, and the
protective STOP with cause CONDENSATE (R129, R130). -/
def State.contactRequests (inverter condensate : Bool) (s : State) : State :=
  let s1 := if inverter then s.request (.emergency .inverter) else s
  if condensate && s1.coolingRuns then s1.request (.stop .condensate) else s1

/-- A step's sensor exit is examined (R140). -/
def State.examineSensorExit (s : State) : State :=
  match s.engine.step with
  | some st =>
    if decide (s.engine.state = .running) && !s.engine.delaying && s.sensorExit st then
      s.run (.boundary false)
    else s
  | none => s

/-- The plant's sensor timer expiry; `contactsFirst` says which of its two consequences is taken first (R44,
R140). -/
def State.plantSensorExpiry (p : PinSample) (contactsFirst : Bool) (s : State) : State :=
  let s1 := s.plantSensors p
  let inverter := !s.sensors.inverter.asserted && s1.sensors.inverter.asserted
  let condensate := !s.sensors.condensate.asserted && s1.sensors.condensate.asserted
  if contactsFirst then (s1.contactRequests inverter condensate).examineSensorExit
  else s1.examineSensorExit.contactRequests inverter condensate

/-- SENSOR_TIMER (R36, R43 to R47). -/
def execSensorTimer (pins : PinSample) (contactsFirst : Bool) (s : State) :
    Host.Outcome State Fault Refusal :=
  if s.ready then
    match s.loader.straps.role with
    | .zone => advance s.zoneSensors.settle
    | .plant => advance (s.plantSensorExpiry pins contactsFirst).settlePlant
  else advance s

end Sys2Proof.Machine
end

