-- ==== Sys2Proof/Machine/Start.lean ====
section
/-! DEFINITION. The two resets, the strap latching and the configuration load (chapter 11). -/

namespace Sys2Proof.Machine

/-! ## Assertion of a reset (R166, R167, R188) -/

/-- Every block at its reset values, with the loader, the Protection Unit and the Frost Estimator as given;
the latched straps stand until the next latching (R182, R188). -/
def State.resetBlocks (s : State) (loader : Loader) (protection : Protection) (frost : Frost) : State :=
  { loader := loader, line := .reset, peers := .reset, sensors := .reset, demand := .reset,
    share := .reset, damper := .reset, modeSel := .reset, capacity := .reset,
    engine := .reset loader.straps.energised, protection := protection, frost := frost,
    pending := s.pending }

/-- What the RESET input leaves of the Protection Unit: the retained items (R166, R167). -/
def Protection.retain (p : Protection) : Protection :=
  { p with valveAge := 0, run := none, waiting := none, lockouts := 0 }

/-- What the RESET input leaves of the Frost Estimator: the index (R168, R179). -/
def Frost.retain (f : Frost) : Frost := { Frost.reset with index := f.index }

/-- The Protection Unit closes a run open at the RESET input's assertion, and the stop age becomes 0 (R166). -/
def State.closeAtReset (s : State) : State :=
  if s.protection.run.isSome then
    let s1 := s.closeRun .reset
    s1.setProtection { s1.protection with stopAge := 0 }
  else s

/-- POWER_ON_RESET (R167, R168, R187, R188). -/
def execPowerOnReset (s : State) : Host.Outcome State Fault Refusal :=
  advance (s.resetBlocks (.reset s.loader.straps true s.loader.inputAsserted .power) .reset .reset)

/-- RESET_INPUT_ASSERTED (R166, R167, R179, R187, R188). -/
def execResetInputAsserted (s : State) : Host.Outcome State Fault Refusal :=
  let s1 := s.closeAtReset
  advance (s1.resetBlocks (.reset s.loader.straps s.loader.powerAsserted true .input)
    s1.protection.retain s1.frost.retain)

/-! ## READY (R187) -/

/-- What begins at READY in the zone role: the grace timer, the target Omin offered to the drive, which stores
it, and homing (R33, R73, R84, R85). -/
def State.beginZone (s : State) : State :=
  let omin := s.zp.omin
  let s1 := s.setPeers { s.peers with grace := .running }
  let s2 := s1.setShare { s1.share with base := .percent omin, target := .percent omin }
  s2.setDamper (s2.damper.offer (omin * 12)).home

/-- What begins at READY in the plant role: the listening interval, and the valve age from 0 (R134, R167). -/
def State.beginPlant (s : State) : State :=
  let s1 := s.setEngine { s.engine with listening := .running }
  s1.setProtection { s1.protection with valveAge := 0 }

/-- READY is entered with the load result and parameters the loader holds: the main report is pending, the
loss timer starts, the retained items are no longer held, and the role's blocks begin (R8, R38, R167, R187). -/
def State.becomeReady (s : State) : State :=
  let s1 := s.setLoader { s.loader with state := .ready, retryWait := false }
  let s2 := s1.setLine { s1.line with main := { s1.line.main with pending := true } }
  let s3 := s2.setSensors { s2.sensors with lossRunning := true }
  let s4 := s3.setProtection { s3.protection with held := false }
  match s4.loader.straps.role with
  | .zone => s4.beginZone.settle
  | .plant => s4.beginPlant.settlePlant

/-- The defaults are taken, with a load result, and READY is entered (R183, R184). -/
def State.loadDefaults (result : LoadResult) (s : State) : State :=
  let l := s.loader
  let l1 : Loader := { l with result := result, defaulted := true, tag := 0 }
  let l2 : Loader := match l.straps.role with
    | .zone => { l1 with zone := some zoneDefaults }
    | .plant => { l1 with plant := some plantDefaults }
  (s.setLoader l2).becomeReady

/-- A good image is taken: the station tag and the role's parameter set, clamped (R184, R185). -/
def State.loadImage (image : List Byte) (s : State) : State :=
  let l := s.loader
  let clamped := match l.straps.role with
    | .zone => zoneClamped image
    | .plant => plantClamped image
  let l1 : Loader :=
    { l with
      tag := BitVec.ofNat 24 (get24 image 3), clamped := clamped
      result := if clamped then .loadedClamped else .loaded }
  let l2 : Loader := match l.straps.role with
    | .zone => { l1 with zone := some (zoneOfImage image) }
    | .plant => { l1 with plant := some (plantOfImage image) }
  (s.setLoader l2).becomeReady

/-- CHECKING (R184). -/
def State.checkImage (image : List Byte) (s : State) : State :=
  match imageTest image with
  | some bad => s.loadDefaults bad
  | none => s.loadImage image

/-! ## Release and load (R182, R183) -/

/-- The straps are latched: they decide the role, the address and the valve's de-energised position (R182). -/
def State.latch (straps : Straps) (s : State) : State :=
  let s1 := s.setLoader { s.loader with straps := straps }
  s1.setEngine (.reset straps.energised)

/-- The load starts at the latching: CONFIG_HALT, the defaults, or the first read attempt (R183). -/
def State.beginLoad (s : State) : State :=
  if s.loader.straps.addr = 0 then s.setLoader { s.loader with state := .configHalt }
  else if s.loader.straps.cfgmem then s.setLoader { s.loader with state := .reading, attempts := 1 }
  else s.loadDefaults .noMemory

/-- A reset line is released (R188). -/
def Loader.release (l : Loader) (kind : ResetKind) : Loader :=
  match kind with
  | .power => { l with powerAsserted := false }
  | .input => { l with inputAsserted := false }

/-- The reset of this kind is asserted (R188). -/
def Loader.asserted (l : Loader) (kind : ResetKind) : Bool :=
  match kind with
  | .power => l.powerAsserted
  | .input => l.inputAsserted

/-- RESET_RELEASE (R182, R183, R188): the part leaves reset when no reset is asserted any more. -/
def execResetRelease (kind : ResetKind) (straps : Straps) (s : State) :
    Host.Outcome State Fault Refusal :=
  if s.loader.asserted kind then
    let s1 := s.setLoader (s.loader.release kind)
    if s1.inReset then advance s1 else advance (s1.latch straps).beginLoad
  else advance s

/-- A failed read attempt: another follows 20 ms later, and after the fourth the defaults are taken (R183). -/
def State.readFailed (s : State) : State :=
  if s.loader.attempts < 4 then s.setLoader { s.loader with retryWait := true }
  else s.loadDefaults .noAck

/-- READ_ATTEMPT (R183, R184): an attempt completes when the memory has acknowledged the whole image. -/
def execReadAttempt (octets : List Byte) (s : State) : Host.Outcome State Fault Refusal :=
  if decide (s.loader.state = .reading) && !s.loader.retryWait then
    if octets.length < imageLength then advance s.readFailed
    else advance (s.checkImage (octets.take imageLength))
  else advance s

/-- READ_RETRY_TIMER (R183). -/
def execReadRetryTimer (s : State) : Host.Outcome State Fault Refusal :=
  if decide (s.loader.state = .reading) && s.loader.retryWait then
    advance (s.setLoader { s.loader with retryWait := false, attempts := s.loader.attempts + 1 })
  else advance s

end Sys2Proof.Machine
end

