-- ==== Sys2Proof/Machine/Zone.lean ====
section
/-! DEFINITION. The zone's own timers: the Demand Engine's expiry (chapter 4), and the Damper Drive's steps,
budget and re-home age (chapter 5). -/

namespace Sys2Proof.Machine

/-! ## Setpoints and errors (R53 to R56) -/

/-- What an expiry reads and forms. An error that is not formed is none (R53, R55, R56). -/
structure Errors where
  cooling : Option Int
  heating : Option Int
  humidity : Option Int
  /-- T ≥ SPc − 150 -/
  nearCooling : Bool
  /-- a room temperature fault (R53) -/
  tempFault : Bool
  deriving DecidableEq, Repr

/-- The errors of an expiry (R55, R56). -/
def State.errors (s : State) : Errors :=
  let t := s.sensors.roomTemp.value
  let spc : Int := s.sensors.target + s.zp.halfBand
  let sph : Int := s.sensors.target - s.zp.halfBand
  let tempOk := s.sensors.roomTemp.valid
  { cooling := if tempOk then some (t - spc) else none
    heating := if tempOk then some (sph - t) else none
    humidity := if s.sensors.roomRh.valid then some (s.sensors.roomRh.value - s.zp.rhTarget) else none
    nearCooling := tempOk && decide (spc - 150 ≤ t)
    tempFault := !tempOk }

/-- An error is formed and at least `n` (R56: a test that names an error not formed fails). -/
def atLeast (e : Option Int) (n : Int) : Bool :=
  match e with
  | some x => n ≤ x
  | none => false

/-- An error is formed and at most `n`. -/
def atMost (e : Option Int) (n : Int) : Bool :=
  match e with
  | some x => x ≤ n
  | none => false

/-! ## The call (R57 to R62) -/

/-- The call after stage 2: at most one change (R57 to R62; R72 in YIELDED). -/
def nextCall (yielded zoneOn : Bool) (e : Errors) (call : Call) (ds : Nat) : Call :=
  if yielded then .idle
  else if !zoneOn then .off
  else if call = .off then .idle
  else if e.tempFault then .idle
  else
    match call with
    | .off => .idle
    | .idle =>
      if atLeast e.cooling 30 then .cool
      else if atLeast e.heating 30 then .heat
      else if atLeast e.humidity 50 && e.nearCooling && atMost e.heating (-1) then .dry
      else .idle
    | .cool => if decide (ds = 0) && atMost e.cooling 0 then .idle else .cool
    | .heat => if decide (ds = 0) && atMost e.heating 0 then .idle else .heat
    | .dry =>
      if atLeast e.cooling 30 then .cool
      else if atMost e.humidity 0 || !e.nearCooling || e.humidity.isNone then .idle
      else .dry

/-! ## Sensible and latent demand (R63 to R70) -/

/-- The integral and the raw sum at stage 2: 0 on entry into COOL or HEAT (R63). -/
def Demand.enter (d : Demand) (call : Call) : Demand :=
  if d.call ≠ call ∧ (call = .cool ∨ call = .heat) then
    { d with call := call, integral := 0, rawSum := 0 }
  else { d with call := call }

/-- The unclamped working error of a call (R64). -/
def workingError (e : Errors) (call : Call) : Int :=
  match call with
  | .cool => e.cooling.getD 0
  | .heat => e.heating.getD 0
  | .off | .idle | .dry => 0

/-- Integration is permitted (R66). -/
def Demand.integrates (d : Demand) : Bool :=
  match d.view with
  | some v => d.call.group ≠ .none && v.mode.group = d.call.group && v.delivering
  | none => false

/-- The integral after a permitted step or a withheld one (R67). -/
def integralStep (integral rawSum e : Int) (ki : Nat) : Int :=
  if (1000 < rawSum ∧ 0 < e) ∨ (rawSum < 0 ∧ e < 0) then integral
  else clamp 0 100000 (integral + e * ki)

/-- The sensible stages in COOL and HEAT (R64 to R68). -/
def Demand.sensible (d : Demand) (p : ZoneParams) (e : Errors) : Demand :=
  let raw := workingError e d.call
  let err := clamp (-500) 500 raw
  let prop := nearest (err * p.kp) 100
  let i := if d.integrates then integralStep d.integral d.rawSum err p.ki else d.integral
  let u := prop + nearest i 100
  { d with
    integral := i, rawSum := u, ds := (clamp 0 1000 u).toNat
    saturated := decide (1000 < u)
    errorClamped := decide (raw < -500 ∨ 500 < raw) }

/-- The values of OFF, IDLE and DRY (R69). -/
def Demand.rest (d : Demand) : Demand :=
  { d with ds := 0, rawSum := 0, saturated := false, errorClamped := false }

/-- The latent demand (R70). -/
def latent (p : ZoneParams) (e : Errors) (call : Call) : Nat :=
  match e.humidity with
  | some r => if call ≠ .off ∧ 0 < r then (clamp 0 1000 (nearest (r * p.kl) 10)).toNat else 0
  | none => 0

/-- Stages 2 to 4 of an expiry (R52). -/
def Demand.expiry (d : Demand) (yielded zoneOn : Bool) (p : ZoneParams) (e : Errors) : Demand :=
  let d1 := d.enter (nextCall yielded zoneOn e d.call d.ds)
  let d2 := if d1.call = .cool ∨ d1.call = .heat then d1.sensible p e else d1.rest
  { d2 with dl := latent p e d2.call }

/-- DEMAND_TIMER (R52, R57, R71): the call's prompt, and the hand-off, after which the Airflow Share Unit
recomputes. -/
def execDemandTimer (s : State) : Host.Outcome State Fault Refusal :=
  if s.zoneReady then
    let e := s.errors
    let d := s.demand.expiry s.line.yielded s.sensors.zoneSwitch s.zp e
    let s1 := s.setDemand d
    let s2 := if d.call ≠ s.demand.call then s1.prompt else s1
    let s3 := s2.setShare
      { s2.share with
        inputs := { call := d.call, ds := d.ds, dl := d.dl, tempFault := e.tempFault } }
    advance s3.recompute.settle
  else advance s

/-! ## The Damper Drive's events (R85, R87, R90, R92) -/

/-- HOMING_STEP_COMPLETION (R85). -/
def execHomingStepCompletion (stall : Bool) (s : State) : Host.Outcome State Fault Refusal :=
  if s.zoneReady && decide (s.damper.state = .homing) then
    advance (s.setDamper (s.damper.homingStep stall))
  else advance s

/-- STEP_COMPLETION (R90, R92, R94): entry to FAULTED raises its prompt and recomputes. -/
def execStepCompletion (stall : Bool) (s : State) : Host.Outcome State Fault Refusal :=
  if s.zoneReady && decide (s.damper.state = .moving) then
    let s1 := s.setDamper (s.damper.moveStep stall)
    if s1.damper.state = .faulted then advance s1.prompt.recompute.settle else advance s1
  else advance s

/-- BUDGET_REFILL_TIMER (R87, R90). -/
def execBudgetRefillTimer (s : State) : Host.Outcome State Fault Refusal :=
  if s.zoneReady then advance (s.setDamper s.damper.refill) else advance s

/-- REHOME_AGE_TIMER (R92). -/
def execRehomeAgeTimer (s : State) : Host.Outcome State Fault Refusal :=
  if s.zoneReady then
    advance (s.setDamper { s.damper with rehomeAge := s.damper.rehomeAge.map fun a => ageUp a 1 })
  else advance s

end Sys2Proof.Machine
end

