-- ==== Sys2Proof/Machine/Dispatch.lean ====
section
/-! DEFINITION. One command's effect on everything but the queue: one arm per constructor of Instr. -/

namespace Sys2Proof.Machine

def exec (i : Instr) (s : State) : Host.Outcome State Fault Refusal :=
  match i with
  | .powerOnReset => Sys2Proof.Machine.execPowerOnReset s
  | .resetInputAsserted => Sys2Proof.Machine.execResetInputAsserted s
  | .resetRelease kind straps => Sys2Proof.Machine.execResetRelease kind straps s
  | .readAttempt octets => Sys2Proof.Machine.execReadAttempt octets s
  | .readRetryTimer => Sys2Proof.Machine.execReadRetryTimer s
  | .tokenRefillTimer => Sys2Proof.Machine.execTokenRefillTimer s
  | .lineIdle => Sys2Proof.Machine.execLineIdle s
  | .attemptBegin => Sys2Proof.Machine.execAttemptBegin s
  | .attemptComplete => Sys2Proof.Machine.execAttemptComplete s
  | .collision bit => Sys2Proof.Machine.execCollision bit s
  | .frameReceived octets => Sys2Proof.Machine.execFrameReceived octets s
  | .frameAbandoned octets => Sys2Proof.Machine.execFrameAbandoned octets s
  | .zonePeriodicTimer => Sys2Proof.Machine.execZonePeriodicTimer s
  | .plantPeriodicTimer => Sys2Proof.Machine.execPlantPeriodicTimer s
  | .summaryTimer => Sys2Proof.Machine.execSummaryTimer s
  | .ageTimer => Sys2Proof.Machine.execAgeTimer s
  | .graceTimer => Sys2Proof.Machine.execGraceTimer s
  | .headFrameArrival octets => Sys2Proof.Machine.execHeadFrameArrival octets s
  | .headFrameAbandoned octets => Sys2Proof.Machine.execHeadFrameAbandoned octets s
  | .lossTimer => Sys2Proof.Machine.execLossTimer s
  | .sensorTimer pins contactsFirst => Sys2Proof.Machine.execSensorTimer pins contactsFirst s
  | .demandTimer => Sys2Proof.Machine.execDemandTimer s
  | .homingStepCompletion stall => Sys2Proof.Machine.execHomingStepCompletion stall s
  | .stepCompletion stall => Sys2Proof.Machine.execStepCompletion stall s
  | .budgetRefillTimer => Sys2Proof.Machine.execBudgetRefillTimer s
  | .rehomeAgeTimer => Sys2Proof.Machine.execRehomeAgeTimer s
  | .plantControlTimer => Sys2Proof.Machine.execPlantControlTimer s
  | .offHoldTimer => Sys2Proof.Machine.execOffHoldTimer s
  | .protectionTimer => Sys2Proof.Machine.execProtectionTimer s
  | .listeningTimer => Sys2Proof.Machine.execListeningTimer s
  | .stepDelayExpiry => Sys2Proof.Machine.execStepDelayExpiry s
  | .stepTimeExit => Sys2Proof.Machine.execStepTimeExit s
  | .stepTimeLimit => Sys2Proof.Machine.execStepTimeLimit s
  | .emergencyHoldTick => Sys2Proof.Machine.execEmergencyHoldTick s
  | .retainedTimer => Sys2Proof.Machine.execRetainedTimer s
  | .frostTimer => Sys2Proof.Machine.execFrostTimer s
  | .startBitSeen => Sys2Proof.Machine.execStartBitSeen s
  | .framingError octets => Sys2Proof.Machine.execFramingError octets s

end Sys2Proof.Machine
end

