-- ==== Sys2Proof/WellFormed.lean ====
section
/-! DEFINITION. Which commands are well formed: the operands the manual's ranges admit. The machine gives
every command an outcome; these checks say which operands can come from the part's pins. -/

namespace Sys2Proof

/-- The four ADDR straps give 0 to 15 (R182). -/
def Straps.wf (st : Straps) : Bool := st.addr < 16

/-- Operand checks, one for each constraint the manual puts on what an event brings:
the straps' address range (R182), at most the 38 octets of the image (R183, R195), a collision inside the
longest frame of 36 octets of 10 bits (R3), and at least one octet in a frame taken whole (R3, R196). -/
def Instr.wf (i : Instr) : Bool :=
  match i with
  | .resetRelease _ straps => straps.wf
  | .readAttempt octets => octets.length ≤ 38
  | .collision bit => bit < 360
  | .frameReceived octets => !octets.isEmpty
  | .headFrameArrival octets => !octets.isEmpty
  | .powerOnReset | .resetInputAsserted | .readRetryTimer | .tokenRefillTimer | .lineIdle
  | .attemptBegin | .attemptComplete | .frameAbandoned _ | .zonePeriodicTimer
  | .plantPeriodicTimer | .summaryTimer | .ageTimer | .graceTimer | .headFrameAbandoned _
  | .lossTimer | .sensorTimer _ _ | .demandTimer | .homingStepCompletion _ | .stepCompletion _
  | .budgetRefillTimer | .rehomeAgeTimer | .plantControlTimer | .offHoldTimer
  | .protectionTimer | .listeningTimer | .stepDelayExpiry | .stepTimeExit | .stepTimeLimit
  | .emergencyHoldTick | .retainedTimer | .frostTimer | .startBitSeen | .framingError _ => true

end Sys2Proof
end

