-- ==== Sys2Proof/Safety.lean ====
section
/-! DEFINITION. What counts as a sound station, in the terms the claims use: the ranges and the relations between
items that the manual's rules promise of every moment, block by block. Each is a property of one state; the
claims say that every step keeps it and that the part has it at reset. -/

namespace Sys2Proof.Machine

/-! ## Commands -/

/-- The commands that come from timers running from READY, from the head link and from the station's own
attempts: none of them is due before READY (R7, R9, R12, R26, R33, R36 to R38, R52, R84, R87, R92, R97, R110,
R127, R134, R140, R147, R169). -/
def awaitsReady (c : Instr) : Bool :=
  match c with
  | .tokenRefillTimer | .attemptBegin | .zonePeriodicTimer | .plantPeriodicTimer | .summaryTimer
  | .ageTimer | .graceTimer | .headFrameArrival _ | .headFrameAbandoned _ | .lossTimer
  | .sensorTimer _ _ | .demandTimer | .homingStepCompletion _ | .stepCompletion _
  | .budgetRefillTimer | .rehomeAgeTimer | .plantControlTimer | .offHoldTimer | .protectionTimer
  | .listeningTimer | .stepDelayExpiry | .stepTimeExit | .stepTimeLimit | .emergencyHoldTick
  | .frostTimer => true
  | .powerOnReset | .resetInputAsserted | .resetRelease _ _ | .readAttempt _ | .readRetryTimer
  | .lineIdle | .attemptComplete | .collision _ | .frameReceived _ | .frameAbandoned _
  | .retainedTimer | .startBitSeen | .framingError _ => false

/-! ## Parameters (R185) -/

/-- The ranges of the zone parameter set (R185). -/
structure ZoneParams.InRange (p : ZoneParams) : Prop where
  weight : 1 ≤ p.weight ∧ p.weight ≤ 100
  halfBand : 25 ≤ p.halfBand ∧ p.halfBand ≤ 200
  rhTarget : 400 ≤ p.rhTarget ∧ p.rhTarget ≤ 700
  kp : p.kp ≤ 1000
  ki : p.ki ≤ 100
  kl : 1 ≤ p.kl ∧ p.kl ≤ 100
  omin : p.omin ≤ 100
  faultOpening : p.faultOpening ≤ 50

/-- The ranges of the plant parameter set, the dependent ones against the values they depend on (R185). -/
structure PlantParams.InRange (p : PlantParams) : Prop where
  startThreshold : 100 ≤ p.startThreshold ∧ p.startThreshold ≤ 400
  stopThreshold : 50 ≤ p.stopThreshold ∧ p.stopThreshold + 20 ≤ p.startThreshold
  cmin : 150 ≤ p.cmin ∧ p.cmin ≤ 500
  fanAirflow : 200 ≤ p.fanAirflow ∧ p.fanAirflow ≤ 1000
  pmax : 100 ≤ p.pmax ∧ p.pmax ≤ 400
  ptrip : p.pmax + 50 ≤ p.ptrip ∧ p.ptrip ≤ 500
  minRun : 120 ≤ p.minRun ∧ p.minRun ≤ 900
  antiShort : 120 ≤ p.antiShort ∧ p.antiShort ≤ 600
  defrostInterval : 1200 ≤ p.defrostInterval ∧ p.defrostInterval ≤ 5400

/-- The set of the role is held exactly in READY (R185). -/
def Loader.holdsItsSet (l : Loader) : Prop :=
  match l.state, l.straps.role with
  | .ready, .zone => l.zone.isSome = true ∧ l.plant = none
  | .ready, .plant => l.plant.isSome = true ∧ l.zone = none
  | .idle, _ | .configHalt, _ | .reading, _ | .checking, _ => l.zone = none ∧ l.plant = none

/-- Every parameter set that the loader holds is in range and held exactly in READY, and the load state is IDLE
exactly while a reset is asserted (R182, R183, R185, R188). -/
structure Loader.Sound (l : Loader) : Prop where
  zone : ∀ p, l.zone = some p → p.InRange
  plant : ∀ p, l.plant = some p → p.InRange
  holds : l.holdsItsSet
  idle : l.state = .idle ↔ l.powerAsserted = true ∨ l.inputAsserted = true
  attempts : l.attempts ≤ 4
  retry : l.retryWait = true → l.attempts ≤ 3

/-! ## The peer table (R19, R23) -/

/-- Fifteen entries at the addresses 1 to 15 in order, all EMPTY before READY, the stored one at the own address
always so, since the own entry is computed (R19, R23). -/
structure State.TableSound (s : State) : Prop where
  addresses : s.peers.entries.map PeerEntry.address = [1, 2, 3, 4, 5, 6, 7, 8, 9, 10, 11, 12, 13, 14, 15]
  empty : s.ready = false → ∀ e ∈ s.peers.entries, e.held = none
  own : ∀ e ∈ s.peers.entries, e.address = s.address → e.held = none

/-- The ranges of a zone record's fields (R6, R21, R190): the target is a multiple of 50. -/
structure ZoneRecord.InRange (r : ZoneRecord) : Prop where
  ds : r.ds ≤ 1000
  dl : r.dl ≤ 1000
  weight : 1 ≤ r.weight ∧ r.weight ≤ 100
  tier : r.tier ≤ 2
  base : r.base.orZero ≤ 100
  relief : r.relief ≤ 100
  position : r.position.orZero ≤ 100
  roomTemp : -2000 ≤ r.roomTemp ∧ r.roomTemp ≤ 6000
  roomRh : r.roomRh ≤ 1000
  target : ∃ n : Nat, n ≤ 28 ∧ r.target = 1600 + 50 * (n : Int)

/-- The ranges of a plant record's fields (R6, R22, R191). -/
structure PlantRecord.InRange (r : PlantRecord) : Prop where
  f : r.f ≤ 140000
  capacity : r.capacity ≤ 1000
  blower : r.blower ≤ 1000
  supplyAir : -4000 ≤ r.supplyAir ∧ r.supplyAir ≤ 9000
  outdoorAir : -4000 ≤ r.outdoorAir ∧ r.outdoorAir ≤ 9000

/-- The contents of an entry lie in the ranges that R6 clamps them to (R6, R20). -/
def Contents.InRange (c : Contents) : Prop :=
  match c with
  | .zone r => r.InRange
  | .plant r => r.InRange

/-- An entry whose age reaches its class's LATE threshold at this age timer expiry (R26, R27). -/
def PeerEntry.turnsLate (e : PeerEntry) : Bool :=
  match e.held with
  | some { freshness := .fresh, age := n, contents := .zone _ } => 60 ≤ n + 1
  | some { freshness := .fresh, age := n, contents := .plant _ } => 30 ≤ n + 1
  | _ => false

/-- A LATE entry whose age reaches its class's removal threshold at this age timer expiry (R26, R28). -/
def PeerEntry.isRemoved (e : PeerEntry) : Bool :=
  match e.held with
  | some { freshness := .late, age := n, contents := .zone _ } => 160 ≤ n + 1
  | some { freshness := .late, age := n, contents := .plant _ } => 80 ≤ n + 1
  | _ => false

/-- An entry other than the own one after an age timer expiry (R26, R27, R28). -/
def PeerEntry.afterAgeTimer (e : PeerEntry) : PeerEntry :=
  match e.held with
  | none => e
  | some h =>
    if e.isRemoved then { e with held := none }
    else
      { e with
        held := some
          { h with
            age := min 65535 (h.age + 1)
            freshness := if e.turnsLate then .late else h.freshness } }

/-- The followed plant is the lowest-addressed present plant not in STANDBY; PLANT_LOST stands exactly when there is
none and the grace has expired; and the two plant views hold the followed plant's facts, or nothing (R31, R33, R54,
R74). Outside a READY zone station nothing is followed. -/
structure State.FollowSound (s : State) : Prop where
  followed : s.peers.followed = if s.zoneReady = true then s.peers.choose else none
  lost : s.peers.plantLost = true ↔
    s.zoneReady = true ∧ s.peers.followed = none ∧ s.peers.grace = .expired
  grace : s.zoneReady = true ↔ s.peers.grace ≠ .stopped
  demandView : s.demand.view =
    s.peers.followedRecord.map fun r => { mode := r.mode, delivering := r.delivering }
  shareView : s.share.view =
    s.peers.followedRecord.map fun r => { mode := r.mode, state := r.state, f := r.f }

/-- Two followed plants, or a plant and none, whose facts call for no recomputation: the mode, delivering and the
published opening are the same, and the plant state neither enters nor leaves DEFROST (R75 items 2 to 4). -/
def sameForSharing (old new : Option PlantRecord) : Prop :=
  match old, new with
  | none, none => True
  | some o, some n =>
    o.mode = n.mode ∧ o.delivering = n.delivering ∧ o.f = n.f ∧
      (o.state = .defrost ↔ n.state = .defrost)
  | none, some _ | some _, none => False

/-- The entries of the table other than the own one (R23, R26). -/
def State.others (s : State) : List PeerEntry := s.peers.entries.filter fun e => e.address ≠ s.address

/-! ## The zone line (R7, R8, R12, R15, R17) -/

/-- Tokens, collision counts, what an attempt, a wait and YIELDED mean for the flags, and what the two counts say of
the line: an octet holds both at 0, the station's own octets among them, and no frame is still arriving at a gap of
more than 20 bit times (R2, R4, R7, R8, R12, R13, R15, R17). -/
structure LineState.Sound (l : LineState) : Prop where
  tokens : l.tokens ≤ 3
  collided : ∀ k, (l.kind k).k ≤ 7
  waiting : ∀ k, l.waiting = some k → (l.kind k).pending = true
  attempt : ∀ a, l.attempt = some a →
    1 ≤ l.tokens ∧ (l.kind a.kind).pending = true ∧ l.waiting = none
  yielded : l.yielded = true → l.waiting = none ∧ l.attempt = none
  counts : l.gap ≤ l.quiet ∧ l.quiet ≤ 30
  octet : l.octetOnLine = true → l.quiet = 0 ∧ l.gap = 0
  arriving : l.rx.inFrame = true → l.quiet ≤ 20
  driving : ∀ a, l.attempt = some a → l.octetOnLine = true ∧ l.rx.inFrame = false ∧ 30 ≤ a.gap

/-! ## The zone's blocks (R51, R73, R84, R87) -/

/-- The Demand Engine's ranges (R51). -/
structure Demand.Sound (d : Demand) : Prop where
  integral : 0 ≤ d.integral ∧ d.integral ≤ 100000
  rawSum : -5000 ≤ d.rawSum ∧ d.rawSum ≤ 6000
  ds : d.ds ≤ 1000
  dl : d.dl ≤ 1000

/-- The Airflow Share Unit's ranges: base plus relief lies within 0 to 100, no relief in tier 0, and the target
is their sum (R73, R83). -/
structure Share.Sound (x : Share) : Prop where
  tier : x.tier ≤ 2
  sum : x.base.orZero + x.relief ≤ 100
  relief : x.tier = 0 → x.relief = 0
  target : x.target = targetOf x.base x.relief
  inputs : x.inputs.ds ≤ 1000 ∧ x.inputs.dl ≤ 1000

/-- The position is known exactly in HOLDING, MOVING and WAITING_BUDGET (R84). -/
def DriveState.positioned (d : DriveState) : Bool :=
  match d with
  | .holding | .moving | .waitingBudget => true
  | .unhomed | .homing | .faulted => false

/-- The Damper Drive's ranges, which states know the position, and what a step in progress and a wait for the
budget mean (R84, R85, R87, R90). -/
structure Damper.Sound (d : Damper) : Prop where
  known : d.position.isSome = d.state.positioned
  position : ∀ p, d.position = some p → p ≤ 1200
  taken : ∀ t, d.taken = some t → t ≤ 1200
  stored : ∀ t, d.stored = some t → t ≤ 1200
  budget : d.budget ≤ 2400
  homing : d.homingSteps ≤ 1320 ∧ (d.state = .homing → d.homingSteps < 1320)
  age : ∀ a, d.rehomeAge = some a → a ≤ 65535
  moving : d.state = .moving → ∃ p t dir, d.position = some p ∧ d.taken = some t ∧ d.step = some dir ∧
    (dir = .opening → p < 1200) ∧ (dir = .closing → 1 ≤ p)
  waiting : d.state = .waitingBudget → ∃ p t, d.position = some p ∧ d.taken = some t ∧ t ≠ p
  faulted : d.state = .faulted → d.taken = none ∧ d.stored = none
  step : d.step.isSome = (d.state = .homing ∨ d.state = .moving)

/-- The zone's blocks together (R51, R73, R84). -/
structure State.ZoneSound (s : State) : Prop where
  loader : s.loader.Sound
  demand : s.demand.Sound
  share : s.share.Sound
  damper : s.damper.Sound

/-- Before READY and in the plant role the zone's blocks stand at their reset values (R182, R187). -/
def State.ZoneHeld (s : State) : Prop :=
  s.zoneReady = false → s.demand = .reset ∧ s.share = .reset ∧ s.damper = .reset

/-! ## The plant's outputs (R118, R123, R187) -/

/-- The steps of a procedure's chain; a CHANGEOVER goes on through the START chain (R142 to R147). -/
def Proc.chain (p : Proc) : List StepId :=
  match p with
  | .emergency _ => [.e1, .e2]
  | .stop _ => [.t1, .t2, .t3]
  | .defrost => [.d1, .d2, .d3, .d4, .d5, .d6, .d7, .d8, .d9, .d10]
  | .changeover => [.x1, .x2, .x3, .s1, .s2, .s3, .s4]
  | .start => [.s1, .s2, .s3, .s4]

/-- The engine is between procedures: no procedure, no step, and no action of a step in force (R134, R138). -/
structure Engine.Resting (e : Engine) : Prop where
  state : e.state = .idle
  running : e.running = none
  step : e.step = none
  speedHold : e.speedHold = none
  blowerHold : e.blowerHold = none

/-- The compressor, the speed command and the blower command as the manual promises them at every moment (R118,
R123, R187), with what keeps the promise: the caps' ranges (R113, R117), and which step may hold which value
(R139, R142 to R147). -/
structure State.PlantSound (s : State) : Prop where
  loader : s.loader.Sound
  /-- before READY and in the other role the controller and the engine stand at their reset values -/
  held : s.plantReady = false → s.capacity = .reset ∧ s.engine.Resting ∧ s.engine.run = false
  /-- the speed command is 0 while the run output is off -/
  off : s.engine.run = false → s.capacity.speedCommand = 0 ∧ s.capacity.speedFollows = false
  /-- and lies within Cmin to 1000 while it is on -/
  on : s.engine.run = true → s.pp.cmin ≤ s.capacity.speedCommand ∧ s.capacity.speedCommand ≤ 1000
  /-- the command follows the loop or is the value a step holds -/
  follows : s.engine.run = true →
    match s.engine.speedHold with
    | none => s.capacity.speedFollows = true ∧ s.capacity.loopSpeed = s.capacity.speedCommand
    | some v => s.capacity.speedFollows = false ∧ s.capacity.speedCommand = v
  /-- a running compressor has air, but for a DEFROST -/
  air : s.engine.run = true → s.engine.running = some .defrost ∨ 1 ≤ s.capacity.blowerCommand
  caps : s.pp.cmin ≤ s.capacity.freezeCap ∧ s.capacity.freezeCap ≤ 1000 ∧
    s.pp.cmin ≤ s.capacity.supplyCap ∧ s.capacity.supplyCap ≤ 1000
  /-- with no procedure running nothing of a step is in force -/
  idle : s.engine.running = none → s.engine.Resting
  /-- an IDLE engine runs no procedure -/
  between : s.engine.state = .idle → s.engine.running = none
  /-- the current step belongs to the running procedure -/
  chain : ∀ p st, s.engine.running = some p → s.engine.step = some st → st ∈ p.chain
  /-- only a DEFROST, or an EMERGENCY with the compressor off, holds the blower off -/
  blower : s.engine.blowerHold = some 0 →
    s.engine.running = some .defrost ∨ (s.engine.inEmergency = true ∧ s.engine.run = false)
  /-- in STANDBY and YIELDED the compressor is off and no procedure runs -/
  aside : s.aside = true → s.engine.run = false ∧ s.engine.running = none

/-- In STANDBY and YIELDED, before READY and in the zone role the equipment is off: compressor, speed and blower, with
the valve output de-energised (R35 step 1, R153, R187). -/
def State.EquipmentSafe (s : State) : Prop :=
  s.aside = true ∨ s.plantReady = false →
    s.engine.run = false ∧ s.capacity.speedCommand = 0 ∧ s.capacity.blowerCommand = 0 ∧
      s.valveEnergised = false

/-- The compressor has been stopped by a STOP with this reason, which stands at T2: run and speed off, the blower at the
fan airflow, the time of T2 by the mode, and an open run closed with the reason's cause (R143, R162). -/
structure State.StoppedAtT2 (s t : State) (r : StopReason) : Prop where
  running : t.engine.running = some (.stop r)
  step : t.engine.step = some .t2 ∧ t.engine.state = .running
  time : t.engine.exitTime = some (if s.modeSel.mode = .heat then 90 else 60)
  off : t.engine.run = false ∧ t.capacity.speedCommand = 0 ∧ t.capacity.blowerCommand = s.pp.fanAirflow
  closed : t.protection.run = none ∧ t.protection.waiting = none
  record : s.protection.run.isSome = true →
    ∃ rec, t.protection.history.getLast? = some rec ∧ rec.cause = r.cause

/-- An EMERGENCY has just begun: it stands at E2 with its hold, the equipment off, the valve where it was, an open run
closed with its cause, and a procedure that ran aborted (R136, R147, R149, R162). -/
structure State.EmergencyAtE2 (s t : State) (c : EmergencyCause) (hold : Nat) : Prop where
  running : t.engine.running = some (.emergency c)
  step : t.engine.step = some .e2 ∧ t.engine.state = .running
  hold : t.engine.emergencyHold = hold
  off : t.engine.run = false ∧ t.capacity.speedCommand = 0 ∧ t.capacity.blowerCommand = 0
  valve : t.engine.valve = s.engine.valve
  closed : t.protection.run = none ∧ t.protection.waiting = none
  record : s.protection.run.isSome = true →
    ∃ rec, t.protection.history.getLast? = some rec ∧ rec.cause = c.cause
  aborted : t.engine.aborted = if s.engine.running.isSome = true then s.engine.aborted + 1 else s.engine.aborted

/-- The engine stands WAITING at a step of the running procedure, its request at the Protection Unit (R140, R157). -/
structure State.WaitsAt (s : State) (p : Proc) (st : StepId) (g : GuardRequest) : Prop where
  state : s.engine.state = .waiting
  running : s.engine.running = some p
  step : s.engine.step = some st
  request : s.protection.waiting = some g

/-! ## The Protection Unit and the Frost Estimator (R154, R161 to R165, R168) -/

/-- A run record's ranges; DEMAND and CHANGEOVER never give a short record (R162, R163). -/
structure RunRecord.Sound (r : RunRecord) : Prop where
  startAge : r.startAge ≤ 65535
  duration : r.duration ≤ 65535
  short : r.short = true → r.cause ≠ .demand ∧ r.cause ≠ .changeover

/-- The Protection Unit's ranges; the progress stands at 0 while the budget is full, and the doubling flag says
whether the newest record is short (R154, R161, R162, R163, R165). -/
structure Protection.Sound (p : Protection) : Prop where
  stopAge : p.stopAge ≤ 65535
  valveAge : p.valveAge ≤ 65535
  run : ∀ a, p.run = some a → a ≤ 65535
  budget : p.budget ≤ 4
  progress : p.progress ≤ 899
  full : p.budget = 4 → p.progress = 0
  history : p.history.length ≤ 8
  records : ∀ r ∈ p.history, r.Sound
  doubling : p.doubling = newestShort p.history
  lockout : ∀ n, p.lockout = some n → 1 ≤ n ∧ n ≤ 1800

/-- The Protection Unit after stages 1 to 3 of a retained timer expiry: the ages and the refill of the budget, and an
active LOCKOUT counted down; before READY the valve age and the run are held (R154, R161, R162, R165, R167). -/
def Protection.afterSecond (p : Protection) (ready : Bool) : Protection :=
  { p with
    stopAge := min 65535 (p.stopAge + 1)
    valveAge := if ready = true then min 65535 (p.valveAge + 1) else p.valveAge
    run := if ready = true then p.run.map fun age => min 65535 (age + 1) else p.run
    history := p.history.map fun r => { r with startAge := min 65535 (r.startAge + 1) }
    budget := if p.budget < 4 ∧ 899 ≤ p.progress then p.budget + 1 else p.budget
    progress :=
      if 4 ≤ p.budget then p.progress else if 899 ≤ p.progress then 0 else p.progress + 1
    lockout := p.lockout.bind fun n => if n ≤ 1 then none else some (n - 1) }

/-- The conditions of a START grant on the unit's items (R155, R158). -/
def State.StartConditions (s : State) (p : Protection) : Prop :=
  (∀ r, p.history.getLast? = some r → 420 ≤ r.startAge) ∧
    (if p.doubling = true then 2 * s.pp.antiShort else s.pp.antiShort) ≤ p.stopAge ∧ 30 ≤ p.valveAge ∧
    1 ≤ p.budget ∧ p.lockout = none ∧
    (s.sensors.condensate.asserted = false ∨ s.modeSel.mode = .heat) ∧ s.engine.emergencyHold = 0

/-- The conditions under which a request is answered, on the unit's items (R157). -/
def State.AnswerConditions (s : State) (p : Protection) (g : GuardRequest) : Prop :=
  match g with
  | .start => s.StartConditions p
  | .stop => ∀ age, p.run = some age → s.pp.minRun ≤ age
  | .valve => 60 ≤ p.stopAge ∧ 60 ≤ p.valveAge
  | .spacing => 60 ≤ p.stopAge

/-- The emergency hold is at most 300 s, and 0 whenever no EMERGENCY runs (R134, R147). -/
def Engine.HoldSound (e : Engine) : Prop :=
  e.emergencyHold ≤ 300 ∧ (e.inEmergency = false → e.emergencyHold = 0)

/-- The Frost Estimator's ranges (R168). -/
structure Frost.Sound (f : Frost) : Prop where
  index : f.index ≤ 10000
  accumulation : f.accumulation ≤ 59
  gapTimer : f.gapTimer ≤ 900
  interval : f.interval ≤ 65535
  timed : f.timed ≤ 2700

/-- The plant's memory together: the Protection Unit, the emergency hold and the Frost Estimator. -/
structure State.RecordSound (s : State) : Prop where
  protection : s.protection.Sound
  hold : s.engine.HoldSound
  frost : s.frost.Sound

/-! ## Measured inputs (R45 to R47) -/

/-- What a GOOD reading makes of an input: it seeds it, moves a valid one by a fraction of the difference, and counts
toward a FAULTED one's recovery, which the tenth completes (R45, R47). -/
structure Input.TakesGood (i j : Input) (divisor : Nat) (raw : Int) : Prop where
  seeded : i.state = .unseeded → j.state = .tracking ∧ j.filtered = some raw ∧ j.hold = 0
  moved : ∀ f, i.state = .tracking ∨ i.state = .holding → i.filtered = some f →
    j.state = .tracking ∧ j.filtered = some (f + nearest (raw - f) divisor) ∧ j.hold = 0
  recovering : i.state = .faulted → i.recovery < 9 →
    j.state = .faulted ∧ j.filtered = i.filtered ∧ j.recovery = i.recovery + 1
  recovered : i.state = .faulted → 9 ≤ i.recovery →
    j.state = .tracking ∧ j.filtered = some raw ∧ j.hold = 0 ∧ j.recovery = 0

/-- What a REJECTED, INVALID or MISSING reading makes of an input: the filtered value stays, the input holds and counts,
at 30 it is FAULTED, and a FAULTED one's recovery starts again (R46, R47). -/
structure Input.TakesBad (i j : Input) : Prop where
  kept : j.filtered = i.filtered
  tracking : i.state = .tracking → j.state = .holding ∧ j.hold = 1
  counting : i.state = .holding ∨ i.state = .unseeded → j.hold = i.hold + 1 ∧
    j.state = (if 30 ≤ i.hold + 1 then .faulted else i.state) ∧ (30 ≤ i.hold + 1 → j.recovery = 0)
  faulted : i.state = .faulted → j.state = .faulted ∧ j.recovery = 0 ∧ j.hold = i.hold

/-- A reading acts on an input: GOOD in its range and bad outside it (R43, R45, R46). -/
def Input.Measures (i j : Input) (divisor : Nat) (low high raw : Int) : Prop :=
  j.raw = some raw ∧
    (low ≤ raw ∧ raw ≤ high → i.TakesGood j divisor raw) ∧ (raw < low ∨ high < raw → i.TakesBad j)

/-- A measured input's items: a filtered value in the input's range, none while UNSEEDED and one while valid, a hold
count below 30 until FAULTED, and a recovery count below 10 (R43, R45, R46, R47). -/
structure Input.InRange (i : Input) (low high : Int) : Prop where
  filtered : ∀ f, i.filtered = some f → low ≤ f ∧ f ≤ high
  unseeded : i.state = .unseeded → i.filtered = none
  valid : i.valid = true → i.filtered.isSome = true
  hold : i.hold ≤ 30 ∧ (i.state ≠ .faulted → i.hold < 30)
  recovery : i.recovery ≤ 9

/-- The Sensor Inputs' ranges (R39, R41, R42, R43). -/
structure Sensors.InRange (x : Sensors) : Prop where
  roomTemp : x.roomTemp.InRange (-2000) 6000
  roomRh : x.roomRh.InRange 0 1000
  supplyAir : x.supplyAir.InRange (-4000) 9000
  indoorCoil : x.indoorCoil.InRange (-4000) 9000
  outdoorAir : x.outdoorAir.InRange (-4000) 9000
  outdoorCoil : x.outdoorCoil.InRange (-4000) 9000
  staticPressure : x.staticPressure.InRange 0 500
  target : ∃ n : Nat, n ≤ 28 ∧ x.target = 1600 + 50 * (n : Int)

/-- The Capacity Controller's ranges (R113, R121). Fmax is what fourteen zones of weight 100 open at most, each with base
and relief of at most 100 as R6 clamps them one by one; the range that R113 gives it supposes reports whose base and
relief together are at most 100. -/
structure Capacity.InRange (x : Capacity) : Prop where
  c : x.c ≤ 1000
  counts : x.startCount ≤ 2 ∧ x.stopCount ≤ 3
  airflow : x.airflow ≤ 1000 ∧ x.effective ≤ 1000 ∧ x.effectiveRunning ≤ 1000
  opening : x.f ≤ x.fmax ∧ x.f ≤ 140000 ∧ x.fmax ≤ 280000
  blower : x.blowerLimit ≤ 1000 ∧ x.loopBlower ≤ 1000 ∧ x.blowerCommand ≤ 1000
  protection : x.staticCount ≤ 10 ∧ x.freezeCount ≤ 120 ∧ x.airflowCount ≤ 60

/-- The numeric items that reports carry, and those they are formed from, lie in their ranges: the address of a READY
station, the table's records, the Sensor Inputs, the weights and timers of the Mode Selector, the Capacity Controller, and
the blower action of a step (R6, R20, R39, R41 to R43, R96, R113, R123, R182, R183). -/
structure State.RangesSound (s : State) : Prop where
  address : s.loader.state ≠ .idle → s.address ≤ 15 ∧ (s.address = 0 ↔ s.loader.state = .configHalt)
  table : ∀ e ∈ s.peers.entries, ∀ h, e.held = some h → h.age ≤ 65535 ∧ h.contents.InRange
  sensors : s.sensors.InRange
  weights : s.modeSel.wc ≤ 1400000 ∧ s.modeSel.wh ≤ 1400000 ∧ s.modeSel.wd ≤ 1400000
  ages : s.modeSel.modeAge ≤ 65535 ∧ s.modeSel.shiftAge ≤ 65535 ∧ s.modeSel.quiet ≤ 65535 ∧
    s.modeSel.dominance ≤ 65535
  capacity : s.capacity.InRange
  blowerHold : ∀ v, s.engine.blowerHold = some v → v ≤ 1000

/-! ## Payloads, by the offsets of the manual's tables (R189 to R194) -/

/-- A ZONE payload (R190). -/
structure ZonePayload (tag : Tag) (r : ZoneRecord) (p : List Byte) : Prop where
  length : p.length = 18
  tag : get24 p 0 = tag.toNat
  call : [Call.off, .idle, .cool, .heat, .dry][octetAt p 3 / 16]? = some r.call
  tier : octetAt p 3 % 16 = r.tier
  demands : get16 p 4 = r.ds ∧ get16 p 6 = r.dl
  weight : octetAt p 8 = r.weight
  base : r.base = if octetAt p 9 = 255 then .unknown else .percent (octetAt p 9)
  relief : octetAt p 10 = r.relief
  position : r.position = if octetAt p 11 = 255 then .unknown else .percent (octetAt p 11)
  room : getTemp p 12 = r.roomTemp ∧ get16 p 14 = r.roomRh
  target : r.target = 1600 + 50 * (octetAt p 16 : Int)
  flags : octetAt p 17 < 128 ∧ flagAt p 17 0 = r.flags.sensorFault ∧ flagAt p 17 1 = r.flags.damperFault ∧
    flagAt p 17 2 = r.flags.demandSaturated ∧ flagAt p 17 3 = r.flags.reliefOptOut ∧
    flagAt p 17 4 = r.flags.plantLost ∧ flagAt p 17 5 = r.flags.configDefaulted ∧
    flagAt p 17 6 = r.flags.configClamped

/-- A PLANT payload (R191). -/
structure PlantPayload (tag : Tag) (r : PlantRecord) (p : List Byte) : Prop where
  length : p.length = 20
  tag : get24 p 0 = tag.toNat
  mode : [Mode.off, .fan, .cool, .dry, .heat][octetAt p 3]? = some r.mode
  state : [PlantState.idle, .starting, .running, .stopping, .changeover, .defrost, .emergency, .lockout,
    .standby][octetAt p 4]? = some r.state
  delivering : [false, true][octetAt p 5]? = some r.delivering
  f : get32 p 6 = r.f
  commands : get16 p 10 = r.capacity ∧ get16 p 12 = r.blower
  air : getTemp p 14 = r.supplyAir ∧ getTemp p 16 = r.outdoorAir
  flags : octetAt p 18 < 128 ∧ flagAt p 18 0 = r.flags.airflowLimited ∧
    flagAt p 18 1 = r.flags.pressureLimiting ∧ flagAt p 18 2 = r.flags.defrostPending ∧
    flagAt p 18 3 = r.flags.budgetEmpty ∧ flagAt p 18 4 = r.flags.peerLate ∧
    flagAt p 18 5 = r.flags.configDefaulted ∧ flagAt p 18 6 = r.flags.configClamped
  fill : octetAt p 19 = 0

/-- The input state of a two-bit code (section 12.4). -/
def inputOfCode (n : Nat) : Option InputState := [InputState.unseeded, .tracking, .holding, .faulted][n]?

/-- The load result octet: the result in bits 0 to 2, the two flags in bits 6 and 7 (section 12.4). -/
def Loader.ResultAt (l : Loader) (p : List Byte) (offset : Nat) : Prop :=
  [LoadResult.none, .loaded, .loadedClamped, .noMemory, .noAck, .badVersion, .badLength,
      .badCrc][octetAt p offset % 8]? = some l.result ∧
    flagAt p offset 6 = l.defaulted ∧ flagAt p offset 7 = l.clamped

/-- The two pages of a zone station's SUMMARY (R193). -/
structure ZoneSummaryPage (s : State) (p : List Byte) : Prop where
  length : p.length = 16
  page : octetAt p 0 = if s.line.pageOne = true then 1 else 0
  first : s.line.pageOne = false →
    get16 p 1 = s.line.good.toNat ∧ get16 p 3 = s.line.crcDiscards.toNat ∧
      get16 p 5 = s.line.malformed.toNat ∧ get16 p 7 = s.line.collisions.toNat ∧
      get16 p 9 = s.line.dropped.toNat ∧ get16 p 11 = s.peers.lateEvents.toNat ∧
      get16 p 13 = s.peers.peersLost.toNat ∧ octetAt p 15 = s.line.tokens
  second : s.line.pageOne = true →
    get16 p 1 = s.line.conflicts.toNat ∧ get16 p 3 = s.damper.rehomes.toNat ∧
      get16 p 5 = s.sensors.faultEntries.toNat ∧
      inputOfCode (octetAt p 7 % 4) = some s.sensors.roomTemp.state ∧
      inputOfCode (octetAt p 7 / 4 % 4) = some s.sensors.roomRh.state ∧
      [HeadLink.waiting, .present, .missing][octetAt p 7 / 16 % 4]? = some s.sensors.link ∧
      [DriveState.unhomed, .homing, .holding, .moving, .waitingBudget, .faulted][octetAt p 8 % 8]? =
        some s.damper.state ∧
      flagAt p 8 7 = s.demand.errorClamped ∧ s.loader.ResultAt p 9 ∧
      octetAt p 10 = s.peers.followed.getD 0 ∧
      s.damper.position = (if get16 p 11 = 65535 then none else some (get16 p 11)) ∧
      (get24 p 13 : Int) = s.demand.integral

/-- The stop causes by their codes 1 to 10, 0 for none (R194). -/
def causeOfCode (n : Nat) : Option (Option StopCause) :=
  [none, some StopCause.demand, some .condensate, some .freeze, some .supply, some .airflow, some .static,
    some .inverter, some .changeover, some .standby, some .reset][n]?

/-- The stop cause a procedure carries: a STOP's or an EMERGENCY's (R135, R194). -/
def Proc.carries (p : Proc) : Option StopCause :=
  match p with
  | .stop r => some r.cause
  | .emergency c => some c.cause
  | .defrost | .changeover | .start => none

/-- The procedure kinds by their codes 0 to 5 (R194). -/
def Proc.hasCode (p : Option Proc) (n : Nat) : Prop :=
  match n with
  | 0 => p = none
  | 1 => ∃ c, p = some (.emergency c)
  | 2 => ∃ r, p = some (.stop r)
  | 3 => p = some .defrost
  | 4 => p = some .changeover
  | 5 => p = some .start
  | _ => False

/-- The two pages of a plant station's SUMMARY (R194). -/
structure PlantSummaryPage (s : State) (p : List Byte) : Prop where
  length : p.length = 30
  page : octetAt p 0 = if s.line.pageOne = true then 1 else 0
  first : s.line.pageOne = false →
    get16 p 1 = s.line.good.toNat ∧ get16 p 3 = s.line.crcDiscards.toNat ∧
      get16 p 5 = s.line.malformed.toNat ∧ get16 p 7 = s.line.collisions.toNat ∧
      get16 p 9 = s.line.dropped.toNat ∧ get16 p 11 = s.peers.lateEvents.toNat ∧
      get16 p 13 = s.peers.peersLost.toNat ∧ get16 p 15 = s.line.conflicts.toNat ∧
      octetAt p 17 = s.line.tokens ∧ s.loader.ResultAt p 18 ∧
      inputOfCode (octetAt p 19 % 4) = some s.sensors.supplyAir.state ∧
      inputOfCode (octetAt p 19 / 4 % 4) = some s.sensors.indoorCoil.state ∧
      inputOfCode (octetAt p 19 / 16 % 4) = some s.sensors.outdoorAir.state ∧
      inputOfCode (octetAt p 19 / 64) = some s.sensors.outdoorCoil.state ∧
      inputOfCode (octetAt p 20 % 4) = some s.sensors.staticPressure.state ∧
      [HeadLink.waiting, .present, .missing][octetAt p 20 / 4 % 4]? = some s.sensors.link ∧
      flagAt p 20 4 = s.sensors.inverter.asserted ∧ flagAt p 20 5 = s.sensors.condensate.asserted ∧
      get16 p 21 = s.frost.index ∧ get16 p 23 = s.frost.normal.toNat ∧
      get16 p 25 = s.frost.limited.toNat ∧ get16 p 27 = s.protection.lockouts.toNat ∧
      octetAt p 29 = s.protection.budget
  second : s.line.pageOne = true →
    get16 p 1 = s.engine.stepsLoaded.toNat ∧ get16 p 3 = s.engine.marks.toNat ∧
      get16 p 5 = s.engine.done.toNat ∧ get16 p 7 = s.engine.preempted.toNat ∧
      get16 p 9 = s.engine.aborted.toNat ∧ get16 p 11 = s.engine.withdrawn.toNat ∧
      get16 p 13 = s.engine.refused.toNat ∧ Proc.hasCode s.engine.status.proc (octetAt p 15) ∧
      causeOfCode (octetAt p 16) = some (s.engine.status.proc.bind Proc.carries) ∧
      [none, some StepId.s1, some .s2, some .s3, some .s4, some .t1, some .t2, some .t3, some .x1,
        some .x2, some .x3, some .d1, some .d2, some .d3, some .d4, some .d5, some .d6, some .d7,
        some .d8, some .d9, some .d10, some .e1, some .e2][octetAt p 17]? = some s.engine.status.step ∧
      [ProcOutcome.none, .inProgress, .done, .preempted, .aborted, .withdrawn][octetAt p 18 % 8]? =
        some s.engine.status.outcome ∧
      flagAt p 18 7 = s.engine.status.limited ∧
      [EngineState.idle, .waiting, .running][octetAt p 19]? = some s.engine.state ∧
      get16 p 20 = s.engine.emergencyHold ∧ get16 p 22 = s.protection.lockout.getD 0 ∧
      octetAt p 24 % 16 = s.protection.history.length ∧ flagAt p 24 7 = s.protection.doubling ∧
      (s.protection.history = [] → get32 p 25 = 0 ∧ octetAt p 29 = 0) ∧
      ∀ r, s.protection.history.getLast? = some r →
        get16 p 25 = r.startAge ∧ get16 p 27 = r.duration ∧
          causeOfCode (octetAt p 29 % 128) = some (some r.cause) ∧ flagAt p 29 7 = r.short

/-! ## The plant state that was last placed in the own entry (R152) -/

/-- A plant station's own entry shows the plant state that R152's table gives (R152). -/
def State.ShownSound (s : State) : Prop := s.plantReady = true → s.engine.shown = s.plantState

end Sys2Proof.Machine
end

