-- ==== Sys2Proof/Certificates/Slice0/Obligations.lean ====
section
/-! DEFINITION. The statements for the provers. Each docstring says what the statement formalises; OBLIGATIONS.json
lists them with their sources. Where a command leaves a block alone, the statement says so by an equation of
states or of blocks. -/

section

open Sys2Proof Sys2Proof.Machine

/-! ## Every command -/

/-- A step runs the command at the front of the queue on the state with the queue's rest, and on an empty queue
it idles (the idling is the model's choice, notes/assumptions/1.md). -/
def Obligations.StepTakesTheFrontCommand : Prop :=
  (∀ (c : Instr) (q : List Instr) (s : State), s.pending = c :: q → step s = exec c (s.setPending q)) ∧
  ∀ s : State, s.pending = [] → step s = .next s

/-- Every command has a next state in every state, and no command changes the queue. That no event
stops the part is the model's choice (notes/assumptions/2.md). -/
def Obligations.EveryCommandCompletes : Prop :=
  ∀ (c : Instr) (s : State), ∃ t, exec c s = .next t ∧ t.pending = s.pending

/-- Before READY and in CONFIG_HALT the timers that begin at READY, the head link and the beginning of an attempt do not
act (R7, R9, R36, R52, R97, R127, R134, R169, R187): such an event leaves the state as it is, which is the model's choice
for an event that cannot occur (notes/assumptions/2.md). The retained timer and the read retry timer, which act before
READY, are not among these events (R154, R183). -/
def Obligations.EventsThatAwaitReadyChangeNothing : Prop :=
  ∀ (c : Instr) (s : State), awaitsReady c = true → s.ready = false → exec c s = .next s

/-- No command but the assertion of a reset changes the latched straps once they are latched, nor anything the loader
holds once the part is READY. Each EQ pin has the latched role's function from the latching to the next reset and
none between, and before READY every output is at its safe level (R182, R186, R187, section 11.6). -/
def Obligations.PinsTakeTheLatchedRole : Prop :=
  (∀ (c : Instr) (s t : State), s.loader.Sound → s.loader.state ≠ .idle → c ≠ .powerOnReset →
    c ≠ .resetInputAsserted → exec c s = .next t →
      t.loader.state ≠ .idle ∧ t.loader.straps = s.loader.straps ∧
        (s.ready = true → t.loader = s.loader)) ∧
  (∀ (s : State) (p : EqPin), s.loader.state = .idle → s.eqPin p = .unassigned) ∧
  (∀ s : State, s.loader.state ≠ .idle → s.loader.straps.role = .zone →
    [.eq1, .eq2, .eq3, .eq4, .eq5, .eq6, .eq7, .eq8, .eq9, .eq10, .eq11].map s.eqPin =
      [.stepperStep s.damper.step.isSome, .stepperDirection s.damper.step,
        .stepperEnable s.damper.energised, .stallInput, .unused, .unused, .unused, .unused, .unused,
        .unused, .unused] ∧
    (s.ZoneHeld → s.ready = false →
      s.eqPin .eq1 = .stepperStep false ∧ s.eqPin .eq2 = .stepperDirection none ∧
        s.eqPin .eq3 = .stepperEnable false)) ∧
  ∀ s : State, s.loader.state ≠ .idle → s.loader.straps.role = .plant →
    [.eq1, .eq2, .eq3, .eq4, .eq5, .eq6, .eq7, .eq8, .eq9, .eq10, .eq11].map s.eqPin =
      [.compressorRun s.engine.run, .valve (decide (s.engine.valve = s.loader.straps.energised)),
        .speed s.capacity.speedCommand, .blower s.capacity.blowerCommand, .supplyAirInput,
        .indoorCoilInput, .outdoorAirInput, .outdoorCoilInput, .staticPressureInput,
        .inverterFaultInput, .condensateFloatInput] ∧
    (s.EquipmentSafe → s.ready = false →
      [.eq1, .eq2, .eq3, .eq4].map s.eqPin =
        [.compressorRun false, .valve false, .speed 0, .blower 0])

/-! ## Soundness that every step keeps -/

/-- The state at reset has every property that the steps keep. The zone target shown before READY is
the model's choice (notes/assumptions/7.md). -/
def Obligations.ResetStateIsSound : Prop :=
  State.reset.ZoneSound ∧ State.reset.ZoneHeld ∧ State.reset.TableSound ∧ State.reset.FollowSound ∧
    State.reset.line.Sound ∧ State.reset.PlantSound ∧ State.reset.EquipmentSafe ∧ State.reset.RecordSound ∧
    State.reset.ShownSound ∧ State.reset.RangesSound

/-- The loaded parameters, the demand arithmetic, the tier, base, relief and target, and the damper's position,
targets and budget stay in their ranges over every step (R51, R73, R84, R87, R185). What the blocks hold before READY
is in part the model's choice (notes/assumptions/7.md). -/
def Obligations.ZoneBlocksStaySound : Prop :=
  ∀ s t : State, s.ZoneSound → s.ZoneHeld → step s = .next t → t.ZoneSound ∧ t.ZoneHeld

/-- The peer table keeps its fifteen addresses in order, stays EMPTY before READY, and never stores a report at
the own address (R19, R23). A zone's followed plant is always the lowest-addressed present plant not in STANDBY,
PLANT_LOST stands exactly while there is none after the grace, and the two plant views always hold the followed
plant's facts (R31, R32, R33, R54, R74). -/
def Obligations.PeerTableStaysSound : Prop :=
  ∀ s t : State, s.loader.Sound → s.TableSound → step s = .next t →
    t.TableSound ∧ (s.FollowSound → t.FollowSound)

/-- Tokens stay within 0 to 3 and collision counts within 0 to 7, an attempt always holds a token and its pending
flag, and a YIELDED station neither waits nor sends (R7, R8, R12, R15, R17). An octet on the line holds both counts
at 0, the station's own octets for the whole of an attempt; no frame is still arriving at a gap of more than 20 bit
times, and none when an attempt begins, which is at a gap of at least 30 (R2, R4, R13). -/
def Obligations.LineStaysSound : Prop :=
  ∀ s t : State, s.line.Sound → step s = .next t → t.line.Sound

/-- The speed command is 0 while the run output is off and within Cmin to 1000 while it is on, a running
compressor has air but for a DEFROST, in STANDBY and YIELDED and before READY the compressor, the speed and the
blower are off and the valve output is de-energised, and the current step belongs to the running procedure: every
step keeps this (R35, R118, R123, R153, R187). Reset values that the manual leaves to inference are the
model's (notes/assumptions/8.md). -/
def Obligations.PlantOutputsStaySound : Prop :=
  ∀ s t : State, s.PlantSound → step s = .next t → t.PlantSound ∧ (s.EquipmentSafe → t.EquipmentSafe)

/-- The retained record, the emergency hold and the frost items stay in their ranges, the progress stands at 0
while the budget is full, and the doubling flag says whether the newest record is short (R134, R154, R161,
R162, R163, R168). -/
def Obligations.ProtectionStaysSound : Prop :=
  ∀ s t : State, s.PlantSound → s.RecordSound → step s = .next t → t.RecordSound

/-- Every field of the peer table's records lies in the range that its decoding clamps it to, the Sensor Inputs'
filtered values, counts and target in theirs, and the items of the Mode Selector and the Capacity Controller in
theirs: every step keeps this, with straps as the four ADDR pins can bring them (R6, R20, R39, R41 to R43, R45 to R47,
R96, R113, R121, R182). Base and relief are clamped one by one, so Fmax is bounded by what fourteen zones open with
both at 100, and F by the 140 000 that the airflow needs at most. -/
def Obligations.RangesStaySound : Prop :=
  ∀ s t : State, (∀ c ∈ s.pending, c.wf = true) → s.loader.Sound → s.TableSound → s.RangesSound →
    step s = .next t → t.RangesSound

/-- A plant station's own entry shows the plant state that R152's table gives, after every step (R23, R152). -/
def Obligations.ShownPlantStateStaysDerived : Prop :=
  ∀ s t : State, s.loader.Sound → s.ShownSound → step s = .next t → t.ShownSound

/-- The engine comes to rest inside one event: the moves that the model allows it are enough, from every state and
every move. The bound is the model's (notes/assumptions/20.md). -/
def Obligations.EngineRestsWithinItsMoves : Prop :=
  ∀ (m : Nat) (todo : Todo) (s : State), s.drive (64 + m) todo = s.drive 64 todo

/-! ## Resets, straps and configuration -/

/-- A power-on reset returns everything to its reset value and clears the retained record; the straps latched
before stand until the next latching, the RESET line stays as it is, and the queue stands (R167, R182, R187, R188).
That the queue stands is the model's choice (notes/assumptions/24.md). -/
def Obligations.PowerOnResetClearsAll : Prop :=
  ∀ s : State, exec .powerOnReset s = .next
    { State.reset with
      loader :=
        { State.reset.loader with straps := s.loader.straps, inputAsserted := s.loader.inputAsserted }
      engine := Engine.reset s.loader.straps.energised
      pending := s.pending }

/-- The RESET input returns every block to its reset values but for the retained record, and closes an open run
with cause RESET: the stop age restarts, the record joins the history, and a second short record in a row
begins LOCKOUT (R163, R164, R166, R167, R179, R188). The straps stand (R182). That the queue stands is the model's
choice (notes/assumptions/24.md), and so are the flag that holds the record and the kind of the latest reset, which is
that of the last assertion (notes/assumptions/19.md). -/
def Obligations.ResetInputKeepsTheRetainedRecord : Prop :=
  ∀ s : State, ∃ t, exec .resetInputAsserted s = .next t ∧
    t.loader =
      { State.reset.loader with
        straps := s.loader.straps, powerAsserted := s.loader.powerAsserted, inputAsserted := true
        latest := .input } ∧
    t.line = State.reset.line ∧ t.peers = State.reset.peers ∧ t.sensors = State.reset.sensors ∧
    t.demand = State.reset.demand ∧ t.share = State.reset.share ∧ t.damper = State.reset.damper ∧
    t.modeSel = State.reset.modeSel ∧ t.capacity = State.reset.capacity ∧
    t.engine = Engine.reset s.loader.straps.energised ∧ t.pending = s.pending ∧
    t.frost = { State.reset.frost with index := s.frost.index } ∧
    t.protection.run = none ∧ t.protection.waiting = none ∧ t.protection.valveAge = 0 ∧
    t.protection.lockouts = 0 ∧ t.protection.budget = s.protection.budget ∧
    t.protection.progress = s.protection.progress ∧ t.protection.held = s.protection.held ∧
    (s.protection.run = none →
      t.protection.stopAge = s.protection.stopAge ∧ t.protection.history = s.protection.history ∧
      t.protection.doubling = s.protection.doubling ∧ t.protection.lockout = s.protection.lockout) ∧
    ∀ age, s.protection.run = some age →
      t.protection.stopAge = 0 ∧ t.protection.doubling = decide (age < s.pp.minRun) ∧
      t.protection.history =
        (if 8 ≤ s.protection.history.length then s.protection.history.drop 1
          else s.protection.history) ++
        [{ startAge := age, duration := age, cause := .reset, short := decide (age < s.pp.minRun) }] ∧
      t.protection.lockout =
        (match s.protection.history.getLast? with
          | some r => if age < s.pp.minRun ∧ r.short = true then some 1800 else s.protection.lockout
          | none => s.protection.lockout)

/-- The release of the only asserted reset latches the straps and starts the load: CONFIG_HALT at address 0, the
first read attempt with a memory fitted, and READY with the role's defaults, the result NO_MEMORY and the main
report pending with none. While the other reset stands asserted, nothing is latched (R182, R183, R185, R188). -/
def Obligations.ResetReleaseStartsTheLoad : Prop :=
  ∀ (kind : ResetKind) (straps : Straps) (s : State), s.loader.asserted kind = true →
    ((s.loader.release kind).powerAsserted = true ∨ (s.loader.release kind).inputAsserted = true →
      exec (.resetRelease kind straps) s = .next (s.setLoader (s.loader.release kind))) ∧
    ((s.loader.release kind).powerAsserted = false → (s.loader.release kind).inputAsserted = false →
      (straps.addr = 0 →
        exec (.resetRelease kind straps) s = .next
          ((s.setEngine (Engine.reset straps.energised)).setLoader
            { s.loader.release kind with straps := straps, state := .configHalt })) ∧
      (straps.addr ≠ 0 → straps.cfgmem = true →
        exec (.resetRelease kind straps) s = .next
          ((s.setEngine (Engine.reset straps.energised)).setLoader
            { s.loader.release kind with straps := straps, state := .reading, attempts := 1 })) ∧
      (straps.addr ≠ 0 → straps.cfgmem = false →
        ∃ t, exec (.resetRelease kind straps) s = .next t ∧
          t.loader.state = .ready ∧ t.loader.straps = straps ∧ t.loader.result = .noMemory ∧
          t.loader.defaulted = true ∧ t.loader.tag = 0 ∧ t.line.main.pending = true ∧
          (straps.role = .zone → t.loader.zone = some zoneDefaults ∧ t.peers.grace = .running ∧
            t.damper.state = .homing ∧ t.share.base = .percent 10) ∧
          (straps.role = .plant → t.loader.plant = some plantDefaults ∧ t.engine.listening = .running ∧
            t.engine.run = false ∧ t.engine.valve = deEnergised straps.energised) ∧
          t.demand = s.demand ∧ t.modeSel = s.modeSel ∧ t.capacity = s.capacity ∧ t.frost = s.frost ∧
          t.pending = s.pending))

/-- A read attempt that the memory does not acknowledge to its end waits to be tried again, its retry timer begins
the next attempt, and the fourth failure takes the defaults with result NO_ACK and enters READY (R183). -/
def Obligations.FailedReadAttemptsEndInDefaults : Prop :=
  (∀ (octets : List Byte) (s : State), s.loader.state = .reading → s.loader.retryWait = false →
    octets.length < 38 →
      (s.loader.attempts < 4 →
        exec (.readAttempt octets) s = .next (s.setLoader { s.loader with retryWait := true })) ∧
      (4 ≤ s.loader.attempts →
        ∃ t, exec (.readAttempt octets) s = .next t ∧
          t.loader =
            { s.loader with
              state := .ready, retryWait := false, result := .noAck, defaulted := true, tag := 0
              zone := if s.loader.straps.role = .zone then some zoneDefaults else s.loader.zone
              plant := if s.loader.straps.role = .plant then some plantDefaults else s.loader.plant } ∧
          t.line.main.pending = true ∧ t.demand = s.demand ∧ t.modeSel = s.modeSel ∧
          t.capacity = s.capacity ∧ t.frost = s.frost ∧ t.pending = s.pending)) ∧
  ∀ s : State, s.loader.state = .reading → s.loader.retryWait = true →
    exec .readRetryTimer s = .next
      (s.setLoader { s.loader with retryWait := false, attempts := s.loader.attempts + 1 })

/-- A whole image is tested for its version, its length and its check value, in that order: the first that fails
gives the result and the defaults. An image that passes gives the station tag and the role's parameter set, each
field the image's field at its offset clamped to its range, the stop threshold and Ptrip against the clamped start
threshold and Pmax; the clamped mark says whether any field was changed. READY follows in every case (R184, R185,
R195). -/
def Obligations.ImageIsTestedInOrder : Prop :=
  ∀ (octets : List Byte) (s : State), s.loader.state = .reading → s.loader.retryWait = false →
    s.loader.defaulted = false → s.loader.clamped = false → 38 ≤ octets.length →
      ∃ t, exec (.readAttempt octets) s = .next t ∧ t.loader.state = .ready ∧
        t.loader.straps = s.loader.straps ∧ t.line.main.pending = true ∧
        t.loader.result =
          (if octetAt octets 0 ≠ 1 then .badVersion
          else if get16 octets 1 ≠ 38 then .badLength
          else if (crc16 (octets.take 36)).toNat ≠ get16 octets 36 then .badCrc
          else if t.loader.clamped = true then .loadedClamped
          else .loaded) ∧
        (t.loader.defaulted = true ↔
          octetAt octets 0 ≠ 1 ∨ get16 octets 1 ≠ 38 ∨
            (crc16 (octets.take 36)).toNat ≠ get16 octets 36) ∧
        t.loader.tag =
          (if t.loader.defaulted = true then 0 else BitVec.ofNat 24 (get24 octets 3)) ∧
        (t.loader.defaulted = true → t.loader.clamped = false) ∧
        (s.loader.straps.role = .zone → ∃ p, t.loader.zone = some p ∧ p.InRange ∧
          (t.loader.defaulted = true → p = zoneDefaults) ∧
          (t.loader.defaulted = false →
            p.weight = max 1 (min 100 (octetAt octets 6)) ∧
            p.halfBand = max 25 (min 200 (get16 octets 7)) ∧
            p.rhTarget = max 400 (min 700 (get16 octets 9)) ∧ p.kp = min 1000 (get16 octets 11) ∧
            p.ki = min 100 (octetAt octets 13) ∧ p.kl = max 1 (min 100 (octetAt octets 14)) ∧
            p.omin = min 100 (octetAt octets 15) ∧ p.faultOpening = min 50 (octetAt octets 16) ∧
            (p.optOut = true ↔ octetAt octets 17 ≠ 0) ∧
            (t.loader.clamped = true ↔
              ¬(p.weight = octetAt octets 6 ∧ p.halfBand = get16 octets 7 ∧
                p.rhTarget = get16 octets 9 ∧ p.kp = get16 octets 11 ∧ p.ki = octetAt octets 13 ∧
                p.kl = octetAt octets 14 ∧ p.omin = octetAt octets 15 ∧
                p.faultOpening = octetAt octets 16 ∧ octetAt octets 17 ≤ 1)))) ∧
        (s.loader.straps.role = .plant → ∃ p, t.loader.plant = some p ∧ p.InRange ∧
          (t.loader.defaulted = true → p = plantDefaults) ∧
          (t.loader.defaulted = false →
            p.startThreshold = max 100 (min 400 (get16 octets 18)) ∧
            p.stopThreshold = max 50 (min (p.startThreshold - 20) (get16 octets 20)) ∧
            p.cmin = max 150 (min 500 (get16 octets 22)) ∧
            p.fanAirflow = max 200 (min 1000 (get16 octets 24)) ∧
            p.pmax = max 100 (min 400 (get16 octets 26)) ∧
            p.ptrip = max (p.pmax + 50) (min 500 (get16 octets 28)) ∧
            p.minRun = max 120 (min 900 (get16 octets 30)) ∧
            p.antiShort = max 120 (min 600 (get16 octets 32)) ∧
            p.defrostInterval = max 1200 (min 5400 (get16 octets 34)) ∧
            (t.loader.clamped = true ↔
              ¬(p.startThreshold = get16 octets 18 ∧ p.stopThreshold = get16 octets 20 ∧
                p.cmin = get16 octets 22 ∧ p.fanAirflow = get16 octets 24 ∧
                p.pmax = get16 octets 26 ∧ p.ptrip = get16 octets 28 ∧ p.minRun = get16 octets 30 ∧
                p.antiShort = get16 octets 32 ∧ p.defrostInterval = get16 octets 34)))) ∧
        t.demand = s.demand ∧ t.modeSel = s.modeSel ∧ t.capacity = s.capacity ∧ t.frost = s.frost ∧
        t.pending = s.pending

/-! ## The zone line -/

/-- A token refill adds one token to a count below 3 and none at 3; a station that thereby becomes ready chooses the
main kind if its flag is set, else SUMMARY, and restarts its gap count (R7, R12). Each periodic timer sets the pending
flag of its kind, in the role that has the kind, and the renewal mark too while an attempt of the same kind is in
progress (R8, R9). A station ready to send then waits: with the main kind after its timer, choosing again if it waited
with SUMMARY; with the kind it had, or the kind it now chooses, after SUMMARY's; a new choice restarts the gap count,
and one that stands keeps it. A station that is not ready does not wait (R12). In the other role the main timer does
not run, and its expiry leaves the state as it is (the model's choice for an event that cannot occur,
notes/assumptions/2.md). -/
def Obligations.TokenRefillAndReportTimers : Prop :=
  (∀ s : State, s.ready = true → ∃ t, exec .tokenRefillTimer s = .next t ∧
    t.line.tokens = (if s.line.tokens < 3 then s.line.tokens + 1 else 3) ∧
    (s.line.yielded = false → s.line.attempt = none → s.line.waiting = none →
      s.line.main.pending = true ∨ s.line.summary.pending = true →
        t.line.waiting = some (if s.line.main.pending = true then .main else .summary) ∧
        t.line.gap = 0) ∧
    t = s.setLine
      { s.line with tokens := t.line.tokens, waiting := t.line.waiting, gap := t.line.gap }) ∧
  ∀ s : State, s.ready = true →
    (s.loader.straps.role = .zone → exec .plantPeriodicTimer s = .next s ∧
      ∃ t, exec .zonePeriodicTimer s = .next t ∧ t.line.main.pending = true ∧
        (t.line.main.renewal = true ↔
          s.line.main.renewal = true ∨ ∃ a, s.line.attempt = some a ∧ a.kind = .main) ∧
        t.line.main.k = s.line.main.k ∧
        (s.line.yielded = false → 1 ≤ s.line.tokens → s.line.attempt = none →
          t.line.waiting = some .main ∧
            t.line.gap = if s.line.waiting = some .main then s.line.gap else 0) ∧
        (s.line.yielded = true ∨ s.line.tokens = 0 ∨ s.line.attempt.isSome = true →
          t.line.waiting = none ∧ t.line.gap = s.line.gap) ∧
        t = s.setLine
          { s.line with main := t.line.main, waiting := t.line.waiting, gap := t.line.gap }) ∧
    (s.loader.straps.role = .plant → exec .zonePeriodicTimer s = .next s ∧
      ∃ t, exec .plantPeriodicTimer s = .next t ∧ t.line.main.pending = true ∧
        (t.line.main.renewal = true ↔
          s.line.main.renewal = true ∨ ∃ a, s.line.attempt = some a ∧ a.kind = .main) ∧
        t.line.main.k = s.line.main.k ∧
        (s.line.yielded = false → 1 ≤ s.line.tokens → s.line.attempt = none →
          t.line.waiting = some .main ∧
            t.line.gap = if s.line.waiting = some .main then s.line.gap else 0) ∧
        (s.line.yielded = true ∨ s.line.tokens = 0 ∨ s.line.attempt.isSome = true →
          t.line.waiting = none ∧ t.line.gap = s.line.gap) ∧
        t = s.setLine
          { s.line with main := t.line.main, waiting := t.line.waiting, gap := t.line.gap }) ∧
    ∃ t, exec .summaryTimer s = .next t ∧ t.line.summary.pending = true ∧
      (t.line.summary.renewal = true ↔
        s.line.summary.renewal = true ∨ ∃ a, s.line.attempt = some a ∧ a.kind = .summary) ∧
      t.line.summary.k = s.line.summary.k ∧
      (s.line.yielded = false → 1 ≤ s.line.tokens → s.line.attempt = none →
        (s.line.waiting = some .main → s.line.main.pending = true) →
          t.line.waiting = some (if s.line.main.pending = true then .main else .summary) ∧
            t.line.gap = if t.line.waiting = s.line.waiting then s.line.gap else 0) ∧
      (s.line.yielded = true ∨ s.line.tokens = 0 ∨ s.line.attempt.isSome = true →
        t.line.waiting = none ∧ t.line.gap = s.line.gap) ∧
      t = s.setLine
        { s.line with summary := t.line.summary, waiting := t.line.waiting, gap := t.line.gap }

/-- A start bit holds both counts at 0, and the line is idle when the quiet count reaches 30; during an attempt the
station's own octets hold the count at 0, so the line is not idle. A gap of more than 20 bit times, the gap that makes
the line idle among them, and an octet with a framing error abandon a frame in progress: the frame is counted as
malformed once, and the receiver hunts; the quiet count stands above 20 after the gap and restarts at the bad octet's
end (R2, R4). That the counts move at the events that name them, the quiet count of 21, and the return from SYNC to
HUNT are the model's choices (notes/assumptions/1.md, notes/assumptions/23.md); so is the state that an event leaves
as it is where it cannot occur (notes/assumptions/2.md). -/
def Obligations.LineCountsAndAbandonedFrames : Prop :=
  (∀ s : State, s.loader.powerAsserted = false → s.loader.inputAsserted = false →
    exec .startBitSeen s = .next
      (s.setLine { s.line with quiet := 0, gap := 0, octetOnLine := true }) ∧
    (s.line.attempt.isSome = true → exec .lineIdle s = .next s) ∧
    (s.line.attempt = none →
      exec .lineIdle s = .next
        (s.setLine
          { s.line with
            quiet := max 30 s.line.quiet, gap := s.line.gap + (30 - s.line.quiet), octetOnLine := false
            rx := if s.line.rx.inFrame = true then .hunt else s.line.rx
            malformed :=
              if s.line.rx.inFrame = true then s.line.malformed + 1 else s.line.malformed }))) ∧
  (∀ s : State, s.loader.powerAsserted = false → s.loader.inputAsserted = false →
    s.line.attempt = none → s.ShownSound →
      (∃ t, exec (.frameAbandoned []) s = .next t ∧
        t.line.malformed =
          (if s.line.rx.inFrame = true then s.line.malformed + 1 else s.line.malformed) ∧
        t.line.rx = (if s.line.rx.inFrame = true then .hunt else s.line.rx) ∧
        t.line.quiet = max 21 s.line.quiet ∧ t = s.setLine t.line) ∧
      (∃ t, exec (.framingError []) s = .next t ∧
        t.line.malformed =
          (if s.line.rx.inFrame = true then s.line.malformed + 1 else s.line.malformed) ∧
        t.line.rx = .hunt ∧ t.line.quiet = 0 ∧ t.line.gap = 0 ∧ t = s.setLine t.line)) ∧
  ∀ (s : State) (octets : List Byte), s.loader.powerAsserted = false →
    s.loader.inputAsserted = false → s.line.attempt = none →
      (∃ t, exec (.frameAbandoned octets) s = .next t ∧ t.line.rx.inFrame = false ∧
        21 ≤ t.line.quiet) ∧
      ∃ t, exec (.framingError octets) s = .next t ∧ t.line.rx = .hunt ∧ t.line.quiet = 0

/-- A waiting station begins its attempt at a gap of 30 + 10 × slot bit times, where the slot is its address on a
first try and (address + 5 × k) mod 16 after k collisions. That gap has abandoned a frame that was still arriving, and
counted it. The attempt holds the frame of the station's contents at that moment; its kind's renewal mark is cleared
and its pending flag stays, and the station's own first start bit holds both counts at 0. While an octet on the line
holds the gap count at 0, no attempt begins (R2, R4, R8, R13, R14). That the gap count moves at this event is the
model's choice (notes/assumptions/1.md), and so is the state left as it is (notes/assumptions/2.md). -/
def Obligations.AttemptBeginsAtItsGap : Prop :=
  ∀ (s : State) (k : ReportKind), s.line.waiting = some k → s.line.canSend s.ready = true →
    (s.line.octetOnLine = true → exec .attemptBegin s = .next s) ∧
    (s.line.octetOnLine = false →
      ∃ t, exec .attemptBegin s = .next t ∧
        t.line.malformed =
          (if s.line.rx.inFrame = true then s.line.malformed + 1 else s.line.malformed) ∧
        t.line.rx = (if s.line.rx.inFrame = true then .hunt else s.line.rx) ∧
        t.line.attempt =
          some
            { kind := k
              gap := max s.line.gap
                (30 + 10 * (if (s.line.kind k).k = 0 then s.address
                  else (s.address + 5 * (s.line.kind k).k) % 16))
              frame := (s.setLine { s.line with malformed := t.line.malformed }).sampleFrame k
              target := s.share.target, f := s.ownPlant.f } ∧
        t.line.quiet = 0 ∧ t.line.gap = 0 ∧ t.line.octetOnLine = true ∧
        t.line.waiting = none ∧ (t.line.kind k).renewal = false ∧
        (t.line.kind k).pending = (s.line.kind k).pending ∧ (t.line.kind k).k = (s.line.kind k).k ∧
        (∀ other, other ≠ k → t.line.kind other = s.line.kind other) ∧ t.line.tokens = s.line.tokens ∧
        t.line.pageOne = s.line.pageOne ∧ t = s.setLine t.line)

/-- What a station samples lies in the ranges that its payload carries, wherever the soundness that every step keeps
holds (R20, R21, R22, R49, R50). The frames a station sends: sync 0xD2 0x2D, the header with kind and address, the
payload's length, the payload and the CRC of what stands between sync and CRC (R3). The payload carries the station's
tag and own entry by the offsets of the ZONE and PLANT tables, and the counters and states of the SUMMARY page that
the page index names by the offsets of the SUMMARY tables (R14, R190 to R194). -/
def Obligations.SentFramesHaveTheirLayout : Prop :=
  (∀ s : State, s.RangesSound →
    (s.ZoneSound → s.ownZone.InRange) ∧ (s.PlantSound → s.ownPlant.InRange)) ∧
  ∀ (s : State) (k : ReportKind), ∃ payload : List Byte,
    (match k, s.loader.straps.role with
      | .main, .zone => payload.length = 18 ∧ (s.ownZone.InRange → ZonePayload s.loader.tag s.ownZone payload)
      | .main, .plant =>
        payload.length = 20 ∧ (s.ownPlant.InRange → PlantPayload s.loader.tag s.ownPlant payload)
      | .summary, .zone =>
        payload.length = 16 ∧
          (s.line.Sound → s.demand.Sound → s.damper.Sound → (∀ a, s.peers.followed = some a → 1 ≤ a ∧ a ≤ 15) →
            ZoneSummaryPage s payload)
      | .summary, .plant =>
        payload.length = 30 ∧ (s.line.Sound → s.RecordSound → PlantSummaryPage s payload)) ∧
    s.sampleFrame k =
      [0xD2#8, 0x2D#8,
        octet ((match k, s.loader.straps.role with
          | .main, .zone => 1
          | .main, .plant => 2
          | .summary, _ => 3) * 16 + s.address), octet payload.length] ++ payload ++
      [octet ((crc16 (octet ((match k, s.loader.straps.role with
          | .main, .zone => 1
          | .main, .plant => 2
          | .summary, _ => 3) * 16 + s.address) :: octet payload.length :: payload)).toNat / 256),
        octet (crc16 (octet ((match k, s.loader.straps.role with
          | .main, .zone => 1
          | .main, .plant => 2
          | .summary, _ => 3) * 16 + s.address) :: octet payload.length :: payload)).toNat]

/-- An attempt that completes takes one token; its kind's count returns to 0 and its pending flag is kept by the
renewal mark only; a ZONE frame's target or a PLANT frame's opening is recorded as last reported, and a SUMMARY frame
turns the page; the receiver hunts (R7, R8, R10, R11, R14, R192). A driven 1 that reads back 0 ends the attempt: the
collision counter moves, no token is taken and the page stands; the kind's count rises by one, and at 8 the report is
dropped and counted and the count returns to 0. Of a frame that the station sampled, the octets read so far are part
of a frame, so nothing but the line moves: below 8 the kind's flag and mark stand, and at 8 the flag is kept by the
mark only and the mark is cleared (R1, R4, R7, R8, R15, R192). A bit driven at 0 cannot collide, and the event that
names one changes nothing (the model's choice, notes/assumptions/2.md). -/
def Obligations.AttemptsEndByCompletionOrCollision : Prop :=
  (∀ (s : State) (a : Attempt), s.line.attempt = some a → ∃ t, exec .attemptComplete s = .next t ∧
    t.line.attempt = none ∧ t.line.tokens = s.line.tokens - 1 ∧ t.line.rx = .hunt ∧
    t.line.kind a.kind =
      { pending := (s.line.kind a.kind).pending && (s.line.kind a.kind).renewal, renewal := false, k := 0 } ∧
    (∀ other, other ≠ a.kind → t.line.kind other = s.line.kind other) ∧
    t.line.pageOne = (if a.kind = .summary then !s.line.pageOne else s.line.pageOne) ∧
    t.line.lastTarget =
      (if a.kind = .main ∧ s.loader.straps.role = .zone then some a.target else s.line.lastTarget) ∧
    t.line.lastF =
      (if a.kind = .main ∧ s.loader.straps.role = .plant then some a.f else s.line.lastF) ∧
    t.line.collisions = s.line.collisions ∧ t.line.dropped = s.line.dropped ∧
    t.line.good = s.line.good ∧ t = s.setLine t.line) ∧
  ∀ (s : State) (a : Attempt) (bit : Nat), s.line.attempt = some a →
    ((frameLevels a.frame)[bit]? = some true →
      ∃ t, exec (.collision bit) s = .next t ∧
        (s.ShownSound → s.line.rx.inFrame = false →
          (∃ u : State, 1 ≤ u.address ∧ u.address ≤ 15 ∧ a.frame = u.sampleFrame a.kind) →
            t.line.kind a.kind =
              (if 7 ≤ (s.line.kind a.kind).k then
                { pending := (s.line.kind a.kind).pending && (s.line.kind a.kind).renewal
                  renewal := false, k := 0 }
              else
                { pending := (s.line.kind a.kind).pending, renewal := (s.line.kind a.kind).renewal
                  k := (s.line.kind a.kind).k + 1 }) ∧
            (∀ other, other ≠ a.kind → t.line.kind other = s.line.kind other) ∧
            t.line.yielded = s.line.yielded ∧ t = s.setLine t.line) ∧
        t.line.attempt = none ∧ t.line.collisions = s.line.collisions + 1 ∧
        t.line.tokens = s.line.tokens ∧ t.line.pageOne = s.line.pageOne ∧
        t.line.dropped = (if 7 ≤ (s.line.kind a.kind).k then s.line.dropped + 1 else s.line.dropped) ∧
        (t.line.yielded = false →
          (t.line.kind a.kind).k =
            if 7 ≤ (s.line.kind a.kind).k then 0 else (s.line.kind a.kind).k + 1)) ∧
    ((frameLevels a.frame)[bit]? ≠ some true → exec (.collision bit) s = .next s)

/-- What a ZONE payload and a PLANT payload encode is what a receiver decodes: every record whose fields lie in their
ranges, and the station tag, come back unchanged (R6, R189, R190, R191). The payloads carry each field at its
offset with its code (R190, R191). -/
def Obligations.RecordsRoundTripAtTheirOffsets : Prop :=
  (∀ (tag : Tag) (r : ZoneRecord), r.InRange →
    decodeZone (encodeZone tag r) = some r ∧ payloadTag (encodeZone tag r) = tag ∧
      ZonePayload tag r (encodeZone tag r)) ∧
  ∀ (tag : Tag) (r : PlantRecord), r.InRange →
    decodePlant (encodePlant tag r) = some r ∧ payloadTag (encodePlant tag r) = tag ∧
      PlantPayload tag r (encodePlant tag r)

/-- A hunting receiver takes a whole frame built by R3: with its own check value and defined enumerations the frame is
good, counted, and handed on; with its own check value and an undefined enumeration it is malformed; with any other
check value it is counted as a CRC discard. A header with an undefined kind or source address 0, and a length that is
not the kind's, end the frame at that octet. Each malformed frame is counted once and leaves the receiver hunting. At
the end of any of these the station's shown plant state and its readiness are settled (R3, R4, R5, R11, R12, R18). -/
def Obligations.FramesAreTakenByTheirCheckValue : Prop :=
  (∀ (s : State) (kind a : Nat) (payload : List Byte), s.ready = true →
    s.loader.powerAsserted = false → s.loader.inputAsserted = false → s.line.attempt = none →
    s.line.rx = .hunt → 1 ≤ a → a ≤ 15 →
    (kind = 1 ∧ payload.length = 18) ∨ (kind = 2 ∧ payload.length = 20) ∨
      (kind = 3 ∧ (payload.length = 16 ∨ payload.length = 30)) →
    (enumsGood (octet (kind * 16 + a)) payload = true →
      exec (.frameReceived (buildFrame kind a payload)) s = .next
        ((s.setLine
          { s.line with
            quiet := 0, gap := 0, octetOnLine := false, good := s.line.good + 1 }).acceptFrame
              (octet (kind * 16 + a)) payload).settlePlant) ∧
    (enumsGood (octet (kind * 16 + a)) payload = false →
      exec (.frameReceived (buildFrame kind a payload)) s = .next
        (s.setLine
          { s.line with
            quiet := 0, gap := 0, octetOnLine := false
            malformed := s.line.malformed + 1 }).settlePlant) ∧
    ∀ high low : Byte, [high, low] ≠ crcOctets ([octet (kind * 16 + a), octet payload.length] ++ payload) →
      exec (.frameReceived
        ([0xD2#8, 0x2D#8, octet (kind * 16 + a), octet payload.length] ++ payload ++ [high, low])) s = .next
          (s.setLine
            { s.line with
              quiet := 0, gap := 0, octetOnLine := false
              crcDiscards := s.line.crcDiscards + 1 }).settlePlant) ∧
  ∀ (s : State) (header length : Byte), s.ready = true →
    s.loader.powerAsserted = false → s.loader.inputAsserted = false → s.line.attempt = none →
    s.line.rx = .hunt →
    (header.toNat / 16 ≠ 1 ∧ header.toNat / 16 ≠ 2 ∧ header.toNat / 16 ≠ 3 ∨ header.toNat % 16 = 0 →
      exec (.frameReceived [0xD2#8, 0x2D#8, header]) s = .next
        (s.setLine
          { s.line with
            quiet := 0, gap := 0, octetOnLine := false
            malformed := s.line.malformed + 1 }).settlePlant) ∧
    (header.toNat % 16 ≠ 0 →
      (header.toNat / 16 = 1 ∧ length.toNat ≠ 18) ∨ (header.toNat / 16 = 2 ∧ length.toNat ≠ 20) ∨
        (header.toNat / 16 = 3 ∧ length.toNat ≠ 16 ∧ length.toNat ≠ 30) →
      exec (.frameReceived [0xD2#8, 0x2D#8, header, length]) s = .next
        (s.setLine
          { s.line with
            quiet := 0, gap := 0, octetOnLine := false
            malformed := s.line.malformed + 1 }).settlePlant)

/-- A good ZONE report from another address fills that address's entry with the report, FRESH with age 0, whatever
the entry was, and is counted; in a zone station whose entry there was no plant, and in a plant station, nothing
else outside the line changes (R18, R24). -/
def Obligations.ZoneReportFillsItsEntry : Prop :=
  ∀ (s : State) (a : Nat) (tag : Tag) (r : ZoneRecord), s.ready = true →
    s.loader.powerAsserted = false → s.loader.inputAsserted = false → s.line.attempt = none →
    s.line.rx = .hunt → 1 ≤ a → a ≤ 15 → a ≠ s.address → r.InRange → s.ShownSound →
    (s.loader.straps.role = .zone → s.peers.plantAt a = none) →
      ∃ t, exec (.frameReceived (buildFrame 1 a (encodeZone tag r))) s = .next t ∧
        t.peers =
          { s.peers with
            entries := s.peers.entries.map fun e =>
              if e.address = a then
                { address := e.address
                  held := some { freshness := .fresh, age := 0, contents := .zone r } }
              else e } ∧
        t.line.good = s.line.good + 1 ∧ t.line.rx = .hunt ∧ t.line.conflicts = s.line.conflicts ∧
        t.line.main = s.line.main ∧ t.line.summary = s.line.summary ∧
        t = (s.setPeers t.peers).setLine t.line

/-- What a zone does with a report that can move its followed plant: a good PLANT report from another address, or a
ZONE report, which may stand where a plant stood. The entry is filled whole, FRESH with age 0. The followed plant,
PLANT_LOST and the two plant views then stand as the new table gives them, and a PLANT_LOST newly set raises the
report (R24, R31, R32, R33, R54, R74). Facts that call for no recomputation leave tier, base, relief, target and damper
as they were; any others recompute them once, on the new table and views (R75, R76). That the recomputation reads the
new entry is the model's choice (notes/assumptions/29.md), and that one recomputation serves all that arises together is
its reading (notes/assumptions/12.md). -/
def Obligations.ReportMovesTheFollowedPlant : Prop :=
  ∀ (s : State) (a : Nat) (tag : Tag) (frame : List Byte) (c : Contents), s.zoneReady = true →
    s.loader.powerAsserted = false → s.loader.inputAsserted = false → s.line.attempt = none →
    s.line.rx = .hunt → 1 ≤ a → a ≤ 15 → a ≠ s.address → s.TableSound → s.FollowSound →
    (∃ r, r.InRange ∧ c = .plant r ∧ frame = buildFrame 2 a (encodePlant tag r)) ∨
      (∃ r, r.InRange ∧ c = .zone r ∧ frame = buildFrame 1 a (encodeZone tag r)) →
      ∃ t, exec (.frameReceived frame) s = .next t ∧
        t.peers.entries =
          (s.peers.entries.map fun e =>
            if e.address = a then
              { address := e.address, held := some { freshness := .fresh, age := 0, contents := c } }
            else e) ∧
        t.FollowSound ∧ t.peers.grace = s.peers.grace ∧ t.peers.lateEvents = s.peers.lateEvents ∧
        t.peers.peersLost = s.peers.peersLost ∧
        (s.peers.plantLost = false → t.peers.plantLost = true → t.line.main.pending = true) ∧
        (sameForSharing s.peers.followedRecord t.peers.followedRecord →
          t.share = { s.share with view := t.share.view } ∧ t.damper = s.damper) ∧
        (¬sameForSharing s.peers.followedRecord t.peers.followedRecord →
          t.share =
            ((s.setPeers t.peers).setShare { s.share with view := t.share.view }).recompute.share ∧
          t.damper =
            ((s.setPeers t.peers).setShare { s.share with view := t.share.view }).recompute.damper) ∧
        t.line.good = s.line.good + 1 ∧ t.line.conflicts = s.line.conflicts ∧
        t.demand = { s.demand with view := t.demand.view } ∧ t.loader = s.loader ∧
        t.sensors = s.sensors ∧ t.modeSel = s.modeSel ∧ t.capacity = s.capacity ∧
        t.engine = s.engine ∧ t.protection = s.protection ∧ t.frost = s.frost ∧ t.pending = s.pending

/-- A good SUMMARY frame from another address changes no entry of the table, and is counted as a good frame
(R25). -/
def Obligations.SummaryFrameLeavesTheTable : Prop :=
  ∀ (s : State) (a : Nat) (payload : List Byte), s.ready = true →
    s.loader.powerAsserted = false → s.loader.inputAsserted = false → s.line.attempt = none →
    s.line.rx = .hunt → 1 ≤ a → a ≤ 15 → a ≠ s.address →
    payload.length = 16 ∨ payload.length = 30 →
      ∃ t, exec (.frameReceived (buildFrame 3 a payload)) s = .next t ∧ t.peers = s.peers ∧
        t.line.good = s.line.good + 1 ∧ t.line.malformed = s.line.malformed ∧
        t.line.crcDiscards = s.line.crcDiscards

/-- A good ZONE or PLANT frame with the station's own address counts a conflict and enters no entry of the table. The
station yields if its own tag is not above the frame's, and otherwise goes on (R16). A zone that yields takes call
IDLE, no sensible demand, tier 0 and the base Omin (R17, R72, R77, R78). A plant that yields drops compressor, speed,
blower and valve, aborts its procedure, empties its pending set and closes an open run with cause STANDBY (R17, R35,
R153, R162). -/
def Obligations.OwnAddressFrameIsAConflict : Prop :=
  ∀ (s : State) (tag : Tag) (frame : List Byte), s.ready = true →
    s.loader.powerAsserted = false → s.loader.inputAsserted = false → s.line.attempt = none →
    s.line.rx = .hunt → 1 ≤ s.address → s.address ≤ 15 →
    (∃ r : ZoneRecord, r.InRange ∧ frame = buildFrame 1 s.address (encodeZone tag r)) ∨
      (∃ r : PlantRecord, r.InRange ∧ frame = buildFrame 2 s.address (encodePlant tag r)) →
      ∃ t, exec (.frameReceived frame) s = .next t ∧
        t.line.conflicts = s.line.conflicts + 1 ∧ t.peers.entries = s.peers.entries ∧
        (t.line.yielded = true ↔ s.line.yielded = true ∨ s.loader.tag.toNat ≤ tag.toNat) ∧
        t.loader = s.loader ∧ t.sensors = s.sensors ∧ t.pending = s.pending ∧
        (s.loader.straps.role = .zone → s.line.yielded = false → s.loader.tag.toNat ≤ tag.toNat →
          t.demand.call = .idle ∧ t.demand.ds = 0 ∧ t.demand.integral = s.demand.integral ∧
          t.share.tier = 0 ∧ t.share.relief = 0 ∧ t.line.waiting = none ∧
          t.share.base = if s.damper.state = .faulted then .unknown else .percent s.zp.omin) ∧
        (s.loader.straps.role = .plant → s.PlantSound → s.line.yielded = false →
          s.loader.tag.toNat ≤ tag.toNat →
            t.engine.run = false ∧ t.capacity.speedCommand = 0 ∧ t.capacity.blowerCommand = 0 ∧
            t.valveEnergised = false ∧ t.engine.running = none ∧ t.engine.state = .idle ∧
            t.engine.requests = .empty ∧ t.protection.waiting = none ∧ t.protection.run = none ∧
            t.line.waiting = none ∧ t.modeSel.mode = s.modeSel.mode ∧ t.frost.index = s.frost.index ∧
            (s.engine.running.isSome = true →
              t.engine.aborted = s.engine.aborted + 1 ∧ t.engine.status.outcome = .aborted) ∧
            (s.protection.run.isSome = true →
              ∃ rec, t.protection.history.getLast? = some rec ∧ rec.cause = .standby))

/-- A PLANT report from a lower address in a state other than STANDBY sends a plant station to STANDBY: compressor,
speed and blower off, the valve de-energised, an open run closed with cause STANDBY, a running procedure
aborted, no request left, and the frost index kept (R34, R35, R153, R162). One from a higher address is counted as a
conflict where that address held no active plant before, and changes nothing else but the table; a report in
STANDBY, and a lower plant heard again in STANDBY, change the table alone (R34). -/
def Obligations.SecondPlantIsDetected : Prop :=
  (∀ (s : State) (a : Nat) (tag : Tag) (r : PlantRecord), s.plantReady = true →
    s.loader.powerAsserted = false → s.loader.inputAsserted = false → s.line.attempt = none →
    s.line.rx = .hunt → 1 ≤ a → a < s.address → s.address ≤ 15 → r.InRange → r.state ≠ .standby →
    s.engine.standby = false → s.PlantSound →
      ∃ t, exec (.frameReceived (buildFrame 2 a (encodePlant tag r))) s = .next t ∧
        t.engine.standby = true ∧ t.engine.run = false ∧ t.engine.running = none ∧
        t.engine.state = .idle ∧ t.capacity.speedCommand = 0 ∧ t.capacity.blowerCommand = 0 ∧
        t.valveEnergised = false ∧ t.plantState = .standby ∧
        t.engine.requests = { stop := none, defrost := false, changeover := false, start := false } ∧
        t.protection.waiting = none ∧ t.frost.index = s.frost.index ∧
        (s.engine.running.isSome = true →
          t.engine.aborted = s.engine.aborted + 1 ∧ t.engine.status.outcome = .aborted) ∧
        (s.protection.run.isSome = true →
          t.protection.run = none ∧
          ∃ rec, t.protection.history.getLast? = some rec ∧ rec.cause = .standby) ∧
        t.ownPlant.mode = .off ∧ t.ownPlant.f = 0 ∧ t.loader = s.loader ∧ t.sensors = s.sensors ∧
        t.demand = s.demand ∧ t.share = s.share ∧ t.damper = s.damper ∧ t.pending = s.pending) ∧
  ∀ (s : State) (a : Nat) (tag : Tag) (r : PlantRecord), s.plantReady = true →
    s.loader.powerAsserted = false → s.loader.inputAsserted = false → s.line.attempt = none →
    s.line.rx = .hunt → 1 ≤ a → a ≤ 15 → a ≠ s.address → r.InRange → s.ShownSound →
    s.address < a ∨ r.state = .standby ∨ s.engine.standby = true →
      ∃ t, exec (.frameReceived (buildFrame 2 a (encodePlant tag r))) s = .next t ∧
        t.peers =
          { s.peers with
            entries := s.peers.entries.map fun e =>
              if e.address = a then
                { address := e.address
                  held := some { freshness := .fresh, age := 0, contents := .plant r } }
              else e } ∧
        (s.address < a → r.state ≠ .standby →
          ((∃ q, s.peers.plantAt a = some q ∧ q.state ≠ .standby) → t.line.conflicts = s.line.conflicts) ∧
          ((∀ q, s.peers.plantAt a = some q → q.state = .standby) →
            t.line.conflicts = s.line.conflicts + 1)) ∧
        (a < s.address ∨ r.state = .standby → t.line.conflicts = s.line.conflicts) ∧
        t = (s.setPeers t.peers).setLine t.line

/-! ## The peer table -/

/-- An age timer expiry ages every present entry but the own one, turns LATE every FRESH entry that reaches its
class's threshold and empties every LATE entry that reaches its removal threshold, and counts each; the own
entry moves neither counter (R26, R27, R28, R29). The followed plant, PLANT_LOST and the views stand as the aged table
gives them, and while the same plant is followed nothing of demand, sharing and damper moves (R31, R32). A zone that so
loses its plant after the grace becomes PLANT_LOST, raises its report, takes tier 0 with no relief, and opens fully
unless its damper is faulted or it has yielded (R33, R75, R77, R78). -/
def Obligations.AgeTimerAgesEveryEntry : Prop :=
  ∀ s : State, s.ready = true → s.TableSound → ∃ t, exec .ageTimer s = .next t ∧
    t.peers.entries =
      (s.peers.entries.map fun e => if e.address = s.address then e else e.afterAgeTimer) ∧
    t.peers.lateEvents = s.peers.lateEvents + BitVec.ofNat 16 (s.others.countP PeerEntry.turnsLate) ∧
    t.peers.peersLost = s.peers.peersLost + BitVec.ofNat 16 (s.others.countP PeerEntry.isRemoved) ∧
    (s.FollowSound → t.FollowSound ∧
      (t.peers.followed = s.peers.followed →
        t.demand = s.demand ∧ t.share = s.share ∧ t.damper = s.damper) ∧
      (s.peers.followed.isSome = true → t.peers.followed = none → s.peers.grace = .expired →
        t.peers.plantLost = true ∧ t.line.main.pending = true ∧ t.share.tier = 0 ∧ t.share.relief = 0 ∧
        t.share.base =
          (if s.damper.state = .faulted then .unknown
          else if s.line.yielded = true then .percent s.zp.omin else .percent 100))) ∧
    t.demand = { s.demand with view := t.demand.view } ∧ t.share.inputs = s.share.inputs ∧
    t.peers.grace = s.peers.grace ∧ t.loader = s.loader ∧ t.sensors = s.sensors ∧
    t.modeSel = s.modeSel ∧ t.capacity = s.capacity ∧ t.engine = s.engine ∧
    t.protection = s.protection ∧ t.frost = s.frost ∧ t.pending = s.pending

/-- At the grace timer's expiry a zone with no followed plant becomes PLANT_LOST, which raises its report, makes its
tier 0 with no relief, and opens its branch fully unless the damper is faulted or the station has yielded; with a
followed plant only the timer changes (R33, R75, R77, R78). -/
def Obligations.GraceTimerLosesThePlant : Prop :=
  ∀ s : State, s.zoneReady = true → s.peers.grace = .running →
    (s.peers.followed.isSome = true →
      exec .graceTimer s = .next (s.setPeers { s.peers with grace := .expired })) ∧
    (s.peers.followed = none →
      ∃ t, exec .graceTimer s = .next t ∧
        t.peers = { s.peers with grace := .expired, plantLost := true } ∧
        t.line.main.pending = true ∧ t.share.tier = 0 ∧ t.share.relief = 0 ∧
        t.share.base =
          (if s.damper.state = .faulted then .unknown
          else if s.line.yielded = true then .percent s.zp.omin else .percent 100) ∧
        t.share.inputs = s.share.inputs ∧ t.share.view = s.share.view ∧
        t.loader = s.loader ∧ t.sensors = s.sensors ∧ t.demand = s.demand ∧
        t.modeSel = s.modeSel ∧ t.capacity = s.capacity ∧ t.engine = s.engine ∧
        t.protection = s.protection ∧ t.frost = s.frost ∧ t.pending = s.pending)

/-! ## The head link and the sensors -/

/-- A wall sensor head's frame makes the link PRESENT and restarts the loss timer; its temperature and RH become
the newest raw readings, its target is rounded to a multiple of 50 and clamped to 1600 to 3000, and its switch
takes effect, all at once; nothing is filtered (R37, R38, R39, R196). A plant head's frame does the same to the link and
sets the system switch and the continuous-fan selection at once. While the station attends its plant, a change to OFF
and a first frame with OFF start the off-hold timer and a change to another position stops it (R40, R110, R196). The
loss timer's expiry makes the link MISSING and leaves every reading and selection as it was; a head frame that breaks
off leaves the receiver hunting (R37, R38). A head frame with another check value, of the other head kind, with an
undefined switch code, or with a head-kind code other than 1 and 2 is discarded and changes nothing (R37, R196); that an
undefined continuous-fan code discards it is the model's choice (notes/assumptions/30.md). -/
def Obligations.HeadLinkArrivalsLossAndAbandon : Prop :=
  (∀ (s : State) (temp target : Int) (rh : Nat) (zoneOn : Bool), s.zoneReady = true →
    s.sensors.headRx = .hunt → -32768 ≤ temp → temp ≤ 32767 → -32768 ≤ target → target ≤ 32767 →
    rh ≤ 65535 →
      exec (.headFrameArrival
        ([0xA5#8, 1#8] ++ (putTemp temp ++ put16 rh ++ putTemp target ++ [if zoneOn then 1#8 else 0#8]) ++
          crcOctets (1#8 :: (putTemp temp ++ put16 rh ++ putTemp target ++
            [if zoneOn then 1#8 else 0#8])))) s = .next
        (s.setSensors
          { s.sensors with
            link := .present, lossRunning := true, arrived := true
            roomTemp := { s.sensors.roomTemp with raw := some temp }
            roomRh := { s.sensors.roomRh with raw := some (rh : Int) }
            target := max 1600 (min 3000 (50 * nearest target 50)), zoneSwitch := zoneOn })) ∧
  (∀ (s : State) (code : Nat) (switch : SystemSwitch) (fan : Bool), s.plantReady = true →
    s.sensors.headRx = .hunt → SystemSwitch.ofCode code = some switch →
      ∃ t, exec (.headFrameArrival
        ([0xA5#8, 2#8, octet code, if fan then 1#8 else 0#8] ++
          crcOctets [2#8, octet code, if fan then 1#8 else 0#8])) s = .next t ∧
        t.sensors =
          { s.sensors with
            link := .present, lossRunning := true, arrived := true, headSeen := true
            systemSwitch := switch, continuousFan := fan } ∧
        (s.aside = false →
          (switch = .off → s.sensors.systemSwitch ≠ .off ∨ s.sensors.headSeen = false →
            t.modeSel.offHold = true) ∧
          (switch ≠ .off → switch ≠ s.sensors.systemSwitch → t.modeSel.offHold = false)) ∧
        (switch = s.sensors.systemSwitch → s.sensors.headSeen = true →
          t.modeSel.offHold = s.modeSel.offHold) ∧
        t = (s.setSensors t.sensors).setModeSel { s.modeSel with offHold := t.modeSel.offHold }) ∧
  (∀ s : State, s.ready = true → s.sensors.lossRunning = true →
    exec .lossTimer s = .next
      (s.setSensors { s.sensors with link := .missing, lossRunning := false })) ∧
  (∀ s : State, s.ready = true →
    exec (.headFrameAbandoned []) s = .next (s.setSensors { s.sensors with headRx := .hunt })) ∧
  (∀ (s : State) (octets : List Byte), s.ready = true →
    ∃ t, exec (.headFrameAbandoned octets) s = .next t ∧ t.sensors.headRx = .hunt ∧
      t = (s.setSensors t.sensors).setModeSel { s.modeSel with offHold := t.modeSel.offHold }) ∧
  (∀ (s : State) (kind : Byte) (readings : List Byte), s.ready = true → s.sensors.headRx = .hunt →
    (kind = 1#8 ∧ readings.length = 7) ∨ (kind = 2#8 ∧ readings.length = 2) →
      (∀ high low : Byte, [high, low] ≠ crcOctets (kind :: readings) →
        exec (.headFrameArrival ([0xA5#8, kind] ++ readings ++ [high, low])) s = .next s) ∧
      ((s.loader.straps.role = .zone ∧ kind = 2#8) ∨ (s.loader.straps.role = .plant ∧ kind = 1#8) ∨
        (kind = 1#8 ∧ 2 ≤ octetAt readings 6) ∨
        (kind = 2#8 ∧ (5 ≤ octetAt readings 0 ∨ 2 ≤ octetAt readings 1)) →
          exec (.headFrameArrival ([0xA5#8, kind] ++ readings ++ crcOctets (kind :: readings))) s =
            .next s)) ∧
  ∀ (s : State) (kind : Byte), s.ready = true → s.sensors.headRx = .hunt → kind ≠ 1#8 → kind ≠ 2#8 →
    exec (.headFrameArrival [0xA5#8, kind]) s = .next s

/-- A zone's sensor timer expiry. With no arrival since the last one both inputs stand; on a MISSING link both take a
bad reading. A new room temperature is bad out of its range and, with the previous raw value more than 300 away, bad
once; else it is GOOD and moves the filtered value by a quarter of the difference. The previous raw value is the one
just read, and none after an INVALID or MISSING reading. A new RH is judged by its range alone. Good readings seed,
move and let recover, bad ones hold and at 30 fault the input; each fault is counted and raises the report (R10, R36,
R43, R45, R46, R47, R49). -/
def Obligations.ZoneInputsAtAnExpiry : Prop :=
  ∀ (s : State) (pins : PinSample) (first : Bool), s.zoneReady = true →
    ∃ t, exec (.sensorTimer pins first) s = .next t ∧
      (s.sensors.link ≠ .missing → s.sensors.arrived = false →
        t.sensors.roomTemp = s.sensors.roomTemp ∧ t.sensors.roomRh = s.sensors.roomRh) ∧
      (s.sensors.link = .missing →
        s.sensors.roomTemp.TakesBad t.sensors.roomTemp ∧ t.sensors.roomTemp.previous = none ∧
          s.sensors.roomRh.TakesBad t.sensors.roomRh) ∧
      (s.sensors.link ≠ .missing → s.sensors.arrived = true →
        (∀ raw, s.sensors.roomTemp.raw = some raw →
          (raw < -2000 ∨ 6000 < raw →
            s.sensors.roomTemp.TakesBad t.sensors.roomTemp ∧ t.sensors.roomTemp.previous = none) ∧
          (-2000 ≤ raw → raw ≤ 6000 →
            t.sensors.roomTemp.previous = some raw ∧
            ((∀ p, s.sensors.roomTemp.previous = some p → -300 ≤ raw - p ∧ raw - p ≤ 300) →
              s.sensors.roomTemp.TakesGood t.sensors.roomTemp 4 raw) ∧
            (∀ p, s.sensors.roomTemp.previous = some p → raw - p < -300 ∨ 300 < raw - p →
              s.sensors.roomTemp.TakesBad t.sensors.roomTemp))) ∧
        ∀ raw, s.sensors.roomRh.raw = some raw →
          (0 ≤ raw → raw ≤ 1000 → s.sensors.roomRh.TakesGood t.sensors.roomRh 4 raw) ∧
          (raw < 0 ∨ 1000 < raw → s.sensors.roomRh.TakesBad t.sensors.roomRh)) ∧
      t.sensors.faultEntries =
        s.sensors.faultEntries +
          (if t.sensors.roomTemp.state = .faulted ∧ s.sensors.roomTemp.state ≠ .faulted then 1 else 0) +
          (if t.sensors.roomRh.state = .faulted ∧ s.sensors.roomRh.state ≠ .faulted then 1 else 0) ∧
      (t.sensors.faultEntries ≠ s.sensors.faultEntries → t.line.main.pending = true) ∧
      t.sensors =
        { s.sensors with
          roomTemp := t.sensors.roomTemp, roomRh := t.sensors.roomRh, arrived := false
          faultEntries := t.sensors.faultEntries } ∧
      t.sensors.roomTemp.raw = s.sensors.roomTemp.raw ∧ t.sensors.roomRh.raw = s.sensors.roomRh.raw ∧
      t = (s.setSensors t.sensors).setLine t.line

/-- A plant's sensor timer expiry takes a new raw value for each of its five inputs. One in its range, -4000 to 9000 for
the four temperatures and 0 to 500 for the pressure, seeds its input, moves a valid one's filtered value by a quarter
of the difference, the pressure's by a half, and counts a FAULTED one's recovery to ten; one out of range makes its
input hold, count, and fault at 30. A contact changes when two samples in a row show the other level (R41, R42, R43,
R44, R45, R46, R47). -/
def Obligations.PlantInputsAndContacts : Prop :=
  ∀ (s : State) (pins : PinSample) (first : Bool), s.plantReady = true →
    ∃ t, exec (.sensorTimer pins first) s = .next t ∧
      s.sensors.supplyAir.Measures t.sensors.supplyAir 4 (-4000) 9000 pins.supplyAir ∧
      s.sensors.indoorCoil.Measures t.sensors.indoorCoil 4 (-4000) 9000 pins.indoorCoil ∧
      s.sensors.outdoorAir.Measures t.sensors.outdoorAir 4 (-4000) 9000 pins.outdoorAir ∧
      s.sensors.outdoorCoil.Measures t.sensors.outdoorCoil 4 (-4000) 9000 pins.outdoorCoil ∧
      s.sensors.staticPressure.Measures t.sensors.staticPressure 2 0 500 pins.staticPressure ∧
      t.sensors.inverter =
        { asserted :=
            if s.sensors.inverter.last = some pins.inverterFault then pins.inverterFault
            else s.sensors.inverter.asserted
          last := some pins.inverterFault } ∧
      t.sensors.condensate =
        { asserted :=
            if s.sensors.condensate.last = some pins.condensateFloat then pins.condensateFloat
            else s.sensors.condensate.asserted
          last := some pins.condensateFloat } ∧
      t.sensors.link = s.sensors.link ∧ t.sensors.systemSwitch = s.sensors.systemSwitch ∧
      t.loader = s.loader ∧ t.peers = s.peers ∧ t.demand = s.demand ∧ t.share = s.share ∧
      t.damper = s.damper ∧ t.pending = s.pending

/-- The outdoor air reading that seeds its input after a power-on reset, below 500, raises the frost index to 6000
or leaves a higher one; at 500 or above, and after the RESET input, the index stands. The station's engine is at
rest here, so that no step ends in the same event (R50, R178, R179). -/
def Obligations.FirstOutdoorReadingSeedsTheIndex : Prop :=
  ∀ (s : State) (pins : PinSample) (first : Bool), s.plantReady = true → s.aside = false →
    s.engine.listening ≠ .expired → s.engine.step = none →
    s.sensors.outdoorAir.state = .unseeded → s.sensors.outdoorAir.filtered = none →
    -4000 ≤ pins.outdoorAir → pins.outdoorAir ≤ 9000 →
      ∃ t, exec (.sensorTimer pins first) s = .next t ∧
        t.sensors.outdoorAir.filtered = some pins.outdoorAir ∧
        t.sensors.outdoorAir.state = .tracking ∧
        t.frost =
          { s.frost with
            index :=
              if s.loader.latest = .power ∧ pins.outdoorAir < 500 then max 6000 s.frost.index
              else s.frost.index } ∧
        t.capacity = s.capacity ∧ t.protection = s.protection ∧ t.modeSel = s.modeSel

/-! ## Zone demand -/

/-- The call at a demand timer expiry. The zone switch comes first: at OFF the call becomes or stays OFF, and at ON a
call OFF becomes IDLE (R58). Under a room temperature fault every other call becomes or stays IDLE, with Ds 0 and the
integral kept (R59). With the switch ON and no such fault, IDLE takes the first of three tests that holds: 0.30 °C above
the cooling setpoint COOL, 0.30 °C below the heating setpoint HEAT, and a humid room inside the band DRY (R60). COOL and
HEAT become IDLE when the previous Ds is 0 and the error is 0 or below (R61). DRY goes to COOL in a warm room, and to
IDLE in a dry room, a room too cool for DRY and an RH fault (R62). In YIELDED the call is IDLE instead (R72). -/
def Obligations.CallAtEachExpiry : Prop :=
  ∀ s : State, s.zoneReady = true → ∃ t, exec .demandTimer s = .next t ∧
    (s.line.yielded = true → t.demand.call = .idle) ∧
    (s.line.yielded = false →
      (s.sensors.zoneSwitch = false → t.demand.call = .off) ∧
      (s.sensors.zoneSwitch = true → s.demand.call = .off → t.demand.call = .idle) ∧
      (s.sensors.zoneSwitch = true → s.sensors.roomTemp.valid = false →
        t.demand.call = .idle ∧ t.demand.ds = 0 ∧ t.demand.integral = s.demand.integral) ∧
      ∀ temp spc sph rh : Int, s.sensors.zoneSwitch = true → s.sensors.roomTemp.valid = true →
        temp = s.sensors.roomTemp.value → rh = s.sensors.roomRh.value →
        spc = s.sensors.target + s.zp.halfBand → sph = s.sensors.target - s.zp.halfBand →
          (s.demand.call = .idle →
            t.demand.call =
              if spc + 30 ≤ temp then .cool
              else if temp ≤ sph - 30 then .heat
              else if s.sensors.roomRh.valid = true ∧ s.zp.rhTarget + 50 ≤ rh ∧ spc - 150 ≤ temp ∧ sph < temp
              then .dry
              else .idle) ∧
          (s.demand.call = .cool →
            t.demand.call = if s.demand.ds = 0 ∧ temp ≤ spc then .idle else .cool) ∧
          (s.demand.call = .heat →
            t.demand.call = if s.demand.ds = 0 ∧ sph ≤ temp then .idle else .heat) ∧
          (s.demand.call = .dry →
            t.demand.call =
              if spc + 30 ≤ temp then .cool
              else if s.sensors.roomRh.valid = false ∨ rh ≤ s.zp.rhTarget ∨ temp < spc - 150 then .idle
              else .dry))

/-- In COOL and HEAT the raw sum is the proportional term of the clamped error plus a hundredth of the integral, Ds
is the sum clamped to 0 to 1000, and the two marks follow. The integral starts from 0 on entry; it moves by the
error times Ki only while the followed plant delivers in the call's group, and not further up while the
previous sum stands above 1000 (R63 to R68). -/
def Obligations.SensibleDemandInCoolAndHeat : Prop :=
  ∀ (s : State) (temp : Int), s.zoneReady = true → s.sensors.roomTemp.filtered = some temp →
    ∃ t, exec .demandTimer s = .next t ∧
      ∀ raw : Int,
        (t.demand.call = .cool ∧ raw = temp - (s.sensors.target + s.zp.halfBand)) ∨
          (t.demand.call = .heat ∧ raw = (s.sensors.target - s.zp.halfBand) - temp) →
        ∃ e i u : Int, e = max (-500) (min 500 raw) ∧
          i = (if s.demand.call = t.demand.call then s.demand.integral else 0) ∧
          u = (if s.demand.call = t.demand.call then s.demand.rawSum else 0) ∧
          t.demand.integral =
            (if (∃ v, s.demand.view = some v ∧ v.mode.group = t.demand.call.group ∧ v.delivering = true) ∧
                ¬(1000 < u ∧ 0 < e) ∧ ¬(u < 0 ∧ e < 0)
              then max 0 (min 100000 (i + e * s.zp.ki)) else i) ∧
          t.demand.rawSum = nearest (e * s.zp.kp) 100 + nearest t.demand.integral 100 ∧
          (t.demand.ds : Int) = max 0 (min 1000 t.demand.rawSum) ∧
          (t.demand.saturated = true ↔ 1000 < t.demand.rawSum) ∧
          (t.demand.errorClamped = true ↔ raw < -500 ∨ 500 < raw)

/-- At an expiry whose call is then OFF, IDLE or DRY, Ds and the previous raw sum become 0, both marks are cleared
and the integral keeps its value (R69). At every expiry the latent demand is the humidity error times Kl over
10, rounded and clamped to 0 to 1000, where the call is not OFF, the RH is valid and the error is above 0, and 0
in any other case (R70). -/
def Obligations.RestingAndLatentDemand : Prop :=
  ∀ s : State, s.zoneReady = true → ∃ t, exec .demandTimer s = .next t ∧
    (t.demand.call = .off ∨ t.demand.call = .idle ∨ t.demand.call = .dry →
      t.demand.ds = 0 ∧ t.demand.rawSum = 0 ∧ t.demand.saturated = false ∧
      t.demand.errorClamped = false ∧ t.demand.integral = s.demand.integral) ∧
    (s.sensors.roomRh.valid = false → t.demand.dl = 0) ∧
    ∀ rh : Int, s.sensors.roomRh.filtered = some rh →
      (t.demand.dl : Int) =
        (if t.demand.call ≠ .off ∧ s.sensors.roomRh.valid = true ∧ 0 < rh - s.zp.rhTarget then
          max 0 (min 1000 (nearest ((rh - s.zp.rhTarget) * s.zp.kl) 10)) else 0)

/-- A demand timer expiry hands its new values to the Airflow Share Unit, which recomputes: the inputs are the new
call and demands, the target is base plus relief, and a changed call and a changed tier raise the report.
Sensors, table, loader, queue and every block of the plant are left alone (R10, R57, R71, R75, R83). -/
def Obligations.DemandReachesTheShareUnit : Prop :=
  ∀ s : State, s.zoneReady = true → ∃ t, exec .demandTimer s = .next t ∧
    t.share.inputs =
      { call := t.demand.call, ds := t.demand.ds, dl := t.demand.dl
        tempFault := !s.sensors.roomTemp.valid } ∧
    t.share.view = s.share.view ∧ t.share.target = targetOf t.share.base t.share.relief ∧
    (t.demand.call ≠ s.demand.call ∨ t.share.tier ≠ s.share.tier → t.line.main.pending = true) ∧
    t.demand.view = s.demand.view ∧ t.loader = s.loader ∧ t.peers = s.peers ∧
    t.sensors = s.sensors ∧ t.modeSel = s.modeSel ∧ t.capacity = s.capacity ∧
    t.engine = s.engine ∧ t.protection = s.protection ∧ t.frost = s.frost ∧ t.pending = s.pending

/-! ## Airflow sharing and the damper -/

/-- The own tier after a recomputation is the first row of R77's table that holds, and the base opening the first row of
R78's; under the defrost freeze it is the base that stood before (R77, R78, R79). -/
def Obligations.TierAndBaseAreTheFirstRowsThatHold : Prop :=
  (∀ s : State, s.recompute.share.tier =
    if s.damper.state = .faulted then 0
    else if s.zp.optOut = true then 0
    else if s.line.yielded = true then 0
    else if s.peers.plantLost = true then 0
    else if ∃ v, s.share.view = some v ∧
        ((s.share.inputs.call = .heat ∧ (v.mode = .cool ∨ v.mode = .dry)) ∨
          ((s.share.inputs.call = .cool ∨ s.share.inputs.call = .dry) ∧ v.mode = .heat)) then 0
    else if s.share.inputs.call = .idle ∨ s.share.inputs.call = .off ∨
        s.share.inputs.tempFault = true then 2
    else if ∃ v, s.share.view = some v ∧
        (((s.share.inputs.call = .cool ∨ s.share.inputs.call = .dry) ∧
            (v.mode = .cool ∨ v.mode = .dry)) ∨
          (s.share.inputs.call = .heat ∧ v.mode = .heat)) then 1
    else if ∃ v, s.share.view = some v ∧ v.mode = .fan then 1
    else 2) ∧
  ∀ s : State, s.zp.omin ≤ 100 → s.recompute.share.base =
    if s.damper.state = .faulted then .unknown
    else if s.line.yielded = true then .percent s.zp.omin
    else if s.peers.plantLost = true then .percent 100
    else if ∃ v, s.share.view = some v ∧ v.state = .defrost then s.share.base
    else if s.share.inputs.tempFault = true then .percent s.zp.faultOpening
    else if s.recompute.share.tier = 1 ∧ (s.share.inputs.call = .cool ∨ s.share.inputs.call = .heat) then
      .percent (s.zp.omin + (2 * ((100 - s.zp.omin) * s.share.inputs.ds) + 1000) / 2000)
    else if s.recompute.share.tier = 1 ∧ s.share.inputs.call = .dry then
      .percent (s.zp.omin + (2 * ((100 - s.zp.omin) * s.share.inputs.dl) + 1000) / 2000)
    else .percent s.zp.omin

/-- The relief of a recomputation. S is what the published opening exceeds the bases of all present zone entries by,
each times its weight, with an unknown base and no plant counting as 0; H1 and H2 are the openings that the FRESH
entries of tier 1 and tier 2 have left. A station of tier 1 takes the rounded-up share of S, one of tier 2 of what H1
leaves of S, one of tier 0 none; under the defrost freeze the relief stands (R79, R80, R81, R82), and that a zone
which has been in tier 0 inside the freeze then keeps the relief 0 is the model's reading (notes/assumptions/14.md).
Where every zone of a tier takes such a share, the openings they add, each times its zone's weight, make up at least
the part of the shortfall that the tier's headroom can cover, and exceed it by less than one percent of the zones'
weights; no zone opens past 100 (R81, R82). -/
def Obligations.ReliefSharesCoverTheShortfall : Prop :=
  (∀ (s u : State) (f S H1 H2 base : Nat), u = s.recompute → base = u.share.base.orZero →
    f = (match s.share.view with
      | some v => if v.mode = .off then 0 else v.f
      | none => 0) →
    S = f - (u.zoneEntries.map fun e => e.2.weight * e.2.base.orZero).sum →
    H1 = ((u.zoneEntries.filter fun e => e.1 = .fresh ∧ e.2.tier = 1).map fun e =>
      e.2.weight * (100 - e.2.base.orZero)).sum →
    H2 = ((u.zoneEntries.filter fun e => e.1 = .fresh ∧ e.2.tier = 2).map fun e =>
      e.2.weight * (100 - e.2.base.orZero)).sum →
      (u.share.tier = 0 → u.share.relief = 0) ∧
      (u.share.tier ≠ 0 → (∃ v, s.share.view = some v ∧ v.state = .defrost) →
        u.share.relief = s.share.relief) ∧
      (u.share.tier ≠ 0 → (∀ v, s.share.view = some v → v.state ≠ .defrost) →
        (u.share.tier = 1 →
          u.share.relief = if H1 = 0 then 0 else ((100 - base) * min S H1 + (H1 - 1)) / H1) ∧
        (u.share.tier = 2 →
          u.share.relief = if H2 = 0 then 0 else ((100 - base) * min (S - H1) H2 + (H2 - 1)) / H2))) ∧
  ∀ (zones : List (Nat × Nat)) (shortfall room : Nat),
    (∀ z ∈ zones, 1 ≤ z.1 ∧ z.2 ≤ 100) →
    room = (zones.map fun z => z.1 * (100 - z.2)).sum → 0 < room →
      min shortfall room ≤ (zones.map fun z => z.1 * reliefShare z.2 shortfall room).sum ∧
      (zones.map fun z => z.1 * reliefShare z.2 shortfall room).sum <
        min shortfall room + (zones.map Prod.fst).sum ∧
      ∀ z ∈ zones, z.2 + reliefShare z.2 shortfall room ≤ 100

/-- A homing step counts one step; at a stall or at the 1320th step homing ends at position 0 with no budget, and a
stored target that differs by 24 steps or more, or is full travel, becomes the taken target and waits for the
budget (R84, R85, R86, R88). A refill adds one unit to a budget below 2400, and the refill that brings a waiting drive's
budget to 50 sets it moving toward its target; the re-home age counts seconds up to 65535 (R87, R90, R92). -/
def Obligations.HomingStepsAndDamperTimers : Prop :=
  (∀ (s : State) (stall : Bool), s.zoneReady = true → s.damper.state = .homing →
    (stall = false → s.damper.homingSteps + 1 < 1320 →
      exec (.homingStepCompletion stall) s = .next
        (s.setDamper { s.damper with homingSteps := s.damper.homingSteps + 1 })) ∧
    (stall = true ∨ 1320 ≤ s.damper.homingSteps + 1 →
      (s.damper.stored = none →
        exec (.homingStepCompletion stall) s = .next
          (s.setDamper
            { s.damper with
              state := .holding, position := some 0, budget := 0, step := none
              homingSteps := s.damper.homingSteps + 1 })) ∧
      ∀ target, s.damper.stored = some target →
        exec (.homingStepCompletion stall) s = .next
          (s.setDamper
            { s.damper with
              state := if 24 ≤ target then .waitingBudget else .holding
              position := some 0, budget := 0, step := none, stored := none
              taken := if 24 ≤ target then some target else s.damper.taken
              homingSteps := s.damper.homingSteps + 1 }))) ∧
  ∀ s : State, s.zoneReady = true →
    (s.damper.state ≠ .waitingBudget →
      exec .budgetRefillTimer s = .next
        (s.setDamper
          { s.damper with
            budget := if s.damper.budget < 2400 then s.damper.budget + 1 else s.damper.budget })) ∧
    (∀ p target, s.damper.state = .waitingBudget → s.damper.position = some p →
      s.damper.taken = some target → s.damper.budget < 2400 →
        exec .budgetRefillTimer s = .next
          (s.setDamper
            { s.damper with
              budget := s.damper.budget + 1
              state := if s.damper.budget + 1 = 50 then .moving else .waitingBudget
              step :=
                if s.damper.budget + 1 = 50 then
                  some (if p < target then .opening else .closing)
                else s.damper.step })) ∧
    exec .rehomeAgeTimer s = .next
      (s.setDamper
        { s.damper with rehomeAge := s.damper.rehomeAge.map fun age => min 65535 (age + 1) })

/-- A target offered to the drive is stored while it is UNHOMED or HOMING, and left alone while it is FAULTED (R86). In
HOLDING it is taken if it differs from the position by 24 steps or more, or is 0 or 1200, and is not the position: the
drive moves toward it with a unit of budget, else it waits; a target not taken changes nothing (R88). In MOVING and
WAITING_BUDGET it replaces the taken target, and a wait for the very position ends in HOLDING (R89). A recomputation
offers its known target, twelve steps to the percent, and an unknown one not at all (R83). -/
def Obligations.OffersAreTakenByTheDriveState : Prop :=
  (∀ (d : Damper) (target : Nat),
    (d.state = .unhomed ∨ d.state = .homing → d.offer target = { d with stored := some target }) ∧
    (d.state = .faulted → d.offer target = d) ∧
    (d.state = .holding → ∀ p, d.position = some p →
      ((p + 24 ≤ target ∨ target + 24 ≤ p ∨ target = 0 ∨ target = 1200) → target ≠ p →
        d.offer target =
          { d with
            taken := some target
            state := if d.budget = 0 then .waitingBudget else .moving
            step := if d.budget = 0 then d.step else some (if p < target then .opening else .closing) }) ∧
      (target < p + 24 → p < target + 24 → target ≠ 0 → target ≠ 1200 → d.offer target = d) ∧
      (target = p → d.offer target = d)) ∧
    (d.state = .moving → d.offer target = { d with taken := some target }) ∧
    (d.state = .waitingBudget →
      d.offer target =
        { d with
          taken := some target
          state := if d.position = some target then .holding else .waitingBudget })) ∧
  ∀ s : State,
    (∀ n, s.recompute.share.target = .percent n → s.recompute.damper = s.damper.offer (n * 12)) ∧
    (s.recompute.share.target = .unknown → s.recompute.damper = s.damper)

/-- A step that completes in MOVING moves the position one step its way and takes one unit of budget. With no stall
the drive holds at its target, waits with no budget, or steps on. A stall is a re-home, counted: with no re-home
in the last 600 s the drive homes with its target stored, and with one it faults, raises its report and closes
out its branch as tier 0 with no relief (R87, R90, R92, R93, R94). That the taken target becomes none when it is stored
is the model's reading (notes/assumptions/16.md). -/
def Obligations.MoveStepsTowardItsTarget : Prop :=
  ∀ (s : State) (p target : Nat) (dir : Direction), s.zoneReady = true → s.damper.state = .moving →
    s.damper.position = some p → s.damper.taken = some target → s.damper.step = some dir →
    ∀ next : Nat, next = (if dir = .opening then p + 1 else p - 1) →
      (exec (.stepCompletion false) s = .next
        (s.setDamper
          { s.damper with
            position := some next, budget := s.damper.budget - 1
            state :=
              if target = next then .holding
              else if s.damper.budget - 1 = 0 then .waitingBudget else .moving
            step :=
              if target = next then none
              else if s.damper.budget - 1 = 0 then none
              else some (if next < target then .opening else .closing) })) ∧
      ((∀ age, s.damper.rehomeAge = some age → 600 ≤ age) →
        exec (.stepCompletion true) s = .next
          (s.setDamper
            { s.damper with
              state := .homing, position := none, taken := none, stored := some target
              homingSteps := 0, budget := s.damper.budget - 1, rehomeAge := some 0
              step := some .closing, rehomes := s.damper.rehomes + 1 })) ∧
      (∀ age, s.damper.rehomeAge = some age → age < 600 →
        ∃ t, exec (.stepCompletion true) s = .next t ∧
          t.damper =
            { s.damper with
              state := .faulted, position := none, taken := none, stored := none
              budget := s.damper.budget - 1, step := none, rehomes := s.damper.rehomes + 1 } ∧
          t.share.tier = 0 ∧ t.share.base = .unknown ∧ t.share.relief = 0 ∧
          t.share.target = .unknown ∧ t.line.main.pending = true ∧ t.loader = s.loader ∧
          t.peers = s.peers ∧ t.sensors = s.sensors ∧ t.demand = s.demand ∧ t.pending = s.pending)

/-! ## The plant: mode and capacity -/

/-- The mode at a plant control timer expiry. Switch OFF and FAN set their mode with the mode age and both timers at 0
and no weight admitted. The shift age and the mode age of a group advance by 10 (R100), and a group that is taken
starts the mode age and both timers from 0. In the cooling group that is not being left the mode shifts to what the
weights ask for once the shift age is 120, and the shift age starts from 0; no mode moves where a group change is
deferred, the shift among them (the model's reading, notes/assumptions/15.md). Under COOL, HEAT and AUTO an engine
that is not IDLE keeps the group. An IDLE one takes the group that the switch asks for: COOL and HEAT their own, AUTO
the heavier from no group and the other one when its quiet or its dominance route is open; heating is HEAT, and
cooling is DRY or COOL by the weights (R98 to R108). A group taken with the compressor on asks for CHANGEOVER where
its weight is above 0 and for an ordinary STOP where it is 0, and the mode OFF or FAN for an ordinary STOP while the
compressor is on or a START, CHANGEOVER or DEFROST runs; with the compressor off and none of these running nothing is
asked (R101, R102). -/
def Obligations.ModeFollowsSwitchAndWeights : Prop :=
  (∀ (s : State) (wc wh wd : Nat), s.plantReady = true → s.aside = false →
    wc = callWeight .cool ZoneRecord.ds s.zoneEntries →
    wh = callWeight .heat ZoneRecord.ds s.zoneEntries →
    wd = callWeight .dry ZoneRecord.dl s.zoneEntries →
      ∃ t, exec .plantControlTimer s = .next t ∧
        (s.sensors.systemSwitch = .off ∨ s.sensors.systemSwitch = .fan →
          t.modeSel.mode = (if s.sensors.systemSwitch = .off then .off else .fan) ∧
          t.modeSel.modeAge = 0 ∧ t.modeSel.quiet = 0 ∧ t.modeSel.dominance = 0 ∧
          t.modeSel.wc = 0 ∧ t.modeSel.wh = 0 ∧ t.modeSel.wd = 0) ∧
        (s.sensors.systemSwitch ≠ .off → s.sensors.systemSwitch ≠ .fan → s.engine.state ≠ .idle →
          t.modeSel.mode.group = s.modeSel.mode.group) ∧
        (s.engine.state = .idle →
          (s.sensors.systemSwitch = .cool → s.modeSel.mode.group ≠ .cooling →
            t.modeSel.mode = if 0 < wd ∧ wc ≤ wd then .dry else .cool) ∧
          (s.sensors.systemSwitch = .heat → t.modeSel.mode = .heat) ∧
          (s.sensors.systemSwitch = .auto →
            (s.modeSel.mode.group = .none →
              t.modeSel.mode =
                if wc + wd < wh then .heat else if 0 < wd ∧ wc ≤ wd then .dry else .cool) ∧
            ∀ current other : Nat,
              s.modeSel.mode.group ≠ .none →
              current = (if s.modeSel.mode = .heat then wh else wc + wd) →
              other = (if s.modeSel.mode = .heat then wc + wd else wh) →
              (t.modeSel.mode.group = s.modeSel.mode.group.other ↔
                0 < other ∧
                  ((current = 0 ∧ 300 ≤ min 65535 (s.modeSel.quiet + 10)) ∨
                    (2 * current ≤ other ∧ 600 ≤ min 65535 (s.modeSel.dominance + 10) ∧
                      1200 ≤ min 65535 (s.modeSel.modeAge + 10)))) ∧
              (t.modeSel.mode.group = s.modeSel.mode.group ∨
                t.modeSel.mode.group = s.modeSel.mode.group.other))) ∧
        (t.modeSel.mode.group ≠ .none →
          (t.modeSel.mode.group = s.modeSel.mode.group →
            t.modeSel.modeAge = min 65535 (s.modeSel.modeAge + 10)) ∧
          (t.modeSel.mode.group ≠ s.modeSel.mode.group →
            t.modeSel.modeAge = 0 ∧ t.modeSel.quiet = 0 ∧ t.modeSel.dominance = 0)) ∧
        (s.modeSel.mode.group ≠ .cooling →
          t.modeSel.shiftAge = min 65535 (s.modeSel.shiftAge + 10)) ∧
        (∀ (age : Nat) (asked : Mode) (leaves : Prop), s.modeSel.mode.group = .cooling →
          age = min 65535 (s.modeSel.shiftAge + 10) →
          asked = (if 0 < wd ∧ wc ≤ wd then .dry else .cool) →
          (leaves ↔
            s.sensors.systemSwitch = .heat ∨
              (s.sensors.systemSwitch = .auto ∧ 0 < wh ∧
                ((wc + wd = 0 ∧ 300 ≤ min 65535 (s.modeSel.quiet + 10)) ∨
                  (2 * (wc + wd) ≤ wh ∧ 600 ≤ min 65535 (s.modeSel.dominance + 10) ∧
                    1200 ≤ min 65535 (s.modeSel.modeAge + 10))))) →
            (s.sensors.systemSwitch = .off ∨ s.sensors.systemSwitch = .fan → t.modeSel.shiftAge = age) ∧
            (s.sensors.systemSwitch ≠ .off → s.sensors.systemSwitch ≠ .fan →
              (leaves →
                t.modeSel.shiftAge = age ∧
                  t.modeSel.mode = if s.engine.state = .idle then .heat else s.modeSel.mode) ∧
              (¬leaves →
                t.modeSel.mode = (if 120 ≤ age then asked else s.modeSel.mode) ∧
                t.modeSel.shiftAge = if asked ≠ s.modeSel.mode ∧ 120 ≤ age then 0 else age)))) ∧
  ∀ s t : State, s.engine.listening = .expired → s.aside = false → t = s.modeExpiry →
    (s.engine.state = .idle → s.engine.running = none → s.engine.requests = .empty →
      (s.engine.run = false → t.engine = s.engine) ∧
      (s.engine.run = true →
        (t.modeSel.mode.group ≠ .none → t.modeSel.mode.group ≠ s.modeSel.mode.group →
          t.engine.running =
            some (if 0 < t.modeSel.groupWeight t.modeSel.mode.group then .changeover else .stop .demand)) ∧
        (t.modeSel.mode.group ≠ .none → t.modeSel.mode.group = s.modeSel.mode.group →
          t.engine = s.engine) ∧
        (t.modeSel.mode.group = .none → t.engine.running = some (.stop .demand)))) ∧
    (s.engine.state = .running →
      s.engine.running = some .start ∨ s.engine.running = some .changeover ∨
        s.engine.running = some .defrost →
      t.modeSel.mode.group = .none → s.engine.requests.stop = none →
        t.engine.requests.stop = some .demand ∧ t.engine.requests.start = false)

/-- At a plant control timer expiry the admitted weights are the sums, over the present zone entries with the call, of
weight times demand, where the switch admits the call's group, and 0 elsewhere (R98, R99). The capacity request is their
mean over all the zones' weight, rounded, and at most 600 in DRY (R115). Fmax is what the zones can open: all of a FRESH
zone of tier 1 or 2, and the reported base plus relief of any other. The published opening never exceeds it and the
effective airflow is what it carries; with no zone all are 0 (R30, R121). -/
def Obligations.CapacityIsTheWeightedMean : Prop :=
  ∀ (s : State) (w : Nat), s.plantReady = true → s.aside = false →
    w = (s.zoneEntries.map fun e => e.2.weight).sum →
    (∀ e ∈ s.zoneEntries, e.2.ds ≤ 1000 ∧ e.2.dl ≤ 1000) →
      ∃ t, exec .plantControlTimer s = .next t ∧
        t.modeSel.wc =
          (if s.sensors.systemSwitch = .cool ∨ s.sensors.systemSwitch = .auto then
            ((s.zoneEntries.filter fun e => e.2.call = .cool).map fun e => e.2.weight * e.2.ds).sum
          else 0) ∧
        t.modeSel.wh =
          (if s.sensors.systemSwitch = .heat ∨ s.sensors.systemSwitch = .auto then
            ((s.zoneEntries.filter fun e => e.2.call = .heat).map fun e => e.2.weight * e.2.ds).sum
          else 0) ∧
        t.modeSel.wd =
          (if s.sensors.systemSwitch = .cool ∨ s.sensors.systemSwitch = .auto then
            ((s.zoneEntries.filter fun e => e.2.call = .dry).map fun e => e.2.weight * e.2.dl).sum
          else 0) ∧
        t.capacity.c ≤ 1000 ∧
        (w = 0 → t.capacity.c = 0 ∧ t.capacity.f = 0 ∧ t.capacity.fmax = 0 ∧
          t.capacity.effective = 0 ∧ t.capacity.effectiveRunning = 0 ∧
          (t.capacity.airflowLimited = true ↔ 0 < t.capacity.airflow)) ∧
        (0 < w →
          (t.modeSel.mode = .off ∨ t.modeSel.mode = .fan → t.capacity.c = 0) ∧
          (t.modeSel.mode = .cool → 2 * w * t.capacity.c ≤ 2 * t.modeSel.wc + w ∧
            2 * t.modeSel.wc < 2 * w * t.capacity.c + w) ∧
          (t.modeSel.mode = .heat → 2 * w * t.capacity.c ≤ 2 * t.modeSel.wh + w ∧
            2 * t.modeSel.wh < 2 * w * t.capacity.c + w) ∧
          (t.modeSel.mode = .dry → t.capacity.c ≤ 600 ∧
            2 * w * t.capacity.c ≤ 2 * t.modeSel.wd + w ∧
            (t.capacity.c < 600 → 2 * t.modeSel.wd < 2 * w * t.capacity.c + w)) ∧
          t.capacity.fmax =
            (s.zoneEntries.map fun e =>
              if e.1 = .fresh ∧ 1 ≤ e.2.tier then e.2.weight * 100
              else if e.2.base = .unknown then 0 else e.2.weight * (e.2.base.orZero + e.2.relief)).sum ∧
          (t.capacity.airflowLimited = true ↔ 10 * t.capacity.fmax < t.capacity.airflow * w) ∧
          (t.capacity.airflowLimited = false →
            t.capacity.f = (t.capacity.airflow * w + 9) / 10 ∧ t.capacity.effective = t.capacity.airflow) ∧
          (t.capacity.airflowLimited = true →
            t.capacity.f = t.capacity.fmax ∧ t.capacity.effective = t.capacity.fmax * 10 / w)) ∧
        t.loader = s.loader ∧ t.peers = s.peers ∧ t.sensors = s.sensors ∧ t.demand = s.demand ∧
        t.share = s.share ∧ t.damper = s.damper ∧ t.pending = s.pending

/-- The rest of a capacity period, by the mode, C and Fmax that stand after it. The two caps step by the coil and the
supply air (R116). The running airflow and the required airflow A follow their tables, with A by whether the plant is
conditioning, on the engine as stage 5 has left it (R120; that it is read there is the model's reading,
notes/assumptions/25.md). The start and stop counts count on and restart (R124, R125). The blower limit follows the
pressure, and the blower takes the loop's value, at least 100 with the compressor on, or what the procedure's step
holds (R122, R123). The speed moves from its last value toward its target, which lies between Cmin and the cap in
force, by at most 40 up, or 80 while a zone is saturated, and 100 down (R117, R119). -/
def Obligations.CapacityPeriodMovesItsLoops : Prop :=
  ∀ (s : State) (m : Mode) (w x ar : Nat), s.plantReady = true → s.aside = false → s.PlantSound →
    w = (s.zoneEntries.map fun e => e.2.weight).sum →
      ∃ t, exec .plantControlTimer s = .next t ∧
        (m = t.modeSel.mode → x = max 400 (300 + t.capacity.c * 7 / 10) →
          ar = (if m = .cool ∨ m = .heat then x else if m = .dry then max 300 ((x * 55 + 99) / 100) else 0) →
          t.capacity.freezeCap =
            (if m ≠ .cool ∧ m ≠ .dry then 1000
            else if s.sensors.indoorCoil.valid = false then s.capacity.freezeCap
            else if s.sensors.indoorCoil.value < 100 then max s.pp.cmin (s.capacity.freezeCap - 100)
            else if s.sensors.indoorCoil.value < 400 then s.capacity.freezeCap
            else min 1000 (s.capacity.freezeCap + 50)) ∧
          t.capacity.supplyCap =
            (if m ≠ .heat then 1000
            else if s.sensors.supplyAir.valid = false then s.capacity.supplyCap
            else if 5500 ≤ s.sensors.supplyAir.value then max s.pp.cmin (s.capacity.supplyCap - 50)
            else if 5000 ≤ s.sensors.supplyAir.value then s.capacity.supplyCap
            else min 1000 (s.capacity.supplyCap + 50)) ∧
          t.capacity.effectiveRunning =
            (if w = 0 then 0
            else if (ar * w + 9) / 10 ≤ t.capacity.fmax then ar else t.capacity.fmax * 10 / w) ∧
          t.capacity.startCount =
            (if s.pp.startThreshold ≤ t.capacity.c ∧ (m = .cool ∨ m = .dry ∨ m = .heat) ∧
                300 ≤ t.capacity.effectiveRunning ∧ s.sensors.inverter.asserted = false ∧
                (s.sensors.condensate.asserted = false ∨ m = .heat)
              then min 2 (s.capacity.startCount + 1) else 0) ∧
          t.capacity.stopCount =
            (if t.capacity.c < s.pp.stopThreshold then min 3 (s.capacity.stopCount + 1) else 0) ∧
          t.capacity.airflow =
            (if t.engine.run = true ∨ t.engine.running = some .start ∨
                t.engine.running = some .changeover ∨ t.engine.running = some .defrost ∨
                t.engine.requests.start = true ∨ t.engine.requests.changeover = true
              then (if m = .off ∨ m = .fan then s.pp.fanAirflow else ar)
              else if m = .fan ∨ (m ≠ .off ∧ s.sensors.continuousFan = true) then s.pp.fanAirflow else 0) ∧
          t.capacity.blowerLimit =
            (if s.sensors.staticPressure.valid = false then 800
            else if (s.pp.pmax : Int) < s.sensors.staticPressure.value then s.capacity.blowerLimit - 50
            else if s.sensors.staticPressure.value < (s.pp.pmax : Int) - 30 then
              min 1000 (s.capacity.blowerLimit + 20)
            else s.capacity.blowerLimit) ∧
          (t.capacity.pressureLimiting = true ↔
            s.sensors.staticPressure.valid = true ∧ t.capacity.blowerLimit ≠ 1000 ∧
              (s.capacity.pressureLimiting = true ∨
                (s.pp.pmax : Int) < s.sensors.staticPressure.value)) ∧
          t.capacity.loopBlower = min t.capacity.effective t.capacity.blowerLimit ∧
          (t.engine.blowerHold = none →
            t.capacity.blowerCommand =
              if t.engine.run = true then max 100 t.capacity.loopBlower else t.capacity.loopBlower) ∧
          (∀ v, t.engine.blowerHold = some v → t.capacity.blowerCommand = v) ∧
          (t.capacity.speedFollows = false → t.capacity.loopSpeed = t.capacity.speedCommand) ∧
          ∀ cap target rate : Nat, s.capacity.speedFollows = true → t.capacity.speedFollows = true →
            cap =
              (if m = .cool ∨ m = .dry then
                min (if s.sensors.indoorCoil.valid = true then t.capacity.freezeCap else 600)
                  (if m = .dry then 600 else 1000)
              else if m = .heat then
                (if s.sensors.supplyAir.valid = true then t.capacity.supplyCap else 800)
              else 1000) →
            target = max s.pp.cmin (min cap (max t.capacity.c s.pp.cmin)) →
            rate = (if s.zoneEntries.any (fun e => e.2.flags.demandSaturated) = true then 80 else 40) →
              t.capacity.speedCommand =
                  (if s.capacity.speedCommand ≤ target then min target (s.capacity.speedCommand + rate)
                  else max target (s.capacity.speedCommand - 100)) ∧
                t.capacity.loopSpeed = t.capacity.speedCommand)

/-! ## The plant: protection, procedures and frost -/

/-- The off-hold timer's expiry ends a LOCKOUT, whose end raises the report whatever plant state shows, and stops the
timer; the history and the doubling flag stand. The listening timer's expiry ends the listening interval, until which
the engine drops requests and counts them nowhere (R111, R134, R152, R165). It runs out in STANDBY and YIELDED too,
where requests go on being dropped (R136; the expiry there is the model's reading, notes/assumptions/26.md). -/
def Obligations.PlantOneShotTimersExpire : Prop :=
  (∀ s : State, s.plantReady = true → s.aside = false → s.modeSel.offHold = true → s.ShownSound →
    ∃ t, exec .offHoldTimer s = .next t ∧ t.modeSel = { s.modeSel with offHold := false } ∧
      t.protection = { s.protection with lockout := none } ∧ t.engine = { s.engine with shown := t.plantState } ∧
      t.plantState ≠ .lockout ∧ (s.protection.lockout.isSome = true → t.line.main.pending = true) ∧
      t.loader = s.loader ∧ t.peers = s.peers ∧ t.sensors = s.sensors ∧ t.capacity = s.capacity ∧
      t.frost = s.frost ∧ t.demand = s.demand ∧ t.share = s.share ∧ t.damper = s.damper ∧
      t.pending = s.pending) ∧
  (∀ s : State, s.plantReady = true → s.engine.listening = .running →
    exec .listeningTimer s = .next (s.setEngine { s.engine with listening := .expired })) ∧
  ∀ (s : State) (p : Proc), s.engine.listening ≠ .expired → s.request p = s

/-- What becomes of a request once the engine takes requests. In STANDBY and YIELDED it is dropped; a START in LOCKOUT
is refused and counted; a request of the running procedure's kind and a DEFROST outside HEAT-running are dropped; a
pending request of the kind stands, and a pending STOP becomes protective with the newer cause. A STOP that meets a
running one changes nothing unless it is protective and an ordinary one waits at T1 (R136, R144). While a step of no
lower priority runs, any other request enters the pending set: a STOP and a CHANGEOVER withdraw a pending START, and a
START a pending STOP. A LOCKOUT that begins removes a pending START and counts it (R136, R137). -/
def Obligations.RequestsJoinThePendingSet : Prop :=
  (∀ (s : State) (p : Proc), s.aside = true → s.request p = s) ∧
  (∀ s : State, s.engine.listening = .expired → s.aside = false →
    (s.protection.lockout.isSome = true →
      s.request .start = s.setEngine { s.engine with refused := s.engine.refused + 1 }) ∧
    (s.protection.lockout = none → s.engine.running = some .start ∨ s.engine.requests.start = true →
      s.request .start = s) ∧
    (s.engine.running = some .changeover ∨ s.engine.requests.changeover = true →
      s.request .changeover = s) ∧
    (s.engine.running = some .defrost ∨ s.engine.requests.defrost = true ∨ s.modeSel.mode ≠ .heat ∨
      s.engine.run = false ∨ s.engine.valve = .cooling → s.request .defrost = s) ∧
    (∀ q r, s.engine.running = some (.stop q) →
      q ≠ .demand ∨ s.engine.step ≠ some .t1 ∨ s.engine.state ≠ .waiting ∨ r = .demand →
        s.request (.stop r) = s) ∧
    (∀ old r, s.engine.requests.stop = some old → (∀ q, s.engine.running ≠ some (.stop q)) →
      s.request (.stop r) = s.setEngine
        { s.engine with
          requests := { s.engine.requests with stop := some (if r = .demand then old else r) } })) ∧
  (∀ s : State, s.engine.listening = .expired → s.aside = false →
    (∀ p : Proc, s.engine.running = some p →
      (s.engine.state = .running →
        (s.protection.lockout = none → p ≠ .start → s.engine.requests.start = false →
          s.request .start = s.setEngine
            { s.engine with requests := { s.engine.requests with start := true, stop := none } }) ∧
        (p ≠ .changeover → s.engine.requests.changeover = false →
          s.request .changeover = s.setEngine
            { s.engine with requests := { s.engine.requests with changeover := true, start := false } }) ∧
        (p ≠ .defrost → s.engine.requests.defrost = false → s.modeSel.mode = .heat →
          s.engine.run = true → s.engine.valve = .heating →
            s.request .defrost = s.setEngine
              { s.engine with requests := { s.engine.requests with defrost := true } }) ∧
        (∀ r, (∀ q, p ≠ .stop q) → s.engine.requests.stop = none →
          s.request (.stop r) = s.setEngine
            { s.engine with requests := { s.engine.requests with stop := some r, start := false } })) ∧
      (s.engine.state = .waiting → s.protection.lockout = none → p ≠ .start →
        s.engine.requests.start = false →
          s.request .start = s.setEngine
            { s.engine with requests := { s.engine.requests with start := true, stop := none } }))) ∧
  ∀ s : State,
    s.beginLockout.engine.requests = { s.engine.requests with start := false } ∧
    s.beginLockout.engine.refused =
      (if s.engine.requests.start = true then s.engine.refused + 1 else s.engine.refused) ∧
    s.beginLockout.protection.lockout = some 1800

/-- How a STOP and a START begin. On an IDLE engine, over a WAITING procedure of lower priority, and at the boundary of
a running one's step that has a next link, a STOP takes over: a displaced procedure is PREEMPTED and counted. T1 stops
the compressor at once for a protective STOP, with no run open, and once the run has lasted its minimum; else the STOP
waits there for its grant (R138, R140, R141, R143, R148, R159). A protective STOP takes over an ordinary one that waits
at T1, at once and with its own cause (R144). A START on an IDLE engine begins at S1 with the compressor off and is
dropped with it on (R138, R142). -/
def Obligations.StopAndStartBegin : Prop :=
  (∀ (s : State) (r : StopReason), s.engine.listening = .expired → s.aside = false →
    s.engine.requests = .empty →
    (s.engine.state = .idle ∧ s.engine.running = none ∧ s.protection.waiting = none) ∨
      (s.engine.state = .waiting ∧ ∃ q, s.engine.running = some q ∧
        (q = .start ∨ q = .changeover ∨ q = .defrost)) →
      (r ≠ .demand ∨ (∀ age, s.protection.run = some age → s.pp.minRun ≤ age) →
        s.StoppedAtT2 (s.request (.stop r)) r) ∧
      (r = .demand → (∃ age, s.protection.run = some age ∧ age < s.pp.minRun) →
        (s.request (.stop r)).WaitsAt (.stop r) .t1 .stop ∧
          (s.request (.stop r)).engine.run = s.engine.run ∧
          (s.request (.stop r)).protection.run = s.protection.run) ∧
      (s.request (.stop r)).engine.preempted =
        (if s.engine.state = .idle then s.engine.preempted else s.engine.preempted + 1) ∧
      (s.request (.stop r)).engine.status.proc = some (.stop r) ∧
      (s.request (.stop r)).engine.status.outcome = .inProgress) ∧
  (∀ (s : State) (q : Proc) (st next : StepId) (r : StopReason) (n : Nat), s.plantReady = true →
    s.aside = false → s.engine.running = some q → q = .start ∨ q = .changeover ∨ q = .defrost →
    s.engine.step = some st → st.next = some next → s.engine.state = .running →
    s.engine.delaying = false → s.engine.exitTime = some n → s.engine.requests.stop = some r →
      ∃ t, exec .stepTimeExit s = .next t ∧ t.engine.preempted = s.engine.preempted + 1 ∧
        t.engine.requests.stop = none ∧
        (r ≠ .demand ∨ (∀ age, s.protection.run = some age → s.pp.minRun ≤ age) → s.StoppedAtT2 t r) ∧
        (r = .demand → (∃ age, s.protection.run = some age ∧ age < s.pp.minRun) →
          t.WaitsAt (.stop r) .t1 .stop)) ∧
  (∀ (s : State) (r : StopReason), s.engine.listening = .expired → s.aside = false →
    s.WaitsAt (.stop .demand) .t1 .stop → r ≠ .demand →
      s.StoppedAtT2 (s.request (.stop r)) r ∧
        (s.request (.stop r)).engine.requests =
          { s.engine.requests with start := (s.request (.stop r)).engine.requests.start }) ∧
  ∀ s t : State, s.engine.listening = .expired → s.aside = false → s.engine.state = .idle →
    s.engine.running = none → s.engine.requests = .empty → s.protection.lockout = none →
    t = s.request .start →
      (s.engine.run = true → t = s) ∧
      (s.engine.run = false →
        t.engine =
          { s.engine with
            state := .running, running := some .start, step := some .s1, delaying := false, stepTime := 0
            exitTime := some 30, timeLimit := none, blowerHold := none
            status :=
              { s.engine.status with proc := some .start, outcome := .inProgress, limited := false } } ∧
        t.protection = s.protection ∧ t.modeSel = s.modeSel ∧ t.sensors = s.sensors)

/-- The rest of the STOP and CHANGEOVER chains, and withdrawal. T2's time exit hands the blower back to the loop at T3
and ends STOP with DONE (R143). A CHANGEOVER on an IDLE engine waits at X1 for the minimum run of an open run, else
stops the compressor, closes the run with cause CHANGEOVER, and at X2 runs the blower at the fan airflow until the
stop age is 60, when X3 drives the valve to the mode's group and S1 follows (R145). At the hand-off of C an ordinary
STOP waiting at T1 is withdrawn with C at the start threshold or above, unless the compressor runs with the valve
against the mode's group; a START waiting at S3 with C below the stop threshold or no group in the mode; nothing else
is (R150). -/
def Obligations.ChainsEndAndAreWithdrawn : Prop :=
  (∀ (s : State) (r : StopReason) (n : Nat), s.plantReady = true → s.aside = false →
    s.engine.running = some (.stop r) → s.engine.step = some .t2 → s.engine.state = .running →
    s.engine.delaying = false → s.engine.exitTime = some n → s.engine.requests = .empty →
      ∃ t, exec .stepTimeExit s = .next t ∧ t.engine.state = .idle ∧ t.engine.running = none ∧
        t.engine.step = none ∧ t.engine.done = s.engine.done + 1 ∧
        t.engine.stepsLoaded = s.engine.stepsLoaded + 2 ∧ t.engine.marks = s.engine.marks ∧
        t.engine.status =
          { s.engine.status with proc := some (.stop r), step := some .t3, outcome := .done } ∧
        t.engine.blowerHold = none ∧ t.engine.speedHold = none ∧ t.engine.run = s.engine.run ∧
        t.engine.valve = s.engine.valve ∧
        t.capacity.blowerCommand =
          (if s.engine.run = true then max 100 s.capacity.loopBlower else s.capacity.loopBlower) ∧
        t.protection = { s.protection with waiting := none } ∧ t.frost = s.frost) ∧
  (∀ s t : State, s.engine.listening = .expired → s.aside = false → s.engine.state = .idle →
    s.engine.running = none → s.engine.requests = .empty → s.protection.waiting = none →
    t = s.request .changeover →
      ((∃ age, s.protection.run = some age ∧ age < s.pp.minRun) →
        t.WaitsAt .changeover .x1 .stop ∧ t.engine.run = s.engine.run ∧
          t.protection.run = s.protection.run) ∧
      ((∀ age, s.protection.run = some age → s.pp.minRun ≤ age) →
        t.engine.running = some .changeover ∧ t.engine.state = .running ∧ t.engine.run = false ∧
          t.capacity.speedCommand = 0 ∧ t.protection.run = none ∧
          (s.protection.run.isSome = true →
            ∃ rec, t.protection.history.getLast? = some rec ∧ rec.cause = .changeover) ∧
          (s.engine.run = true ∨ s.protection.stopAge < 60 →
            t.engine.step = some .x2 ∧ t.capacity.blowerCommand = s.pp.fanAirflow ∧
              t.protection.waiting = some .spacing ∧ t.engine.valve = s.engine.valve) ∧
          (s.engine.run = false → 60 ≤ s.protection.stopAge →
            t.engine.step = some .s1 ∧ t.engine.exitTime = some 30 ∧ t.engine.blowerHold = none ∧
              t.protection.waiting = none ∧
              t.engine.valve = s.modeSel.mode.valve.getD s.engine.valve))) ∧
  ∀ (s t : State) (p : Proc) (st : StepId), s.engine.state = .waiting → s.engine.running = some p →
    s.engine.step = some st → s.engine.requests = .empty → t = s.handOffC →
      ((p = .stop .demand ∧ st = .t1 ∧ s.pp.startThreshold ≤ s.capacity.c ∧
          ¬(s.engine.run = true ∧ ∃ v, s.modeSel.mode.valve = some v ∧ v ≠ s.engine.valve)) ∨
        (p = .start ∧ st = .s3 ∧
          (s.capacity.c < s.pp.stopThreshold ∨ s.modeSel.mode = .off ∨ s.modeSel.mode = .fan)) →
        t.engine.state = .idle ∧ t.engine.running = none ∧ t.engine.withdrawn = s.engine.withdrawn + 1 ∧
          t.engine.status = { s.engine.status with proc := some p, step := some st, outcome := .withdrawn } ∧
          t.engine.run = s.engine.run ∧ t.engine.valve = s.engine.valve ∧
          t.protection = { s.protection with waiting := none }) ∧
      (¬((p = .stop .demand ∧ st = .t1 ∧ s.pp.startThreshold ≤ s.capacity.c ∧
          ¬(s.engine.run = true ∧ ∃ v, s.modeSel.mode.valve = some v ∧ v ≠ s.engine.valve)) ∨
        (p = .start ∧ st = .s3 ∧
          (s.capacity.c < s.pp.stopThreshold ∨ s.modeSel.mode = .off ∨ s.modeSel.mode = .fan))) →
        t = s)

/-- The static count of a protection timer expiry, and the trip at 10: with the blower on an EMERGENCY starts at once,
and the compressor, the speed and the blower stand at 0, the hold at 300 s, an open run is closed with cause STATIC
and a procedure that ran is aborted; an EMERGENCY already running takes the greater hold (R128, R136, R147, R149,
R162). A second of an EMERGENCY takes one second of its hold; the second that takes the last ends the EMERGENCY with
DONE, and an engine with nothing pending is IDLE (R141, R147, R151). -/
def Obligations.StaticTripAndEmergencyHold : Prop :=
  (∀ s : State, s.plantReady = true → s.aside = false → ∃ t, exec .protectionTimer s = .next t ∧
    t.capacity.staticCount =
      (if s.sensors.staticPressure.valid = true ∧ (s.pp.ptrip : Int) < s.sensors.staticPressure.value then
        min 10 (s.capacity.staticCount + 1) else 0) ∧
    t.loader = s.loader ∧ t.peers = s.peers ∧ t.sensors = s.sensors ∧ t.demand = s.demand ∧
    t.share = s.share ∧ t.damper = s.damper ∧ t.pending = s.pending ∧
    (t.capacity.staticCount = 10 → 0 < s.capacity.blowerCommand → s.engine.listening = .expired →
      (s.engine.inEmergency = true → t.engine.emergencyHold = max s.engine.emergencyHold 300) ∧
      (s.engine.inEmergency = false →
        t.engine.running = some (.emergency .static) ∧ t.engine.state = .running ∧
        t.engine.step = some .e2 ∧ t.engine.run = false ∧ t.engine.emergencyHold = 300 ∧
        t.engine.valve = s.engine.valve ∧ t.capacity.speedCommand = 0 ∧ t.capacity.blowerCommand = 0 ∧
        t.protection.run = none ∧
        (s.protection.run.isSome = true →
          ∃ rec, t.protection.history.getLast? = some rec ∧ rec.cause = .static) ∧
        (s.engine.running.isSome = true → t.engine.aborted = s.engine.aborted + 1)))) ∧
  ∀ (s : State) (c : EmergencyCause), s.plantReady = true → s.engine.running = some (.emergency c) →
    s.engine.step = some .e2 → s.engine.state = .running → s.engine.delaying = false →
    (2 ≤ s.engine.emergencyHold →
      exec .emergencyHoldTick s = .next
        (s.setEngine
          { s.engine with
            emergencyHold := s.engine.emergencyHold - 1, stepTime := s.engine.stepTime + 1 })) ∧
    (s.engine.emergencyHold ≤ 1 → s.engine.requests = .empty →
      ∃ t, exec .emergencyHoldTick s = .next t ∧ t.engine.state = .idle ∧ t.engine.running = none ∧
        t.engine.step = none ∧ t.engine.emergencyHold = 0 ∧ t.engine.done = s.engine.done + 1 ∧
        t.engine.stepsLoaded = s.engine.stepsLoaded + 1 ∧
        t.engine.status =
          { s.engine.status with proc := some (.emergency c), step := some .e2, outcome := .done } ∧
        t.engine.valve = s.engine.valve ∧ t.engine.run = s.engine.run ∧
        t.engine.aborted = s.engine.aborted ∧ t.engine.marks = s.engine.marks ∧
        t.protection = { s.protection with waiting := none } ∧ t.frost = s.frost ∧
        t.modeSel = s.modeSel ∧ t.sensors = s.sensors ∧ t.peers = s.peers ∧ t.loader = s.loader ∧
        t.demand = s.demand ∧ t.share = s.share ∧ t.damper = s.damper ∧
        t.pending = s.pending)

/-- The protective requests at a protection timer expiry of a plant at rest with its compressor on and no static trip,
the first that holds: the inverter fault brings an EMERGENCY of 180 s; in COOL and DRY the condensate float a STOP,
and the 120th second in a row of a coil below -200 a STOP for FREEZE; in HEAT supply air of 65.00 °C or above one for
SUPPLY; and the 60th second of a blower command or effective airflow below 300 one for AIRFLOW. With none of them the
counts alone move (R129, R130, R131, R132, R133). A contact that becomes asserted brings its request with the sensor
timer: an EMERGENCY whatever the compressor does, which aborts the running procedure, and the condensate STOP in COOL
and DRY with the compressor on (R44, R129, R130, R149). Where both contacts become asserted at one expiry, the
inverter fault's request comes first, which is the model's choice (notes/assumptions/10.md). -/
def Obligations.ProtectiveRequestsStopTheCompressor : Prop :=
  (∀ (s : State) (cooling : Bool) (freeze air : Nat), s.plantReady = true → s.aside = false →
    s.engine.listening = .expired → s.engine.state = .idle → s.engine.running = none →
    s.engine.run = true → s.engine.requests = .empty → s.protection.waiting = none →
    s.capacity.staticCount < 9 →
    cooling = decide (s.modeSel.mode = .cool ∨ s.modeSel.mode = .dry) →
    freeze =
      (if cooling = true ∧ s.sensors.indoorCoil.valid = true ∧ s.sensors.indoorCoil.value < -200 then
        min 120 (s.capacity.freezeCount + 1) else 0) →
    air =
      (if s.capacity.blowerCommand < 300 ∨ s.capacity.effective < 300 then
        min 60 (s.capacity.airflowCount + 1) else 0) →
      ∃ t, exec .protectionTimer s = .next t ∧
        (s.sensors.inverter.asserted = true → s.EmergencyAtE2 t .inverter 180) ∧
        (s.sensors.inverter.asserted = false →
          (s.sensors.condensate.asserted = true → cooling = true → s.StoppedAtT2 t .condensate) ∧
          (s.sensors.condensate.asserted = false ∨ cooling = false →
            t.capacity.freezeCount = freeze ∧
            (freeze = 120 → s.StoppedAtT2 t .freeze) ∧
            (freeze ≠ 120 →
              (s.modeSel.mode = .heat → s.sensors.supplyAir.valid = true →
                6500 ≤ s.sensors.supplyAir.value → s.StoppedAtT2 t .supply) ∧
              (s.modeSel.mode ≠ .heat ∨ s.sensors.supplyAir.valid = false ∨
                s.sensors.supplyAir.value < 6500 →
                  t.capacity.airflowCount = air ∧ (air = 60 → s.StoppedAtT2 t .airflow) ∧
                  (air ≠ 60 →
                    t.engine = { s.engine with shown := t.engine.shown } ∧
                      t.protection = s.protection)))))) ∧
  ∀ (s : State) (pins : PinSample) (first : Bool), s.plantReady = true → s.aside = false →
    s.engine.listening = .expired → s.engine.step ≠ some .d5 → s.engine.step ≠ some .d10 →
    (s.engine.running = none → s.protection.waiting = none) →
      ∃ t, exec (.sensorTimer pins first) s = .next t ∧
        (s.sensors.inverter.asserted = false → s.sensors.inverter.last = some true →
          pins.inverterFault = true → s.engine.inEmergency = false → s.EmergencyAtE2 t .inverter 180) ∧
        (s.sensors.condensate.asserted = false → s.sensors.condensate.last = some true →
          pins.condensateFloat = true → pins.inverterFault = false →
          s.modeSel.mode = .cool ∨ s.modeSel.mode = .dry → s.engine.run = true →
          s.engine.state = .idle → s.engine.running = none → s.engine.requests = .empty →
            s.StoppedAtT2 t .condensate)

/-- The derived plant state is the first row of R152's table that holds, delivering is yes while it is RUNNING and
while it is STARTING at S4, and the own entry carries both. A command that leaves a READY plant with another plant
state than it found prompts a PLANT report (R11, R152). -/
def Obligations.PlantStateIsTheFirstRowThatHolds : Prop :=
  (∀ s : State,
    (s.engine.running = some .changeover → ∃ st, s.engine.step = some st ∧ st ∈ Proc.changeover.chain) →
    s.plantState =
      if s.engine.standby = true then .standby
      else if s.engine.inEmergency = true then .emergency
      else if s.engine.running = some .defrost then .defrost
      else if s.engine.running = some .changeover ∧
          (s.engine.step = some .x1 ∨ s.engine.step = some .x2 ∨ s.engine.step = some .x3) then .changeover
      else if s.engine.running = some .start ∨ (s.engine.running = some .changeover ∧
          (s.engine.step = some .s1 ∨ s.engine.step = some .s2 ∨ s.engine.step = some .s3 ∨
            s.engine.step = some .s4)) then .starting
      else if ∃ r ∈ [StopReason.demand, .condensate, .freeze, .supply, .airflow],
          s.engine.running = some (.stop r) then .stopping
      else if s.protection.lockout.isSome = true then .lockout
      else if s.engine.run = true then .running
      else .idle) ∧
  (∀ s : State,
    (s.delivering = true ↔
      s.plantState = .running ∨ (s.plantState = .starting ∧ s.engine.step = some .s4)) ∧
    s.ownPlant.state = s.plantState ∧ s.ownPlant.delivering = s.delivering) ∧
  ∀ (c : Instr) (s t : State), s.plantReady = true → s.ShownSound → exec c s = .next t →
    t.plantReady = true → t.plantState ≠ s.plantState → t.line.main.pending = true

/-- The time exit of S1, with the valve in the mode's position, C at the stop threshold or above and the START
grant's conditions met, runs through S2 and S3: the compressor starts at Cmin with a run of age 0 and one token
less, the mark raises the report, and S4 warms up for 60 s (R140, R142, R158, R161). -/
def Obligations.StartGrantRunsTheCompressor : Prop :=
  ∀ (s : State) (n : Nat) (v : Valve), s.plantReady = true → s.engine.running = some .start →
    s.engine.step = some .s1 → s.engine.state = .running → s.engine.delaying = false →
    s.engine.exitTime = some n → s.engine.requests = .empty → s.modeSel.mode.valve = some v →
    s.engine.valve = v → s.pp.stopThreshold ≤ s.capacity.c → s.startPermitted = true →
      ∃ t, exec .stepTimeExit s = .next t ∧ t.engine.running = some .start ∧
        t.engine.state = .running ∧ t.engine.step = some .s4 ∧ t.engine.exitTime = some 60 ∧
        t.engine.stepTime = 0 ∧ t.engine.run = true ∧ t.engine.valve = v ∧
        t.capacity.speedCommand = s.pp.cmin ∧ t.capacity.c = s.capacity.c ∧
        t.protection =
          { s.protection with run := some 0, budget := s.protection.budget - 1, waiting := none } ∧
        t.engine.marks = s.engine.marks + 1 ∧ t.engine.stepsLoaded = s.engine.stepsLoaded + 3 ∧
        t.engine.done = s.engine.done ∧ t.line.main.pending = true ∧
        t.frost = s.frost ∧ t.modeSel = s.modeSel ∧ t.sensors = s.sensors ∧ t.peers = s.peers ∧
        t.loader = s.loader ∧ t.demand = s.demand ∧ t.share = s.share ∧ t.damper = s.damper ∧
        t.pending = s.pending

/-- A DEFROST's melt. The delay of D4 over, the compressor runs at speed 700 and D5 waits for the coil with its limit
of 600 s, or 840 s for the first defrost, and no run opens. D5's limit settles the index at 4000 and marks the
status record; the compressor stops and D7 begins (R140, R146, R160, R175, R177). -/
def Obligations.DefrostMeltsUntilItsLimit : Prop :=
  ∀ s : State, s.plantReady = true → s.engine.running = some .defrost → s.engine.state = .running →
    s.engine.requests = .empty →
    (s.engine.step = some .d4 → s.engine.delaying = true →
      s.sensors.outdoorCoil.valid = false ∨ s.sensors.outdoorCoil.value < 1200 →
        ∃ t, exec .stepDelayExpiry s = .next t ∧ t.engine.step = some .d5 ∧
          t.engine.delaying = false ∧ t.engine.run = true ∧ t.capacity.speedCommand = 700 ∧
          t.engine.timeLimit = some (if s.frost.first = true then 840 else 600) ∧
          t.engine.stepsLoaded = s.engine.stepsLoaded + 1 ∧ t.protection = s.protection ∧
          t.frost = s.frost ∧ t.engine.valve = s.engine.valve ∧ t.modeSel = s.modeSel ∧
          t.sensors = s.sensors ∧ t.peers = s.peers ∧ t.loader = s.loader ∧ t.demand = s.demand ∧
          t.share = s.share ∧ t.damper = s.damper ∧ t.pending = s.pending) ∧
    ∀ n, s.engine.step = some .d5 → s.engine.delaying = false → s.engine.timeLimit = some n →
      ∃ t, exec .stepTimeLimit s = .next t ∧ t.engine.step = some .d7 ∧ t.engine.run = false ∧
        t.capacity.speedCommand = 0 ∧ t.engine.status.limited = true ∧ t.engine.d5 = some .limit ∧
        t.engine.exitTime = some 30 ∧ t.engine.stepsLoaded = s.engine.stepsLoaded + 2 ∧
        t.frost = { s.frost with index := 4000 } ∧
        t.protection =
          { s.protection with stopAge := if s.engine.run = true then 0 else s.protection.stopAge } ∧
        t.engine.valve = s.engine.valve ∧ t.modeSel = s.modeSel ∧ t.sensors = s.sensors ∧
        t.peers = s.peers ∧ t.loader = s.loader ∧ t.demand = s.demand ∧ t.share = s.share ∧ t.damper = s.damper ∧
        t.pending = s.pending

/-- How a DEFROST ends. The sensor reading that brings the outdoor coil to 1200 ends D5 on its exit: the index is
settled at 0, the compressor stops and D7 begins (R140, R146, R175). D10's limit ends the DEFROST with DONE: the
interval clock and the timed count restart, the first-defrost flag is cleared, and the normal or the time-limited
counter counts by the way D5 ended (R141, R176). An EMERGENCY and, at D2 and D7, a pending STOP cut it short: after
D5's boundary the interval clock and the timed count restart, before it nothing of the estimator moves (R148, R149,
R176). -/
def Obligations.DefrostEndsAreCounted : Prop :=
  (∀ (s : State) (pins : PinSample) (first : Bool) (f : Int), s.plantReady = true →
    s.engine.running = some .defrost → s.engine.step = some .d5 → s.engine.state = .running →
    s.engine.delaying = false → s.engine.requests = .empty → s.sensors.outdoorCoil.valid = true →
    s.sensors.outdoorCoil.filtered = some f → -4000 ≤ pins.outdoorCoil → pins.outdoorCoil ≤ 9000 →
    1200 ≤ f + nearest (pins.outdoorCoil - f) 4 → pins.inverterFault = false →
    pins.condensateFloat = false →
      ∃ t, exec (.sensorTimer pins first) s = .next t ∧ t.engine.step = some .d7 ∧
        t.engine.run = false ∧ t.capacity.speedCommand = 0 ∧ t.engine.exitTime = some 30 ∧
        t.engine.d5 = some .exit ∧ t.engine.status.limited = s.engine.status.limited ∧
        t.engine.stepsLoaded = s.engine.stepsLoaded + 2 ∧ t.frost = { s.frost with index := 0 }) ∧
  (∀ (s : State) (n : Nat) (way : D5End), s.plantReady = true → s.engine.running = some .defrost →
    s.engine.step = some .d10 → s.engine.state = .running → s.engine.delaying = false →
    s.engine.timeLimit = some n → s.engine.requests = .empty → s.engine.d5 = some way →
      ∃ t, exec .stepTimeLimit s = .next t ∧ t.engine.state = .idle ∧ t.engine.running = none ∧
        t.engine.done = s.engine.done + 1 ∧
        t.engine.status =
          { proc := some .defrost, step := some .d10, outcome := .done, limited := true } ∧
        t.engine.run = s.engine.run ∧ t.engine.speedHold = none ∧ t.engine.blowerHold = none ∧
        t.frost =
          { s.frost with
            interval := 0, timed := 0, first := false
            normal := if way = .exit then s.frost.normal + 1 else s.frost.normal
            limited := if way = .limit then s.frost.limited + 1 else s.frost.limited }) ∧
  (∀ (s : State) (c : EmergencyCause), s.engine.listening = .expired → s.aside = false →
    s.engine.running = some .defrost →
      s.EmergencyAtE2 (s.request (.emergency c)) c (match c with
        | .static => 300
        | .inverter => 180) ∧
      (s.request (.emergency c)).frost =
        (if s.engine.d5 = none then s.frost else { s.frost with interval := 0, timed := 0 })) ∧
  ∀ (s : State) (r : StopReason) (n : Nat), s.plantReady = true → s.engine.running = some .defrost →
    s.engine.step = some .d2 ∨ s.engine.step = some .d7 → s.engine.state = .running →
    s.engine.delaying = false → s.engine.exitTime = some n → s.engine.requests.stop = some r →
      ∃ t, exec .stepTimeExit s = .next t ∧ t.engine.preempted = s.engine.preempted + 1 ∧
        t.engine.running = some (.stop r) ∧
        t.frost = (if s.engine.d5 = none then s.frost else { s.frost with interval := 0, timed := 0 })

/-- A second of the retained timer: every age counts on up to 65535, the refill progress gives a token at 900 and
rests while the budget is full, and a LOCKOUT counts down and ends at 0, which raises the report. Before READY the
valve age and the run are held; between a power-on reset and READY every retained item is (R154, R161, R162, R165,
R167). The flag that holds them is the model's (notes/assumptions/19.md). The request that waits is then examined, on
the ages so advanced, and answered or left (R157). A START's grant takes a token and starts the compressor with a run
of age 0 (R158, R161). A STOP's, at the minimum run, stops it, and that of X1 too (R159). The valve grant, both ages
at 60, drives the valve, and S3 then asks for its START grant; the spacing report, the stop age at 60, drives the
valve and S1 follows (R142, R145). -/
def Obligations.RetainedTimerAdvances : Prop :=
  (∀ s : State,
    (s.protection.held = true → exec .retainedTimer s = .next s) ∧
    (s.protection.held = false → s.protection.waiting = none ∨ s.plantReady = false →
      ∃ t, exec .retainedTimer s = .next t ∧
        t.protection = s.protection.afterSecond s.plantReady ∧
        (s.plantReady = false → t = s.setProtection t.protection) ∧
        (s.protection.lockout = some 1 → s.plantReady = true → t.line.main.pending = true) ∧
        t.engine = { s.engine with shown := t.engine.shown } ∧ t.capacity = s.capacity ∧
        t.modeSel = s.modeSel ∧ t.sensors = s.sensors ∧ t.frost = s.frost ∧ t.peers = s.peers ∧
        t.loader = s.loader ∧ t.demand = s.demand ∧ t.share = s.share ∧ t.damper = s.damper ∧
        t.pending = s.pending)) ∧
  ∀ (s : State) (p : Protection) (g : GuardRequest), s.plantReady = true → s.aside = false →
    s.protection.held = false → s.protection.waiting = some g → s.engine.requests = .empty →
    p = s.protection.afterSecond true →
      ∃ t, exec .retainedTimer s = .next t ∧
        (s.protection.lockout = some 1 → t.line.main.pending = true) ∧
        (¬s.AnswerConditions p g →
          t.protection = p ∧ t.engine = { s.engine with shown := t.engine.shown } ∧
            t.capacity = s.capacity) ∧
        (∀ q, s.WaitsAt q .s3 .start → q = .start ∨ q = .changeover → s.StartConditions p →
          t.engine.running = some q ∧ t.engine.state = .running ∧ t.engine.step = some .s4 ∧
            t.engine.run = true ∧ t.capacity.speedCommand = s.pp.cmin ∧
            t.protection = { p with run := some 0, budget := p.budget - 1, waiting := none }) ∧
        (s.WaitsAt (.stop .demand) .t1 .stop → (∀ age, p.run = some age → s.pp.minRun ≤ age) →
          s.StoppedAtT2 t .demand) ∧
        (s.WaitsAt .changeover .x1 .stop → (∀ age, p.run = some age → s.pp.minRun ≤ age) →
          s.engine.run = true →
            t.engine.running = some .changeover ∧ t.engine.step = some .x2 ∧ t.engine.run = false ∧
              t.protection.run = none ∧ t.protection.stopAge = 0 ∧
              t.protection.waiting = some .spacing) ∧
        (∀ v, s.WaitsAt .start .s2 .valve → s.modeSel.mode.valve = some v → v ≠ s.engine.valve →
          s.pp.stopThreshold ≤ s.capacity.c → 60 ≤ p.stopAge → 60 ≤ p.valveAge →
            t.WaitsAt .start .s3 .start ∧ t.engine.valve = v ∧ t.protection.valveAge = 0) ∧
        (s.engine.running = some .changeover → s.engine.step = some .x2 → g = .spacing →
          60 ≤ p.stopAge →
            t.engine.running = some .changeover ∧ t.engine.state = .running ∧
              t.engine.step = some .s1 ∧ t.engine.exitTime = some 30 ∧ t.protection.waiting = none ∧
              t.engine.valve = s.modeSel.mode.valve.getD s.engine.valve)

/-- A second of the frost timer. The interval clock counts on; the plant heat-running, the accumulation counts and at
its sixtieth second adds the rate times the speed to the index, and the gap and the timed counts follow their inputs.
With the defrost interval reached, and either a coil in order with the index full or the gap count at 900, or the
timed count at 2700 with the outdoor air below 500, an engine at rest that takes requests starts DEFROST: the
compressor and the blower are off and D2 waits. Without such a trigger nothing is asked. STANDBY and YIELDED keep
every item (R169 to R174, R180). -/
def Obligations.FrostTimerAdvancesAndDefrosts : Prop :=
  ∀ s : State, s.plantReady = true →
    (s.aside = true → exec .frostTimer s = .next s) ∧
    (s.aside = false →
      ∃ t, exec .frostTimer s = .next t ∧
        t.frost.interval = min 65535 (s.frost.interval + 1) ∧
        t.frost.accumulation =
          (if s.heatRunning = false then s.frost.accumulation
          else if 59 ≤ s.frost.accumulation then 0 else s.frost.accumulation + 1) ∧
        t.frost.index =
          (if s.heatRunning = true ∧ 59 ≤ s.frost.accumulation ∧ s.sensors.outdoorCoil.valid = true then
            min 10000 (s.frost.index + frostRate s.sensors.outdoorCoil.value * s.capacity.speedCommand / 1000)
          else s.frost.index) ∧
        t.frost.gapTimer =
          (if s.heatRunning = true ∧ s.sensors.outdoorCoil.valid = true ∧
              1000 ≤ s.sensors.outdoorAirValue - s.sensors.outdoorCoil.value then
            min 900 (s.frost.gapTimer + 1) else 0) ∧
        t.frost.timed =
          (if s.sensors.outdoorCoil.valid = true then 0
          else if s.heatRunning = true then min 2700 (s.frost.timed + 1) else s.frost.timed) ∧
        t.frost.first = s.frost.first ∧ t.frost.normal = s.frost.normal ∧
        t.frost.limited = s.frost.limited ∧
        (t.frost.interval < s.pp.defrostInterval ∨ s.heatRunning = false ∨
          ((s.sensors.outdoorCoil.valid = false ∨ t.frost.index ≠ 10000 ∧ t.frost.gapTimer ≠ 900) ∧
            (t.frost.timed ≠ 2700 ∨ 500 ≤ s.sensors.outdoorAirValue)) → t = s.setFrost t.frost) ∧
        (s.heatRunning = true → s.pp.defrostInterval ≤ t.frost.interval →
          (s.sensors.outdoorCoil.valid = true ∧ (t.frost.index = 10000 ∨ t.frost.gapTimer = 900)) ∨
            (t.frost.timed = 2700 ∧ s.sensors.outdoorAirValue < 500) →
          s.engine.state = .idle → s.engine.requests = .empty → s.engine.listening = .expired →
          s.engine.valve = .heating →
            t.engine.running = some .defrost ∧ t.engine.step = some .d2 ∧ t.engine.run = false ∧
            t.capacity.speedCommand = 0 ∧ t.capacity.blowerCommand = 0 ∧ t.engine.exitTime = some 30 ∧
            t.protection = { s.protection with stopAge := 0 } ∧ t.line.main.pending = true) ∧
        t.modeSel = { s.modeSel with offHold := t.modeSel.offHold } ∧ t.sensors = s.sensors ∧
        t.peers = s.peers ∧ t.loader = s.loader ∧ t.demand = s.demand ∧ t.share = s.share ∧ t.damper = s.damper ∧
        t.pending = s.pending)

end
end

