-- ==== Sys2Proof/Laws/Arithmetic.lean ====
section
/-! SUPPORT. Bounds of the rounded and clamped arithmetic (sections 4.2 and 4.3). -/

namespace Sys2Proof.Machine

/-- nearest(n / d) is within half a unit of n / d. -/
theorem nearest_close (n : Int) (d : Nat) (hd : 0 < d) :
    2 * (nearest n d) * d ≤ 2 * n + d ∧ 2 * n ≤ 2 * (nearest n d) * d + d := by
  unfold nearest
  split
  · rename_i h
    obtain ⟨m, rfl⟩ := Int.eq_ofNat_of_zero_le h
    have h1 := Nat.div_mul_le_self (2 * m + d) (2 * d)
    have h2 := Nat.lt_div_mul_add (a := 2 * m + d) (b := 2 * d) (by omega)
    rw [Int.toNat_natCast]
    generalize (2 * m + d) / (2 * d) = q at *
    constructor
    · have : q * (2 * d) ≤ 2 * m + d := h1
      have : 2 * (q * d) ≤ 2 * m + d := by linarith [Nat.mul_left_comm q 2 d]
      have : (2 * (q * d) : Int) ≤ 2 * m + d := by exact_mod_cast this
      linarith [mul_assoc (2 : Int) q d]
    · have : 2 * m ≤ 2 * (q * d) + d := by linarith [Nat.mul_left_comm q 2 d]
      have : (2 * m : Int) ≤ 2 * (q * d) + d := by exact_mod_cast this
      linarith [mul_assoc (2 : Int) q d]
  · rename_i h
    obtain ⟨m, hm⟩ : ∃ m : Nat, n = -m := ⟨n.natAbs, by omega⟩
    subst hm
    have h1 := Nat.div_mul_le_self (2 * m + d) (2 * d)
    have h2 := Nat.lt_div_mul_add (a := 2 * m + d) (b := 2 * d) (by omega)
    rw [Int.natAbs_neg, Int.natAbs_natCast]
    generalize (2 * m + d) / (2 * d) = q at *
    constructor
    · have : 2 * m ≤ 2 * (q * d) + d := by linarith [Nat.mul_left_comm q 2 d]
      have : (2 * m : Int) ≤ 2 * (q * d) + d := by exact_mod_cast this
      linarith [mul_assoc (2 : Int) q d]
    · have : 2 * (q * d) ≤ 2 * m + d := by linarith [Nat.mul_left_comm q 2 d]
      have : (2 * (q * d) : Int) ≤ 2 * m + d := by exact_mod_cast this
      linarith [mul_assoc (2 : Int) q d]

/-- A quotient at most `hi` rounds to at most `hi`. -/
theorem nearest_le (n hi : Int) (d : Nat) (hd : 0 < d) (h : n ≤ hi * d) : nearest n d ≤ hi := by
  have := (nearest_close n d hd).1
  by_contra hc
  have h1 : hi + 1 ≤ nearest n d := by omega
  have hd' : (0 : Int) < d := by exact_mod_cast hd
  have h2 := mul_le_mul_of_nonneg_right h1 hd'.le
  nlinarith

/-- A quotient at least `lo` rounds to at least `lo`. -/
theorem le_nearest (n lo : Int) (d : Nat) (hd : 0 < d) (h : lo * d ≤ n) : lo ≤ nearest n d := by
  have := (nearest_close n d hd).2
  by_contra hc
  have h1 : nearest n d ≤ lo - 1 := by omega
  have hd' : (0 : Int) < d := by exact_mod_cast hd
  have h2 := mul_le_mul_of_nonneg_right h1 hd'.le
  nlinarith

theorem clamp_bounds (lo hi x : Int) (h : lo ≤ hi) : lo ≤ clamp lo hi x ∧ clamp lo hi x ≤ hi := by
  unfold clamp; omega

theorem clampNat_bounds (lo hi x : Nat) (h : lo ≤ hi) : lo ≤ clampNat lo hi x ∧ clampNat lo hi x ≤ hi := by
  unfold clampNat; omega

theorem satAdd_le (top x n : Nat) : satAdd top x n ≤ top := by unfold satAdd; omega

theorem ageUp_le (x n : Nat) : ageUp x n ≤ 65535 := satAdd_le _ _ _

/-- A relief share fits beside its base (R81, R82). -/
theorem reliefShare_le (base shortfall room : Nat) : reliefShare base shortfall room ≤ 100 - base := by
  unfold reliefShare upDiv
  split
  · omega
  · rename_i h
    have h1 : (100 - base) * min shortfall room ≤ (100 - base) * room :=
      Nat.mul_le_mul_left _ (Nat.min_le_right _ _)
    have h2 : (100 - base) * min shortfall room + (room - 1) < (100 - base + 1) * room := by
      have : (100 - base + 1) * room = (100 - base) * room + room := by ring
      omega
    exact Nat.le_of_lt_succ ((Nat.div_lt_iff_lt_mul (by omega)).mpr h2)

/-- A base opening for a demand of at most 1000 lies within Omin to 100 (R78). -/
theorem baseFor_bounds (omin demand : Nat) (ho : omin ≤ 100) (hd : demand ≤ 1000) :
    omin ≤ baseFor omin demand ∧ baseFor omin demand ≤ 100 := by
  unfold baseFor
  have h := nearest_le (((100 - omin) * demand : Nat) : Int) ((100 - omin : Nat) : Int) 1000 (by norm_num)
    (by exact_mod_cast Nat.mul_le_mul_left _ hd)
  omega

end Sys2Proof.Machine
end

