-- ==== Sys2Proof/Laws/State.lean ====
section
/-! SUPPORT. One lemma for each field after each setter of a block, so that no proof unfolds a record update. -/

namespace Sys2Proof.Machine

/-! ### After `setLoader` -/

@[simp] theorem State.setLoader_loader (s : State) (x : Loader) :
    (s.setLoader x).loader = x := rfl
@[simp] theorem State.setLoader_line (s : State) (x : Loader) :
    (s.setLoader x).line = s.line := rfl
@[simp] theorem State.setLoader_peers (s : State) (x : Loader) :
    (s.setLoader x).peers = s.peers := rfl
@[simp] theorem State.setLoader_sensors (s : State) (x : Loader) :
    (s.setLoader x).sensors = s.sensors := rfl
@[simp] theorem State.setLoader_demand (s : State) (x : Loader) :
    (s.setLoader x).demand = s.demand := rfl
@[simp] theorem State.setLoader_share (s : State) (x : Loader) :
    (s.setLoader x).share = s.share := rfl
@[simp] theorem State.setLoader_damper (s : State) (x : Loader) :
    (s.setLoader x).damper = s.damper := rfl
@[simp] theorem State.setLoader_modeSel (s : State) (x : Loader) :
    (s.setLoader x).modeSel = s.modeSel := rfl
@[simp] theorem State.setLoader_capacity (s : State) (x : Loader) :
    (s.setLoader x).capacity = s.capacity := rfl
@[simp] theorem State.setLoader_engine (s : State) (x : Loader) :
    (s.setLoader x).engine = s.engine := rfl
@[simp] theorem State.setLoader_protection (s : State) (x : Loader) :
    (s.setLoader x).protection = s.protection := rfl
@[simp] theorem State.setLoader_frost (s : State) (x : Loader) :
    (s.setLoader x).frost = s.frost := rfl
@[simp] theorem State.setLoader_pending (s : State) (x : Loader) :
    (s.setLoader x).pending = s.pending := rfl

@[simp] theorem State.setLoader_same (s : State) : s.setLoader s.loader = s := rfl
@[simp] theorem State.setLoader_twice (s : State) (x y : Loader) :
    (s.setLoader x).setLoader y = s.setLoader y := rfl

/-! ### After `setLine` -/

@[simp] theorem State.setLine_loader (s : State) (x : LineState) :
    (s.setLine x).loader = s.loader := rfl
@[simp] theorem State.setLine_line (s : State) (x : LineState) :
    (s.setLine x).line = x := rfl
@[simp] theorem State.setLine_peers (s : State) (x : LineState) :
    (s.setLine x).peers = s.peers := rfl
@[simp] theorem State.setLine_sensors (s : State) (x : LineState) :
    (s.setLine x).sensors = s.sensors := rfl
@[simp] theorem State.setLine_demand (s : State) (x : LineState) :
    (s.setLine x).demand = s.demand := rfl
@[simp] theorem State.setLine_share (s : State) (x : LineState) :
    (s.setLine x).share = s.share := rfl
@[simp] theorem State.setLine_damper (s : State) (x : LineState) :
    (s.setLine x).damper = s.damper := rfl
@[simp] theorem State.setLine_modeSel (s : State) (x : LineState) :
    (s.setLine x).modeSel = s.modeSel := rfl
@[simp] theorem State.setLine_capacity (s : State) (x : LineState) :
    (s.setLine x).capacity = s.capacity := rfl
@[simp] theorem State.setLine_engine (s : State) (x : LineState) :
    (s.setLine x).engine = s.engine := rfl
@[simp] theorem State.setLine_protection (s : State) (x : LineState) :
    (s.setLine x).protection = s.protection := rfl
@[simp] theorem State.setLine_frost (s : State) (x : LineState) :
    (s.setLine x).frost = s.frost := rfl
@[simp] theorem State.setLine_pending (s : State) (x : LineState) :
    (s.setLine x).pending = s.pending := rfl

@[simp] theorem State.setLine_same (s : State) : s.setLine s.line = s := rfl
@[simp] theorem State.setLine_twice (s : State) (x y : LineState) :
    (s.setLine x).setLine y = s.setLine y := rfl

/-! ### After `setPeers` -/

@[simp] theorem State.setPeers_loader (s : State) (x : Peers) :
    (s.setPeers x).loader = s.loader := rfl
@[simp] theorem State.setPeers_line (s : State) (x : Peers) :
    (s.setPeers x).line = s.line := rfl
@[simp] theorem State.setPeers_peers (s : State) (x : Peers) :
    (s.setPeers x).peers = x := rfl
@[simp] theorem State.setPeers_sensors (s : State) (x : Peers) :
    (s.setPeers x).sensors = s.sensors := rfl
@[simp] theorem State.setPeers_demand (s : State) (x : Peers) :
    (s.setPeers x).demand = s.demand := rfl
@[simp] theorem State.setPeers_share (s : State) (x : Peers) :
    (s.setPeers x).share = s.share := rfl
@[simp] theorem State.setPeers_damper (s : State) (x : Peers) :
    (s.setPeers x).damper = s.damper := rfl
@[simp] theorem State.setPeers_modeSel (s : State) (x : Peers) :
    (s.setPeers x).modeSel = s.modeSel := rfl
@[simp] theorem State.setPeers_capacity (s : State) (x : Peers) :
    (s.setPeers x).capacity = s.capacity := rfl
@[simp] theorem State.setPeers_engine (s : State) (x : Peers) :
    (s.setPeers x).engine = s.engine := rfl
@[simp] theorem State.setPeers_protection (s : State) (x : Peers) :
    (s.setPeers x).protection = s.protection := rfl
@[simp] theorem State.setPeers_frost (s : State) (x : Peers) :
    (s.setPeers x).frost = s.frost := rfl
@[simp] theorem State.setPeers_pending (s : State) (x : Peers) :
    (s.setPeers x).pending = s.pending := rfl

@[simp] theorem State.setPeers_same (s : State) : s.setPeers s.peers = s := rfl
@[simp] theorem State.setPeers_twice (s : State) (x y : Peers) :
    (s.setPeers x).setPeers y = s.setPeers y := rfl

/-! ### After `setSensors` -/

@[simp] theorem State.setSensors_loader (s : State) (x : Sensors) :
    (s.setSensors x).loader = s.loader := rfl
@[simp] theorem State.setSensors_line (s : State) (x : Sensors) :
    (s.setSensors x).line = s.line := rfl
@[simp] theorem State.setSensors_peers (s : State) (x : Sensors) :
    (s.setSensors x).peers = s.peers := rfl
@[simp] theorem State.setSensors_sensors (s : State) (x : Sensors) :
    (s.setSensors x).sensors = x := rfl
@[simp] theorem State.setSensors_demand (s : State) (x : Sensors) :
    (s.setSensors x).demand = s.demand := rfl
@[simp] theorem State.setSensors_share (s : State) (x : Sensors) :
    (s.setSensors x).share = s.share := rfl
@[simp] theorem State.setSensors_damper (s : State) (x : Sensors) :
    (s.setSensors x).damper = s.damper := rfl
@[simp] theorem State.setSensors_modeSel (s : State) (x : Sensors) :
    (s.setSensors x).modeSel = s.modeSel := rfl
@[simp] theorem State.setSensors_capacity (s : State) (x : Sensors) :
    (s.setSensors x).capacity = s.capacity := rfl
@[simp] theorem State.setSensors_engine (s : State) (x : Sensors) :
    (s.setSensors x).engine = s.engine := rfl
@[simp] theorem State.setSensors_protection (s : State) (x : Sensors) :
    (s.setSensors x).protection = s.protection := rfl
@[simp] theorem State.setSensors_frost (s : State) (x : Sensors) :
    (s.setSensors x).frost = s.frost := rfl
@[simp] theorem State.setSensors_pending (s : State) (x : Sensors) :
    (s.setSensors x).pending = s.pending := rfl

@[simp] theorem State.setSensors_same (s : State) : s.setSensors s.sensors = s := rfl
@[simp] theorem State.setSensors_twice (s : State) (x y : Sensors) :
    (s.setSensors x).setSensors y = s.setSensors y := rfl

/-! ### After `setDemand` -/

@[simp] theorem State.setDemand_loader (s : State) (x : Demand) :
    (s.setDemand x).loader = s.loader := rfl
@[simp] theorem State.setDemand_line (s : State) (x : Demand) :
    (s.setDemand x).line = s.line := rfl
@[simp] theorem State.setDemand_peers (s : State) (x : Demand) :
    (s.setDemand x).peers = s.peers := rfl
@[simp] theorem State.setDemand_sensors (s : State) (x : Demand) :
    (s.setDemand x).sensors = s.sensors := rfl
@[simp] theorem State.setDemand_demand (s : State) (x : Demand) :
    (s.setDemand x).demand = x := rfl
@[simp] theorem State.setDemand_share (s : State) (x : Demand) :
    (s.setDemand x).share = s.share := rfl
@[simp] theorem State.setDemand_damper (s : State) (x : Demand) :
    (s.setDemand x).damper = s.damper := rfl
@[simp] theorem State.setDemand_modeSel (s : State) (x : Demand) :
    (s.setDemand x).modeSel = s.modeSel := rfl
@[simp] theorem State.setDemand_capacity (s : State) (x : Demand) :
    (s.setDemand x).capacity = s.capacity := rfl
@[simp] theorem State.setDemand_engine (s : State) (x : Demand) :
    (s.setDemand x).engine = s.engine := rfl
@[simp] theorem State.setDemand_protection (s : State) (x : Demand) :
    (s.setDemand x).protection = s.protection := rfl
@[simp] theorem State.setDemand_frost (s : State) (x : Demand) :
    (s.setDemand x).frost = s.frost := rfl
@[simp] theorem State.setDemand_pending (s : State) (x : Demand) :
    (s.setDemand x).pending = s.pending := rfl

@[simp] theorem State.setDemand_same (s : State) : s.setDemand s.demand = s := rfl
@[simp] theorem State.setDemand_twice (s : State) (x y : Demand) :
    (s.setDemand x).setDemand y = s.setDemand y := rfl

/-! ### After `setShare` -/

@[simp] theorem State.setShare_loader (s : State) (x : Share) :
    (s.setShare x).loader = s.loader := rfl
@[simp] theorem State.setShare_line (s : State) (x : Share) :
    (s.setShare x).line = s.line := rfl
@[simp] theorem State.setShare_peers (s : State) (x : Share) :
    (s.setShare x).peers = s.peers := rfl
@[simp] theorem State.setShare_sensors (s : State) (x : Share) :
    (s.setShare x).sensors = s.sensors := rfl
@[simp] theorem State.setShare_demand (s : State) (x : Share) :
    (s.setShare x).demand = s.demand := rfl
@[simp] theorem State.setShare_share (s : State) (x : Share) :
    (s.setShare x).share = x := rfl
@[simp] theorem State.setShare_damper (s : State) (x : Share) :
    (s.setShare x).damper = s.damper := rfl
@[simp] theorem State.setShare_modeSel (s : State) (x : Share) :
    (s.setShare x).modeSel = s.modeSel := rfl
@[simp] theorem State.setShare_capacity (s : State) (x : Share) :
    (s.setShare x).capacity = s.capacity := rfl
@[simp] theorem State.setShare_engine (s : State) (x : Share) :
    (s.setShare x).engine = s.engine := rfl
@[simp] theorem State.setShare_protection (s : State) (x : Share) :
    (s.setShare x).protection = s.protection := rfl
@[simp] theorem State.setShare_frost (s : State) (x : Share) :
    (s.setShare x).frost = s.frost := rfl
@[simp] theorem State.setShare_pending (s : State) (x : Share) :
    (s.setShare x).pending = s.pending := rfl

@[simp] theorem State.setShare_same (s : State) : s.setShare s.share = s := rfl
@[simp] theorem State.setShare_twice (s : State) (x y : Share) :
    (s.setShare x).setShare y = s.setShare y := rfl

/-! ### After `setDamper` -/

@[simp] theorem State.setDamper_loader (s : State) (x : Damper) :
    (s.setDamper x).loader = s.loader := rfl
@[simp] theorem State.setDamper_line (s : State) (x : Damper) :
    (s.setDamper x).line = s.line := rfl
@[simp] theorem State.setDamper_peers (s : State) (x : Damper) :
    (s.setDamper x).peers = s.peers := rfl
@[simp] theorem State.setDamper_sensors (s : State) (x : Damper) :
    (s.setDamper x).sensors = s.sensors := rfl
@[simp] theorem State.setDamper_demand (s : State) (x : Damper) :
    (s.setDamper x).demand = s.demand := rfl
@[simp] theorem State.setDamper_share (s : State) (x : Damper) :
    (s.setDamper x).share = s.share := rfl
@[simp] theorem State.setDamper_damper (s : State) (x : Damper) :
    (s.setDamper x).damper = x := rfl
@[simp] theorem State.setDamper_modeSel (s : State) (x : Damper) :
    (s.setDamper x).modeSel = s.modeSel := rfl
@[simp] theorem State.setDamper_capacity (s : State) (x : Damper) :
    (s.setDamper x).capacity = s.capacity := rfl
@[simp] theorem State.setDamper_engine (s : State) (x : Damper) :
    (s.setDamper x).engine = s.engine := rfl
@[simp] theorem State.setDamper_protection (s : State) (x : Damper) :
    (s.setDamper x).protection = s.protection := rfl
@[simp] theorem State.setDamper_frost (s : State) (x : Damper) :
    (s.setDamper x).frost = s.frost := rfl
@[simp] theorem State.setDamper_pending (s : State) (x : Damper) :
    (s.setDamper x).pending = s.pending := rfl

@[simp] theorem State.setDamper_same (s : State) : s.setDamper s.damper = s := rfl
@[simp] theorem State.setDamper_twice (s : State) (x y : Damper) :
    (s.setDamper x).setDamper y = s.setDamper y := rfl

/-! ### After `setModeSel` -/

@[simp] theorem State.setModeSel_loader (s : State) (x : ModeSelector) :
    (s.setModeSel x).loader = s.loader := rfl
@[simp] theorem State.setModeSel_line (s : State) (x : ModeSelector) :
    (s.setModeSel x).line = s.line := rfl
@[simp] theorem State.setModeSel_peers (s : State) (x : ModeSelector) :
    (s.setModeSel x).peers = s.peers := rfl
@[simp] theorem State.setModeSel_sensors (s : State) (x : ModeSelector) :
    (s.setModeSel x).sensors = s.sensors := rfl
@[simp] theorem State.setModeSel_demand (s : State) (x : ModeSelector) :
    (s.setModeSel x).demand = s.demand := rfl
@[simp] theorem State.setModeSel_share (s : State) (x : ModeSelector) :
    (s.setModeSel x).share = s.share := rfl
@[simp] theorem State.setModeSel_damper (s : State) (x : ModeSelector) :
    (s.setModeSel x).damper = s.damper := rfl
@[simp] theorem State.setModeSel_modeSel (s : State) (x : ModeSelector) :
    (s.setModeSel x).modeSel = x := rfl
@[simp] theorem State.setModeSel_capacity (s : State) (x : ModeSelector) :
    (s.setModeSel x).capacity = s.capacity := rfl
@[simp] theorem State.setModeSel_engine (s : State) (x : ModeSelector) :
    (s.setModeSel x).engine = s.engine := rfl
@[simp] theorem State.setModeSel_protection (s : State) (x : ModeSelector) :
    (s.setModeSel x).protection = s.protection := rfl
@[simp] theorem State.setModeSel_frost (s : State) (x : ModeSelector) :
    (s.setModeSel x).frost = s.frost := rfl
@[simp] theorem State.setModeSel_pending (s : State) (x : ModeSelector) :
    (s.setModeSel x).pending = s.pending := rfl

@[simp] theorem State.setModeSel_same (s : State) : s.setModeSel s.modeSel = s := rfl
@[simp] theorem State.setModeSel_twice (s : State) (x y : ModeSelector) :
    (s.setModeSel x).setModeSel y = s.setModeSel y := rfl

/-! ### After `setCapacity` -/

@[simp] theorem State.setCapacity_loader (s : State) (x : Capacity) :
    (s.setCapacity x).loader = s.loader := rfl
@[simp] theorem State.setCapacity_line (s : State) (x : Capacity) :
    (s.setCapacity x).line = s.line := rfl
@[simp] theorem State.setCapacity_peers (s : State) (x : Capacity) :
    (s.setCapacity x).peers = s.peers := rfl
@[simp] theorem State.setCapacity_sensors (s : State) (x : Capacity) :
    (s.setCapacity x).sensors = s.sensors := rfl
@[simp] theorem State.setCapacity_demand (s : State) (x : Capacity) :
    (s.setCapacity x).demand = s.demand := rfl
@[simp] theorem State.setCapacity_share (s : State) (x : Capacity) :
    (s.setCapacity x).share = s.share := rfl
@[simp] theorem State.setCapacity_damper (s : State) (x : Capacity) :
    (s.setCapacity x).damper = s.damper := rfl
@[simp] theorem State.setCapacity_modeSel (s : State) (x : Capacity) :
    (s.setCapacity x).modeSel = s.modeSel := rfl
@[simp] theorem State.setCapacity_capacity (s : State) (x : Capacity) :
    (s.setCapacity x).capacity = x := rfl
@[simp] theorem State.setCapacity_engine (s : State) (x : Capacity) :
    (s.setCapacity x).engine = s.engine := rfl
@[simp] theorem State.setCapacity_protection (s : State) (x : Capacity) :
    (s.setCapacity x).protection = s.protection := rfl
@[simp] theorem State.setCapacity_frost (s : State) (x : Capacity) :
    (s.setCapacity x).frost = s.frost := rfl
@[simp] theorem State.setCapacity_pending (s : State) (x : Capacity) :
    (s.setCapacity x).pending = s.pending := rfl

@[simp] theorem State.setCapacity_same (s : State) : s.setCapacity s.capacity = s := rfl
@[simp] theorem State.setCapacity_twice (s : State) (x y : Capacity) :
    (s.setCapacity x).setCapacity y = s.setCapacity y := rfl

/-! ### After `setEngine` -/

@[simp] theorem State.setEngine_loader (s : State) (x : Engine) :
    (s.setEngine x).loader = s.loader := rfl
@[simp] theorem State.setEngine_line (s : State) (x : Engine) :
    (s.setEngine x).line = s.line := rfl
@[simp] theorem State.setEngine_peers (s : State) (x : Engine) :
    (s.setEngine x).peers = s.peers := rfl
@[simp] theorem State.setEngine_sensors (s : State) (x : Engine) :
    (s.setEngine x).sensors = s.sensors := rfl
@[simp] theorem State.setEngine_demand (s : State) (x : Engine) :
    (s.setEngine x).demand = s.demand := rfl
@[simp] theorem State.setEngine_share (s : State) (x : Engine) :
    (s.setEngine x).share = s.share := rfl
@[simp] theorem State.setEngine_damper (s : State) (x : Engine) :
    (s.setEngine x).damper = s.damper := rfl
@[simp] theorem State.setEngine_modeSel (s : State) (x : Engine) :
    (s.setEngine x).modeSel = s.modeSel := rfl
@[simp] theorem State.setEngine_capacity (s : State) (x : Engine) :
    (s.setEngine x).capacity = s.capacity := rfl
@[simp] theorem State.setEngine_engine (s : State) (x : Engine) :
    (s.setEngine x).engine = x := rfl
@[simp] theorem State.setEngine_protection (s : State) (x : Engine) :
    (s.setEngine x).protection = s.protection := rfl
@[simp] theorem State.setEngine_frost (s : State) (x : Engine) :
    (s.setEngine x).frost = s.frost := rfl
@[simp] theorem State.setEngine_pending (s : State) (x : Engine) :
    (s.setEngine x).pending = s.pending := rfl

@[simp] theorem State.setEngine_same (s : State) : s.setEngine s.engine = s := rfl
@[simp] theorem State.setEngine_twice (s : State) (x y : Engine) :
    (s.setEngine x).setEngine y = s.setEngine y := rfl

/-! ### After `setProtection` -/

@[simp] theorem State.setProtection_loader (s : State) (x : Protection) :
    (s.setProtection x).loader = s.loader := rfl
@[simp] theorem State.setProtection_line (s : State) (x : Protection) :
    (s.setProtection x).line = s.line := rfl
@[simp] theorem State.setProtection_peers (s : State) (x : Protection) :
    (s.setProtection x).peers = s.peers := rfl
@[simp] theorem State.setProtection_sensors (s : State) (x : Protection) :
    (s.setProtection x).sensors = s.sensors := rfl
@[simp] theorem State.setProtection_demand (s : State) (x : Protection) :
    (s.setProtection x).demand = s.demand := rfl
@[simp] theorem State.setProtection_share (s : State) (x : Protection) :
    (s.setProtection x).share = s.share := rfl
@[simp] theorem State.setProtection_damper (s : State) (x : Protection) :
    (s.setProtection x).damper = s.damper := rfl
@[simp] theorem State.setProtection_modeSel (s : State) (x : Protection) :
    (s.setProtection x).modeSel = s.modeSel := rfl
@[simp] theorem State.setProtection_capacity (s : State) (x : Protection) :
    (s.setProtection x).capacity = s.capacity := rfl
@[simp] theorem State.setProtection_engine (s : State) (x : Protection) :
    (s.setProtection x).engine = s.engine := rfl
@[simp] theorem State.setProtection_protection (s : State) (x : Protection) :
    (s.setProtection x).protection = x := rfl
@[simp] theorem State.setProtection_frost (s : State) (x : Protection) :
    (s.setProtection x).frost = s.frost := rfl
@[simp] theorem State.setProtection_pending (s : State) (x : Protection) :
    (s.setProtection x).pending = s.pending := rfl

@[simp] theorem State.setProtection_same (s : State) : s.setProtection s.protection = s := rfl
@[simp] theorem State.setProtection_twice (s : State) (x y : Protection) :
    (s.setProtection x).setProtection y = s.setProtection y := rfl

/-! ### After `setFrost` -/

@[simp] theorem State.setFrost_loader (s : State) (x : Frost) :
    (s.setFrost x).loader = s.loader := rfl
@[simp] theorem State.setFrost_line (s : State) (x : Frost) :
    (s.setFrost x).line = s.line := rfl
@[simp] theorem State.setFrost_peers (s : State) (x : Frost) :
    (s.setFrost x).peers = s.peers := rfl
@[simp] theorem State.setFrost_sensors (s : State) (x : Frost) :
    (s.setFrost x).sensors = s.sensors := rfl
@[simp] theorem State.setFrost_demand (s : State) (x : Frost) :
    (s.setFrost x).demand = s.demand := rfl
@[simp] theorem State.setFrost_share (s : State) (x : Frost) :
    (s.setFrost x).share = s.share := rfl
@[simp] theorem State.setFrost_damper (s : State) (x : Frost) :
    (s.setFrost x).damper = s.damper := rfl
@[simp] theorem State.setFrost_modeSel (s : State) (x : Frost) :
    (s.setFrost x).modeSel = s.modeSel := rfl
@[simp] theorem State.setFrost_capacity (s : State) (x : Frost) :
    (s.setFrost x).capacity = s.capacity := rfl
@[simp] theorem State.setFrost_engine (s : State) (x : Frost) :
    (s.setFrost x).engine = s.engine := rfl
@[simp] theorem State.setFrost_protection (s : State) (x : Frost) :
    (s.setFrost x).protection = s.protection := rfl
@[simp] theorem State.setFrost_frost (s : State) (x : Frost) :
    (s.setFrost x).frost = x := rfl
@[simp] theorem State.setFrost_pending (s : State) (x : Frost) :
    (s.setFrost x).pending = s.pending := rfl

@[simp] theorem State.setFrost_same (s : State) : s.setFrost s.frost = s := rfl
@[simp] theorem State.setFrost_twice (s : State) (x y : Frost) :
    (s.setFrost x).setFrost y = s.setFrost y := rfl

/-! ### After `setPending` -/

@[simp] theorem State.setPending_loader (s : State) (x : List Instr) :
    (s.setPending x).loader = s.loader := rfl
@[simp] theorem State.setPending_line (s : State) (x : List Instr) :
    (s.setPending x).line = s.line := rfl
@[simp] theorem State.setPending_peers (s : State) (x : List Instr) :
    (s.setPending x).peers = s.peers := rfl
@[simp] theorem State.setPending_sensors (s : State) (x : List Instr) :
    (s.setPending x).sensors = s.sensors := rfl
@[simp] theorem State.setPending_demand (s : State) (x : List Instr) :
    (s.setPending x).demand = s.demand := rfl
@[simp] theorem State.setPending_share (s : State) (x : List Instr) :
    (s.setPending x).share = s.share := rfl
@[simp] theorem State.setPending_damper (s : State) (x : List Instr) :
    (s.setPending x).damper = s.damper := rfl
@[simp] theorem State.setPending_modeSel (s : State) (x : List Instr) :
    (s.setPending x).modeSel = s.modeSel := rfl
@[simp] theorem State.setPending_capacity (s : State) (x : List Instr) :
    (s.setPending x).capacity = s.capacity := rfl
@[simp] theorem State.setPending_engine (s : State) (x : List Instr) :
    (s.setPending x).engine = s.engine := rfl
@[simp] theorem State.setPending_protection (s : State) (x : List Instr) :
    (s.setPending x).protection = s.protection := rfl
@[simp] theorem State.setPending_frost (s : State) (x : List Instr) :
    (s.setPending x).frost = s.frost := rfl
@[simp] theorem State.setPending_pending (s : State) (x : List Instr) :
    (s.setPending x).pending = x := rfl

@[simp] theorem State.setPending_same (s : State) : s.setPending s.pending = s := rfl
@[simp] theorem State.setPending_twice (s : State) (x y : List Instr) :
    (s.setPending x).setPending y = s.setPending y := rfl

/-! ### What only the loader decides -/

@[simp] theorem State.setLine_ready (s : State) (x : LineState) :
    (s.setLine x).ready = s.ready := rfl
@[simp] theorem State.setLine_zoneReady (s : State) (x : LineState) :
    (s.setLine x).zoneReady = s.zoneReady := rfl
@[simp] theorem State.setLine_plantReady (s : State) (x : LineState) :
    (s.setLine x).plantReady = s.plantReady := rfl
@[simp] theorem State.setLine_inReset (s : State) (x : LineState) :
    (s.setLine x).inReset = s.inReset := rfl
@[simp] theorem State.setLine_address (s : State) (x : LineState) :
    (s.setLine x).address = s.address := rfl
@[simp] theorem State.setLine_zp (s : State) (x : LineState) :
    (s.setLine x).zp = s.zp := rfl
@[simp] theorem State.setLine_pp (s : State) (x : LineState) :
    (s.setLine x).pp = s.pp := rfl
@[simp] theorem State.setPeers_ready (s : State) (x : Peers) :
    (s.setPeers x).ready = s.ready := rfl
@[simp] theorem State.setPeers_zoneReady (s : State) (x : Peers) :
    (s.setPeers x).zoneReady = s.zoneReady := rfl
@[simp] theorem State.setPeers_plantReady (s : State) (x : Peers) :
    (s.setPeers x).plantReady = s.plantReady := rfl
@[simp] theorem State.setPeers_inReset (s : State) (x : Peers) :
    (s.setPeers x).inReset = s.inReset := rfl
@[simp] theorem State.setPeers_address (s : State) (x : Peers) :
    (s.setPeers x).address = s.address := rfl
@[simp] theorem State.setPeers_zp (s : State) (x : Peers) :
    (s.setPeers x).zp = s.zp := rfl
@[simp] theorem State.setPeers_pp (s : State) (x : Peers) :
    (s.setPeers x).pp = s.pp := rfl
@[simp] theorem State.setSensors_ready (s : State) (x : Sensors) :
    (s.setSensors x).ready = s.ready := rfl
@[simp] theorem State.setSensors_zoneReady (s : State) (x : Sensors) :
    (s.setSensors x).zoneReady = s.zoneReady := rfl
@[simp] theorem State.setSensors_plantReady (s : State) (x : Sensors) :
    (s.setSensors x).plantReady = s.plantReady := rfl
@[simp] theorem State.setSensors_inReset (s : State) (x : Sensors) :
    (s.setSensors x).inReset = s.inReset := rfl
@[simp] theorem State.setSensors_address (s : State) (x : Sensors) :
    (s.setSensors x).address = s.address := rfl
@[simp] theorem State.setSensors_zp (s : State) (x : Sensors) :
    (s.setSensors x).zp = s.zp := rfl
@[simp] theorem State.setSensors_pp (s : State) (x : Sensors) :
    (s.setSensors x).pp = s.pp := rfl
@[simp] theorem State.setDemand_ready (s : State) (x : Demand) :
    (s.setDemand x).ready = s.ready := rfl
@[simp] theorem State.setDemand_zoneReady (s : State) (x : Demand) :
    (s.setDemand x).zoneReady = s.zoneReady := rfl
@[simp] theorem State.setDemand_plantReady (s : State) (x : Demand) :
    (s.setDemand x).plantReady = s.plantReady := rfl
@[simp] theorem State.setDemand_inReset (s : State) (x : Demand) :
    (s.setDemand x).inReset = s.inReset := rfl
@[simp] theorem State.setDemand_address (s : State) (x : Demand) :
    (s.setDemand x).address = s.address := rfl
@[simp] theorem State.setDemand_zp (s : State) (x : Demand) :
    (s.setDemand x).zp = s.zp := rfl
@[simp] theorem State.setDemand_pp (s : State) (x : Demand) :
    (s.setDemand x).pp = s.pp := rfl
@[simp] theorem State.setShare_ready (s : State) (x : Share) :
    (s.setShare x).ready = s.ready := rfl
@[simp] theorem State.setShare_zoneReady (s : State) (x : Share) :
    (s.setShare x).zoneReady = s.zoneReady := rfl
@[simp] theorem State.setShare_plantReady (s : State) (x : Share) :
    (s.setShare x).plantReady = s.plantReady := rfl
@[simp] theorem State.setShare_inReset (s : State) (x : Share) :
    (s.setShare x).inReset = s.inReset := rfl
@[simp] theorem State.setShare_address (s : State) (x : Share) :
    (s.setShare x).address = s.address := rfl
@[simp] theorem State.setShare_zp (s : State) (x : Share) :
    (s.setShare x).zp = s.zp := rfl
@[simp] theorem State.setShare_pp (s : State) (x : Share) :
    (s.setShare x).pp = s.pp := rfl
@[simp] theorem State.setDamper_ready (s : State) (x : Damper) :
    (s.setDamper x).ready = s.ready := rfl
@[simp] theorem State.setDamper_zoneReady (s : State) (x : Damper) :
    (s.setDamper x).zoneReady = s.zoneReady := rfl
@[simp] theorem State.setDamper_plantReady (s : State) (x : Damper) :
    (s.setDamper x).plantReady = s.plantReady := rfl
@[simp] theorem State.setDamper_inReset (s : State) (x : Damper) :
    (s.setDamper x).inReset = s.inReset := rfl
@[simp] theorem State.setDamper_address (s : State) (x : Damper) :
    (s.setDamper x).address = s.address := rfl
@[simp] theorem State.setDamper_zp (s : State) (x : Damper) :
    (s.setDamper x).zp = s.zp := rfl
@[simp] theorem State.setDamper_pp (s : State) (x : Damper) :
    (s.setDamper x).pp = s.pp := rfl
@[simp] theorem State.setModeSel_ready (s : State) (x : ModeSelector) :
    (s.setModeSel x).ready = s.ready := rfl
@[simp] theorem State.setModeSel_zoneReady (s : State) (x : ModeSelector) :
    (s.setModeSel x).zoneReady = s.zoneReady := rfl
@[simp] theorem State.setModeSel_plantReady (s : State) (x : ModeSelector) :
    (s.setModeSel x).plantReady = s.plantReady := rfl
@[simp] theorem State.setModeSel_inReset (s : State) (x : ModeSelector) :
    (s.setModeSel x).inReset = s.inReset := rfl
@[simp] theorem State.setModeSel_address (s : State) (x : ModeSelector) :
    (s.setModeSel x).address = s.address := rfl
@[simp] theorem State.setModeSel_zp (s : State) (x : ModeSelector) :
    (s.setModeSel x).zp = s.zp := rfl
@[simp] theorem State.setModeSel_pp (s : State) (x : ModeSelector) :
    (s.setModeSel x).pp = s.pp := rfl
@[simp] theorem State.setCapacity_ready (s : State) (x : Capacity) :
    (s.setCapacity x).ready = s.ready := rfl
@[simp] theorem State.setCapacity_zoneReady (s : State) (x : Capacity) :
    (s.setCapacity x).zoneReady = s.zoneReady := rfl
@[simp] theorem State.setCapacity_plantReady (s : State) (x : Capacity) :
    (s.setCapacity x).plantReady = s.plantReady := rfl
@[simp] theorem State.setCapacity_inReset (s : State) (x : Capacity) :
    (s.setCapacity x).inReset = s.inReset := rfl
@[simp] theorem State.setCapacity_address (s : State) (x : Capacity) :
    (s.setCapacity x).address = s.address := rfl
@[simp] theorem State.setCapacity_zp (s : State) (x : Capacity) :
    (s.setCapacity x).zp = s.zp := rfl
@[simp] theorem State.setCapacity_pp (s : State) (x : Capacity) :
    (s.setCapacity x).pp = s.pp := rfl
@[simp] theorem State.setEngine_ready (s : State) (x : Engine) :
    (s.setEngine x).ready = s.ready := rfl
@[simp] theorem State.setEngine_zoneReady (s : State) (x : Engine) :
    (s.setEngine x).zoneReady = s.zoneReady := rfl
@[simp] theorem State.setEngine_plantReady (s : State) (x : Engine) :
    (s.setEngine x).plantReady = s.plantReady := rfl
@[simp] theorem State.setEngine_inReset (s : State) (x : Engine) :
    (s.setEngine x).inReset = s.inReset := rfl
@[simp] theorem State.setEngine_address (s : State) (x : Engine) :
    (s.setEngine x).address = s.address := rfl
@[simp] theorem State.setEngine_zp (s : State) (x : Engine) :
    (s.setEngine x).zp = s.zp := rfl
@[simp] theorem State.setEngine_pp (s : State) (x : Engine) :
    (s.setEngine x).pp = s.pp := rfl
@[simp] theorem State.setProtection_ready (s : State) (x : Protection) :
    (s.setProtection x).ready = s.ready := rfl
@[simp] theorem State.setProtection_zoneReady (s : State) (x : Protection) :
    (s.setProtection x).zoneReady = s.zoneReady := rfl
@[simp] theorem State.setProtection_plantReady (s : State) (x : Protection) :
    (s.setProtection x).plantReady = s.plantReady := rfl
@[simp] theorem State.setProtection_inReset (s : State) (x : Protection) :
    (s.setProtection x).inReset = s.inReset := rfl
@[simp] theorem State.setProtection_address (s : State) (x : Protection) :
    (s.setProtection x).address = s.address := rfl
@[simp] theorem State.setProtection_zp (s : State) (x : Protection) :
    (s.setProtection x).zp = s.zp := rfl
@[simp] theorem State.setProtection_pp (s : State) (x : Protection) :
    (s.setProtection x).pp = s.pp := rfl
@[simp] theorem State.setFrost_ready (s : State) (x : Frost) :
    (s.setFrost x).ready = s.ready := rfl
@[simp] theorem State.setFrost_zoneReady (s : State) (x : Frost) :
    (s.setFrost x).zoneReady = s.zoneReady := rfl
@[simp] theorem State.setFrost_plantReady (s : State) (x : Frost) :
    (s.setFrost x).plantReady = s.plantReady := rfl
@[simp] theorem State.setFrost_inReset (s : State) (x : Frost) :
    (s.setFrost x).inReset = s.inReset := rfl
@[simp] theorem State.setFrost_address (s : State) (x : Frost) :
    (s.setFrost x).address = s.address := rfl
@[simp] theorem State.setFrost_zp (s : State) (x : Frost) :
    (s.setFrost x).zp = s.zp := rfl
@[simp] theorem State.setFrost_pp (s : State) (x : Frost) :
    (s.setFrost x).pp = s.pp := rfl
@[simp] theorem State.setPending_ready (s : State) (x : List Instr) :
    (s.setPending x).ready = s.ready := rfl
@[simp] theorem State.setPending_zoneReady (s : State) (x : List Instr) :
    (s.setPending x).zoneReady = s.zoneReady := rfl
@[simp] theorem State.setPending_plantReady (s : State) (x : List Instr) :
    (s.setPending x).plantReady = s.plantReady := rfl
@[simp] theorem State.setPending_inReset (s : State) (x : List Instr) :
    (s.setPending x).inReset = s.inReset := rfl
@[simp] theorem State.setPending_address (s : State) (x : List Instr) :
    (s.setPending x).address = s.address := rfl
@[simp] theorem State.setPending_zp (s : State) (x : List Instr) :
    (s.setPending x).zp = s.zp := rfl
@[simp] theorem State.setPending_pp (s : State) (x : List Instr) :
    (s.setPending x).pp = s.pp := rfl

/-- Outcomes are equal when their states are. -/
@[simp] theorem advance_eq_next (s t : State) :
    (advance s = .next t) = (s = t) := by
  simp [advance]

end Sys2Proof.Machine
end

