-- ==== Sys2Proof/Laws/Damper.lean ====
section
/-! SUPPORT. Every operation of the Damper Drive keeps its ranges (R84 to R92). -/

namespace Sys2Proof.Machine

theorem towards_opening {p t : Nat} (h : towards p t = .opening) : p < t := by
  unfold towards at h; split at h <;> simp_all

theorem towards_closing {p t : Nat} (h : towards p t = .closing) : t ≤ p := by
  unfold towards at h; split at h
  · simp_all
  · omega

/-- Taking a target that differs from the position keeps the ranges (R88). -/
theorem Damper.Sound.take {d : Damper} {p t : Nat} (h : d.Sound) (hs : d.state = .holding)
    (hp : d.position = some p) (ht : t ≤ 1200) (hne : t ≠ p) : (d.take p t).Sound := by
  have hp1 := h.position p hp
  unfold Damper.take
  split
  · refine { h with
      known := by simp [hp, DriveState.positioned], taken := by simpa using ht,
      homing := ⟨h.homing.1, by simp⟩, moving := ?_, waiting := by simp, faulted := by simp,
      step := by simp }
    intro _
    refine ⟨p, t, towards p t, hp, rfl, rfl, ?_, ?_⟩
    · intro k; have := towards_opening k; omega
    · intro k; have := towards_closing k; omega
  · have hst : d.step = none := by
      have := h.step; rw [hs] at this; simpa using this
    refine { h with
      known := by simp [hp, DriveState.positioned], taken := by simpa using ht,
      homing := ⟨h.homing.1, by simp⟩, moving := by simp, waiting := ?_, faulted := by simp,
      step := by simp [hst] }
    intro _
    exact ⟨p, t, hp, rfl, hne⟩

/-- An offered target keeps the ranges (R86, R88, R89). -/
theorem Damper.Sound.offer {d : Damper} (h : d.Sound) {t : Nat} (ht : t ≤ 1200) : (d.offer t).Sound := by
  unfold Damper.offer
  split
  next hs =>
    exact { h with stored := by simpa using ht, faulted := by rw [hs]; simp }
  next hs =>
    exact { h with stored := by simpa using ht, faulted := by rw [hs]; simp }
  next => exact h
  next hs =>
    split
    next p hp =>
      split
      next ho =>
        refine h.take hs hp ht ?_
        intro e
        simp [offerTaken, e] at ho
      next => exact h
    next => exact h
  next hs =>
    obtain ⟨p, t', dir, hp, _, hst, ho, hc⟩ := h.moving hs
    exact { h with
      taken := by simpa using ht, moving := fun _ => ⟨p, t, dir, hp, rfl, hst, ho, hc⟩
      waiting := by rw [hs]; simp, faulted := by rw [hs]; simp }
  next hs =>
    have hst : d.step = none := by
      have := h.step; rw [hs] at this; simpa using this
    split
    next he =>
      exact { h with
        known := by simp [he, DriveState.positioned], taken := by simpa using ht
        homing := ⟨h.homing.1, by simp⟩, moving := by simp, waiting := by simp
        faulted := by simp, step := by simp [hst] }
    next he =>
      obtain ⟨p, _, hp, _, _⟩ := h.waiting hs
      refine { h with
        taken := by simpa using ht, moving := by rw [hs]; simp
        waiting := fun _ => ⟨p, t, hp, rfl, ?_⟩, faulted := by rw [hs]; simp }
      intro e
      exact he (by rw [hp, e])

/-- Entry to HOMING keeps the ranges (R85). -/
theorem Damper.Sound.home {d : Damper} (h : d.Sound) : d.home.Sound :=
  { h with
    known := rfl, position := by simp [Damper.home], homing := by simp [Damper.home]
    moving := by simp [Damper.home], waiting := by simp [Damper.home]
    faulted := by simp [Damper.home], step := by simp [Damper.home] }

/-- The end of homing keeps the ranges (R85). -/
theorem Damper.Sound.homed {d : Damper} (h : d.Sound) : d.homed.Sound := by
  have k : ({ d with state := .holding, position := some 0, budget := 0, step := none, stored := none }
      : Damper).Sound :=
    { h with
      known := rfl, position := by simp, stored := by simp, budget := by simp
      homing := ⟨h.homing.1, by simp⟩, moving := by simp, waiting := by simp
      faulted := by simp, step := by simp }
  unfold Damper.homed
  dsimp only
  split
  next t ht => exact k.offer (h.stored t ht)
  next => exact k

/-- A homing step keeps the ranges (R85). -/
theorem Damper.Sound.homingStep {d : Damper} (h : d.Sound) (hs : d.state = .homing) (stall : Bool) :
    (d.homingStep stall).Sound := by
  have h1 := h.homing.2 hs
  unfold Damper.homingStep
  dsimp only
  split
  next =>
    -- homing ends, from a count of at most 1320
    have k : ({ d with homingSteps := d.homingSteps + 1, state := .unhomed, step := none } : Damper).Sound :=
      { h with
        known := by have := h.known; rw [hs] at this; simpa [DriveState.positioned] using this
        homing := ⟨by simp; omega, by simp⟩
        moving := by simp, waiting := by simp, faulted := by simp, step := by simp }
    exact k.homed
  next hc =>
    simp only [Bool.or_eq_true, decide_eq_true_eq, not_or] at hc
    exact { h with homing := ⟨by simp; omega, fun _ => by simp; omega⟩ }

/-- Entry to FAULTED keeps the ranges (R94). -/
theorem Damper.Sound.fault {d : Damper} (h : d.Sound) : d.fault.Sound :=
  { h with
    known := rfl, position := by simp [Damper.fault], taken := by simp [Damper.fault]
    stored := by simp [Damper.fault], homing := ⟨h.homing.1, by simp [Damper.fault]⟩
    moving := by simp [Damper.fault], waiting := by simp [Damper.fault]
    faulted := by simp [Damper.fault], step := by simp [Damper.fault] }

/-- A step of a MOVING drive keeps the ranges (R90, R92). -/
theorem Damper.Sound.moveStep {d : Damper} (h : d.Sound) (hs : d.state = .moving) (stall : Bool) :
    (d.moveStep stall).Sound := by
  obtain ⟨p, t, dir, hp, ht, hst, ho, hc⟩ := h.moving hs
  have hp1 := h.position p hp
  have ht1 := h.taken t ht
  have hq : stepped p dir ≤ 1200 := by
    cases dir
    · have := ho rfl; simp [stepped]; omega
    · simp [stepped]; omega
  have hb : d.budget - 1 ≤ 2400 := le_trans (Nat.sub_le _ _) h.budget
  unfold Damper.moveStep
  rw [hp, hst]
  dsimp only
  split
  next =>
    -- a stall: homing or FAULTED, from a drive put aside as UNHOMED
    have k (r : Counter) (a : Option Nat) (ha : ∀ x, a = some x → x ≤ 65535) (tk st : Option Nat)
        (hk : ∀ x, tk = some x → x ≤ 1200) (hx : ∀ x, st = some x → x ≤ 1200) :
        ({ d with position := none, budget := d.budget - 1, rehomes := r, rehomeAge := a, taken := tk
                  stored := st, state := .unhomed, step := none } : Damper).Sound :=
      { h with
        known := rfl, position := by simp, taken := hk, stored := hx, budget := hb, age := ha
        homing := ⟨h.homing.1, by simp⟩, moving := by simp, waiting := by simp
        faulted := by simp, step := by simp }
    unfold Damper.rehome
    dsimp only
    split
    next a ha =>
      split
      next => exact (k _ d.rehomeAge h.age none none (by simp) (by simp)).fault
      next => exact (k _ (some 0) (by simp) none d.taken (by simp) h.taken).home
    next => exact (k _ (some 0) (by simp) none d.taken (by simp) h.taken).home
  next =>
    unfold Damper.afterStep
    dsimp only
    split
    next =>
      exact { h with
        known := by simp [DriveState.positioned], position := by simpa using hq, budget := hb
        homing := ⟨h.homing.1, by simp⟩, moving := by simp, waiting := by simp
        faulted := by simp, step := by simp }
    next he =>
      have hne : t ≠ stepped p dir := by
        intro e; exact he (by rw [ht, e])
      split
      next =>
        exact { h with
          known := by simp [DriveState.positioned], position := by simpa using hq, budget := hb
          homing := ⟨h.homing.1, by simp⟩, moving := by simp
          waiting := fun _ => ⟨stepped p dir, t, rfl, ht, hne⟩
          faulted := by simp, step := by simp }
      next =>
        refine { h with
          known := by simp [hs, DriveState.positioned], position := by simpa using hq, budget := hb
          moving := fun _ => ?_, waiting := by rw [hs]; simp, faulted := by rw [hs]; simp
          step := by simp [hs] }
        refine ⟨stepped p dir, t, _, rfl, ht, rfl, ?_, ?_⟩
        · intro e; rw [ht] at e; have := towards_opening e; simp only [Option.getD_some] at this; omega
        · intro e; rw [ht] at e; have := towards_closing e; simp only [Option.getD_some] at this; omega

/-- A wait for the budget ends with a step begun toward the taken target (R90). -/
theorem Damper.Sound.resume {d : Damper} (h : d.Sound) (hs : d.state = .waitingBudget) {p t : Nat}
    (hp : d.position = some p) (ht : d.taken = some t) {b : Nat} (hb : b ≤ 2400) :
    ({ d with budget := b, state := .moving, step := some (towards p t) } : Damper).Sound := by
  obtain ⟨p', t', hp', ht', hne⟩ := h.waiting hs
  rw [hp] at hp'; rw [ht] at ht'
  obtain rfl := Option.some.inj hp'
  obtain rfl := Option.some.inj ht'
  have hp1 := h.position p hp
  have ht1 := h.taken t ht
  refine { h with
    known := by simp [hp, DriveState.positioned], budget := hb
    homing := ⟨h.homing.1, by simp⟩, moving := fun _ => ⟨p, t, _, hp, ht, rfl, ?_, ?_⟩
    waiting := by simp, faulted := by simp, step := by simp }
  · intro e; have := towards_opening e; omega
  · intro e; have := towards_closing e; omega

/-- A budget refill keeps the ranges (R87, R90). -/
theorem Damper.Sound.refill {d : Damper} (h : d.Sound) : d.refill.Sound := by
  unfold Damper.refill
  by_cases hb : d.budget < 2400 <;> simp only [hb, if_true, if_false]
  · have k : ({ d with budget := d.budget + 1 } : Damper).Sound := { h with budget := by simp; omega }
    split
    next hs hp ht =>
      split
      next => exact h.resume hs hp ht (by omega)
      next => exact k
    next => exact k
  · split
    next hs hp ht =>
      split
      next => exact h.resume hs hp ht h.budget
      next => exact h
    next => exact h

/-- The drive's reset values are in range (R84). -/
theorem Damper.reset_sound : Damper.reset.Sound := by
  constructor <;> simp [Damper.reset, DriveState.positioned]

end Sys2Proof.Machine
end

