-- ==== Sys2Proof/Laws/Frames.lean ====
section
/-! SUPPORT. What each shared operation leaves unchanged, said once: the reports' operations touch the line, the
zone's recomputation the zone's blocks, and the engine's operations the plant's blocks. -/

namespace Sys2Proof.Machine

/-! ## Raising reports -/

@[simp] theorem State.prompt_loader (s : State) : s.prompt.loader = s.loader := rfl
@[simp] theorem State.prompt_peers (s : State) : s.prompt.peers = s.peers := rfl
@[simp] theorem State.prompt_sensors (s : State) : s.prompt.sensors = s.sensors := rfl
@[simp] theorem State.prompt_demand (s : State) : s.prompt.demand = s.demand := rfl
@[simp] theorem State.prompt_share (s : State) : s.prompt.share = s.share := rfl
@[simp] theorem State.prompt_damper (s : State) : s.prompt.damper = s.damper := rfl
@[simp] theorem State.prompt_modeSel (s : State) : s.prompt.modeSel = s.modeSel := rfl
@[simp] theorem State.prompt_capacity (s : State) : s.prompt.capacity = s.capacity := rfl
@[simp] theorem State.prompt_engine (s : State) : s.prompt.engine = s.engine := rfl
@[simp] theorem State.prompt_protection (s : State) : s.prompt.protection = s.protection := rfl
@[simp] theorem State.prompt_frost (s : State) : s.prompt.frost = s.frost := rfl
@[simp] theorem State.prompt_pending (s : State) : s.prompt.pending = s.pending := rfl

@[simp] theorem State.settle_loader (s : State) : s.settle.loader = s.loader := rfl
@[simp] theorem State.settle_peers (s : State) : s.settle.peers = s.peers := rfl
@[simp] theorem State.settle_sensors (s : State) : s.settle.sensors = s.sensors := rfl
@[simp] theorem State.settle_demand (s : State) : s.settle.demand = s.demand := rfl
@[simp] theorem State.settle_share (s : State) : s.settle.share = s.share := rfl
@[simp] theorem State.settle_damper (s : State) : s.settle.damper = s.damper := rfl
@[simp] theorem State.settle_modeSel (s : State) : s.settle.modeSel = s.modeSel := rfl
@[simp] theorem State.settle_capacity (s : State) : s.settle.capacity = s.capacity := rfl
@[simp] theorem State.settle_engine (s : State) : s.settle.engine = s.engine := rfl
@[simp] theorem State.settle_protection (s : State) : s.settle.protection = s.protection := rfl
@[simp] theorem State.settle_frost (s : State) : s.settle.frost = s.frost := rfl
@[simp] theorem State.settle_pending (s : State) : s.settle.pending = s.pending := rfl

/-- What the zone's shared operations leave alone: every block but the line, the peer table's choice of plant,
the demand, the share unit and the damper. -/
structure ZoneFrame (s t : State) : Prop where
  loader : t.loader = s.loader
  entries : t.peers.entries = s.peers.entries
  grace : t.peers.grace = s.peers.grace
  late : t.peers.lateEvents = s.peers.lateEvents
  lost : t.peers.peersLost = s.peers.peersLost
  sensors : t.sensors = s.sensors
  modeSel : t.modeSel = s.modeSel
  capacity : t.capacity = s.capacity
  engine : t.engine = s.engine
  protection : t.protection = s.protection
  frost : t.frost = s.frost
  pending : t.pending = s.pending

theorem ZoneFrame.rfl' (s : State) : ZoneFrame s s := by constructor <;> rfl

theorem ZoneFrame.trans {s t u : State} (h : ZoneFrame s t) (k : ZoneFrame t u) : ZoneFrame s u := by
  cases h; cases k; constructor <;> simp_all

/-- What the plant's shared operations leave alone: the loader, the peer table, the sensors, the zone's blocks,
the waiting commands, STANDBY and YIELDED, and of the Mode Selector everything but the off-hold timer. -/
structure PlantFrame (s t : State) : Prop where
  loader : t.loader = s.loader
  peers : t.peers = s.peers
  sensors : t.sensors = s.sensors
  demand : t.demand = s.demand
  share : t.share = s.share
  damper : t.damper = s.damper
  modeSel : { t.modeSel with offHold := s.modeSel.offHold } = s.modeSel
  pending : t.pending = s.pending
  standby : t.engine.standby = s.engine.standby
  yielded : t.line.yielded = s.line.yielded

theorem PlantFrame.rfl' (s : State) : PlantFrame s s := by constructor <;> rfl

theorem PlantFrame.trans {s t u : State} (h : PlantFrame s t) (k : PlantFrame t u) : PlantFrame s u := by
  obtain ⟨a1, a2, a3, a4, a5, a6, a7, a8, a9, a10⟩ := h
  obtain ⟨b1, b2, b3, b4, b5, b6, b7, b8, b9, b10⟩ := k
  refine ⟨b1.trans a1, b2.trans a2, b3.trans a3, b4.trans a4, b5.trans a5, b6.trans a6, ?_, b8.trans a8,
    b9.trans a9, b10.trans a10⟩
  rw [← b7] at a7
  exact a7

/-! ## The zone's operations -/

theorem State.prompt_zone (s : State) : ZoneFrame s s.prompt := by constructor <;> rfl

theorem State.settle_zone (s : State) : ZoneFrame s s.settle := by constructor <;> rfl

theorem State.placeTier_zone (s : State) : ZoneFrame s s.placeTier := by
  unfold State.placeTier; dsimp only; split <;> constructor <;> rfl

theorem State.placeTarget_zone (s : State) (o : Opening) : ZoneFrame s (s.placeTarget o) := by
  unfold State.placeTarget; dsimp only; (repeat' split) <;> (constructor <;> rfl)

theorem State.recompute_zone (s : State) : ZoneFrame s s.recompute := by
  refine (s.placeTier_zone).trans (ZoneFrame.trans ?_ (State.placeTarget_zone _ _))
  constructor <;> rfl

/-- A recomputation leaves the peer table as it is. -/
@[simp] theorem State.recompute_peers (s : State) : s.recompute.peers = s.peers := by
  unfold State.recompute State.placeTarget State.placeTier
  dsimp only
  (repeat' split) <;> rfl

/-- A recomputation leaves the demand as it is. -/
@[simp] theorem State.recompute_demand (s : State) : s.recompute.demand = s.demand := by
  unfold State.recompute State.placeTarget State.placeTier
  dsimp only
  (repeat' split) <;> rfl

theorem State.plantNotice_zone (old : Option Facts) (new : Facts) (b : Bool) (s : State) :
    ZoneFrame s (s.plantNotice old new b) := by
  unfold State.plantNotice
  dsimp only
  split
  · exact ZoneFrame.trans (by constructor <;> rfl) (State.recompute_zone _)
  · constructor <;> rfl

theorem State.lossNotice_zone (s : State) : ZoneFrame s s.lossNotice := by
  unfold State.lossNotice
  exact ZoneFrame.trans (by constructor <;> rfl) (State.recompute_zone _)

theorem State.evaluatePlant_zone (old : Option Facts) (s : State) : ZoneFrame s (s.evaluatePlant old) := by
  unfold State.evaluatePlant
  dsimp only
  split
  · split
    · constructor <;> rfl
    · exact ZoneFrame.trans (by constructor <;> rfl) (State.plantNotice_zone _ _ _ _)
  · split
    · exact ZoneFrame.rfl' s
    · split
      · exact ZoneFrame.trans (by constructor <;> rfl) (State.lossNotice_zone _)
      · exact ZoneFrame.trans (by constructor <;> rfl) (State.lossNotice_zone _)

theorem State.losePlant_zone (s : State) : ZoneFrame s s.losePlant := by
  unfold State.losePlant
  exact ZoneFrame.trans (by constructor <;> rfl) (State.recompute_zone _)

theorem State.yieldDemand_zone (s : State) : ZoneFrame s s.yieldDemand := by
  unfold State.yieldDemand; dsimp only; split <;> constructor <;> rfl

/-! ## The plant's operations -/

theorem State.prompt_plant (s : State) : PlantFrame s s.prompt := by constructor <;> rfl

/-- Settling readiness leaves YIELDED as it is (R12, R17). -/
@[simp] theorem LineState.settle_yielded (b : Bool) (l : LineState) : (l.settle b).yielded = l.yielded := by
  unfold LineState.settle
  (repeat' split) <;> rfl

theorem State.settle_plant (s : State) : PlantFrame s s.settle := by
  constructor <;> first | rfl | exact LineState.settle_yielded _ _

theorem State.noteLockoutEnd_plant (before : Option Nat) (s : State) :
    PlantFrame s (s.noteLockoutEnd before) := by
  unfold State.noteLockoutEnd; split <;> constructor <;> rfl

/-- What the end of a LOCKOUT does to a station: the report's prompt, or nothing (R165). -/
theorem State.noteLockoutEnd_cases (before : Option Nat) (s : State) :
    (s.plantReady = true ∧ before.isSome = true ∧ s.protection.lockout = none ∧
      s.noteLockoutEnd before = s.prompt) ∨ s.noteLockoutEnd before = s := by
  unfold State.noteLockoutEnd
  split
  · rename_i h
    simp only [Bool.and_eq_true, Option.isNone_iff_eq_none] at h
    exact .inl ⟨h.1.1, h.1.2, h.2, rfl⟩
  · exact .inr rfl

theorem State.notePlantState_plant (s : State) : PlantFrame s s.notePlantState := by
  unfold State.notePlantState; split <;> constructor <;> rfl

theorem State.settlePlant_plant (s : State) : PlantFrame s s.settlePlant :=
  (s.notePlantState_plant).trans (State.settle_plant _)

theorem State.driveOutputs_plant (s : State) : PlantFrame s s.driveOutputs := by constructor <;> rfl

theorem State.runOff_plant (s : State) : PlantFrame s s.runOff := by
  unfold State.runOff; split <;> constructor <;> rfl

theorem State.driveValve_plant (v : Valve) (s : State) : PlantFrame s (s.driveValve v) := by
  unfold State.driveValve; split <;> constructor <;> rfl

theorem State.driveModeValve_plant (s : State) : PlantFrame s s.driveModeValve := by
  unfold State.driveModeValve
  split
  · exact State.driveValve_plant _ _
  · exact PlantFrame.rfl' s

theorem State.beginLockout_plant (s : State) : PlantFrame s s.beginLockout := by
  unfold State.beginLockout; dsimp only; split <;> constructor <;> rfl

theorem State.closeRun_plant (c : StopCause) (s : State) : PlantFrame s (s.closeRun c) := by
  unfold State.closeRun
  split
  · exact PlantFrame.rfl' s
  · dsimp only
    split
    · exact PlantFrame.trans (by constructor <;> rfl) (State.beginLockout_plant _)
    · constructor <;> rfl

theorem State.endProc_plant (o : ProcOutcome) (s : State) : PlantFrame s (s.endProc o) := by
  unfold State.endProc; dsimp only; split <;> constructor <;> first | rfl | (cases o <;> rfl)

theorem State.holdSpeed_plant (v : Option Nat) (s : State) : PlantFrame s (s.holdSpeed v) := by
  constructor <;> rfl

theorem State.holdBlower_plant (v : Option Nat) (s : State) : PlantFrame s (s.holdBlower v) := by
  constructor <;> rfl

theorem State.setHold_plant (n : Nat) (s : State) :
    PlantFrame s (s.setEngine { s.engine with emergencyHold := n }) := by
  constructor <;> rfl

/-- The run output falls, the run closes with a cause, and the speed is 0: T1, X1 and E1. -/
theorem State.stopRun_plant (c : StopCause) (s : State) :
    PlantFrame s ((s.runOff.closeRun c).holdSpeed (some 0)) :=
  (s.runOff_plant).trans ((State.closeRun_plant c _).trans (State.holdSpeed_plant _ _))

theorem State.act_plant (st : StepId) (s : State) : PlantFrame s (s.act st) := by
  cases st with
  | s1 => exact State.holdBlower_plant _ s
  | s2 => exact State.driveModeValve_plant s
  | s3 => constructor <;> rfl
  | s4 => exact State.holdSpeed_plant _ s
  | t1 => exact State.stopRun_plant _ s
  | t2 => exact State.holdBlower_plant _ s
  | t3 => exact State.holdBlower_plant _ s
  | x1 => exact State.stopRun_plant _ s
  | x2 => exact State.holdBlower_plant _ s
  | x3 => exact State.driveModeValve_plant s
  | d1 =>
    exact (s.runOff_plant).trans ((State.holdSpeed_plant _ _).trans (State.holdBlower_plant _ _))
  | d2 => exact PlantFrame.rfl' s
  | d3 => exact State.driveValve_plant _ s
  | d4 => constructor <;> rfl
  | d5 => exact PlantFrame.rfl' s
  | d6 => exact (s.runOff_plant).trans (State.holdSpeed_plant _ _)
  | d7 => exact PlantFrame.rfl' s
  | d8 => exact State.driveValve_plant _ s
  | d9 => constructor <;> rfl
  | d10 => exact State.holdBlower_plant _ s
  | e1 =>
    exact (State.stopRun_plant _ s).trans
      ((State.holdBlower_plant _ _).trans (State.setHold_plant _ _))
  | e2 => exact PlantFrame.rfl' s

theorem State.mark_plant (st : StepId) (s : State) : PlantFrame s (s.mark st) := by
  unfold State.mark; split <;> constructor <;> rfl

theorem State.takeStep_plant (st : StepId) (s : State) : PlantFrame s (s.takeStep st).2 := by
  have h : PlantFrame s (s.current st) := by constructor <;> rfl
  unfold State.takeStep
  dsimp only
  split
  · exact h.trans (State.endProc_plant _ _)
  · split
    · split
      · exact (h.trans (by constructor <;> rfl)).trans (State.endProc_plant _ _)
      · split
        · exact h.trans (by constructor <;> rfl)
        · exact h.trans (by constructor <;> rfl)
    · split <;> exact h

theorem State.askSpacing_plant (s : State) : PlantFrame s s.askSpacing.2 := by
  unfold State.askSpacing; split <;> constructor <;> rfl

theorem State.applyStep_plant (s : State) : PlantFrame s s.applyStep.2 := by
  unfold State.applyStep
  split
  · exact PlantFrame.rfl' s
  · rename_i st _
    have h : PlantFrame s
        ((((s.setEngine { s.engine with state := .running, delaying := false, stepTime := 0 }).act
          st).driveOutputs).mark st) :=
      ((PlantFrame.trans (by constructor <;> rfl) (State.act_plant st _)).trans
        (State.driveOutputs_plant _)).trans (State.mark_plant _ _)
    dsimp only
    split
    · exact h.trans (State.askSpacing_plant _)
    · split <;> exact h

theorem State.writeBoundary_plant (st : StepId) (b : Bool) (s : State) :
    PlantFrame s (s.writeBoundary st b) := by
  unfold State.writeBoundary; dsimp only; split <;> constructor <;> rfl

theorem State.boundary_plant (b : Bool) (s : State) : PlantFrame s (s.boundary b).2 := by
  unfold State.boundary
  split
  · exact PlantFrame.rfl' s
  · rename_i st _
    have h := State.writeBoundary_plant st b s
    dsimp only
    split
    · exact h.trans (State.endProc_plant _ _)
    · split
      · exact h.trans (State.endProc_plant _ _)
      · exact h

theorem State.startNext_plant (s : State) : PlantFrame s s.startNext.2 := by
  unfold State.startNext
  split
  · exact PlantFrame.rfl' s
  · dsimp only; split <;> constructor <;> rfl

theorem State.move_plant (t : Todo) (s : State) : PlantFrame s (s.move t).2 := by
  cases t
  · exact State.takeStep_plant _ s
  · exact State.applyStep_plant s
  · exact State.boundary_plant _ s
  · exact State.startNext_plant s
  · exact PlantFrame.rfl' s

/-- A property of the engine's next move and the state that every move keeps holds when the engine rests: the
one induction over an event's moves. -/
theorem State.drive_keeps {P : Todo → State → Prop}
    (h : ∀ t s, P t s → P (s.move t).1 (s.move t).2) :
    ∀ n t s, P t s → ∃ u, P u (s.drive n t) := by
  intro n
  induction n with
  | zero => intro t s hp; exact ⟨t, hp⟩
  | succ n ih =>
    intro t s hp
    cases t with
    | rest => exact ⟨.rest, hp⟩
    | take st => exact ih _ _ (h (.take st) s hp)
    | apply => exact ih _ _ (h .apply s hp)
    | boundary b => exact ih _ _ (h (.boundary b) s hp)
    | startNext => exact ih _ _ (h .startNext s hp)

theorem State.drive_plant (n : Nat) (t : Todo) (s : State) : PlantFrame s (s.drive n t) := by
  obtain ⟨_, h⟩ := State.drive_keeps (P := fun _ u => PlantFrame s u)
    (fun t u hu => hu.trans (State.move_plant t u)) n t s (PlantFrame.rfl' s)
  exact h

theorem State.run_plant (t : Todo) (s : State) : PlantFrame s (s.run t) := State.drive_plant 64 t s

theorem State.preempt_plant (s : State) : PlantFrame s s.preempt :=
  (State.endProc_plant _ s).trans (State.run_plant _ _)

theorem State.entered_plant (p : Proc) (s : State) : PlantFrame s (s.entered p) := by
  unfold State.entered
  split
  · exact State.run_plant _ s
  · split
    · exact State.preempt_plant s
    · exact PlantFrame.rfl' s
  · exact PlantFrame.rfl' s
  · exact PlantFrame.rfl' s

theorem State.startEmergency_plant (c : EmergencyCause) (s : State) : PlantFrame s (s.startEmergency c) := by
  unfold State.startEmergency
  dsimp only
  split
  · exact ((State.endProc_plant _ s).trans (by constructor <;> rfl)).trans (State.run_plant _ _)
  · exact PlantFrame.trans (by constructor <;> rfl) (State.run_plant _ _)

theorem State.mergeEmergency_plant (c : EmergencyCause) (s : State) : PlantFrame s (s.mergeEmergency c) := by
  unfold State.mergeEmergency; split <;> constructor <;> rfl

theorem State.mergeStop_plant (r : StopReason) (s : State) : PlantFrame s (s.mergeStop r) := by
  unfold State.mergeStop
  split
  · exact PlantFrame.trans (by constructor <;> rfl) (State.run_plant _ _)
  · exact PlantFrame.rfl' s

theorem State.takeStop_plant (r : StopReason) (s : State) : PlantFrame s (s.takeStop r) := by
  unfold State.takeStop
  dsimp only
  split
  · exact State.mergeStop_plant _ s
  · split
    · constructor <;> rfl
    · exact PlantFrame.trans (by constructor <;> rfl) (State.entered_plant _ _)

theorem State.takeDefrost_plant (s : State) : PlantFrame s s.takeDefrost := by
  unfold State.takeDefrost
  dsimp only
  split
  · exact PlantFrame.rfl' s
  · exact PlantFrame.trans (by constructor <;> rfl) (State.entered_plant _ _)

theorem State.takeChangeover_plant (s : State) : PlantFrame s s.takeChangeover := by
  unfold State.takeChangeover
  dsimp only
  split
  · exact PlantFrame.rfl' s
  · exact PlantFrame.trans (by constructor <;> rfl) (State.entered_plant _ _)

theorem State.takeStart_plant (s : State) : PlantFrame s s.takeStart := by
  unfold State.takeStart
  dsimp only
  split
  · constructor <;> rfl
  · split
    · exact PlantFrame.rfl' s
    · exact PlantFrame.trans (by constructor <;> rfl) (State.entered_plant _ _)

theorem State.request_plant (p : Proc) (s : State) : PlantFrame s (s.request p) := by
  unfold State.request
  split
  · split
    · split
      · exact State.mergeEmergency_plant _ s
      · exact State.startEmergency_plant _ s
    · exact State.takeStop_plant _ s
    · exact State.takeDefrost_plant s
    · exact State.takeChangeover_plant s
    · exact State.takeStart_plant s
  · exact PlantFrame.rfl' s

theorem State.handOffC_plant (s : State) : PlantFrame s s.handOffC := by
  unfold State.handOffC
  split
  · exact (State.endProc_plant _ s).trans (State.run_plant _ _)
  · exact PlantFrame.rfl' s

theorem State.withdrawRequest_plant (s : State) : PlantFrame s s.withdrawRequest := by constructor <;> rfl

theorem State.setRequests_plant (r : Requests) (s : State) : PlantFrame s (s.setRequests r) := by
  constructor <;> rfl

theorem State.dropPlant_plant (s : State) : PlantFrame s s.dropPlant := by
  have h : PlantFrame s ((s.runOff.driveValve (deEnergised s.loader.straps.energised)).closeRun .standby) :=
    ((s.runOff_plant).trans (State.driveValve_plant _ _)).trans (State.closeRun_plant _ _)
  have k (u : State) : PlantFrame u (u.withdrawRequest.setRequests .empty).driveOutputs :=
    ((State.withdrawRequest_plant u).trans (State.setRequests_plant _ _)).trans (State.driveOutputs_plant _)
  unfold State.dropPlant
  generalize (s.runOff.driveValve (deEnergised s.loader.straps.energised)).closeRun .standby = u at *
  dsimp only
  split
  · exact (h.trans (State.endProc_plant _ _)).trans (k _)
  · exact h.trans (k _)

theorem State.enterStandby_plant (s : State) :
    PlantFrame (s.setEngine { s.engine with standby := true }) s.enterStandby := by
  unfold State.enterStandby
  split
  · rename_i h
    have : s.setEngine { s.engine with standby := true } = s := by
      rw [← h]; exact State.setEngine_same s
    rw [this]
    exact PlantFrame.rfl' s
  · exact State.dropPlant_plant _

/-- Standing aside is not changed by the plant's operations. -/
theorem PlantFrame.aside {s t : State} (h : PlantFrame s t) : t.aside = s.aside := by
  unfold State.aside; rw [h.standby, h.yielded]

/-- Nor is the readiness of the station. -/
theorem PlantFrame.plantReady {s t : State} (h : PlantFrame s t) : t.plantReady = s.plantReady := by
  unfold State.plantReady State.ready; rw [h.loader]

theorem PlantFrame.pp {s t : State} (h : PlantFrame s t) : t.pp = s.pp := by
  unfold State.pp; rw [h.loader]

end Sys2Proof.Machine
end

