-- ==== Sys2Proof/Laws/Zone.lean ====
section
/-! SUPPORT. The zone's blocks keep their ranges: the loaded parameters, the demand arithmetic, the recomputation
and the followed plant's notices (R51 to R83, R185). -/

namespace Sys2Proof.Machine

/-! ## Parameters (R185) -/

theorem zoneDefaults_inRange : zoneDefaults.InRange := by
  constructor <;> simp [zoneDefaults]

theorem plantDefaults_inRange : plantDefaults.InRange := by
  constructor <;> simp [plantDefaults]

/-- The zone parameters of any image are clamped into their ranges (R185). -/
theorem zoneOfImage_inRange (p : List Byte) : (zoneOfImage p).InRange := by
  constructor <;> simp only [zoneOfImage, clampNat] <;> omega

/-- The plant parameters of any image are clamped into their ranges, the dependent ones last (R185). -/
theorem plantOfImage_inRange (p : List Byte) : (plantOfImage p).InRange := by
  constructor <;> simp only [plantOfImage, clampNat] <;> omega

theorem State.zp_inRange {s : State} (h : s.loader.Sound) : s.zp.InRange := by
  unfold State.zp
  cases hz : s.loader.zone with
  | none => exact zoneDefaults_inRange
  | some p => exact h.zone p hz

theorem State.pp_inRange {s : State} (h : s.loader.Sound) : s.pp.InRange := by
  unfold State.pp
  cases hz : s.loader.plant with
  | none => exact plantDefaults_inRange
  | some p => exact h.plant p hz

theorem Loader.reset_sound (st : Straps) (a b : Bool) (k : ResetKind) (h : a = true ∨ b = true) :
    (Loader.reset st a b k).Sound := by
  constructor <;> simp [Loader.reset, Loader.holdsItsSet, h]

/-! ## Demand (R51 to R70) -/

theorem Demand.reset_sound : Demand.reset.Sound := by
  constructor <;> simp [Demand.reset]

/-- Entry into a call keeps the ranges (R63). -/
theorem Demand.Sound.enter {d : Demand} (h : d.Sound) (c : Call) : (d.enter c).Sound := by
  unfold Demand.enter
  split
  · exact { h with integral := by simp, rawSum := by simp }
  · exact { h with }

theorem Demand.Sound.rest {d : Demand} (h : d.Sound) : d.rest.Sound :=
  { h with ds := by simp [Demand.rest], rawSum := by simp [Demand.rest] }

theorem integralStep_bounds {i u e : Int} {ki : Nat} (h : 0 ≤ i ∧ i ≤ 100000) :
    0 ≤ integralStep i u e ki ∧ integralStep i u e ki ≤ 100000 := by
  unfold integralStep
  split
  · exact h
  · exact clamp_bounds _ _ _ (by norm_num)

/-- The sensible stages keep the ranges (R64 to R68). -/
theorem Demand.Sound.sensible {d : Demand} (h : d.Sound) {p : ZoneParams} (hp : p.InRange) (e : Errors) :
    (d.sensible p e).Sound := by
  unfold Demand.sensible
  dsimp only
  generalize hi : (if d.integrates = true then
    integralStep d.integral d.rawSum (clamp (-500) 500 (workingError e d.call)) p.ki else d.integral) = i
  have hI : 0 ≤ i ∧ i ≤ 100000 := by
    rw [← hi]; split
    · exact integralStep_bounds h.integral
    · exact h.integral
  have hE := clamp_bounds (-500) 500 (workingError e d.call) (by norm_num)
  generalize clamp (-500) 500 (workingError e d.call) = err at *
  have hk : (p.kp : Int) ≤ 1000 := by exact_mod_cast hp.kp
  have hk0 : (0 : Int) ≤ p.kp := by positivity
  have hP1 : nearest (err * p.kp) 100 ≤ 5000 := nearest_le _ _ _ (by norm_num) (by push_cast; nlinarith [hE.1, hE.2])
  have hP2 : -5000 ≤ nearest (err * p.kp) 100 := le_nearest _ _ _ (by norm_num) (by push_cast; nlinarith [hE.1, hE.2])
  have hQ1 : nearest i 100 ≤ 1000 := nearest_le _ _ _ (by norm_num) (by push_cast; omega)
  have hQ2 : 0 ≤ nearest i 100 := le_nearest _ _ _ (by norm_num) (by push_cast; omega)
  exact { integral := hI, rawSum := ⟨by dsimp only; omega, by dsimp only; omega⟩, dl := h.dl
          ds := by
            have := clamp_bounds 0 1000 (nearest (err * p.kp) 100 + nearest i 100) (by norm_num)
            dsimp only; omega }

theorem latent_le (p : ZoneParams) (e : Errors) (c : Call) : latent p e c ≤ 1000 := by
  unfold latent
  split
  · split
    · rename_i r _ _
      have := clamp_bounds 0 1000 (nearest (r * p.kl) 10) (by norm_num)
      omega
    · omega
  · omega

/-- A demand timer expiry keeps the ranges (R52). -/
theorem Demand.Sound.expiry {d : Demand} (h : d.Sound) (y z : Bool) {p : ZoneParams} (hp : p.InRange)
    (e : Errors) : (d.expiry y z p e).Sound := by
  unfold Demand.expiry
  dsimp only
  split
  · exact { (h.enter _).sensible hp e with dl := latent_le _ _ _ }
  · exact { (h.enter _).rest with dl := latent_le _ _ _ }

/-! ## The recomputation (R76 to R83) -/

theorem State.chooseTier_le (s : State) : s.chooseTier ≤ 2 := by
  unfold State.chooseTier
  dsimp only
  (repeat' split) <;> omega

/-- The rows of the tier table that come first leave tier 0 (R77). -/
theorem State.chooseTier_zero (s : State)
    (h : s.damper.state = .faulted ∨ s.line.yielded = true ∨ s.peers.plantLost = true) :
    s.chooseTier = 0 := by
  unfold State.chooseTier
  dsimp only
  split
  · rfl
  · split
    · rfl
    · split
      · rfl
      · split
        · rfl
        · simp_all

/-- A base opening is at most 100 where the parameters and the demand inputs are in range (R78). -/
theorem State.chooseBase_le {s : State} (hl : s.loader.Sound) (hs : s.share.Sound) (tier : Nat) :
    (s.chooseBase tier).orZero ≤ 100 := by
  have hz := State.zp_inRange hl
  have hb := baseFor_bounds s.zp.omin s.share.inputs.ds hz.omin hs.inputs.1
  have hd := baseFor_bounds s.zp.omin s.share.inputs.dl hz.omin hs.inputs.2
  have hsum := hs.sum
  have ho := hz.omin
  have hf := hz.faultOpening
  unfold State.chooseBase
  (repeat' split) <;> simp only [Opening.orZero] at * <;> omega

/-- Stages 1 to 5 leave a base and a relief that fit together (R73, R79, R81, R82). -/
theorem State.relief_fits {s : State} (hl : s.loader.Sound) (hs : s.share.Sound) :
    s.placeTier.share.base.orZero + s.placeTier.chooseRelief ≤ 100 ∧
      (s.placeTier.share.tier = 0 → s.placeTier.chooseRelief = 0) := by
  have hz := s.placeTier_zone
  have hsh : s.placeTier.share =
      { s.share with tier := s.chooseTier, base := s.chooseBase s.chooseTier } := by
    unfold State.placeTier; dsimp only; split <;> rfl
  have hb := State.chooseBase_le hl hs s.chooseTier
  have hline : s.placeTier.line.yielded = s.line.yielded := by
    unfold State.placeTier; dsimp only; split <;> rfl
  refine ⟨?_, fun h0 => by unfold State.chooseRelief; simp [h0]⟩
  unfold State.chooseRelief
  dsimp only
  split
  · rw [hsh]; simpa using hb
  · rename_i ht
    split
    · -- the freeze: the base is the held one, since none of the rows before it stands
      rename_i hfz
      have hfz' : s.share.frozen = true := by rw [hsh] at hfz; exact hfz
      have hne : ¬(s.damper.state = .faulted ∨ s.line.yielded = true ∨ s.peers.plantLost = true) := by
        intro hc
        exact ht (by rw [hsh]; exact State.chooseTier_zero s hc)
      have hbase : s.chooseBase s.chooseTier = s.share.base := by
        unfold State.chooseBase
        simp only [not_or] at hne
        simp [hne.1, hne.2.1, hne.2.2, hfz']
      rw [hsh]
      show (s.chooseBase s.chooseTier).orZero + s.share.relief ≤ 100
      rw [hbase]
      exact hs.sum
    · split
      · have := reliefShare_le s.placeTier.share.base.orZero
          (s.placeTier.share.publishedF - weightedBase s.placeTier.zoneEntries)
          (headroom 1 s.placeTier.zoneEntries)
        have : s.placeTier.share.base.orZero ≤ 100 := by rw [hsh]; exact hb
        omega
      · have := reliefShare_le s.placeTier.share.base.orZero
          (s.placeTier.share.publishedF - weightedBase s.placeTier.zoneEntries -
            headroom 1 s.placeTier.zoneEntries) (headroom 2 s.placeTier.zoneEntries)
        have : s.placeTier.share.base.orZero ≤ 100 := by rw [hsh]; exact hb
        omega

/-- Everything a recomputation does to the share unit and the drive: tier and base by R77 and R78, a relief, the
target as their sum, and the target's offer (R76). -/
theorem State.recompute_share (s : State) :
    s.recompute.share =
      { s.share with
        tier := s.chooseTier, base := s.chooseBase s.chooseTier, relief := s.placeTier.chooseRelief
        target := targetOf (s.chooseBase s.chooseTier) s.placeTier.chooseRelief } := by
  have hsh : s.placeTier.share =
      { s.share with tier := s.chooseTier, base := s.chooseBase s.chooseTier } := by
    unfold State.placeTier; dsimp only; split <;> rfl
  unfold State.recompute State.placeTarget
  dsimp only
  rw [State.setShare_share, hsh]
  dsimp only
  cases targetOf (s.chooseBase s.chooseTier) s.placeTier.chooseRelief <;>
    (repeat' split) <;> rfl

theorem State.recompute_damper (s : State) :
    s.recompute.damper =
      match targetOf (s.chooseBase s.chooseTier) s.placeTier.chooseRelief with
      | .percent p => s.damper.offer (p * 12)
      | .unknown => s.damper := by
  have hsh : s.placeTier.share =
      { s.share with tier := s.chooseTier, base := s.chooseBase s.chooseTier } := by
    unfold State.placeTier; dsimp only; split <;> rfl
  have hd : s.placeTier.damper = s.damper := by
    unfold State.placeTier; dsimp only; split <;> rfl
  unfold State.recompute State.placeTarget
  dsimp only
  rw [State.setShare_share, hsh]
  dsimp only
  cases targetOf (s.chooseBase s.chooseTier) s.placeTier.chooseRelief <;> dsimp only <;>
    (repeat' split) <;> simp only [State.setDamper_damper, State.setShare_damper, State.prompt_damper, hd]

/-- A recomputation keeps the ranges of the share unit and the drive (R73, R84). -/
theorem State.ZoneSound.recompute {s : State} (h : s.ZoneSound) : s.recompute.ZoneSound := by
  have hf := s.recompute_zone
  obtain ⟨h1, h2⟩ := State.relief_fits h.loader h.share
  have hsh : s.placeTier.share =
      { s.share with tier := s.chooseTier, base := s.chooseBase s.chooseTier } := by
    unfold State.placeTier; dsimp only; split <;> rfl
  rw [hsh] at h1 h2
  refine ⟨hf.loader ▸ h.loader, ?_, ?_, ?_⟩
  · rw [State.recompute_demand]; exact h.demand
  · rw [State.recompute_share]
    exact { tier := State.chooseTier_le s, sum := h1, relief := h2, target := rfl, inputs := h.share.inputs }
  · rw [State.recompute_damper]
    split
    next p hp =>
      refine h.damper.offer ?_
      have : p ≤ 100 := by
        unfold targetOf at hp
        split at hp
        · simp at hp
        next q hq =>
          simp only [Opening.percent.injEq] at hp
          simp only [hq, Opening.orZero] at h1
          omega
      omega
    next => exact h.damper

theorem Share.reset_sound : Share.reset.Sound := by
  constructor <;> simp [Share.reset, Opening.orZero, targetOf]

/-! ## The followed plant (R31 to R33) -/

/-- Blocks the zone's claims read, put back unchanged, keep them. -/
theorem State.ZoneSound.of {s t : State} (h : s.ZoneSound) (hl : t.loader = s.loader)
    (hd : t.demand.Sound) (hs : t.share.Sound) (hm : t.damper = s.damper) : t.ZoneSound :=
  ⟨hl ▸ h.loader, hd, hs, hm ▸ h.damper⟩

theorem State.ZoneSound.plantNotice {s : State} (h : s.ZoneSound) (old : Option Facts) (new : Facts)
    (b : Bool) : (s.plantNotice old new b).ZoneSound := by
  unfold State.plantNotice
  dsimp only
  have k : ((s.setDemand { s.demand with view := DemandView.after s.demand.view old new }).setShare
      { s.share with view := ShareView.after s.share.view old new }).ZoneSound :=
    h.of rfl { h.demand with } { h.share with } rfl
  split
  · exact k.recompute
  · exact k

theorem State.ZoneSound.lossNotice {s : State} (h : s.ZoneSound) : s.lossNotice.ZoneSound := by
  unfold State.lossNotice
  dsimp only
  exact State.ZoneSound.recompute (h.of rfl { h.demand with } { h.share with } rfl)

theorem State.ZoneSound.evaluatePlant {s : State} (h : s.ZoneSound) (old : Option Facts) :
    (s.evaluatePlant old).ZoneSound := by
  unfold State.evaluatePlant
  dsimp only
  split
  · split
    · exact h.of rfl h.demand h.share rfl
    · refine State.ZoneSound.plantNotice ?_ _ _ _
      exact h.of rfl h.demand h.share rfl
  · split
    · exact h
    · split
      · refine State.ZoneSound.lossNotice ?_
        exact h.of rfl h.demand h.share rfl
      · refine State.ZoneSound.lossNotice ?_
        exact h.of rfl h.demand h.share rfl

end Sys2Proof.Machine
end

