-- ==== Sys2Proof/Laws/Outputs.lean ====
section
/-! SUPPORT. The compressor, speed and blower outputs through the engine's moves (R118, R123, R139 to R149): from
a sound state every move of the engine leads to a sound one. -/

namespace Sys2Proof.Machine

/-! ## From the engine's state to the outputs -/

/-- What `driveOutputs` needs to leave the outputs sound: the value it would take for the speed is in range. -/
structure State.Drivable (s : State) : Prop where
  loader : s.loader.Sound
  ready : s.plantReady = true
  value : s.engine.run = true → ∀ v, v = s.engine.speedHold.getD
    (if s.engine.speedHold.isNone && !s.capacity.speedFollows then s.capacity.speedCommand
      else s.capacity.loopSpeed) → s.pp.cmin ≤ v ∧ v ≤ 1000
  caps : s.pp.cmin ≤ s.capacity.freezeCap ∧ s.capacity.freezeCap ≤ 1000 ∧
    s.pp.cmin ≤ s.capacity.supplyCap ∧ s.capacity.supplyCap ≤ 1000
  idle : s.engine.running = none → s.engine.Resting
  between : s.engine.state = .idle → s.engine.running = none
  chain : ∀ p st, s.engine.running = some p → s.engine.step = some st → st ∈ p.chain
  blower : s.engine.blowerHold = some 0 →
    s.engine.running = some .defrost ∨ (s.engine.inEmergency = true ∧ s.engine.run = false)
  aside : s.aside = true → s.engine.run = false ∧ s.engine.running = none

theorem State.Drivable.driveOutputs {s : State} (h : s.Drivable) : s.driveOutputs.PlantSound := by
  have hv := h.value
  have hb := h.blower
  have ha := h.aside
  refine { loader := h.loader, held := ?_, off := ?_, on := ?_, follows := ?_, air := ?_, caps := h.caps
           idle := h.idle, between := h.between, chain := h.chain, blower := h.blower, aside := h.aside }
  · intro hr
    have : s.plantReady = false := hr
    rw [h.ready] at this
    exact absurd this (by simp)
  · intro hr
    have hr' : s.engine.run = false := hr
    simp [State.driveOutputs, hr']
  · intro hr
    have hr' : s.engine.run = true := hr
    have := hv hr' _ rfl
    simp only [State.driveOutputs, State.setCapacity, hr', Bool.true_and, if_true] at *
    exact this
  · intro hr
    have hr' : s.engine.run = true := hr
    show match s.engine.speedHold with
      | none => _
      | some v => _
    cases hs : s.engine.speedHold <;> simp [State.driveOutputs, hr', hs]
  · intro hr
    have hr' : s.engine.run = true := hr
    have hna : s.aside = false := by
      cases hc : s.aside
      · rfl
      · rw [(ha hc).1] at hr'; simp at hr'
    show s.engine.running = some .defrost ∨ _
    cases hs : s.engine.blowerHold with
    | none =>
      right
      simp only [State.driveOutputs, State.setCapacity, hr', hs, hna, Bool.true_and, decide_eq_true_eq,
        Option.getD_none, Bool.false_eq_true, if_false]
      split <;> omega
    | some v =>
      rcases Nat.eq_zero_or_pos v with h0 | hp
      · subst h0
        rcases hb hs with hd | ⟨_, hoff⟩
        · exact Or.inl hd
        · rw [hr'] at hoff; simp at hoff
      · right
        simp only [State.driveOutputs, State.setCapacity, hs, hna, Bool.false_eq_true, if_false,
          Option.getD_some]
        exact hp

/-- A sound plant can be driven again. -/
theorem State.PlantSound.drivable {s : State} (h : s.PlantSound) (hr : s.plantReady = true) : s.Drivable where
  loader := h.loader
  ready := hr
  value := by
    intro hrun v hv
    have hf := h.follows hrun
    have ho := h.on hrun
    cases hs : s.engine.speedHold with
    | none => simp_all
    | some w => simp_all
  caps := h.caps
  idle := h.idle
  between := h.between
  chain := h.chain
  blower := h.blower
  aside := h.aside

/-! ## Runs and LOCKOUT leave the outputs alone -/

/-- LOCKOUT's beginning changes nothing of the engine but its pending START and the REFUSED counter. -/
theorem State.beginLockout_engine (s : State) :
    ∃ r n, s.beginLockout.engine = { s.engine with requests := r, refused := n } := by
  unfold State.beginLockout; dsimp only; split <;> exact ⟨_, _, rfl⟩

theorem State.closeRun_engine (c : StopCause) (s : State) :
    ∃ r n, (s.closeRun c).engine = { s.engine with requests := r, refused := n } := by
  unfold State.closeRun
  split
  · exact ⟨s.engine.requests, s.engine.refused, rfl⟩
  · dsimp only
    split
    · obtain ⟨r, n, h⟩ := State.beginLockout_engine (s.setProtection
        { s.protection with run := none, history := _, doubling := _ })
      exact ⟨r, n, h⟩
    · exact ⟨s.engine.requests, s.engine.refused, rfl⟩

@[simp] theorem State.closeRun_capacity (c : StopCause) (s : State) :
    (s.closeRun c).capacity = s.capacity := by
  unfold State.closeRun State.beginLockout; dsimp only
  (repeat' split) <;> rfl

@[simp] theorem State.closeRun_line (c : StopCause) (s : State) : (s.closeRun c).line = s.line := by
  unfold State.closeRun State.beginLockout; dsimp only
  (repeat' split) <;> rfl

@[simp] theorem State.runOff_capacity (s : State) : s.runOff.capacity = s.capacity := by
  unfold State.runOff; split <;> rfl

@[simp] theorem State.runOff_line (s : State) : s.runOff.line = s.line := by
  unfold State.runOff; split <;> rfl

/-- The run output's fall changes nothing else of the engine. -/
theorem State.runOff_engine (s : State) : s.runOff.engine = { s.engine with run := false } := by
  unfold State.runOff
  split
  · rfl
  · rename_i h
    simp only [Bool.not_eq_true] at h
    show s.engine = _
    rw [← h]

/-- A valve shift changes nothing else of the engine. -/
theorem State.driveValve_engine (v : Valve) (s : State) :
    (s.driveValve v).engine = { s.engine with valve := v } := by
  unfold State.driveValve
  split
  · rename_i h; subst h; rfl
  · rfl

@[simp] theorem State.driveValve_capacity (v : Valve) (s : State) :
    (s.driveValve v).capacity = s.capacity := by
  unfold State.driveValve; split <;> rfl

@[simp] theorem State.driveValve_line (v : Valve) (s : State) : (s.driveValve v).line = s.line := by
  unfold State.driveValve; split <;> rfl

/-- What a step's action can change that the outputs depend on, in one place: the run output, the two held
values and the valve. -/
theorem State.act_effect (st : StepId) (s : State) :
    (s.act st).capacity = s.capacity ∧ (s.act st).line = s.line ∧
    ∃ valve r n hold, (s.act st).engine =
      { s.engine with
        valve := valve, requests := r, refused := n, emergencyHold := hold
        run := match st with
          | .s3 | .d4 | .d9 => true
          | .t1 | .x1 | .d1 | .d6 | .e1 => false
          | _ => s.engine.run
        speedHold := match st with
          | .s3 | .s4 | .d9 => some s.pp.cmin
          | .d4 => some 700
          | .t1 | .x1 | .d1 | .d6 | .e1 => some 0
          | _ => s.engine.speedHold
        blowerHold := match st with
          | .s1 | .t3 => none
          | .t2 | .x2 => some s.pp.fanAirflow
          | .d1 | .d10 | .e1 => some 0
          | _ => s.engine.blowerHold } := by
  have hclose (c : StopCause) : ∃ r n, (s.runOff.closeRun c).engine =
      { s.engine with run := false, requests := r, refused := n } := by
    obtain ⟨r, n, h⟩ := State.closeRun_engine c s.runOff
    exact ⟨r, n, by rw [h, State.runOff_engine]⟩
  have hvalve (v : Valve) : (s.driveValve v).engine = { s.engine with valve := v } :=
    State.driveValve_engine v s
  cases st
  case s2 =>
    simp only [State.act, State.driveModeValve]
    split
    · exact ⟨by simp, by simp, _, s.engine.requests, s.engine.refused, s.engine.emergencyHold, hvalve _⟩
    · exact ⟨rfl, rfl, s.engine.valve, s.engine.requests, s.engine.refused, s.engine.emergencyHold, rfl⟩
  case x3 =>
    simp only [State.act, State.driveModeValve]
    split
    · exact ⟨by simp, by simp, _, s.engine.requests, s.engine.refused, s.engine.emergencyHold, hvalve _⟩
    · exact ⟨rfl, rfl, s.engine.valve, s.engine.requests, s.engine.refused, s.engine.emergencyHold, rfl⟩
  case d3 =>
    exact ⟨by simp [State.act], by simp [State.act], _, s.engine.requests, s.engine.refused,
      s.engine.emergencyHold, hvalve _⟩
  case d8 =>
    exact ⟨by simp [State.act], by simp [State.act], _, s.engine.requests, s.engine.refused,
      s.engine.emergencyHold, hvalve _⟩
  case t1 =>
    obtain ⟨r, n, h⟩ := hclose s.engine.stopCause
    exact ⟨by simp [State.act, State.holdSpeed], by simp [State.act, State.holdSpeed], s.engine.valve, r, n,
      s.engine.emergencyHold, by simp [State.act, State.holdSpeed, h]⟩
  case x1 =>
    obtain ⟨r, n, h⟩ := hclose .changeover
    exact ⟨by simp [State.act, State.holdSpeed], by simp [State.act, State.holdSpeed], s.engine.valve, r, n,
      s.engine.emergencyHold, by simp [State.act, State.holdSpeed, h]⟩
  case e1 =>
    obtain ⟨r, n, h⟩ := hclose s.engine.stopCause
    exact ⟨by simp [State.act, State.holdSpeed, State.holdBlower],
      by simp [State.act, State.holdSpeed, State.holdBlower], s.engine.valve, r, n,
      s.engine.requestHold, by simp [State.act, State.holdSpeed, State.holdBlower, h]⟩
  case d1 =>
    exact ⟨by simp [State.act, State.holdSpeed, State.holdBlower],
      by simp [State.act, State.holdSpeed, State.holdBlower], s.engine.valve, s.engine.requests,
      s.engine.refused, s.engine.emergencyHold,
      by simp [State.act, State.holdSpeed, State.holdBlower, State.runOff_engine]⟩
  case d6 =>
    exact ⟨by simp [State.act, State.holdSpeed], by simp [State.act, State.holdSpeed], s.engine.valve,
      s.engine.requests, s.engine.refused, s.engine.emergencyHold,
      by simp [State.act, State.holdSpeed, State.runOff_engine]⟩
  all_goals exact ⟨rfl, rfl, s.engine.valve, s.engine.requests, s.engine.refused,
    s.engine.emergencyHold, rfl⟩

/-! ## The engine's moves -/

/-- What a move to come asks of the state: a step to take belongs to the running procedure, a procedure is
started only when none runs, and both only while the station attends. -/
def Todo.Fits (t : Todo) (s : State) : Prop :=
  match t with
  | .take st => s.aside = false ∧ ∃ p, s.engine.running = some p ∧ st ∈ p.chain
  | .startNext => s.aside = false ∧ s.engine.running = none
  | .apply | .boundary _ | .rest => True

theorem State.aside_eq (s : State) : s.aside = (s.engine.standby || s.line.yielded) := rfl

/-- Two states of one loader have the same parameters and readiness. -/
theorem State.pp_of_loader {s t : State} (h : t.loader = s.loader) : t.pp = s.pp := by
  unfold State.pp; rw [h]

theorem State.plantReady_of_loader {s t : State} (h : t.loader = s.loader) :
    t.plantReady = s.plantReady := by
  unfold State.plantReady State.ready; rw [h]

/-- The end of a procedure leaves the outputs drivable: they follow the loop (R118, R123, R148 to R151). -/
theorem State.PlantSound.endProc {s : State} (h : s.PlantSound) (hr : s.plantReady = true)
    (o : ProcOutcome) : (s.endProc o).PlantSound ∧ (s.endProc o).engine.running = none ∧
      (s.endProc o).aside = s.aside := by
  have hc (e : Engine) : (e.count o).run = e.run ∧ (e.count o).standby = e.standby := by
    cases o <;> exact ⟨rfl, rfl⟩
  have hstand : ∀ u : State, u.engine = s.engine → u.line = s.line → ∀ x : Engine,
      x.standby = (s.engine.count o).standby → (u.setEngine x).aside = s.aside := by
    intro u he hline x hx
    rw [State.aside_eq, State.aside_eq]
    simp only [State.setEngine_engine, State.setEngine_line, hx, (hc _).2, hline]
  refine ⟨?_, by unfold State.endProc; dsimp only; split <;> rfl, ?_⟩
  swap
  · unfold State.endProc
    dsimp only
    split
    · exact hstand _ rfl rfl _ rfl
    · exact hstand _ rfl rfl _ rfl
  unfold State.endProc
  refine State.Drivable.driveOutputs ?_
  have key : ∀ u : State, u.loader = s.loader → u.engine = s.engine → u.capacity = s.capacity →
      u.line = s.line → (u.setEngine
        { u.engine.count o with
          state := .idle, running := none, step := none, delaying := false, stepTime := 0
          exitTime := none, timeLimit := none, emergencyHold := 0, speedHold := none
          blowerHold := none, d5 := none, status := u.engine.endStatus o }).Drivable := by
    intro u hl he hcap hline
    have hpp := State.pp_of_loader hl
    refine { loader := ?_, ready := ?_, value := ?_, caps := ?_, idle := ?_, between := fun _ => rfl
             chain := ?_, blower := ?_, aside := ?_ }
    · exact hl ▸ h.loader
    · exact (State.plantReady_of_loader (s := s) hl).trans hr
    · intro hrun v hv
      have hrun' : s.engine.run = true := by
        have : (u.engine.count o).run = true := hrun
        rw [(hc _).1, he] at this; exact this
      have hf := h.follows hrun'
      have ho := h.on hrun'
      simp only [State.setEngine_engine, State.setEngine_capacity, hcap, Option.getD_none,
        Option.isNone_none, Bool.true_and] at hv
      simp only [State.setEngine_pp, hpp]
      cases hs : s.engine.speedHold with
      | none => simp_all
      | some w => simp_all
    · simpa only [State.setEngine_pp, State.setEngine_capacity, hpp, hcap] using h.caps
    · intro _; exact ⟨rfl, rfl, rfl, rfl, rfl⟩
    · intro p st hp; simp at hp
    · intro hb; simp at hb
    · intro ha
      have ha' : s.aside = true := by
        rw [State.aside_eq] at ha ⊢
        simp only [State.setEngine_engine, State.setEngine_line, (hc _).2, he, hline] at ha
        exact ha
      refine ⟨?_, rfl⟩
      show (u.engine.count o).run = false
      rw [(hc _).1, he]
      exact (h.aside ha').1
  dsimp only
  split
  · exact key _ rfl rfl rfl rfl
  · exact key _ rfl rfl rfl rfl

/-- A change of the engine that leaves alone what the outputs depend on keeps them sound, in a state that runs a
procedure or stays as it is. -/
theorem State.PlantSound.ofState {s t : State} (h : s.PlantSound) (hl : t.loader = s.loader)
    (hcap : t.capacity = s.capacity) (haside : t.aside = s.aside) (hrun : t.engine.run = s.engine.run)
    (hsp : t.engine.speedHold = s.engine.speedHold) (hbl : t.engine.blowerHold = s.engine.blowerHold)
    (hrn : t.engine.running = s.engine.running) (hst : t.engine.step = s.engine.step)
    (hstate : t.engine.state = .idle ↔ s.engine.state = .idle) : t.PlantSound := by
  have hpp := State.pp_of_loader hl
  have hrd := State.plantReady_of_loader hl
  have hem : t.engine.inEmergency = s.engine.inEmergency := by unfold Engine.inEmergency; rw [hrn]
  have hrest : s.engine.Resting → t.engine.Resting := fun ⟨z, a, b, c, d⟩ =>
    ⟨hstate.2 z, hrn ▸ a, hst ▸ b, hsp ▸ c, hbl ▸ d⟩
  refine { loader := hl ▸ h.loader, held := ?_, off := ?_, on := ?_, follows := ?_, air := ?_
           caps := ?_, idle := ?_, between := ?_, chain := ?_, blower := ?_, aside := ?_ }
  · intro hr
    obtain ⟨a, b, c⟩ := h.held (hrd ▸ hr)
    exact ⟨hcap ▸ a, hrest b, hrun ▸ c⟩
  · rw [hrun, hcap]; exact h.off
  · rw [hrun, hcap, hpp]; exact h.on
  · rw [hrun, hcap, hsp]; exact h.follows
  · rw [hrun, hcap, hrn]; exact h.air
  · rw [hcap, hpp]; exact h.caps
  · rw [hrn]; exact fun x => hrest (h.idle x)
  · rw [hrn]; exact fun x => h.between (hstate.1 x)
  · rw [hrn, hst]; exact h.chain
  · rw [hbl, hrn, hem, hrun]; exact h.blower
  · rw [haside, hrun, hrn]; exact h.aside

/-- A change of the engine that leaves alone what the outputs depend on keeps them sound. -/
theorem State.PlantSound.of {s t : State} (h : s.PlantSound) (hl : t.loader = s.loader)
    (hcap : t.capacity = s.capacity) (haside : t.aside = s.aside) (hrun : t.engine.run = s.engine.run)
    (hsp : t.engine.speedHold = s.engine.speedHold) (hbl : t.engine.blowerHold = s.engine.blowerHold)
    (hrn : t.engine.running = s.engine.running) (hst : t.engine.step = s.engine.step)
    (hstate : t.engine.state = s.engine.state) : t.PlantSound :=
  h.ofState hl hcap haside hrun hsp hbl hrn hst (by rw [hstate])

/-- A procedure that runs keeps the engine out of IDLE. -/
theorem State.PlantSound.not_idle {s : State} (h : s.PlantSound) {p : Proc}
    (hrn : s.engine.running = some p) : s.engine.state ≠ .idle := fun hc => by
  have := h.between hc
  rw [hrn] at this
  simp at this

/-- A procedure with a current step is the one whose chain holds the step. -/
theorem State.PlantSound.running_of_step {s : State} (h : s.PlantSound) {st : StepId}
    (hst : s.engine.step = some st) : s.aside = false ∧ ∃ p, s.engine.running = some p ∧ st ∈ p.chain := by
  cases hrn : s.engine.running with
  | none => have := (h.idle hrn).step; rw [hst] at this; simp at this
  | some p =>
    refine ⟨?_, p, rfl, h.chain p st hrn hst⟩
    cases ha : s.aside
    · rfl
    · have := (h.aside ha).2; rw [hrn] at this; simp at this

/-- A step's action, followed by the outputs, keeps them sound (R139, R140). -/
theorem State.PlantSound.acted {s : State} (h : s.PlantSound) (hr : s.plantReady = true) {st : StepId}
    (hst : s.engine.step = some st) :
    ((s.act st).driveOutputs).PlantSound ∧ ((s.act st).driveOutputs).engine.step = some st := by
  obtain ⟨hna, p, hrn, hmem⟩ := h.running_of_step hst
  have hd := h.drivable hr
  have hf := State.act_plant st s
  obtain ⟨hcap, hline, valve, r, n, hold, he⟩ := State.act_effect st s
  have hpp := State.pp_of_loader hf.loader
  have hin := State.pp_inRange h.loader
  refine ⟨State.Drivable.driveOutputs ?_, ?_⟩
  swap
  · show (s.act st).engine.step = some st
    rw [he]; exact hst
  have hna' : (s.act st).aside = false := by
    rw [State.aside_eq, he, hline]; exact hna
  refine { loader := hf.loader ▸ h.loader, ready := (State.plantReady_of_loader hf.loader).trans hr
           value := ?_, caps := ?_, idle := ?_, between := ?_, chain := ?_, blower := ?_
           aside := fun ha => by rw [hna'] at ha; simp at ha }
  · have hv := hd.value
    have c1 := hin.cmin
    rw [hpp, hcap, he]
    clear he hcap hline
    cases st
    case d4 =>
      intro _ v hv'
      simp only [Option.getD_some] at hv'
      subst hv'
      omega
    case s3 => intro _ v hv'; simp only [Option.getD_some] at hv'; omega
    case s4 => intro _ v hv'; simp only [Option.getD_some] at hv'; omega
    case d9 => intro _ v hv'; simp only [Option.getD_some] at hv'; omega
    case t1 => intro hc; simp at hc
    case x1 => intro hc; simp at hc
    case d1 => intro hc; simp at hc
    case d6 => intro hc; simp at hc
    case e1 => intro hc; simp at hc
    all_goals exact hv
  · rw [hpp, hcap]; exact h.caps
  · intro hc
    rw [he] at hc
    have : s.engine.running = none := hc
    rw [hrn] at this; simp at this
  · rw [he]; exact h.between
  · rw [he]; exact h.chain
  · have hb := h.blower
    have hem : (s.act st).engine.inEmergency = s.engine.inEmergency := by
      unfold Engine.inEmergency; rw [he]
    have hfan := hin.fanAirflow
    rw [hem, he]
    clear he hcap hline hem
    unfold Engine.inEmergency at *
    rw [hrn] at hb ⊢
    cases p <;> simp only [Proc.chain, List.mem_cons, List.not_mem_nil, or_false] at hmem <;>
      (rcases hmem with rfl | rfl | rfl | rfl | rfl | rfl | rfl | rfl | rfl | rfl) <;>
      simp_all <;> omega

theorem Todo.Fits.of_rest {t : Todo} {s : State} (h : t = .apply ∨ (∃ b, t = .boundary b) ∨ t = .rest) :
    t.Fits s := by
  rcases h with rfl | ⟨_, rfl⟩ | rfl <;> trivial

/-- A step taken keeps the outputs sound (R140, R148, R150). -/
theorem State.PlantSound.takeStep {s : State} (h : s.PlantSound) (hr : s.plantReady = true) {st : StepId}
    (hfit : (Todo.take st).Fits s) :
    (s.takeStep st).2.PlantSound ∧ (s.takeStep st).1.Fits (s.takeStep st).2 := by
  obtain ⟨hna, p, hrn, hmem⟩ := hfit
  have k (u : State) (hl : u.loader = s.loader) (hcap : u.capacity = s.capacity) (ha : u.aside = s.aside)
      (h1 : u.engine.run = s.engine.run) (h2 : u.engine.speedHold = s.engine.speedHold)
      (h3 : u.engine.blowerHold = s.engine.blowerHold) (h4 : u.engine.running = s.engine.running)
      (h5 : u.engine.step = some st) (h6 : u.engine.state ≠ .idle) : u.PlantSound := by
    have h0 : ({ s with engine := { s.engine with step := some st } } : State).PlantSound :=
      { h with
        held := fun hc => by
          have hc' : s.plantReady = false := hc
          rw [hr] at hc'; simp at hc'
        idle := fun hc => by
          have hc' : s.engine.running = none := hc
          rw [hrn] at hc'; simp at hc'
        chain := fun q x hq hx => by
          have hq' : s.engine.running = some q := hq
          rw [hrn] at hq'
          obtain rfl := Option.some.inj hq'
          have hx' : st = x := by simpa using hx
          exact hx' ▸ hmem }
    exact h0.ofState hl hcap ha h1 h2 h3 h4 h5
      ⟨fun hc => absurd hc h6, fun hc => absurd hc (h.not_idle hrn)⟩
  have ends (u : State) (hu : u.PlantSound) (hl : u.loader = s.loader) (ha : u.aside = s.aside)
      (o : ProcOutcome) : (u.endProc o).PlantSound ∧ Todo.startNext.Fits (u.endProc o) := by
    have := hu.endProc ((State.plantReady_of_loader hl).trans hr) o
    exact ⟨this.1, this.2.2.trans (ha.trans hna), this.2.1⟩
  have hc : (s.current st).PlantSound := k (s.current st) rfl rfl rfl rfl rfl rfl rfl rfl (by simp [State.current])
  unfold State.takeStep
  dsimp only
  split
  · exact ends _ hc rfl rfl _
  · split
    · split
      · refine ends _ ?_ ?_ ?_ _
        · apply k <;> first | rfl | simp
        · rfl
        · rfl
      · split
        · exact ⟨by apply k <;> first | rfl | simp [State.answer], trivial⟩
        · exact ⟨by apply k <;> first | rfl | simp, trivial⟩
    · split <;> exact ⟨hc, trivial⟩

/-- An applied action keeps the outputs sound (R140). -/
theorem State.PlantSound.applyStep {s : State} (h : s.PlantSound) (hr : s.plantReady = true) :
    s.applyStep.2.PlantSound ∧ s.applyStep.1.Fits s.applyStep.2 := by
  unfold State.applyStep
  split
  · exact ⟨h, trivial⟩
  · rename_i st hst
    have h1 : (s.setEngine { s.engine with state := .running, delaying := false, stepTime := 0 }).PlantSound :=
      h.ofState rfl rfl rfl rfl rfl rfl rfl rfl ⟨fun hc => by simp at hc, fun hc => by
        obtain ⟨_, _, hp, _⟩ := h.running_of_step hst
        exact absurd hc (h.not_idle hp)⟩
    obtain ⟨h2, h3⟩ := h1.acted hr (st := st) hst
    dsimp only
    generalize ((s.setEngine
      { s.engine with state := .running, delaying := false, stepTime := 0 }).act st).driveOutputs = u at *
    have h4 : (u.mark st).PlantSound := by
      unfold State.mark
      split
      · exact h2.of rfl rfl rfl rfl rfl rfl rfl rfl rfl
      · exact h2
    split
    · unfold State.askSpacing
      split
      · exact ⟨h4, trivial⟩
      · exact ⟨h4.of rfl rfl rfl rfl rfl rfl rfl rfl rfl, trivial⟩
    · split
      · exact ⟨h4, trivial⟩
      · exact ⟨h4, trivial⟩

/-- The chain goes on to a step's next link (R142 to R147). -/
theorem Proc.chain_next {p : Proc} {st n : StepId} (h : st ∈ p.chain) (hn : st.next = some n) :
    n ∈ p.chain := by
  cases p <;> cases st <;> simp_all [Proc.chain, StepId.next]

/-- A boundary keeps the outputs sound (R141). -/
theorem State.PlantSound.boundary {s : State} (h : s.PlantSound) (hr : s.plantReady = true) (b : Bool) :
    (s.boundary b).2.PlantSound ∧ (s.boundary b).1.Fits (s.boundary b).2 := by
  unfold State.boundary
  split
  · exact ⟨h, trivial⟩
  · rename_i st hst
    obtain ⟨hna, p, hrn, hmem⟩ := h.running_of_step hst
    have hw : (s.writeBoundary st b).PlantSound ∧ (s.writeBoundary st b).engine.running = s.engine.running ∧
        (s.writeBoundary st b).aside = s.aside := by
      unfold State.writeBoundary
      dsimp only
      split
      · exact ⟨h.of rfl rfl rfl rfl rfl rfl rfl rfl rfl, rfl, rfl⟩
      · exact ⟨h.of rfl rfl rfl rfl rfl rfl rfl rfl rfl, rfl, rfl⟩
    have hwr : (s.writeBoundary st b).plantReady = true :=
      (State.plantReady_of_loader (State.writeBoundary_plant st b s).loader).trans hr
    obtain ⟨hw1, hw2, hw3⟩ := hw
    dsimp only
    generalize s.writeBoundary st b = u at *
    have ends (o : ProcOutcome) : (u.endProc o).PlantSound ∧ Todo.startNext.Fits (u.endProc o) := by
      have := hw1.endProc hwr o
      exact ⟨this.1, this.2.2.trans (hw3.trans hna), this.2.1⟩
    split
    · exact ends _
    · rename_i n hn
      split
      · exact ends _
      · exact ⟨hw1, hw3.trans hna, p, hw2.trans hrn, Proc.chain_next hmem hn⟩

theorem Proc.first_mem (p : Proc) : p.first ∈ p.chain := by cases p <;> simp [Proc.first, Proc.chain]

/-- A procedure that starts keeps the outputs sound: nothing of a step is in force before it (R138). -/
theorem State.PlantSound.startProc {s : State} (h : s.PlantSound) (hr : s.plantReady = true)
    (hna : s.aside = false) (hrn : s.engine.running = none) (p : Proc) : (s.startProc p).PlantSound := by
  obtain ⟨_, _, r2, r3, r4⟩ := h.idle hrn
  have hair := h.air
  refine { h with
    held := fun hc => ?_, air := fun hc => ?_, idle := fun hc => ?_, between := fun hc => by simp [State.startProc] at hc
    chain := fun q x hq hx => ?_, blower := fun hc => ?_, aside := fun hc => ?_ }
  · have hc' : s.plantReady = false := hc
    rw [hr] at hc'; simp at hc'
  · rcases hair hc with hd | hb
    · rw [hrn] at hd; simp at hd
    · exact Or.inr hb
  · simp [State.startProc] at hc
  · have hx' : s.engine.step = some x := hx
    rw [r2] at hx'; simp at hx'
  · have hc' : s.engine.blowerHold = some 0 := hc
    rw [r4] at hc'; simp at hc'
  · have hc' : s.aside = true := hc
    rw [hna] at hc'; simp at hc'

/-- A start from the pending set keeps the outputs sound (R138). -/
theorem State.PlantSound.startNext {s : State} (h : s.PlantSound) (hr : s.plantReady = true)
    (hfit : Todo.startNext.Fits s) : s.startNext.2.PlantSound ∧ s.startNext.1.Fits s.startNext.2 := by
  obtain ⟨hna, hrn⟩ := hfit
  unfold State.startNext
  split
  · exact ⟨h, trivial⟩
  · rename_i p _
    have h1 : (s.setEngine { s.engine with requests := s.engine.requests.without p }).PlantSound :=
      h.of rfl rfl rfl rfl rfl rfl rfl rfl rfl
    dsimp only
    split
    · exact ⟨h1.startProc hr hna hrn p, hna, p, rfl, Proc.first_mem p⟩
    · exact ⟨h1, hna, hrn⟩

/-- Every move of the engine keeps the outputs sound. -/
theorem State.PlantSound.move {s : State} (h : s.PlantSound) (hr : s.plantReady = true) {t : Todo}
    (hf : t.Fits s) : (s.move t).2.PlantSound ∧ (s.move t).1.Fits (s.move t).2 := by
  cases t with
  | take st => exact h.takeStep hr hf
  | apply => exact h.applyStep hr
  | boundary b => exact h.boundary hr b
  | startNext => exact h.startNext hr hf
  | rest => exact ⟨h, trivial⟩

/-- The engine carries a move through to rest with the outputs sound. -/
theorem State.PlantSound.run {s : State} (h : s.PlantSound) (hr : s.plantReady = true) {t : Todo}
    (hf : t.Fits s) : (s.run t).PlantSound := by
  obtain ⟨_, hu, _, _⟩ := State.drive_keeps
    (P := fun t u => u.PlantSound ∧ u.plantReady = true ∧ t.Fits u)
    (fun t u ⟨a, b, c⟩ => ⟨(a.move b c).1,
      (State.plantReady_of_loader (State.move_plant t u).loader).trans b, (a.move b c).2⟩)
    64 t s ⟨h, hr, hf⟩
  exact hu

/-! ## Requests -/

theorem State.PlantSound.preempt {s : State} (h : s.PlantSound) (hr : s.plantReady = true)
    (hna : s.aside = false) : s.preempt.PlantSound := by
  have := h.endProc hr .preempted
  exact this.1.run ((State.plantReady_of_loader (State.endProc_plant _ s).loader).trans hr)
    ⟨this.2.2.trans hna, this.2.1⟩

theorem State.PlantSound.entered {s : State} (h : s.PlantSound) (hr : s.plantReady = true)
    (hna : s.aside = false) (p : Proc) :
    (s.entered p).PlantSound := by
  unfold State.entered
  split
  next hs => exact h.run hr ⟨hna, h.between hs⟩
  next => split
          · exact h.preempt hr hna
          · exact h
  next => exact h
  next => exact h

end Sys2Proof.Machine
end

