-- ==== Sys2Proof/Laws/Requests.lean ====
section
/-! SUPPORT. The outputs stay sound through requests, the hand-off of C, standing aside and the stages of a
capacity period (R114 to R150, R35). -/

namespace Sys2Proof.Machine

/-! ## Requests (R134 to R150) -/

theorem State.PlantSound.startEmergency {s : State} (h : s.PlantSound) (hr : s.plantReady = true)
    (hna : s.aside = false) (c : EmergencyCause) : (s.startEmergency c).PlantSound := by
  have key (u : State) (hu : u.PlantSound) (hur : u.plantReady = true) (hua : u.aside = false)
      (hrn : u.engine.running = none) : ((u.startProc (.emergency c)).run (.take .e1)).PlantSound :=
    (hu.startProc hur hua hrn _).run hur ⟨hua, .emergency c, rfl, by simp [Proc.chain]⟩
  unfold State.startEmergency
  dsimp only
  split
  · have he := h.endProc hr .aborted
    exact key _ he.1 ((State.endProc_plant _ s).plantReady.trans hr) (he.2.2.trans hna) he.2.1
  · rename_i hs
    exact key s h hr hna (by simpa using hs)

/-- The running procedure keeps its chain and its place among those that may hold the blower off. -/
theorem State.PlantSound.rename {s t : State} (h : s.PlantSound) {p q : Proc} (hrn : s.engine.running = some p)
    (hl : t.loader = s.loader) (hcap : t.capacity = s.capacity) (haside : t.aside = s.aside)
    (hrun : t.engine.run = s.engine.run) (hsp : t.engine.speedHold = s.engine.speedHold)
    (hbl : t.engine.blowerHold = s.engine.blowerHold) (hst : t.engine.step = s.engine.step)
    (hstate : t.engine.state = s.engine.state) (hq : t.engine.running = some q) (hchain : q.chain = p.chain)
    (hd : p ≠ .defrost) (hem : t.engine.inEmergency = s.engine.inEmergency) : t.PlantSound := by
  have hpp := State.pp_of_loader hl
  have hrd := State.plantReady_of_loader hl
  have hnd : ¬ s.engine.running = some .defrost := by
    rw [hrn]; exact fun hc => hd (Option.some.inj hc)
  have hni := h.not_idle hrn
  refine { loader := hl ▸ h.loader, held := ?_, off := ?_, on := ?_, follows := ?_, air := ?_
           caps := ?_, idle := ?_, between := ?_, chain := ?_, blower := ?_, aside := ?_ }
  · intro hr
    obtain ⟨_, b, _⟩ := h.held (hrd ▸ hr)
    exact absurd b.running (by rw [hrn]; simp)
  · rw [hrun, hcap]; exact h.off
  · rw [hrun, hcap, hpp]; exact h.on
  · rw [hrun, hcap, hsp]; exact h.follows
  · rw [hrun, hcap]; exact fun hc => Or.inr ((h.air hc).resolve_left hnd)
  · rw [hcap, hpp]; exact h.caps
  · rw [hq]; exact fun hc => by simp at hc
  · rw [hstate]; exact fun hc => absurd hc hni
  · rw [hq, hst]
    intro p' st hp' hst'
    obtain rfl := Option.some.inj hp'
    rw [hchain]; exact h.chain p st hrn hst'
  · rw [hbl, hem, hrun]; exact fun hc => Or.inr ((h.blower hc).resolve_left hnd)
  · rw [haside]
    intro hc
    have := (h.aside hc).2
    rw [hrn] at this; simp at this

theorem State.PlantSound.mergeEmergency {s : State} (h : s.PlantSound) (hem : s.engine.inEmergency = true)
    (c : EmergencyCause) : (s.mergeEmergency c).PlantSound := by
  unfold State.mergeEmergency
  split
  · have : ∃ c', s.engine.running = some (.emergency c') := by
      unfold Engine.inEmergency at hem
      split at hem <;> first | exact ⟨_, by assumption⟩ | simp at hem
    obtain ⟨c', hrn⟩ := this
    refine h.rename hrn rfl rfl rfl rfl rfl rfl rfl rfl rfl rfl (by simp) ?_
    rw [hem]; rfl
  · exact h

theorem State.PlantSound.mergeStop {s : State} (h : s.PlantSound) (hr : s.plantReady = true) (r : StopReason) :
    (s.mergeStop r).PlantSound := by
  unfold State.mergeStop
  split
  · rename_i hc
    simp only [Bool.and_eq_true, decide_eq_true_eq] at hc
    refine State.PlantSound.run (t := .apply) ?_ ?_ trivial
    swap
    · exact hr
    refine h.rename hc.1.1.1 rfl rfl rfl rfl rfl rfl rfl rfl rfl rfl (by simp) ?_
    unfold Engine.inEmergency; rw [hc.1.1.1]; rfl
  · exact h

theorem State.PlantSound.setRequests {s : State} (h : s.PlantSound) (r : Requests) :
    (s.setRequests r).PlantSound :=
  h.of rfl rfl rfl rfl rfl rfl rfl rfl rfl

theorem State.PlantSound.takeStop {s : State} (h : s.PlantSound) (hr : s.plantReady = true)
    (hna : s.aside = false) (r : StopReason) : (s.takeStop r).PlantSound := by
  unfold State.takeStop
  dsimp only
  split
  · exact h.mergeStop hr r
  · split
    · exact h.setRequests _
    · refine State.PlantSound.entered ?_ ?_ ?_ _
      exacts [h.setRequests _, hr, hna]

theorem State.PlantSound.takeDefrost {s : State} (h : s.PlantSound) (hr : s.plantReady = true)
    (hna : s.aside = false) : s.takeDefrost.PlantSound := by
  unfold State.takeDefrost
  dsimp only
  split
  · exact h
  · refine State.PlantSound.entered ?_ ?_ ?_ _
    exacts [h.setRequests _, hr, hna]

theorem State.PlantSound.takeChangeover {s : State} (h : s.PlantSound) (hr : s.plantReady = true)
    (hna : s.aside = false) : s.takeChangeover.PlantSound := by
  unfold State.takeChangeover
  dsimp only
  split
  · exact h
  · refine State.PlantSound.entered ?_ ?_ ?_ _
    exacts [h.setRequests _, hr, hna]

theorem State.PlantSound.takeStart {s : State} (h : s.PlantSound) (hr : s.plantReady = true)
    (hna : s.aside = false) : s.takeStart.PlantSound := by
  unfold State.takeStart
  dsimp only
  split
  · exact h.of rfl rfl rfl rfl rfl rfl rfl rfl rfl
  · split
    · exact h
    · refine State.PlantSound.entered ?_ ?_ ?_ _
      exacts [h.setRequests _, hr, hna]

/-- A request keeps the outputs sound (R134 to R149). -/
theorem State.PlantSound.request {s : State} (h : s.PlantSound) (hr : s.plantReady = true) (p : Proc) :
    (s.request p).PlantSound := by
  unfold State.request
  split
  · rename_i hc
    have hna : s.aside = false := by
      simp only [Bool.and_eq_true, Bool.not_eq_true'] at hc; exact hc.2
    cases p with
    | emergency c =>
      dsimp only
      split
      · exact h.mergeEmergency ‹_› c
      · exact h.startEmergency hr hna c
    | stop r => exact h.takeStop hr hna r
    | defrost => exact h.takeDefrost hr hna
    | changeover => exact h.takeChangeover hr hna
    | start => exact h.takeStart hr hna
  · exact h

theorem State.PlantSound.handOffC {s : State} (h : s.PlantSound) (hr : s.plantReady = true)
    (hna : s.aside = false) : s.handOffC.PlantSound := by
  unfold State.handOffC
  split
  · have := h.endProc hr .withdrawn
    exact this.1.run ((State.endProc_plant _ s).plantReady.trans hr) ⟨this.2.2.trans hna, this.2.1⟩
  · exact h

/-! ## Standing aside (R35, R153) -/

/-- The outputs are drivable when the compressor is off and nothing of a step is in force. -/
theorem State.Drivable.atRest {s : State} (hl : s.loader.Sound) (hr : s.plantReady = true)
    (hcaps : s.pp.cmin ≤ s.capacity.freezeCap ∧ s.capacity.freezeCap ≤ 1000 ∧
      s.pp.cmin ≤ s.capacity.supplyCap ∧ s.capacity.supplyCap ≤ 1000)
    (hrun : s.engine.run = false) (he : s.engine.Resting) : s.Drivable where
  loader := hl
  ready := hr
  value := fun hc => by rw [hrun] at hc; simp at hc
  caps := hcaps
  idle := fun _ => he
  between := fun _ => he.running
  chain := fun p st hp => by rw [he.running] at hp; simp at hp
  blower := fun hc => by rw [he.blowerHold] at hc; simp at hc
  aside := fun _ => ⟨hrun, he.running⟩

/-- The plant drops everything and its outputs stay sound, with the station standing aside or not (R35). -/
theorem State.PlantSound.dropPlant {s t : State} (h : s.PlantSound) (hr : s.plantReady = true)
    (hl : t.loader = s.loader) (hcap : t.capacity = s.capacity) (hrn : t.engine.running = s.engine.running)
    (hrest : s.engine.Resting → t.engine.Resting) : t.dropPlant.PlantSound := by
  have hrt : t.plantReady = true := (State.plantReady_of_loader hl).trans hr
  have hpp := State.pp_of_loader hl
  have h1 : PlantFrame t ((t.runOff.driveValve (deEnergised t.loader.straps.energised)).closeRun .standby) :=
    ((t.runOff_plant).trans (State.driveValve_plant _ _)).trans (State.closeRun_plant _ _)
  have h2 : ((t.runOff.driveValve (deEnergised t.loader.straps.energised)).closeRun .standby).capacity =
      t.capacity := by simp
  obtain ⟨r, n, h3⟩ := State.closeRun_engine .standby
    (t.runOff.driveValve (deEnergised t.loader.straps.energised))
  rw [State.driveValve_engine, State.runOff_engine] at h3
  unfold State.dropPlant
  generalize (t.runOff.driveValve (deEnergised t.loader.straps.energised)).closeRun .standby = u at *
  dsimp only
  have hu : u.loader = s.loader := h1.loader.trans hl
  have hcaps : u.pp.cmin ≤ u.capacity.freezeCap ∧ u.capacity.freezeCap ≤ 1000 ∧
      u.pp.cmin ≤ u.capacity.supplyCap ∧ u.capacity.supplyCap ≤ 1000 := by
    rw [State.pp_of_loader hu, h2, hcap]; exact h.caps
  have hur : u.plantReady = true := h1.plantReady.trans hrt
  have fin (v : State) (hv1 : v.loader = u.loader) (hv2 : v.capacity.freezeCap = u.capacity.freezeCap)
      (hv3 : v.capacity.supplyCap = u.capacity.supplyCap) (hv4 : v.engine.run = false)
      (hv5 : v.engine.Resting) : (v.withdrawRequest.setRequests .empty).driveOutputs.PlantSound := by
    refine State.Drivable.driveOutputs (State.Drivable.atRest ?_ ?_ ?_ hv4 ?_)
    · show v.loader.Sound; rw [hv1, hu]; exact h.loader
    · exact (State.plantReady_of_loader hv1).trans hur
    · show v.pp.cmin ≤ v.capacity.freezeCap ∧ v.capacity.freezeCap ≤ 1000 ∧
        v.pp.cmin ≤ v.capacity.supplyCap ∧ v.capacity.supplyCap ≤ 1000
      rw [State.pp_of_loader hv1, hv2, hv3]; exact hcaps
    · exact ⟨hv5.state, hv5.running, hv5.step, hv5.speedHold, hv5.blowerHold⟩
  split
  · refine fin _ (State.endProc_plant _ u).loader ?_ ?_ ?_ ?_
    · unfold State.endProc; dsimp only; split <;> rfl
    · unfold State.endProc; dsimp only; split <;> rfl
    · have : u.engine.run = false := by rw [h3]
      have hc : (u.engine.count .aborted).run = u.engine.run := rfl
      unfold State.endProc; dsimp only
      split <;> exact this
    · unfold State.endProc; dsimp only
      split <;> exact ⟨rfl, rfl, rfl, rfl, rfl⟩
  · rename_i hs
    have hn : s.engine.running = none := by
      have : u.engine.running = none := by simpa using hs
      rw [h3] at this
      exact hrn ▸ this
    obtain ⟨z, a, b, c, d⟩ := hrest (h.idle hn)
    refine fin u rfl rfl rfl (by rw [h3]) ?_
    rw [h3]
    exact ⟨z, a, b, c, d⟩

theorem State.PlantSound.enterStandby {s : State} (h : s.PlantSound) (hr : s.plantReady = true) :
    s.enterStandby.PlantSound := by
  unfold State.enterStandby
  split
  · exact h
  · exact h.dropPlant hr rfl rfl rfl (fun ⟨z, a, b, c, d⟩ => ⟨z, a, b, c, d⟩)

/-! ## A capacity period (R114 to R123) -/

/-- A change of the controller that leaves alone the outputs and the caps keeps them sound. -/
theorem State.PlantSound.ofCapacity {s : State} (h : s.PlantSound) (hr : s.plantReady = true) (c : Capacity)
    (h1 : c.speedCommand = s.capacity.speedCommand) (h2 : c.speedFollows = s.capacity.speedFollows)
    (h3 : c.loopSpeed = s.capacity.loopSpeed) (h4 : c.blowerCommand = s.capacity.blowerCommand)
    (h5 : s.pp.cmin ≤ c.freezeCap ∧ c.freezeCap ≤ 1000 ∧ s.pp.cmin ≤ c.supplyCap ∧ c.supplyCap ≤ 1000) :
    (s.setCapacity c).PlantSound where
  loader := h.loader
  held := fun hc => by
    have hc' : s.plantReady = false := hc
    rw [hr] at hc'; simp at hc'
  off := by
    show _ → c.speedCommand = 0 ∧ c.speedFollows = false
    rw [h1, h2]; exact h.off
  on := by
    show _ → s.pp.cmin ≤ c.speedCommand ∧ c.speedCommand ≤ 1000
    rw [h1]; exact h.on
  follows := by
    show _ → match s.engine.speedHold with
      | none => c.speedFollows = true ∧ c.loopSpeed = c.speedCommand
      | some v => c.speedFollows = false ∧ c.speedCommand = v
    rw [h1, h2, h3]; exact h.follows
  air := by
    show _ → _ ∨ 1 ≤ c.blowerCommand
    rw [h4]; exact h.air
  caps := h5
  idle := h.idle
  between := h.between
  chain := h.chain
  blower := h.blower
  aside := h.aside

theorem State.PlantSound.formC {s : State} (h : s.PlantSound) (hr : s.plantReady = true)
    (hna : s.aside = false) : s.formC.PlantSound := by
  unfold State.formC
  refine State.PlantSound.handOffC ?_ ?_ ?_
  exacts [h.ofCapacity hr _ rfl rfl rfl rfl h.caps, hr, hna]

theorem State.PlantSound.adjustCaps {s : State} (h : s.PlantSound) (hr : s.plantReady = true) :
    s.adjustCaps.PlantSound := by
  have hc := h.caps
  have hp := (State.pp_inRange h.loader).cmin
  unfold State.adjustCaps
  refine h.ofCapacity hr _ rfl rfl rfl rfl ?_
  have hf : s.pp.cmin ≤ s.nextFreezeCap ∧ s.nextFreezeCap ≤ 1000 := by
    unfold State.nextFreezeCap; dsimp only
    (repeat' split) <;> omega
  have hs : s.pp.cmin ≤ s.nextSupplyCap ∧ s.nextSupplyCap ≤ 1000 := by
    unfold State.nextSupplyCap; dsimp only
    (repeat' split) <;> omega
  exact ⟨hf.1, hf.2, hs.1, hs.2⟩

theorem State.PlantSound.formRunning {s : State} (h : s.PlantSound) (hr : s.plantReady = true) :
    s.formRunning.PlantSound := by
  unfold State.formRunning
  exact h.ofCapacity hr _ rfl rfl rfl rfl h.caps

theorem State.PlantSound.formCounts {s : State} (h : s.PlantSound) (hr : s.plantReady = true) :
    s.formCounts.PlantSound := by
  unfold State.formCounts
  exact h.ofCapacity hr _ rfl rfl rfl rfl h.caps

theorem State.PlantSound.raiseStart {s : State} (h : s.PlantSound) (hr : s.plantReady = true) :
    s.raiseStart.PlantSound := by
  unfold State.raiseStart
  split
  · exact h.request hr _
  · exact h

theorem State.PlantSound.raiseStop {s : State} (h : s.PlantSound) (hr : s.plantReady = true) :
    s.raiseStop.PlantSound := by
  unfold State.raiseStop
  split
  · exact h.request hr _
  · exact h

theorem State.PlantSound.prompt {s : State} (h : s.PlantSound) : s.prompt.PlantSound :=
  h.of rfl rfl rfl rfl rfl rfl rfl rfl rfl

theorem State.PlantSound.formAirflow {s : State} (h : s.PlantSound) (hr : s.plantReady = true) :
    s.formAirflow.PlantSound := by
  unfold State.formAirflow
  dsimp only
  have := h.ofCapacity hr
    { s.capacity with
      airflow := s.requiredAirflow, f := published s.requiredAirflow s.totalWeight s.capacity.fmax
      effective := carried s.requiredAirflow s.totalWeight s.capacity.fmax
      airflowLimited := limitsAirflow s.requiredAirflow s.totalWeight s.capacity.fmax }
    rfl rfl rfl rfl h.caps
  split
  · exact this.prompt
  · exact this

theorem State.PlantSound.formBlower {s : State} (h : s.PlantSound) (hr : s.plantReady = true) :
    s.formBlower.PlantSound := by
  unfold State.formBlower
  have hd := h.drivable hr
  exact State.Drivable.driveOutputs
    { loader := h.loader, ready := hr, value := hd.value, caps := h.caps, idle := h.idle
      between := h.between, chain := h.chain, blower := h.blower, aside := h.aside }

/-- The cap in force leaves room for a speed target within Cmin to 1000 (R117). -/
theorem State.speedTarget_bounds {s : State} (h : s.loader.Sound) :
    s.pp.cmin ≤ s.speedTarget ∧ s.speedTarget ≤ 1000 := by
  have hp := (State.pp_inRange h).cmin
  have hcap : s.capInForce ≤ 1000 := by
    unfold State.capInForce; dsimp only
    cases s.modeSel.mode <;> dsimp only <;> omega
  unfold State.speedTarget clampNat
  omega

/-- A ramp step between two values in a range stays in it (R119). -/
theorem rampStep_bounds {lo hi x y rate : Nat} (hx : lo ≤ x ∧ x ≤ hi) (hy : lo ≤ y ∧ y ≤ hi) :
    lo ≤ rampStep x y rate ∧ rampStep x y rate ≤ hi := by
  unfold rampStep
  split <;> omega

theorem State.PlantSound.formSpeed {s : State} (h : s.PlantSound) (hr : s.plantReady = true) :
    s.formSpeed.PlantSound := by
  unfold State.formSpeed
  split
  · rename_i hf
    have hrun : s.engine.run = true := by
      cases hc : s.engine.run
      · have := (h.off hc).2; rw [hf] at this; simp at this
      · rfl
    have hsp : s.engine.speedHold = none := by
      have := h.follows hrun
      cases hs : s.engine.speedHold with
      | none => rfl
      | some v => rw [hs] at this; rw [hf] at this; simp at this
    have hon := h.on hrun
    have hfo := h.follows hrun
    rw [hsp] at hfo
    have hb := rampStep_bounds (rate := s.upwardRate) (hfo.2 ▸ hon) (State.speedTarget_bounds h.loader)
    exact { h with
            held := fun hc => by
              have hc' : s.plantReady = false := hc
              rw [hr] at hc'; simp at hc'
            off := fun hc => by
              have hc' : s.engine.run = false := hc
              rw [hrun] at hc'; simp at hc'
            on := fun _ => hb
            follows := fun _ => by
              show match s.engine.speedHold with
                | none => s.capacity.speedFollows = true ∧ _ = _
                | some v => _
              rw [hsp]; exact ⟨hf, rfl⟩ }
  · rename_i hf
    exact { h with
            held := fun hc => by
              have hc' : s.plantReady = false := hc
              rw [hr] at hc'; simp at hc'
            follows := fun hc => by
              have hc' : s.engine.run = true := hc
              have := h.follows hc'
              show match s.engine.speedHold with
                | none => s.capacity.speedFollows = true ∧ _ = _
                | some v => s.capacity.speedFollows = false ∧ s.capacity.speedCommand = v
              cases hs : s.engine.speedHold with
              | none => rw [hs] at this; exact absurd this.1 hf
              | some v => rw [hs] at this; exact this }

/-! ## The stages' frames -/

theorem State.setCapacity_plant (s : State) (c : Capacity) : PlantFrame s (s.setCapacity c) := by
  constructor <;> rfl

theorem State.formC_plant (s : State) : PlantFrame s s.formC :=
  (s.setCapacity_plant _).trans (State.handOffC_plant _)

theorem State.raiseStart_plant (s : State) : PlantFrame s s.raiseStart := by
  unfold State.raiseStart; split
  · exact State.request_plant _ s
  · exact PlantFrame.rfl' s

theorem State.raiseStop_plant (s : State) : PlantFrame s s.raiseStop := by
  unfold State.raiseStop; split
  · exact State.request_plant _ s
  · exact PlantFrame.rfl' s

theorem State.formAirflow_plant (s : State) : PlantFrame s s.formAirflow := by
  unfold State.formAirflow; dsimp only; split <;> constructor <;> rfl

theorem State.formBlower_plant (s : State) : PlantFrame s s.formBlower :=
  (s.setCapacity_plant _).trans (State.driveOutputs_plant _)

theorem State.formSpeed_plant (s : State) : PlantFrame s s.formSpeed := by
  unfold State.formSpeed; split <;> constructor <;> rfl

/-- A capacity period changes nothing outside the plant's blocks (R114). -/
theorem State.capacityPeriod_plant (s : State) : PlantFrame s s.capacityPeriod :=
  (((((((((s.formC_plant).trans (State.setCapacity_plant _ _)).trans (State.setCapacity_plant _ _)).trans
    (State.setCapacity_plant _ _)).trans (State.raiseStart_plant _)).trans (State.raiseStop_plant _)).trans
    (State.formAirflow_plant _)).trans (State.formBlower_plant _)).trans (State.formSpeed_plant _))

/-- A capacity period keeps the outputs sound (R114). -/
theorem State.PlantSound.capacityPeriod {s : State} (h : s.PlantSound) (hr : s.plantReady = true)
    (hna : s.aside = false) : s.capacityPeriod.PlantSound := by
  have f1 := s.formC_plant
  have h1 := h.formC hr hna
  have r1 := f1.plantReady.trans hr
  have h2 := h1.adjustCaps r1
  have h3 := State.PlantSound.formRunning h2 r1
  have h4 := State.PlantSound.formCounts h3 r1
  have h5 := State.PlantSound.raiseStart h4 r1
  have r5 := (State.raiseStart_plant s.formC.adjustCaps.formRunning.formCounts).plantReady.trans r1
  have h6 := h5.raiseStop r5
  have r6 := (State.raiseStop_plant _).plantReady.trans r5
  have h7 := h6.formAirflow r6
  have r7 := (State.formAirflow_plant _).plantReady.trans r6
  have h8 := h7.formBlower r7
  have r8 := (State.formBlower_plant _).plantReady.trans r7
  exact h8.formSpeed r8

end Sys2Proof.Machine
end

