-- ==== Sys2Proof/Laws/Events.lean ====
section
/-! SUPPORT. The outputs stay sound through the operations that stand between the commands and the engine: readiness,
frames taken from the line, the head link, the load, and ageing. -/

namespace Sys2Proof.Machine

theorem State.settle_aside (s : State) : s.settle.aside = s.aside := (State.settle_plant s).aside

/-- Settling readiness keeps the outputs sound (R12). -/
theorem State.PlantSound.settle {s : State} (h : s.PlantSound) : s.settle.PlantSound :=
  h.of rfl rfl (s.settle_aside) rfl rfl rfl rfl rfl rfl

/-- The prompt at the end of a LOCKOUT keeps the outputs sound (R165). -/
theorem State.PlantSound.noteLockoutEnd {s : State} (h : s.PlantSound) (before : Option Nat) :
    (s.noteLockoutEnd before).PlantSound := by
  unfold State.noteLockoutEnd
  split
  · exact h.of rfl rfl rfl rfl rfl rfl rfl rfl rfl
  · exact h

/-- Showing the plant state keeps the outputs sound (R152). -/
theorem State.PlantSound.notePlantState {s : State} (h : s.PlantSound) : s.notePlantState.PlantSound := by
  unfold State.notePlantState
  split
  · exact h.of rfl rfl rfl rfl rfl rfl rfl rfl rfl
  · exact h

theorem State.PlantSound.settlePlant {s : State} (h : s.PlantSound) : s.settlePlant.PlantSound :=
  h.notePlantState.settle

/-- The zone's operations change nothing the plant's outputs depend on. -/
theorem State.PlantSound.ofZone {s t : State} (h : s.PlantSound) (f : ZoneFrame s t)
    (hz : s.plantReady = false ∨ t.line.yielded = s.line.yielded) : t.PlantSound := by
  rcases hz with hz | hz
  · have hr : t.plantReady = false := by
      rw [← hz]; unfold State.plantReady State.ready; rw [f.loader]
    obtain ⟨a, b, c⟩ := h.held hz
    have hcap := f.capacity; have he := f.engine
    have hpp := State.pp_of_loader f.loader
    exact { loader := f.loader ▸ h.loader, held := fun _ => by rw [hcap, he]; exact ⟨a, b, c⟩
            off := by rw [hcap, he]; exact h.off
            on := by rw [hcap, he, hpp]; exact h.on
            follows := by rw [hcap, he]; exact h.follows
            air := by rw [hcap, he]; exact h.air
            caps := by rw [hcap, hpp]; exact h.caps
            idle := by rw [he]; exact h.idle
            between := by rw [he]; exact h.between
            chain := by rw [he]; exact h.chain
            blower := by rw [he]; exact h.blower
            aside := fun _ => by rw [he]; exact ⟨c, b.running⟩ }
  · refine h.of f.loader f.capacity ?_ (by rw [f.engine]) (by rw [f.engine]) (by rw [f.engine])
      (by rw [f.engine]) (by rw [f.engine]) (by rw [f.engine])
    unfold State.aside; rw [f.engine, hz]

/-- A READY station in the plant role is plant-ready (R182). -/
theorem State.plantReady_of_role {s : State} (h : s.ready = true) (hr : s.loader.straps.role = .plant)
    : s.plantReady = true := by
  unfold State.plantReady; simp [h, hr]
theorem State.not_plantReady_of_role {s : State} (hr : s.loader.straps.role = .zone)
    : s.plantReady = false := by
  unfold State.plantReady; simp [hr]
theorem State.not_plantReady_of {s : State} (hr : s.ready = false) : s.plantReady = false := by
  unfold State.plantReady; simp [hr]

/-- Entry to YIELDED keeps the outputs sound (R17, R153). -/
theorem State.PlantSound.enterYielded {s : State} (h : s.PlantSound) (hr : s.ready = true)
    : s.enterYielded.PlantSound ∧ s.enterYielded.loader = s.loader := by
  unfold State.enterYielded
  split
  · exact ⟨h, rfl⟩
  · dsimp only
    split
    next hz =>
      have f : ZoneFrame s ((s.setLine s.line.yield).yieldDemand.recompute) :=
        (ZoneFrame.trans (by constructor <;> rfl) (State.yieldDemand_zone _)).trans (State.recompute_zone _)
      exact ⟨h.ofZone f (Or.inl (State.not_plantReady_of_role hz)), f.loader⟩
    next hp =>
      refine ⟨h.dropPlant (State.plantReady_of_role hr hp) rfl rfl rfl (fun x => x), (State.dropPlant_plant _).loader⟩

/-- A taken report keeps the outputs sound (R24, R34). -/
theorem State.PlantSound.takeReport (a : Nat) (c : Contents) {s : State} (h : s.PlantSound) (hr
    : s.ready = true) :
   (s.takeReport a c).PlantSound ∧ (s.takeReport a c).loader = s.loader := by
  have h1 : (s.setPeers (s.peers.take a c)).PlantSound := h.of rfl rfl rfl rfl rfl rfl rfl rfl rfl
  have hr1 : (s.setPeers (s.peers.take a c)).ready = true := hr
  have hl1 : (s.setPeers (s.peers.take a c)).loader = s.loader := rfl
  unfold State.takeReport
  dsimp only
  generalize s.setPeers (s.peers.take a c) = u at *
  split
  next =>
    have hp : s.loader.straps.role = .plant := by assumption
    unfold State.detectPlant
    split
    · exact ⟨h1, hl1⟩
    · split
      · refine ⟨h1.enterStandby (State.plantReady_of_role hr1 (hl1 ▸ hp)), ?_⟩
        have := (State.enterStandby_plant u).loader
        rw [this]; exact hl1
      · split
        · exact ⟨h1, hl1⟩
        · exact ⟨h1.of rfl rfl rfl rfl rfl rfl rfl rfl rfl, hl1⟩
  next => exact ⟨h1, hl1⟩
  next =>
    have hz : s.loader.straps.role = .zone := by assumption
    have f := State.evaluatePlant_zone (s.peers.followedRecord.map PlantRecord.facts) u
    exact ⟨h1.ofZone f (Or.inl (State.not_plantReady_of_role (hl1 ▸ hz))), f.loader.trans hl1⟩
  next =>
    have hz : s.loader.straps.role = .zone := by assumption
    split
    · have f := State.evaluatePlant_zone (s.peers.followedRecord.map PlantRecord.facts) u
      exact ⟨h1.ofZone f (Or.inl (State.not_plantReady_of_role (hl1 ▸ hz))), f.loader.trans hl1⟩
    · exact ⟨h1, hl1⟩

/-- An octet from the line keeps the outputs sound (R4, R5). -/
theorem State.PlantSound.takeOctet (o : Byte) {s : State} (h : s.PlantSound) (hr : s.ready = true) :
   (s.takeOctet o).PlantSound ∧ (s.takeOctet o).loader = s.loader := by
  have hl (u : State) (hu : u.PlantSound) (x : LineState) (hx : x.yielded = u.line.yielded) : (u.setLine x).PlantSound :=
    hu.of rfl rfl (by unfold State.aside; rw [State.setLine_engine, State.setLine_line, hx]) rfl rfl rfl rfl rfl rfl
  unfold State.takeOctet
  have h1 := hl s h { s.line with rx := (s.line.rx.octet o).1 } rfl
  have hr1 : (s.setLine { s.line with rx := (s.line.rx.octet o).1 }).ready = true := hr
  have hl1 : (s.setLine { s.line with rx := (s.line.rx.octet o).1 }).loader = s.loader := rfl
  generalize s.setLine { s.line with rx := (s.line.rx.octet o).1 } = u at *
  unfold State.frameEvent
  split
  · exact ⟨h1, hl1⟩
  · exact ⟨hl u h1 _ rfl, hl1⟩
  · exact ⟨hl u h1 _ rfl, hl1⟩
  · rename_i hd payload _
    have h2 := hl u h1 { u.line with good := u.line.good + 1 } rfl
    have hr2 : (u.setLine { u.line with good := u.line.good + 1 }).ready = true := hr1
    have hl2 : (u.setLine { u.line with good := u.line.good + 1 }).loader = s.loader := hl1
    generalize u.setLine { u.line with good := u.line.good + 1 } = v at *
    unfold State.acceptFrame
    split
    · exact ⟨h2, hl2⟩
    · split
      · unfold State.compareTag
        dsimp only
        have h3 : v.countConflict.PlantSound := hl v h2 _ rfl
        split
        · have := State.PlantSound.enterYielded h3 hr2
          exact ⟨this.1, this.2.trans hl2⟩
        · exact ⟨h3, hl2⟩
      · have := State.PlantSound.takeReport (headerAddress hd) ‹_› h2 hr2
        exact ⟨this.1, this.2.trans hl2⟩

theorem State.PlantSound.foldOctets (l : List Byte) : ∀ {s : State}, s.PlantSound → s.ready = true → 
   (l.foldl State.takeOctet s).PlantSound ∧ (l.foldl State.takeOctet s).loader = s.loader := by
  induction l with
  | nil => intro s h _; exact ⟨h, rfl⟩
  | cons o l ih =>
    intro s h hr
    have := State.PlantSound.takeOctet o h hr
    have k := ih this.1 (by unfold State.ready; rw [this.2]; exact hr)
    exact ⟨k.1, k.2.trans this.2⟩

theorem State.PlantSound.takeOctets (l : List Byte) {s : State} (h : s.PlantSound) :
    (s.takeOctets l).PlantSound := by
  unfold State.takeOctets
  split
  · exact (State.PlantSound.foldOctets l h ‹_›).1
  · exact h

theorem State.PlantSound.setLine {u : State} (hu : u.PlantSound) (x : LineState) (hx
    : x.yielded = u.line.yielded) : (u.setLine x).PlantSound :=
    hu.of rfl rfl (by unfold State.aside; rw [State.setLine_engine, State.setLine_line, hx]) rfl rfl rfl rfl rfl rfl

theorem State.PlantSound.heard (l : List Byte) {s : State} (h : s.PlantSound) : (s.heard l).PlantSound := by
  unfold State.heard
  split
  · exact h
  · refine State.PlantSound.takeOctets l ?_
    exact State.PlantSound.setLine h _ rfl

/-- The head link keeps the outputs sound (R37 to R40). -/
theorem State.PlantSound.headEvent (e : HeadEvent) {s : State} (h : s.PlantSound) :
    (s.headEvent e).PlantSound := by
  unfold State.headEvent
  split
  · exact h
  · exact h.of rfl rfl rfl rfl rfl rfl rfl rfl rfl
  · exact h.of rfl rfl rfl rfl rfl rfl rfl rfl rfl

theorem State.PlantSound.headOctet (o : Byte) {s : State} (h : s.PlantSound) : (s.headOctet o).PlantSound := by
  unfold State.headOctet
  refine State.PlantSound.headEvent _ ?_
  exact h.of rfl rfl rfl rfl rfl rfl rfl rfl rfl

theorem State.PlantSound.foldHead (l : List Byte) : ∀ {s : State}, s.PlantSound →
    (l.foldl State.headOctet s).PlantSound := by
  induction l with
  | nil => intro s h; exact h
  | cons o l ih => intro s h; exact ih (State.PlantSound.headOctet o h)

/-- A station at its reset values has sound outputs (R188). -/
theorem State.PlantSound.atReset {s : State} (h1 : s.loader.Sound) (h2 : s.loader.plant = none) (hc
    : s.capacity = .reset)
    (e : Valve) (he : s.engine = .reset e) : s.PlantSound := by
  have hrun : s.engine.run = false := by rw [he]; rfl
  have hrest : s.engine.Resting := by rw [he]; exact ⟨rfl, rfl, rfl, rfl, rfl⟩
  have hpp : s.pp = plantDefaults := by unfold State.pp; rw [h2]; rfl
  exact { loader := h1, held := fun _ => ⟨hc, hrest, hrun⟩, off := fun _ => by rw [hc]; exact ⟨rfl, rfl⟩
          on := fun x => by rw [hrun] at x; simp at x
          follows := fun x => by rw [hrun] at x; simp at x
          air := fun x => by rw [hrun] at x; simp at x
          caps := by rw [hpp, hc]; decide
          idle := fun _ => hrest, between := fun _ => hrest.running
          chain := fun p st hp => by rw [hrest.running] at hp; simp at hp
          blower := fun hp => by rw [hrest.blowerHold] at hp; simp at hp
          aside := fun _ => ⟨hrun, hrest.running⟩ }

/-- A station that was not attending its plant has sound outputs when the controller and the engine's held values
stand as they did. -/
theorem State.PlantSound.unready {s t : State} (h : s.PlantSound) (hn : s.plantReady = false)
   (h1 : t.loader.Sound) (hc : t.capacity = s.capacity) 
    (he : t.engine =
      { s.engine with
        listening := t.engine.listening, shown := t.engine.shown, valve := t.engine.valve }) :
    t.PlantSound := by
  obtain ⟨a, b, c⟩ := h.held hn
  have hrun : t.engine.run = false := by rw [he]; exact c
  have hrest : t.engine.Resting := by rw [he]; exact ⟨b.1,b.2,b.3,b.4,b.5⟩
  have hpp := (State.pp_inRange h1).cmin
  exact { loader := h1, held := fun _ => ⟨hc.trans a, hrest, hrun⟩, off := fun _ => by rw [hc, a]; exact ⟨rfl, rfl⟩
          on := fun x => by rw [hrun] at x; simp at x
          follows := fun x => by rw [hrun] at x; simp at x
          air := fun x => by rw [hrun] at x; simp at x
          caps := by rw [hc, a]; simp only [Capacity.reset]; omega
          idle := fun _ => hrest, between := fun _ => hrest.running
          chain := fun p st hp => by rw [hrest.running] at hp; simp at hp
          blower := fun hp => by rw [hrest.blowerHold] at hp; simp at hp
          aside := fun _ => ⟨hrun, hrest.running⟩ }

/-- What READY leaves of the loader, the controller and the engine (R187). -/
theorem State.becomeReady_frame (s : State)
    : s.becomeReady.loader = { s.loader with state := .ready, retryWait := false } ∧
   s.becomeReady.capacity = s.capacity ∧
    s.becomeReady.engine =
      { s.engine with
        listening := s.becomeReady.engine.listening, shown := s.becomeReady.engine.shown
        valve := s.becomeReady.engine.valve } := by
  unfold State.becomeReady
  dsimp only
  split
  · exact ⟨rfl, rfl, rfl⟩
  · refine ⟨(State.settlePlant_plant _).loader, ?_, ?_⟩
    · unfold State.settlePlant State.notePlantState; split <;> rfl
    · unfold State.settlePlant State.notePlantState; split <;> rfl

/-- The defaults keep the outputs sound (R183, R184). -/
theorem State.PlantSound.loadDefaults (r : LoadResult) {s : State} (h : s.PlantSound) (hn
    : s.loader.state ≠ .ready) (hi : s.loader.state ≠ .idle) :
   (s.loadDefaults r).PlantSound := by
  have hnr : s.plantReady = false := by unfold State.plantReady State.ready; simp [hn]
  have hl := h.loader
  have hset : s.loader.zone = none ∧ s.loader.plant = none := by
    have := hl.holds
    unfold Loader.holdsItsSet at this
    cases hs : s.loader.state <;> simp_all
  have hna : ¬ (s.loader.powerAsserted = true ∨ s.loader.inputAsserted = true) := fun hc => hi (hl.idle.2 hc)
  unfold State.loadDefaults
  dsimp only
  cases hrole : s.loader.straps.role
  · dsimp only
    refine State.PlantSound.unready h hnr ?_ (State.becomeReady_frame _).2.1 (State.becomeReady_frame _).2.2
    rw [(State.becomeReady_frame _).1]
    exact { zone := fun p hp => by simp at hp; subst hp; exact zoneDefaults_inRange
            plant := fun p hp => by simp [hset.2] at hp
            holds := by simp [Loader.holdsItsSet, hrole, hset]
            idle := by simp; simpa using hna
            attempts := hl.attempts, retry := by simp }
  · dsimp only
    refine State.PlantSound.unready h hnr ?_ (State.becomeReady_frame _).2.1 (State.becomeReady_frame _).2.2
    rw [(State.becomeReady_frame _).1]
    exact { plant := fun p hp => by simp at hp; subst hp; exact plantDefaults_inRange
            zone := fun p hp => by simp [hset.1] at hp
            holds := by simp [Loader.holdsItsSet, hrole, hset]
            idle := by simp; simpa using hna
            attempts := hl.attempts, retry := by simp }

/-- A loaded image keeps the outputs sound (R184, R185). -/
theorem State.PlantSound.loadImage (r : List Byte) {s : State} (h : s.PlantSound) (hn
    : s.loader.state ≠ .ready) (hi : s.loader.state ≠ .idle) :
   (s.loadImage r).PlantSound := by
  have hnr : s.plantReady = false := by unfold State.plantReady State.ready; simp [hn]
  have hl := h.loader
  have hset : s.loader.zone = none ∧ s.loader.plant = none := by
    have := hl.holds
    unfold Loader.holdsItsSet at this
    cases hs : s.loader.state <;> simp_all
  have hna : ¬ (s.loader.powerAsserted = true ∨ s.loader.inputAsserted = true) := fun hc => hi (hl.idle.2 hc)
  unfold State.loadImage
  dsimp only
  cases hrole : s.loader.straps.role
  · dsimp only
    refine State.PlantSound.unready h hnr ?_ (State.becomeReady_frame _).2.1 (State.becomeReady_frame _).2.2
    rw [(State.becomeReady_frame _).1]
    exact { zone := fun p hp => by simp at hp; subst hp; exact zoneOfImage_inRange _
            plant := fun p hp => by simp [hset.2] at hp
            holds := by simp [Loader.holdsItsSet, hrole, hset]
            idle := by simp; simpa using hna
            attempts := hl.attempts, retry := by simp }
  · dsimp only
    refine State.PlantSound.unready h hnr ?_ (State.becomeReady_frame _).2.1 (State.becomeReady_frame _).2.2
    rw [(State.becomeReady_frame _).1]
    exact { plant := fun p hp => by simp at hp; subst hp; exact plantOfImage_inRange _
            zone := fun p hp => by simp [hset.1] at hp
            holds := by simp [Loader.holdsItsSet, hrole, hset]
            idle := by simp; simpa using hna
            attempts := hl.attempts, retry := by simp }

/-- Ageing keeps the outputs sound (R26 to R28). -/
theorem State.PlantSound.ageEntry (a : Nat) {s : State} (h : s.PlantSound) :
    (s.ageEntry a).PlantSound ∧ (s.ageEntry a).loader = s.loader := by
  have hp (x : Peers) : (s.setPeers x).PlantSound := h.of rfl rfl rfl rfl rfl rfl rfl rfl rfl
  have hz (x : Peers) (old : Option Facts) (hz : s.loader.straps.role = .zone) :
      ((s.setPeers x).evaluatePlant old).PlantSound ∧
        ((s.setPeers x).evaluatePlant old).loader = s.loader := by
    have f := State.evaluatePlant_zone old (s.setPeers x)
    exact ⟨(hp x).ofZone f (Or.inl (State.not_plantReady_of_role hz)), f.loader⟩
  unfold State.ageEntry
  split
  · exact ⟨h, rfl⟩
  · split
    · unfold State.ageOut
      split
      · split
        · exact ⟨hp _, rfl⟩
        · exact ⟨h, rfl⟩
      · split
        · dsimp only
          split
          · exact hz _ _ (by assumption)
          · exact ⟨hp _, rfl⟩
          · exact ⟨hp _, rfl⟩
        · exact ⟨h, rfl⟩
    · exact ⟨h, rfl⟩

theorem State.PlantSound.foldAge (l : List Nat) :
    ∀ {s : State}, s.PlantSound → (l.foldl State.ageEntry s).PlantSound := by
  induction l with
  | nil => intro s h; exact h
  | cons o l ih =>
    intro s h
    exact ih (State.PlantSound.ageEntry o h).1

end Sys2Proof.Machine
end

