-- ==== Sys2Proof/Laws/Sensors.lean ====
section
/-! SUPPORT. Every reading keeps a measured input's items in their ranges (sections 3.5 and 3.6). -/

namespace Sys2Proof.Machine

/-- A filter step stays between the filtered value and the raw one (R45). -/
theorem filterStep_between (d : Nat) (hd : 0 < d) (f raw low high : Int) (hf : low ≤ f ∧ f ≤ high)
    (hr : low ≤ raw ∧ raw ≤ high) : low ≤ f + nearest (raw - f) d ∧ f + nearest (raw - f) d ≤ high := by
  have hd1 : (1 : Int) ≤ d := by exact_mod_cast hd
  constructor
  · have : low - f ≤ nearest (raw - f) d := le_nearest _ _ d hd (by nlinarith)
    omega
  · have : nearest (raw - f) d ≤ high - f := nearest_le _ _ d hd (by nlinarith)
    omega

/-- A GOOD reading in an input's range keeps the input's items in range (R45, R47). -/
theorem Input.InRange.good {i : Input} {low high : Int} (h : i.InRange low high) (d : Nat) (hd : 0 < d)
    {raw : Int} (hr : low ≤ raw ∧ raw ≤ high) : (i.good d raw).InRange low high := by
  obtain ⟨hf, hu, hv, hh, hc⟩ := h
  unfold Input.good
  split
  · constructor <;> simp_all
  · rename_i hs
    obtain ⟨f, e⟩ := Option.isSome_iff_exists.mp (hv (by rw [Input.valid, hs]))
    have := filterStep_between d hd f raw low high (hf f e) hr
    constructor <;> simp_all [filterStep, Input.valid]
  · rename_i hs
    obtain ⟨f, e⟩ := Option.isSome_iff_exists.mp (hv (by rw [Input.valid, hs]))
    have := filterStep_between d hd f raw low high (hf f e) hr
    constructor <;> simp_all [filterStep, Input.valid]
  · split
    · constructor <;> simp_all [Input.valid]
    · constructor <;> simp_all [Input.valid]

/-- A bad reading keeps an input's items in range (R46, R47). -/
theorem Input.InRange.bad {i : Input} {low high : Int} (h : i.InRange low high) :
    i.bad.InRange low high := by
  obtain ⟨hf, hu, hv, hh, hc⟩ := h
  unfold Input.bad
  split <;> (try unfold Input.count; split) <;> constructor <;> simp_all [Input.valid] <;> omega

/-- A classified reading keeps an input's items in range, where a GOOD one lies in the range (R45 to R47). -/
theorem Input.InRange.take {i : Input} {low high : Int} (h : i.InRange low high) (d : Nat) (hd : 0 < d)
    (r : Reading) {raw : Int} (hr : r = .good → low ≤ raw ∧ raw ≤ high) :
    (i.take d r raw).InRange low high := by
  cases r with
  | none => exact h
  | good => exact h.good d hd (hr rfl)
  | missing | invalid | rejected => exact h.bad

/-- A raw value is GOOD only in its range (R43). -/
theorem classifyRange_good {low high raw : Int} (h : classifyRange low high raw = .good) :
    low ≤ raw ∧ raw ≤ high := by
  unfold classifyRange at h
  split at h
  · assumption
  · cases h

/-- A plant input's expiry keeps its items in range (R41 to R43). -/
theorem Input.InRange.measure {i : Input} {low high : Int} (h : i.InRange low high) (d : Nat) (hd : 0 < d)
    (raw : Int) : (i.measure d low high raw).InRange low high :=
  have h' : ({ i with raw := some raw } : Input).InRange low high :=
    ⟨h.filtered, h.unseeded, h.valid, h.hold, h.recovery⟩
  h'.take d hd _ classifyRange_good

/-- A plant's sensor timer expiry keeps the Sensor Inputs in their ranges (R41 to R47). -/
theorem Sensors.InRange.plantExpiry {x : Sensors} (h : x.InRange) (p : PinSample) :
    (x.plantExpiry p).InRange where
  roomTemp := h.roomTemp
  roomRh := h.roomRh
  supplyAir := h.supplyAir.measure 4 (by decide) _
  indoorCoil := h.indoorCoil.measure 4 (by decide) _
  outdoorAir := h.outdoorAir.measure 4 (by decide) _
  outdoorCoil := h.outdoorCoil.measure 4 (by decide) _
  staticPressure := h.staticPressure.measure 2 (by decide) _
  target := h.target

end Sys2Proof.Machine
end

