-- ==== Sys2Proof/Tests/Slice0.lean ====
section
/-! SUPPORT. Tests: the WellFormed smoke test, at most two steps of each command against the manual's worked
tables, and for each obligation with hypotheses a theorem that shows them met. Every comment names the
source of the expected value. -/

namespace Sys2Proof.Tests

set_option Elab.async false

open Sys2Proof Sys2Proof.Machine

/-! ## Small states -/

/-- The state after one command. -/
def after (c : Instr) (s : State) : State :=
  match exec c s with
  | .next t => t
  | .fault _ | .refused _ => s

/-- Straps of a zone station at address 1 with no memory. -/
def zoneStraps : Straps := { role := .zone, addr := 1, cfgmem := false, energised := .heating }

/-- Straps of a plant station at address 5 with no memory. -/
def plantStraps : Straps := { role := .plant, addr := 5, cfgmem := false, energised := .heating }

/-- A zone station just READY with its defaults. -/
def zone : State := after (.resetRelease .power zoneStraps) State.reset

/-- A plant station just READY with its defaults. -/
def newPlant : State := after (.resetRelease .power plantStraps) State.reset

/-- A plant station whose listening interval has ended. -/
def plant : State := after .listeningTimer newPlant

/-- A zone record of a call, a demand, a weight and a tier. -/
def zr (call : Call) (ds weight tier base : Nat) : ZoneRecord :=
  { call := call, ds := ds, dl := 0, weight := weight, tier := tier, base := .percent base, relief := 0,
    position := .percent base, roomTemp := 2400, roomRh := 500, target := 2400,
    flags :=
      { sensorFault := false, damperFault := false, demandSaturated := false, reliefOptOut := false,
        plantLost := false, configDefaulted := false, configClamped := false } }

/-- A plant record of a mode, a state and a published opening. -/
def pr (mode : Mode) (state : PlantState) (delivering : Bool) (f : Nat) : PlantRecord :=
  { mode := mode, state := state, delivering := delivering, f := f, capacity := 300, blower := 461,
    supplyAir := 1400, outdoorAir := 3000,
    flags :=
      { airflowLimited := false, pressureLimiting := false, defrostPending := false,
        budgetEmpty := false, peerLate := false, configDefaulted := false, configClamped := false } }

/-- The entry at an address holds contents of an age. -/
def hold (a : Nat) (state : Freshness) (age : Nat) (c : Contents) (s : State) : State :=
  s.setPeers (s.peers.setHeld a (some { freshness := state, age := age, contents := c }))

/-- The zones of section 5.4 as FRESH entries of another station. -/
def fourZones (s : State) : State :=
  hold 4 .fresh 0 (.zone (zr .heat 0 20 0 10)) (hold 3 .fresh 0 (.zone (zr .idle 0 25 2 10))
    (hold 2 .fresh 0 (.zone (zr .cool 200 25 1 28)) (hold 1 .fresh 0 (.zone (zr .cool 600 30 1 64)) s)))

/-- An input that is TRACKING a value. -/
def tracking (x : Int) : Input :=
  { state := .tracking, raw := some x, filtered := some x, previous := some x, hold := 0, recovery := 0 }

/-- A zone station in the worked case of section 4.8. -/
def cooling (temp rh tg integral rawSum : Int) (ds : Nat) : State :=
  (zone.setSensors
    { zone.sensors with
      roomTemp := tracking temp, roomRh := tracking rh, target := tg }).setDemand
    { zone.demand with
      call := .cool, integral := integral, rawSum := rawSum, ds := ds
      view := some { mode := .cool, delivering := true } }

/-- Pins in the middle of their ranges. -/
def pins : PinSample :=
  { supplyAir := 2000, indoorCoil := 2000, outdoorAir := 320, outdoorCoil := 200, staticPressure := 180,
    inverterFault := false, condensateFloat := false }

/-- A plant station with one procedure at one step, its action applied. -/
def atStep (p : Proc) (st : StepId) (s : State) : State :=
  (s.startProc p).current st

/-- An image of version 1 with a weight octet, every other zone field at its default. -/
def image (weight : Byte) : List Byte :=
  let body : List Byte :=
    [1, 0, 38, 0x12, 0x34, 0x56, weight, 0, 50, 2, 38, 1, 144, 20, 50, 10, 30, 0] ++
      [0, 150, 0, 80, 0, 250, 1, 144, 0, 250, 1, 94, 1, 44, 0, 180, 7, 8]
  body ++ crcOctets body

/-! ## Well-formedness -/

/-- ADDR gives 0 to 15 (R182). -/
theorem test_wf_address : (Instr.resetRelease .power { zoneStraps with addr := 16 }).wf = false := by decide

/-- The image has 38 octets (R195). -/
theorem test_wf_image : (Instr.readAttempt (List.replicate 39 0)).wf = false := by decide

/-- The longest frame has 36 octets (R3). -/
theorem test_wf_collision : (Instr.collision 360).wf = false := by decide

/-- A frame has octets (R3). -/
theorem test_wf_frame : (Instr.frameReceived []).wf = false := by decide

/-- A head frame has octets (R196). -/
theorem test_wf_head : (Instr.headFrameArrival []).wf = false := by decide

/-! ## Resets and start -/

/-- R167: one token of start budget after a power-on reset. -/
theorem test_power_on : (after .powerOnReset plant).protection.budget = 1 := by decide +kernel

/-- R162, R163, R166: a run of 100 s closed by RESET is short under the default minimum run of 300 s. -/
theorem test_reset_input :
    (after .resetInputAsserted
      (plant.setProtection { plant.protection with run := some 100 })).protection.history =
      [{ startAge := 100, duration := 100, cause := .reset, short := true }] := by decide +kernel

/-- R183, section 12.4: no memory gives NO_MEMORY and READY. -/
theorem test_release_no_memory : zone.loader.result = .noMemory ∧ zone.ready = true := by decide +kernel

/-- R183: address 0 is CONFIG_HALT. -/
theorem test_release_halt :
    (after (.resetRelease .power { zoneStraps with addr := 0 }) State.reset).loader.state =
      .configHalt := by decide +kernel

/-- A station in READING on its third attempt, with a failed attempt to come. -/
def reading : State :=
  State.reset.setLoader
    { State.reset.loader with
      powerAsserted := false, straps := { zoneStraps with cfgmem := true }, state := .reading, attempts := 3 }

/-- Section 11.5: a weight of 0 is clamped to 1 and gives LOADED_CLAMPED. -/
theorem test_read_attempt :
    (after (.readAttempt (image 0)) reading).loader.result = .loadedClamped ∧
      (after (.readAttempt (image 0)) reading).zp.weight = 1 := by decide +kernel

/-- R183: the fourth failure gives NO_ACK. -/
theorem test_read_attempt_fails :
    (after (.readAttempt [1#8])
      (reading.setLoader { reading.loader with attempts := 4 })).loader.result = .noAck := by
  decide +kernel

/-- Section 11.5: attempt 3 follows attempt 2. -/
theorem test_read_retry :
    (after .readRetryTimer
      (reading.setLoader { reading.loader with attempts := 2, retryWait := true })).loader.attempts = 3 := by
  decide +kernel

/-! ## The zone line -/

/-- The check value that R3's generator and start value give for the octets "123456789", 0x29B1. -/
theorem test_crc :
    crc16 [0x31, 0x32, 0x33, 0x34, 0x35, 0x36, 0x37, 0x38, 0x39] = 0x29B1#16 := by decide +kernel

/-- R7: a full count gains no token. -/
theorem test_token_refill : (after .tokenRefillTimer zone).line.tokens = 3 := by decide +kernel

/-- R2: 30 quiet bit times. -/
theorem test_line_idle : (after .lineIdle zone).line.idle = true := by decide +kernel

/-- R4: 30 bit times are more than 20, so a frame in progress is abandoned and counted malformed. -/
theorem test_line_idle_abandons :
    (after .lineIdle (zone.setLine { zone.line with rx := .header })).line.malformed = 1 := by decide +kernel

/-- R2: a start bit holds the counts at 0. -/
theorem test_start_bit : (after .startBitSeen (after .lineIdle zone)).line.quiet = 0 := by decide +kernel

/-- Station 3 of section 1.6 with k = 1 for ZONE. -/
def station3 : State :=
  let s := after (.resetRelease .power { zoneStraps with addr := 3 }) State.reset
  s.setLine { s.line with main := { s.line.main with k := 1 }, tokens := 2 }

/-- Section 1.6: slot (3 + 5) mod 16 = 8, G 110; R2: the own start bit then holds the counts at 0. -/
theorem test_attempt_begin :
    (after .attemptBegin station3).line.attempt.map Attempt.gap = some 110 ∧
      (after .attemptBegin station3).line.gap = 0 := by decide +kernel

/-- Section 1.7: the prompt during the attempt keeps the flag, and the target becomes the sampled 43. -/
theorem test_attempt_complete :
    let s := zone.setLine
      { zone.line with
        main := { pending := true, renewal := true, k := 0 }
        attempt := some { kind := .main, gap := 110, frame := [], target := .percent 43, f := 0 } }
    (after .attemptComplete s).line.main.pending = true ∧
      (after .attemptComplete s).line.lastTarget = some (.percent 43) ∧
      (after .attemptComplete s).line.tokens = 2 := by decide +kernel

/-- Section 1.6: station 3 drives 1 at the header's first data bit and reads 0: k 2, one collision. -/
theorem test_collision :
    (after (.collision 21) (after .attemptBegin station3)).line.main.k = 2 ∧
      (after (.collision 21) (after .attemptBegin station3)).line.collisions = 1 := by decide +kernel

/-- Section 1.6: station 3's receiver takes 0x18 onward, and the frame is good. -/
theorem test_collision_then_frame :
    (after (.frameReceived ((buildFrame 1 8 (encodeZone 7 (zr .idle 0 10 2 10))).drop 2))
      (after (.collision 21) (after .attemptBegin station3))).line.good = 1 := by decide +kernel

/-- R24: a ZONE report fills the entry of its address. -/
theorem test_frame_received :
    (after (.frameReceived (buildFrame 1 8 (encodeZone 7 (zr .cool 300 10 2 10)))) zone).entryAt 8 =
      some { freshness := .fresh, age := 0, contents := .zone (zr .cool 300 10 2 10) } := by decide +kernel

/-- R4: a frame in progress is abandoned and counted malformed. -/
theorem test_frame_abandoned :
    (after (.frameAbandoned [0xD2#8, 0x2D#8, 0x18#8]) zone).line.malformed = 1 := by decide +kernel

/-- R4: in HUNT an octet with a framing error counts nothing. -/
theorem test_framing_error : (after (.framingError []) zone).line.malformed = 0 := by decide +kernel

/-- R9: the periodic timer of a zone station. -/
theorem test_zone_periodic :
    (after .zonePeriodicTimer (zone.setLine { zone.line with main := .reset })).line.main.pending = true := by
  decide +kernel

/-- R9: the periodic timer of a plant station. -/
theorem test_plant_periodic :
    (after .plantPeriodicTimer (plant.setLine { plant.line with main := .reset })).line.main.pending =
      true := by decide +kernel

/-- R9: the summary timer. -/
theorem test_summary : (after .summaryTimer zone).line.summary.pending = true := by decide +kernel

/-! ## The peer table -/

/-- Section 2.9 at 3.0 s: entry 12 becomes LATE at age 30 and the 38th late event is counted. -/
theorem test_age_late :
    let s := hold 12 .fresh 29 (.plant (pr .cool .running true 4610)) zone
    let t := after .ageTimer (s.setPeers { s.peers with followed := some 12, lateEvents := 37 })
    t.peers.followed = some 12 ∧ t.peers.lateEvents = 38 := by decide +kernel

/-- Section 2.9 at 8.0 s: removal at age 80, the plant is lost and the ZONE report is prompted. -/
theorem test_age_removed :
    let s := hold 12 .late 79 (.plant (pr .cool .running true 4610)) zone
    let t := after .ageTimer
      ((s.setPeers { s.peers with followed := some 12, grace := .expired, peersLost := 2 }).setLine
        { s.line with main := .reset })
    t.peers.plantLost = true ∧ t.peers.peersLost = 3 ∧ t.line.main.pending = true := by decide +kernel

/-- R33: no followed plant at the grace timer's expiry. -/
theorem test_grace : (after .graceTimer zone).peers.plantLost = true := by decide +kernel

/-! ## Sensing -/

/-- R39: a target of 2425 is a tie between 2400 and 2450 and goes away from zero. -/
theorem test_head_arrival :
    let body := putTemp 2410 ++ put16 500 ++ putTemp 2425 ++ [1#8]
    (after (.headFrameArrival ([0xA5#8, 1#8] ++ body ++ crcOctets (1#8 :: body))) zone).sensors.target =
      2450 := by decide +kernel

/-- R37: the receiver hunts after a frame that broke off. -/
theorem test_head_abandoned :
    (after (.headFrameAbandoned [0xA5#8, 1#8, 9#8]) zone).sensors.headRx = .hunt := by decide +kernel

/-- R38: the link is MISSING. -/
theorem test_loss : (after .lossTimer zone).sensors.link = .missing := by decide +kernel

/-- Section 3.8, expiry 7: 2500 + nearest(270 / 4) = 2568, a tie. -/
theorem test_sensor_filter :
    let s := zone.setSensors
      { zone.sensors with
        link := .present, arrived := true
        roomTemp := { tracking 2500 with raw := some 2770, previous := some 2770 } }
    (after (.sensorTimer pins true) s).sensors.roomTemp.filtered = some 2568 := by decide +kernel

/-- Section 10.8 at 1 s: the outdoor air seeds at 320 and the index becomes 6000. -/
theorem test_sensor_seeds : (after (.sensorTimer pins true) plant).frost.index = 6000 := by decide +kernel

/-! ## Demand, sharing and the damper -/

/-- Section 4.8: I 16 600, U 486, Ds 486, Dl 450. -/
theorem test_demand :
    let t := after .demandTimer (cooling 2530 640 2400 15000 470 470)
    t.demand.integral = 16600 ∧ t.demand.rawSum = 486 ∧ t.demand.ds = 486 ∧ t.demand.dl = 450 := by
  decide +kernel

/-- Section 4.11, expiry n + 1: the step is withheld, U 2400, Ds 1000, both marks set. -/
theorem test_demand_saturated :
    let t := after .demandTimer (cooling 3000 500 2400 40000 2400 1000)
    t.demand.integral = 40000 ∧ t.demand.rawSum = 2400 ∧ t.demand.ds = 1000 ∧
      t.demand.saturated = true ∧ t.demand.errorClamped = true := by decide +kernel

/-- Section 5.4: zone 1 recomputes on F 4610 to tier 1, base 64, relief 20, target 84. -/
theorem test_recompute :
    let s := fourZones zone
    let s1 := (s.setLoader { s.loader with zone := some { zoneDefaults with weight := 30 } }).setShare
      { s.share with
        view := some { mode := .cool, state := .running, f := 4610 }
        inputs := { call := .cool, ds := 600, dl := 0, tempFault := false } }
    s1.recompute.share.tier = 1 ∧ s1.recompute.share.base = .percent 64 ∧ s1.recompute.share.relief = 20 ∧
      s1.recompute.share.target = .percent 84 := by decide +kernel

/-- R85: the 1320th homing step ends homing at 0 with no budget. -/
theorem test_homing :
    let s := zone.setDamper { zone.damper with homingSteps := 1319, stored := none }
    (after (.homingStepCompletion false) s).damper.position = some 0 ∧
      (after (.homingStepCompletion false) s).damper.budget = 0 := by decide +kernel

/-- The drive of section 5.9 at 1.2 s. -/
def binding : State :=
  zone.setDamper
    { zone.damper with
      state := .moving, position := some 780, taken := some 960, stored := none, step := some .opening
      budget := 2281, rehomeAge := some 4001, rehomes := 11 }

/-- Section 5.9 at 1.2 s: HOMING with 960 stored, the twelfth re-home. -/
theorem test_step_stall :
    (after (.stepCompletion true) binding).damper.state = .homing ∧
      (after (.stepCompletion true) binding).damper.stored = some 960 ∧
      (after (.stepCompletion true) binding).damper.rehomes = 12 := by decide +kernel

/-- Section 5.9: a second stall within 600 s is FAULTED. -/
theorem test_step_fault :
    (after (.stepCompletion true)
      (binding.setDamper { binding.damper with rehomeAge := some 12 })).damper.state = .faulted := by
  decide +kernel

/-- Section 5.9 at 5.6 s: the refill that brings the budget to 50 starts the move. -/
theorem test_budget_refill :
    let s := zone.setDamper
      { zone.damper with
        state := .waitingBudget, position := some 0, taken := some 960, budget := 49, step := none }
    (after .budgetRefillTimer s).damper.state = .moving ∧
      (after .budgetRefillTimer s).damper.step = some .opening := by decide +kernel

/-- R92: the age saturates. -/
theorem test_rehome_age :
    (after .rehomeAgeTimer
      (zone.setDamper { zone.damper with rehomeAge := some 65535 })).damper.rehomeAge = some 65535 := by
  decide +kernel

/-! ## The plant -/

/-- The plant of section 7.8 before its period. -/
def coolPlant : State :=
  let s := fourZones plant
  ((((s.setSensors
    { s.sensors with
      systemSwitch := .auto, indoorCoil := tracking 850, staticPressure := tracking 180 }).setModeSel
    { s.modeSel with mode := .cool }).setEngine
    { s.engine with run := true, shown := .running }).setProtection
    { s.protection with run := some 1000, stopAge := 1000 }).setCapacity
    { s.capacity with speedCommand := 310, loopSpeed := 310, speedFollows := true }

/-- Section 7.8: C 230, A 461, F 4610, Fmax 8200, blower command 461, speed command 250. -/
theorem test_plant_control :
    let c := (after .plantControlTimer coolPlant).capacity
    c.c = 230 ∧ c.airflow = 461 ∧ c.f = 4610 ∧ c.fmax = 8200 ∧ c.blowerCommand = 461 ∧
      c.speedCommand = 250 := by decide +kernel

/-- The plant of section 6.9 before expiry 101. -/
def turning : State :=
  let s := hold 4 .fresh 0 (.zone (zr .heat 500 20 1 10)) (hold 2 .fresh 0 (.zone (zr .heat 600 25 1 10))
    (hold 1 .fresh 0 (.zone (zr .cool 400 30 1 64)) coolPlant))
  s.setModeSel { s.modeSel with modeAge := 3400, dominance := 590 }

/-- Section 6.9, expiry 101, and section 8.6 at time 0: mode HEAT, and the CHANGEOVER is at X2. -/
theorem test_plant_control_changeover :
    (after .plantControlTimer turning).modeSel.mode = .heat ∧
      (after .plantControlTimer turning).engine.running = some .changeover ∧
      (after .plantControlTimer turning).engine.step = some .x2 ∧
      (after .plantControlTimer turning).protection.history.map RunRecord.cause = [.changeover] := by
  decide +kernel

/-- A plant in LOCKOUT with its switch held at OFF. -/
def lockedOut : State :=
  ((plant.setProtection { plant.protection with lockout := some 1000 }).setModeSel
    { plant.modeSel with offHold := true }).setEngine { plant.engine with shown := .lockout }

/-- Section 6.11 at 12.3 s: the off-hold expiry ends LOCKOUT. -/
theorem test_off_hold : (after .offHoldTimer lockedOut).protection.lockout = none := by decide +kernel

/-- R165: the end of a LOCKOUT prompts a report though STOPPING shows before and after it. -/
theorem test_off_hold_prompts :
    (let s := (lockedOut.setEngine
        { lockedOut.engine with running := some (.stop .demand), shown := .stopping }).setLine
          { lockedOut.line with main := { lockedOut.line.main with pending := false } };
      (after .offHoldTimer s).plantState = .stopping ∧ (after .offHoldTimer s).line.main.pending = true) := by
  decide +kernel

/-- The running plant with a duct pressure of 362 for nine expiries, section 7.10. -/
def pressed : State :=
  (coolPlant.setSensors { coolPlant.sensors with staticPressure := tracking 362 }).setCapacity
    { coolPlant.capacity with staticCount := 9, blowerCommand := 461 }

/-- Section 7.10: the tenth expiry raises EMERGENCY with cause STATIC; R128: a hold of 300 s. -/
theorem test_protection :
    (after .protectionTimer pressed).engine.running = some (.emergency .static) ∧
      (after .protectionTimer pressed).engine.emergencyHold = 300 ∧
      (after .protectionTimer pressed).engine.run = false := by decide +kernel

/-- R134: the engine begins to take requests. -/
theorem test_listening : (after .listeningTimer newPlant).engine.listening = .expired := by decide +kernel

/-- A plant in HEAT with a DEFROST at a step. -/
def defrosting (st : StepId) : State :=
  atStep .defrost st (plant.setModeSel { plant.modeSel with mode := .heat })

/-- Section 8.7 at 50 s: D4's action puts the compressor at 700, and D5 is taken. -/
theorem test_step_delay :
    let t := after .stepDelayExpiry (defrosting .d4)
    t.capacity.speedCommand = 700 ∧ t.engine.run = true ∧ t.engine.step = some .d5 := by decide +kernel

/-- The START of section 8.6 at 90 s, the valve in place and the spacing not met. -/
def starting : State :=
  let s := plant.setModeSel { plant.modeSel with mode := .heat }
  atStep .start .s1
    (((s.setEngine { s.engine with valve := .heating }).setCapacity
      { s.capacity with c := 300, speedCommand := 0 }).setProtection
      { s.protection with stopAge := 90, valveAge := 30 })

/-- Section 8.6 at 90 s: S2 passes and S3 waits for the START grant. -/
theorem test_step_time_exit :
    (after .stepTimeExit starting).engine.step = some .s3 ∧
      (after .stepTimeExit starting).engine.state = .waiting := by decide +kernel

/-- Section 10.8 at 3350 s: D5's limit settles the index at 4000. -/
theorem test_step_time_limit : (after .stepTimeLimit (defrosting .d5)).frost.index = 4000 := by
  decide +kernel

/-- A plant in an EMERGENCY at E2 with a hold. -/
def emergency (n : Nat) : State :=
  let s := atStep (.emergency .static) .e2 plant
  s.setEngine { s.engine with emergencyHold := n }

/-- R147: E2 ends at the second that takes the last of the hold. -/
theorem test_emergency_tick :
    (after .emergencyHoldTick (emergency 1)).engine.status.outcome = .done ∧
      (after .emergencyHoldTick (emergency 2)).engine.emergencyHold = 1 := by decide +kernel

/-- Section 8.6 at 180 s: the START grant takes a token and S3 starts the compressor at Cmin 250. -/
theorem test_retained_grant :
    let s := after .stepTimeExit starting
    let t := after .retainedTimer (s.setProtection { s.protection with stopAge := 179, budget := 2 })
    t.engine.step = some .s4 ∧ t.capacity.speedCommand = 250 ∧ t.protection.budget = 1 := by
  decide +kernel

/-- R161: 900 seconds of progress give a token. -/
theorem test_retained_refill :
    (after .retainedTimer (plant.setProtection { plant.protection with progress := 899 })).protection.budget =
      2 := by decide +kernel

/-- The plant of section 10.7 a second before the end of a heat-running minute. -/
def frosting (index interval : Nat) : State :=
  let s := plant.setModeSel { plant.modeSel with mode := .heat }
  ((((s.setEngine { s.engine with run := true, valve := .heating, shown := .running }).setSensors
    { s.sensors with outdoorCoil := tracking (-200), outdoorAir := tracking 550 }).setCapacity
    { s.capacity with speedCommand := 600, speedFollows := true, loopSpeed := 600 }).setFrost
    { s.frost with index := index, accumulation := 59, interval := interval })

/-- Section 10.7, minute 2: each step adds 120. -/
theorem test_frost_step : (after .frostTimer (frosting 120 119)).frost.index = 240 := by decide +kernel

/-- Section 10.7, minute 84: the index is clamped to 10 000 and DEFROST starts. -/
theorem test_frost_defrost :
    (after .frostTimer (frosting 9960 5039)).frost.index = 10000 ∧
      (after .frostTimer (frosting 9960 5039)).engine.running = some .defrost := by decide +kernel

/-! ## Hypotheses that are met

One theorem for each obligation that has hypotheses; each clause is met at a boundary of its range. -/

/-- A zone station at address 1 with a command in its queue. -/
def queued (c : Instr) (s : State) : State := s.setPending [c]

/-- The defaults are in range (R185). -/
theorem zoneDefaults_in_range : zoneDefaults.InRange := by constructor <;> decide

/-- The defaults are in range (R185). -/
theorem plantDefaults_in_range : plantDefaults.InRange := by constructor <;> decide

/-- The loader of the READY zone station. -/
theorem zone_loader_sound : zone.loader.Sound where
  zone p h := by
    have e : zone.loader.zone = some zoneDefaults := by decide +kernel
    obtain rfl := Option.some.inj (h.symm.trans e)
    exact zoneDefaults_in_range
  plant p h := by
    have e : zone.loader.plant = none := by decide +kernel
    rw [e] at h
    cases h
  holds := by
    have e : zone.loader.state = .ready ∧ zone.loader.straps.role = .zone ∧
        zone.loader.zone.isSome = true ∧ zone.loader.plant = none := by decide +kernel
    simp [Loader.holdsItsSet, e]
  idle := by decide +kernel
  attempts := by decide +kernel
  retry := by decide +kernel

/-- The loader of the READY plant station. -/
theorem plant_loader_sound : plant.loader.Sound where
  zone p h := by
    have e : plant.loader.zone = none := by decide +kernel
    rw [e] at h
    cases h
  plant p h := by
    have e : plant.loader.plant = some plantDefaults := by decide +kernel
    obtain rfl := Option.some.inj (h.symm.trans e)
    exact plantDefaults_in_range
  holds := by
    have e : plant.loader.state = .ready ∧ plant.loader.straps.role = .plant ∧
        plant.loader.plant.isSome = true ∧ plant.loader.zone = none := by decide +kernel
    simp [Loader.holdsItsSet, e]
  idle := by decide +kernel
  attempts := by decide +kernel
  retry := by decide +kernel

/-- The zone's blocks just after READY. -/
theorem zone_zoneSound : zone.ZoneSound where
  loader := zone_loader_sound
  demand := by constructor <;> decide +kernel
  share := by constructor <;> decide +kernel
  damper := by
    have e : zone.damper =
        { Damper.reset with state := .homing, stored := some 120, step := some .closing } := by
      decide +kernel
    rw [e]
    constructor <;> simp [Damper.reset, DriveState.positioned]

/-- The plant's blocks when its listening interval has ended. -/
theorem plant_plantSound : plant.PlantSound where
  loader := plant_loader_sound
  held h := by
    have e : plant.plantReady = true := by decide +kernel
    rw [e] at h
    cases h
  off := by decide +kernel
  on h := by
    have e : plant.engine.run = false := by decide +kernel
    rw [e] at h
    cases h
  follows h := by
    have e : plant.engine.run = false := by decide +kernel
    rw [e] at h
    cases h
  air := by decide +kernel
  caps := by decide +kernel
  idle _ := by constructor <;> decide +kernel
  between := by decide +kernel
  chain p st h := by
    have e : plant.engine.running = none := by decide +kernel
    rw [e] at h
    cases h
  blower := by decide +kernel
  aside := by decide +kernel

/-- The plant's memory when its listening interval has ended. -/
theorem plant_recordSound : plant.RecordSound where
  protection := by
    have e : plant.protection = { Protection.reset with held := false } := by decide +kernel
    rw [e]
    constructor <;> simp [Protection.reset, newestShort]
  hold := by
    have e : plant.engine.emergencyHold = 0 := by decide +kernel
    exact ⟨by rw [e]; decide, fun _ => e⟩
  frost := by constructor <;> decide +kernel

/-- The peer table just after READY. -/
theorem zone_tableSound : zone.TableSound := by constructor <;> decide +kernel

/-- No plant is followed just after READY (R31, R33). -/
theorem zone_followSound : zone.FollowSound := by constructor <;> decide +kernel

/-- A zone station past its grace that follows the plant at address 12, whose entry has an age. -/
def following (state : Freshness) (age : Nat) : State :=
  let s := hold 12 state age (.plant (pr .cool .running true 4610)) zone
  ((s.setPeers { s.peers with followed := some 12, grace := .expired }).setDemand
    { s.demand with view := some { mode := .cool, delivering := true } }).setShare
    { s.share with view := some { mode := .cool, state := .running, f := 4610 } }

/-- A zone that follows its plant (R31, R54, R74). -/
theorem following_followSound : (following .fresh 0).FollowSound := by constructor <;> decide +kernel

/-- Its table (R19, R23). -/
theorem following_tableSound : (following .fresh 0).TableSound := by constructor <;> decide +kernel

/-- A zone whose plant goes at the next age timer expiry (R28). -/
theorem losing_followSound : (following .late 79).FollowSound := by constructor <;> decide +kernel

/-- A plant's record of a worked case is in range. -/
theorem pr_in_range : (pr .cool .running true 4610).InRange := by constructor <;> decide

/-- A zone record at the tops of its ranges is in range. -/
theorem zr_in_range : (zr .cool 1000 100 2 100).InRange :=
  { ds := by decide, dl := by decide, weight := by decide, tier := by decide, base := by decide,
    relief := by decide, position := by decide, roomTemp := by decide, roomRh := by decide,
    target := ⟨16, by decide⟩ }

theorem witness_step_takes_the_front_command :
    (queued .demandTimer zone).pending = .demandTimer :: [] ∧ zone.pending = [] := by decide +kernel

theorem witness_events_that_await_ready_change_nothing :
    awaitsReady .demandTimer = true ∧ State.reset.ready = false := by decide +kernel

/-- A plant station in READING. -/
def plantReading : State :=
  reading.setLoader { reading.loader with straps := { plantStraps with cfgmem := true } }

theorem witness_pins_take_the_latched_role :
    zone.loader.Sound ∧ zone.loader.state ≠ .idle ∧ zone.ready = true ∧ State.reset.loader.state = .idle ∧
      (reading.loader.state ≠ .idle ∧ reading.loader.straps.role = .zone ∧ reading.ZoneHeld ∧
        reading.ready = false) ∧
      plantReading.loader.state ≠ .idle ∧ plantReading.loader.straps.role = .plant ∧
      plantReading.EquipmentSafe ∧ plantReading.ready = false :=
  ⟨zone_loader_sound, by decide +kernel, by decide +kernel, by decide +kernel,
    ⟨by decide +kernel, by decide +kernel, fun _ => by decide +kernel, by decide +kernel⟩,
    by decide +kernel, by decide +kernel, fun _ => by decide +kernel, by decide +kernel⟩

theorem witness_zone_blocks_stay_sound :
    ∃ s t : State, s.ZoneSound ∧ s.ZoneHeld ∧ step s = .next t ∧ t ≠ s :=
  ⟨queued .demandTimer zone, after .demandTimer zone,
    { loader := zone_zoneSound.loader, demand := zone_zoneSound.demand, share := zone_zoneSound.share,
      damper := zone_zoneSound.damper },
    fun h => absurd h (by decide +kernel), rfl, by decide +kernel⟩

theorem witness_peer_table_stays_sound :
    ∃ s t : State, s.loader.Sound ∧ s.TableSound ∧ s.FollowSound ∧ step s = .next t ∧ t ≠ s :=
  ⟨queued .ageTimer zone, after .ageTimer zone, zone_loader_sound,
    { addresses := zone_tableSound.addresses, empty := zone_tableSound.empty, own := zone_tableSound.own },
    { followed := zone_followSound.followed, lost := zone_followSound.lost, grace := zone_followSound.grace,
      demandView := zone_followSound.demandView, shareView := zone_followSound.shareView },
    rfl, by decide +kernel⟩

/-- The line of a station just READY, which waits for its gap. -/
theorem zone_line_sound : zone.line.Sound where
  tokens := by decide +kernel
  collided k := by cases k <;> decide +kernel
  waiting k h := by
    have e : zone.line.waiting = some .main := by decide +kernel
    obtain rfl := Option.some.inj (h.symm.trans e)
    decide +kernel
  attempt a h := by
    have e : zone.line.attempt = none := by decide +kernel
    rw [e] at h
    cases h
  yielded := by decide +kernel
  counts := by decide +kernel
  octet := by decide +kernel
  arriving := by decide +kernel
  driving a h := by
    have e : zone.line.attempt = none := by decide +kernel
    rw [e] at h
    cases h

/-- The line of a plant station just READY is that of a zone station. -/
theorem plant_line_sound : plant.line.Sound := by
  have e : plant.line = zone.line := by decide +kernel
  rw [e]
  exact zone_line_sound

theorem witness_line_stays_sound : ∃ s t : State, s.line.Sound ∧ step s = .next t ∧ t ≠ s :=
  ⟨queued .attemptBegin zone, after .attemptBegin zone, zone_line_sound, rfl, by decide +kernel⟩

theorem witness_plant_outputs_stay_sound :
    ∃ s t : State, s.PlantSound ∧ s.EquipmentSafe ∧ step s = .next t ∧ s.plantReady = true :=
  ⟨queued .plantControlTimer plant, _,
    { loader := plant_plantSound.loader, held := plant_plantSound.held, off := plant_plantSound.off,
      on := plant_plantSound.on, follows := plant_plantSound.follows, air := plant_plantSound.air,
      caps := plant_plantSound.caps, idle := plant_plantSound.idle, between := plant_plantSound.between,
      chain := plant_plantSound.chain, blower := plant_plantSound.blower,
      aside := plant_plantSound.aside },
    fun _ => by decide +kernel, rfl, by decide +kernel⟩

theorem witness_protection_stays_sound :
    ∃ s t : State, s.PlantSound ∧ s.RecordSound ∧ step s = .next t :=
  ⟨plant, plant, plant_plantSound, plant_recordSound, rfl⟩

theorem witness_shown_plant_state_stays_derived :
    ∃ s t : State, s.loader.Sound ∧ s.ShownSound ∧ step s = .next t :=
  ⟨plant, plant, plant_loader_sound, fun _ => by decide +kernel, rfl⟩

theorem witness_reset_input_keeps_the_retained_record :
    plant.protection.run = none ∧ coolPlant.protection.run = some 1000 ∧
      (coolPlant.setProtection { coolPlant.protection with run := some 299 }).protection.run = some 299 := by
  decide +kernel

theorem witness_reset_release_starts_the_load :
    let held := State.reset.setLoader { State.reset.loader with inputAsserted := true }
    (held.loader.asserted .power = true ∧ (held.loader.release .power).inputAsserted = true) ∧
      State.reset.loader.asserted .power = true ∧
      (State.reset.loader.release .power).powerAsserted = false ∧
      (State.reset.loader.release .power).inputAsserted = false ∧
      ({ zoneStraps with addr := 0 } : Straps).addr = 0 ∧
      (({ zoneStraps with addr := 15, cfgmem := true } : Straps).addr ≠ 0 ∧
        ({ zoneStraps with addr := 15, cfgmem := true } : Straps).cfgmem = true) ∧
      (zoneStraps.addr ≠ 0 ∧ zoneStraps.cfgmem = false ∧ zoneStraps.role = .zone) ∧
      plantStraps.addr ≠ 0 ∧ plantStraps.cfgmem = false ∧ plantStraps.role = .plant := by decide +kernel

theorem witness_failed_read_attempts_end_in_defaults :
    (reading.loader.state = .reading ∧ reading.loader.retryWait = false ∧
      (List.replicate 37 (0 : Byte)).length < 38 ∧ reading.loader.attempts < 4) ∧
      4 ≤ (reading.setLoader { reading.loader with attempts := 4 }).loader.attempts ∧
      (after (.readAttempt []) reading).loader.state = .reading ∧
      (after (.readAttempt []) reading).loader.retryWait = true := by decide +kernel

theorem witness_image_is_tested_in_order :
    reading.loader.state = .reading ∧ reading.loader.retryWait = false ∧
      reading.loader.defaulted = false ∧ 38 ≤ (image 0).length := by decide +kernel

/-- A zone station with no token, so that it does not wait. -/
def tokenless : State := zone.setLine { zone.line with tokens := 0, waiting := none }

theorem witness_token_refill_and_report_timers :
    (tokenless.ready = true ∧ tokenless.line.yielded = false ∧ tokenless.line.attempt = none ∧
      tokenless.line.waiting = none ∧ tokenless.line.main.pending = true) ∧
      zone.ready = true ∧ zone.loader.straps.role = .zone ∧ plant.ready = true ∧
      plant.loader.straps.role = .plant ∧
      (zone.line.yielded = false ∧ 1 ≤ zone.line.tokens ∧ zone.line.attempt = none ∧
        zone.line.waiting = some .main ∧ zone.line.main.pending = true) ∧
      tokenless.line.tokens = 0 := by decide +kernel

theorem witness_line_counts_and_abandoned_frames :
    (zone.loader.powerAsserted = false ∧ zone.loader.inputAsserted = false ∧ zone.line.attempt = none) ∧
      (after .attemptBegin zone).line.attempt.isSome = true ∧
      (after .attemptBegin zone).loader.inputAsserted = false ∧
      plant.loader.powerAsserted = false ∧ plant.loader.inputAsserted = false ∧
      plant.line.attempt = none ∧ plant.engine.shown = plant.plantState := by decide +kernel

theorem witness_attempt_begins_at_its_gap :
    station3.line.waiting = some .main ∧ station3.line.canSend station3.ready = true ∧
      station3.line.octetOnLine = false ∧
      (after .startBitSeen station3).line.octetOnLine = true ∧
      (after .startBitSeen station3).line.canSend station3.ready = true := by decide +kernel

/-- A zone station's own record just after READY is in range. -/
theorem zone_own_in_range : zone.ownZone.InRange :=
  { ds := by decide +kernel, dl := by decide +kernel, weight := by decide +kernel, tier := by decide +kernel
    base := by decide +kernel, relief := by decide +kernel, position := by decide +kernel
    roomTemp := by decide +kernel, roomRh := by decide +kernel
    target := ⟨16, by decide, by decide +kernel⟩ }

/-- A zone station just after READY (R6, R113). -/
theorem zone_rangesSound : zone.RangesSound where
  table e he h hh := by
    have key : ∀ e ∈ zone.peers.entries, e.held = none := by decide +kernel
    rw [key e he] at hh
    cases hh
  address := by decide +kernel
  sensors :=
    { roomTemp := by constructor <;> decide +kernel
      roomRh := by constructor <;> decide +kernel
      supplyAir := by constructor <;> decide +kernel
      indoorCoil := by constructor <;> decide +kernel
      outdoorAir := by constructor <;> decide +kernel
      outdoorCoil := by constructor <;> decide +kernel
      staticPressure := by constructor <;> decide +kernel
      target := ⟨16, by decide, by decide +kernel⟩ }
  weights := by decide +kernel
  ages := by decide +kernel
  capacity := by constructor <;> decide +kernel
  blowerHold := by decide +kernel

/-- A plant station that takes requests (R6, R113). -/
theorem plant_rangesSound : plant.RangesSound where
  table e he h hh := by
    have key : ∀ e ∈ plant.peers.entries, e.held = none := by decide +kernel
    rw [key e he] at hh
    cases hh
  address := by decide +kernel
  sensors :=
    { roomTemp := by constructor <;> decide +kernel
      roomRh := by constructor <;> decide +kernel
      supplyAir := by constructor <;> decide +kernel
      indoorCoil := by constructor <;> decide +kernel
      outdoorAir := by constructor <;> decide +kernel
      outdoorCoil := by constructor <;> decide +kernel
      staticPressure := by constructor <;> decide +kernel
      target := ⟨16, by decide, by decide +kernel⟩ }
  weights := by decide +kernel
  ages := by decide +kernel
  capacity := by constructor <;> decide +kernel
  blowerHold := by decide +kernel

/-- A zone station just after READY, with a neighbour (R6, R113). -/
theorem neighbour_rangesSound : (following .fresh 0).RangesSound where
  table e he h hh := by
    have hc : h = { freshness := .fresh, age := 0, contents := .plant (pr .cool .running true 4610) } := by
      have key : ∀ e ∈ (following .fresh 0).peers.entries, ∀ h ∈ e.held,
          h = { freshness := .fresh, age := 0, contents := .plant (pr .cool .running true 4610) } := by
        decide +kernel
      exact key e he h hh
    subst hc
    exact ⟨by decide, pr_in_range⟩
  address := by decide +kernel
  sensors :=
    { roomTemp := by constructor <;> decide +kernel
      roomRh := by constructor <;> decide +kernel
      supplyAir := by constructor <;> decide +kernel
      indoorCoil := by constructor <;> decide +kernel
      outdoorAir := by constructor <;> decide +kernel
      outdoorCoil := by constructor <;> decide +kernel
      staticPressure := by constructor <;> decide +kernel
      target := ⟨16, by decide, by decide +kernel⟩ }
  weights := by decide +kernel
  ages := by decide +kernel
  capacity := by constructor <;> decide +kernel
  blowerHold := by decide +kernel

theorem witness_ranges_stay_sound :
    ∃ s t : State, (∀ c ∈ s.pending, c.wf = true) ∧ s.loader.Sound ∧ s.TableSound ∧ s.RangesSound ∧
      step s = .next t :=
  ⟨following .fresh 0, following .fresh 0, by decide +kernel, zone_loader_sound, following_tableSound, neighbour_rangesSound, rfl⟩

theorem witness_sent_frames_have_their_layout :
    (zone.RangesSound ∧ zone.ZoneSound ∧ plant.RangesSound ∧ plant.PlantSound) ∧
    (zone.loader.straps.role = .zone ∧ zone.ownZone.InRange ∧ zone.line.Sound ∧ zone.demand.Sound ∧
      zone.damper.Sound ∧ ∀ a, zone.peers.followed = some a → 1 ≤ a ∧ a ≤ 15) ∧
      plant.loader.straps.role = .plant ∧ plant.ownPlant.InRange ∧ plant.line.Sound ∧ plant.RecordSound :=
  ⟨⟨zone_rangesSound, zone_zoneSound, plant_rangesSound, plant_plantSound⟩,
    ⟨by decide +kernel, zone_own_in_range, zone_line_sound, zone_zoneSound.demand, zone_zoneSound.damper,
      fun a h => by
        have e : zone.peers.followed = none := by decide +kernel
        rw [e] at h
        cases h⟩,
    by decide +kernel, by constructor <;> decide +kernel, plant_line_sound, plant_recordSound⟩

/-- What station 3 sends in its attempt. -/
def attempt3 : Attempt := { station3.sampleAttempt .main with gap := 110 }

theorem witness_attempts_end_by_completion_or_collision :
    ((after .attemptBegin station3).line.attempt = some attempt3 ∧
      (frameLevels attempt3.frame)[21]? = some true ∧
      (frameLevels attempt3.frame)[20]? ≠ some true ∧
      (after .attemptBegin station3).plantReady = false ∧
      (after .attemptBegin station3).line.rx.inFrame = false) ∧
      ∃ u : State, 1 ≤ u.address ∧ u.address ≤ 15 ∧ attempt3.frame = u.sampleFrame attempt3.kind :=
  ⟨by decide +kernel, station3, by decide +kernel, by decide +kernel, by decide +kernel⟩

theorem witness_records_round_trip_at_their_offsets :
    (zr .cool 1000 100 2 100).InRange ∧ (pr .cool .running true 4610).InRange := ⟨zr_in_range, pr_in_range⟩

theorem witness_frames_are_taken_by_their_check_value :
    (zone.ready = true ∧ zone.loader.powerAsserted = false ∧ zone.loader.inputAsserted = false ∧
      zone.line.attempt = none ∧ zone.line.rx = .hunt) ∧
      (encodeZone 7 (zr .cool 1000 100 2 100)).length = 18 ∧
      (encodePlant 7 (pr .cool .running true 4610)).length = 20 ∧
      zone.summaryPayload.length = 16 ∧ plant.summaryPayload.length = 30 ∧
      enumsGood (octet (1 * 16 + 15)) (encodeZone 7 (zr .cool 1000 100 2 100)) = true ∧
      enumsGood (octet (2 * 16 + 1)) (encodePlant 7 (pr .cool .running true 4610)) = true ∧
      [0#8, 0#8] ≠ crcOctets ([octet (1 * 16 + 15), octet 18] ++
        encodeZone 7 (zr .cool 1000 100 2 100)) ∧
      enumsGood (octet (1 * 16 + 15)) (List.replicate 18 0xFF#8) = false ∧
      ((0x41#8 : Byte).toNat / 16 = 4 ∧ (0x10#8 : Byte).toNat % 16 = 0) ∧
      ((0x1F#8 : Byte).toNat / 16 = 1 ∧ (17#8 : Byte).toNat ≠ 18) ∧
      ((0x21#8 : Byte).toNat / 16 = 2 ∧ (21#8 : Byte).toNat ≠ 20) ∧
      ((0x31#8 : Byte).toNat / 16 = 3 ∧ (18#8 : Byte).toNat ≠ 16 ∧ (18#8 : Byte).toNat ≠ 30) := by
  decide +kernel

theorem witness_zone_report_fills_its_entry :
    (zone.ready = true ∧ zone.line.attempt = none ∧ zone.line.rx = .hunt ∧ 15 ≠ zone.address ∧
      zone.peers.plantAt 15 = none ∧ zone.plantReady = false ∧ zone.loader.inputAsserted = false) ∧
      plant.ready = true ∧ plant.line.attempt = none ∧ plant.line.rx = .hunt ∧ 1 ≠ plant.address ∧
      plant.engine.shown = plant.plantState ∧ plant.loader.inputAsserted = false := by decide +kernel

/-- A PLANT report of the plant at address 12, a repeated one, and a ZONE report in its place. -/
def fromPlant (r : PlantRecord) : Instr := .frameReceived (buildFrame 2 12 (encodePlant 7 r))

theorem witness_report_moves_the_followed_plant :
    (following .fresh 0).TableSound ∧ (following .fresh 0).FollowSound ∧ (pr .cool .running true 4610).InRange ∧
      (zr .cool 1000 100 2 100).InRange ∧
      ((following .fresh 0).zoneReady = true ∧ (following .fresh 0).loader.powerAsserted = false ∧
        (following .fresh 0).loader.inputAsserted = false ∧ (following .fresh 0).line.attempt = none ∧
        (following .fresh 0).line.rx = .hunt ∧ 12 ≠ (following .fresh 0).address ∧
        (after (fromPlant (pr .cool .running true 4610)) (following .fresh 0)).peers.followedRecord =
          (following .fresh 0).peers.followedRecord ∧
        (after (fromPlant (pr .cool .running true 4611)) (following .fresh 0)).peers.followedRecord =
          some (pr .cool .running true 4611) ∧
        (after (.frameReceived (buildFrame 1 12 (encodeZone 7 (zr .cool 1000 100 2 100))))
          (following .fresh 0)).peers.plantLost = true) :=
  ⟨following_tableSound, following_followSound, pr_in_range, zr_in_range, by decide +kernel⟩

theorem witness_summary_frame_leaves_the_table :
    zone.ready = true ∧ zone.loader.powerAsserted = false ∧ zone.loader.inputAsserted = false ∧
      zone.line.attempt = none ∧ zone.line.rx = .hunt ∧ 15 ≠ zone.address ∧
      zone.summaryPayload.length = 16 ∧ plant.summaryPayload.length = 30 := by decide +kernel

theorem witness_own_address_frame_is_a_conflict :
    plant.PlantSound ∧ (zr .cool 1000 100 2 100).InRange ∧ (pr .cool .running true 4610).InRange ∧
      (zone.ready = true ∧ zone.loader.powerAsserted = false ∧ zone.loader.inputAsserted = false ∧
        zone.line.attempt = none ∧ zone.line.rx = .hunt ∧ 1 ≤ zone.address ∧ zone.address ≤ 15 ∧
        zone.loader.straps.role = .zone ∧ zone.line.yielded = false ∧
        zone.loader.tag.toNat ≤ (0 : Tag).toNat) ∧
      (plant.ready = true ∧ plant.line.attempt = none ∧ plant.line.rx = .hunt ∧ plant.address ≤ 15 ∧
        plant.loader.straps.role = .plant ∧ plant.line.yielded = false ∧
        plant.loader.tag.toNat ≤ (0 : Tag).toNat) :=
  ⟨plant_plantSound, zr_in_range, pr_in_range, by decide +kernel, by decide +kernel⟩

theorem witness_second_plant_is_detected :
    plant.PlantSound ∧ (pr .cool .running true 4610).InRange ∧
      (plant.plantReady = true ∧ plant.loader.powerAsserted = false ∧
        plant.loader.inputAsserted = false ∧ plant.line.attempt = none ∧ plant.line.rx = .hunt ∧
        4 < plant.address ∧ plant.address ≤ 15 ∧ (pr .cool .running true 4610).state ≠ .standby ∧
        plant.engine.standby = false) ∧
      (plant.engine.shown = plant.plantState ∧ plant.address < 6 ∧ plant.peers.plantAt 6 = none ∧
        (hold 6 .fresh 0 (.plant (pr .cool .running true 4610)) plant).peers.plantAt 6 =
          some (pr .cool .running true 4610)) :=
  ⟨plant_plantSound, pr_in_range, by decide +kernel, by decide +kernel⟩

theorem witness_age_timer_ages_every_entry :
    (zone.ready = true ∧ zone.TableSound) ∧ (following .late 79).FollowSound ∧
      (following .late 79).ready = true ∧ (following .late 79).peers.followed.isSome = true ∧
      (after .ageTimer (following .late 79)).peers.followed = none ∧
      (following .late 79).peers.grace = .expired ∧
      (after .ageTimer (following .late 78)).peers.followed = some 12 :=
  ⟨⟨by decide +kernel, zone_tableSound⟩, losing_followSound, by decide +kernel⟩

theorem witness_grace_timer_loses_the_plant :
    zone.zoneReady = true ∧ zone.peers.grace = .running ∧ zone.peers.followed = none ∧
      (zone.setPeers { zone.peers with followed := some 12 }).peers.followed.isSome = true := by
  decide +kernel

theorem witness_head_link_arrivals_loss_and_abandon :
    (zone.zoneReady = true ∧ zone.sensors.headRx = .hunt ∧ (-32768 : Int) ≤ -32768 ∧
      (32767 : Int) ≤ 32767 ∧ 65535 ≤ 65535) ∧
      (plant.plantReady = true ∧ plant.sensors.headRx = .hunt ∧
        (SystemSwitch.ofCode 0 = some .off ∧ plant.aside = false ∧ plant.sensors.headSeen = false) ∧
        (SystemSwitch.ofCode 4 = some .auto ∧ SystemSwitch.auto ≠ plant.sensors.systemSwitch) ∧
        (plant.setSensors { plant.sensors with headSeen := true }).sensors.headSeen = true) ∧
      (zone.ready = true ∧ zone.sensors.lossRunning = true) ∧
      (plant.ready = true ∧ [0#8, 0#8] ≠ crcOctets [2#8, 4#8, 1#8] ∧ 5 ≤ octetAt [5#8, 0#8] 0 ∧
        2 ≤ octetAt [0#8, 2#8] 1 ∧ 2 ≤ octetAt [0#8, 0#8, 0#8, 0#8, 0#8, 0#8, 2#8] 6 ∧
        zone.loader.straps.role = .zone ∧ plant.loader.straps.role = .plant) := by decide +kernel

/-- A zone station whose room temperature is at the top of its step limit. -/
def warming : State :=
  zone.setSensors
    { zone.sensors with
      link := .present, arrived := true
      roomTemp := { tracking 2400 with raw := some 2700, previous := some 2400 } }

/-- The warming zone a step past its limit, and with its RH at the top of its range. -/
def jumping : State :=
  warming.setSensors
    { warming.sensors with
      roomTemp := { warming.sensors.roomTemp with raw := some 2701 }
      roomRh := { tracking 900 with raw := some 1000 } }

/-- The room temperature's next reading faults it, or completes its recovery. -/
def almost (state : InputState) : State :=
  warming.setSensors
    { warming.sensors with
      roomTemp := { warming.sensors.roomTemp with state := state, hold := 29, recovery := 9, raw := some 6001 } }

theorem witness_zone_inputs_at_an_expiry :
    (warming.zoneReady = true ∧ warming.sensors.link ≠ .missing ∧ warming.sensors.arrived = true ∧
      warming.sensors.roomTemp.raw = some 2700 ∧ warming.sensors.roomTemp.previous = some 2400 ∧
      (2700 : Int) - 2400 ≤ 300 ∧ warming.sensors.roomTemp.state = .tracking) ∧
      (jumping.zoneReady = true ∧ jumping.sensors.roomTemp.raw = some 2701 ∧
        (300 : Int) < 2701 - 2400 ∧ jumping.sensors.roomRh.raw = some 1000) ∧
      (zone.sensors.link ≠ .missing ∧ zone.sensors.arrived = false) ∧
      (after .lossTimer zone).sensors.link = .missing ∧
      ((almost .holding).sensors.roomTemp.raw = some 6001 ∧
        (after (.sensorTimer pins true) (almost .holding)).sensors.roomTemp.state = .faulted ∧
        (after (.sensorTimer pins true) (almost .holding)).sensors.faultEntries = 1) ∧
      (almost .faulted).sensors.roomTemp.state = .faulted ∧
      9 ≤ (almost .faulted).sensors.roomTemp.recovery := by decide +kernel

/-- The plant with inputs that have settled. -/
def settled : State :=
  plant.setSensors
    { plant.sensors with outdoorCoil := tracking (-200), staticPressure := tracking 180 }

theorem witness_plant_inputs_and_contacts :
    settled.plantReady = true ∧ settled.sensors.outdoorCoil.state = .tracking ∧
      settled.sensors.outdoorCoil.filtered = some (-200) ∧
      settled.sensors.staticPressure.state = .tracking ∧
      settled.sensors.staticPressure.filtered = some 180 ∧
      settled.sensors.supplyAir.state = .unseeded ∧
      (({ pins with outdoorCoil := 9000 } : PinSample).outdoorCoil ≤ 9000 ∧
        9000 < ({ pins with outdoorCoil := 9001 } : PinSample).outdoorCoil ∧
        500 < ({ pins with staticPressure := 501 } : PinSample).staticPressure) ∧
      0 ≤ pins.staticPressure ∧ pins.staticPressure ≤ 500 := by decide +kernel

theorem witness_first_outdoor_reading_seeds_the_index :
    newPlant.plantReady = true ∧ newPlant.aside = false ∧ newPlant.engine.listening ≠ .expired ∧
      newPlant.engine.step = none ∧ newPlant.sensors.outdoorAir.state = .unseeded ∧
      newPlant.sensors.outdoorAir.filtered = none ∧ -4000 ≤ pins.outdoorAir ∧
      pins.outdoorAir ≤ 9000 := by decide +kernel

/-- A zone station in COOL with valid inputs. -/
def cool : State := cooling 2450 550 2400 0 0 0

theorem witness_call_at_each_expiry :
    (cool.zoneReady = true ∧ cool.line.yielded = false ∧
      (cool.setSensors { cool.sensors with zoneSwitch := false }).sensors.zoneSwitch = false ∧
      (zone.sensors.zoneSwitch = true ∧ zone.sensors.roomTemp.valid = false) ∧
      (zone.setDemand { zone.demand with call := .off }).demand.call = .off) ∧
      (cool.sensors.zoneSwitch = true ∧ cool.sensors.roomTemp.valid = true ∧
        cool.sensors.roomTemp.value = 2450 ∧ cool.sensors.roomRh.value = 550 ∧
        cool.sensors.target + cool.zp.halfBand = 2450 ∧ cool.demand.call = .cool ∧
        (cool.setDemand { cool.demand with call := .heat }).demand.call = .heat ∧
        (cool.setDemand { cool.demand with call := .idle }).demand.call = .idle ∧
        (cool.setDemand { cool.demand with call := .dry }).demand.call = .dry) ∧
      (cool.setLine { cool.line with yielded := true }).line.yielded = true := by decide +kernel

theorem witness_sensible_demand_in_cool_and_heat :
    let s := cooling 2530 640 2400 15000 470 470
    s.zoneReady = true ∧ s.sensors.roomTemp.filtered = some 2530 ∧
      (after .demandTimer s).demand.call = .cool ∧
      (80 : Int) = 2530 - (s.sensors.target + s.zp.halfBand) := by decide +kernel

theorem witness_resting_and_latent_demand :
    zone.zoneReady = true ∧ (after .demandTimer zone).demand.call = .idle ∧
      zone.sensors.roomRh.valid = false ∧ cool.sensors.roomRh.filtered = some 550 := by decide +kernel

theorem witness_demand_reaches_the_share_unit :
    cool.zoneReady = true ∧ (after .demandTimer cool).demand.call ≠ cool.demand.call := by decide +kernel

theorem witness_tier_and_base_are_the_first_rows_that_hold : zone.zp.omin ≤ 100 := by decide +kernel

/-- Zone 1 of section 5.4, with a plant state in its view. -/
def sharing (state : PlantState) (call : Call) : State :=
  (fourZones zone).setShare
    { zone.share with
      view := some { mode := .cool, state := state, f := 4610 }
      inputs := { call := call, ds := 600, dl := 0, tempFault := false } }

theorem witness_relief_shares_cover_the_shortfall :
    ((sharing .running .cool).recompute.share.tier = 1 ∧ (sharing .running .idle).recompute.share.tier = 2 ∧
      (sharing .running .heat).recompute.share.tier = 0 ∧
      (sharing .defrost .cool).recompute.share.tier ≠ 0 ∧
      (sharing .defrost .cool).share.view = some { mode := .cool, state := .defrost, f := 4610 }) ∧
      (let zones := [(30, 64), (25, 28)];
      (∀ z ∈ zones, 1 ≤ z.1 ∧ z.2 ≤ 100) ∧
        2880 = (zones.map fun z => z.1 * (100 - z.2)).sum ∧ 0 < 2880) := by decide +kernel

theorem witness_homing_steps_and_damper_timers :
    ((zone.zoneReady = true ∧ zone.damper.state = .homing ∧ zone.damper.homingSteps + 1 < 1320) ∧
      1320 ≤ (zone.setDamper { zone.damper with homingSteps := 1319 }).damper.homingSteps + 1 ∧
      zone.damper.stored = some 120 ∧
      (zone.setDamper { zone.damper with stored := none }).damper.stored = none) ∧
    let s := zone.setDamper
      { zone.damper with
        state := .waitingBudget, position := some 0, taken := some 960, budget := 49, step := none }
    zone.zoneReady = true ∧ zone.damper.state ≠ .waitingBudget ∧ s.damper.state = .waitingBudget ∧
      s.damper.position = some 0 ∧ s.damper.taken = some 960 ∧ s.damper.budget < 2400 := by
  decide +kernel

/-- A drive at rest 24 steps from full travel. -/
def resting : Damper := { binding.damper with state := .holding, position := some 1176, step := none }

theorem witness_offers_are_taken_by_the_drive_state :
    (Damper.reset.state = .unhomed ∧ zone.damper.state = .homing ∧ resting.fault.state = .faulted ∧
      binding.damper.state = .moving ∧
      ({ resting with state := .waitingBudget } : Damper).state = .waitingBudget) ∧
      (resting.state = .holding ∧ resting.position = some 1176 ∧ 1152 + 24 ≤ 1176 ∧ 1176 + 24 ≤ 1200 ∧
        1176 < 1153 + 24) ∧
      zone.recompute.share.target = .percent 10 ∧
      (zone.setDamper resting.fault).recompute.share.target = .unknown := by decide +kernel

theorem witness_move_steps_toward_its_target :
    (binding.zoneReady = true ∧ binding.damper.state = .moving ∧ binding.damper.position = some 780 ∧
      binding.damper.taken = some 960 ∧ binding.damper.step = some .opening ∧
      781 = (if Direction.opening = .opening then 780 + 1 else 780 - 1)) ∧
      (binding.damper.rehomeAge = some 4001 ∧ 600 ≤ 4001) ∧
      (binding.setDamper { binding.damper with rehomeAge := some 600 }).damper.rehomeAge = some 600 ∧
      (binding.setDamper { binding.damper with rehomeAge := some 599 }).damper.rehomeAge = some 599 := by
  decide +kernel

/-- A plant whose system switch is at OFF. -/
def switchedOff (s : State) : State := s.setSensors { s.sensors with systemSwitch := .off }

theorem witness_mode_follows_switch_and_weights :
    plant.plantReady = true ∧ plant.aside = false ∧ plant.sensors.systemSwitch = .off ∧
      (turning.sensors.systemSwitch = .auto ∧ turning.engine.state = .idle ∧
        turning.modeSel.mode.group ≠ .none) ∧
      12000 = callWeight .cool ZoneRecord.ds turning.zoneEntries ∧
      25000 = callWeight .heat ZoneRecord.ds turning.zoneEntries ∧
      0 = callWeight .dry ZoneRecord.dl turning.zoneEntries ∧ plant.modeSel.mode.group = .none ∧
      (atStep .start .s1 turning).engine.state ≠ .idle ∧
      (turning.engine.listening = .expired ∧ turning.engine.running = none ∧
        turning.engine.requests = .empty ∧ turning.engine.run = true ∧ plant.engine.run = false ∧
        turning.modeExpiry.modeSel.mode = .heat ∧ coolPlant.modeExpiry.modeSel.mode = .cool ∧
        (switchedOff coolPlant).modeExpiry.modeSel.mode = .off) ∧
      (atStep .start .s1 (switchedOff coolPlant)).engine.state = .running ∧
      (atStep .start .s1 (switchedOff coolPlant)).engine.running = some .start ∧
      (atStep .start .s1 (switchedOff coolPlant)).modeExpiry.modeSel.mode.group = .none ∧
      (coolPlant.modeSel.mode.group = .cooling ∧ coolPlant.sensors.systemSwitch ≠ .off ∧
        coolPlant.sensors.systemSwitch ≠ .fan ∧ 120 = min 65535 (110 + 10) ∧ turning.modeSel.mode.group = .cooling ∧
        2 * (12000 + 0) ≤ 25000) := by decide +kernel

theorem witness_capacity_is_the_weighted_mean :
    (coolPlant.plantReady = true ∧ coolPlant.aside = false ∧
      100 = (coolPlant.zoneEntries.map fun e => e.2.weight).sum ∧
      ∀ e ∈ coolPlant.zoneEntries, e.2.ds ≤ 1000 ∧ e.2.dl ≤ 1000) ∧
      0 = (plant.zoneEntries.map fun e => e.2.weight).sum ∧ plant.zoneEntries = [] := by decide +kernel

/-- The plant of section 7.8 with its blower running. -/
def blowing : State := coolPlant.setCapacity { coolPlant.capacity with blowerCommand := 461 }

/-- Its blocks. -/
theorem blowing_plantSound : blowing.PlantSound where
  loader := plant_loader_sound
  held h := by
    have e : blowing.plantReady = true := by decide +kernel
    rw [e] at h
    cases h
  off := by decide +kernel
  on := by decide +kernel
  follows _ := by
    have e : blowing.engine.speedHold = none ∧ blowing.capacity.speedFollows = true ∧
        blowing.capacity.loopSpeed = blowing.capacity.speedCommand := by decide +kernel
    rw [e.1]
    exact e.2
  air := by decide +kernel
  caps := by decide +kernel
  idle _ := by constructor <;> decide +kernel
  between := by decide +kernel
  chain p st h := by
    have e : blowing.engine.running = none := by decide +kernel
    rw [e] at h
    cases h
  blower := by decide +kernel
  aside := by decide +kernel

theorem witness_capacity_period_moves_its_loops :
    blowing.PlantSound ∧ blowing.plantReady = true ∧ blowing.aside = false ∧
      100 = (blowing.zoneEntries.map fun e => e.2.weight).sum ∧ blowing.capacity.speedFollows = true ∧
      (after .plantControlTimer blowing).capacity.speedFollows = true ∧
      (after .plantControlTimer blowing).modeSel.mode = .cool ∧
      (after .plantControlTimer blowing).engine.blowerHold = none ∧
      (after .plantControlTimer plant).capacity.speedFollows = false ∧
      (after .plantControlTimer turning).engine.blowerHold = some 400 :=
  ⟨blowing_plantSound, by decide +kernel⟩

theorem witness_plant_one_shot_timers_expire :
    (lockedOut.plantReady = true ∧ lockedOut.aside = false ∧ lockedOut.modeSel.offHold = true ∧
      lockedOut.engine.shown = lockedOut.plantState ∧ lockedOut.plantState = .lockout) ∧
      newPlant.plantReady = true ∧ newPlant.engine.listening = .running := by decide +kernel

/-- The plant of section 7.8 with a procedure WAITING at a step for an answer of the Protection Unit. -/
def waitingAt (p : Proc) (st : StepId) (g : GuardRequest) (s : State) : State :=
  let u := atStep p st s
  (u.setEngine { u.engine with state := .waiting }).setProtection { u.protection with waiting := some g }

/-- A plant with a pending set. -/
def asking (r : Requests) (s : State) : State := s.setEngine { s.engine with requests := r }

theorem witness_requests_join_the_pending_set :
    (plant.setEngine { plant.engine with standby := true }).aside = true ∧
      (plant.engine.listening = .expired ∧ plant.aside = false ∧ plant.protection.lockout = none) ∧
      lockedOut.protection.lockout.isSome = true ∧ lockedOut.engine.listening = .expired ∧
      (atStep .start .s1 plant).engine.running = some .start ∧
      (atStep .changeover .x2 plant).engine.running = some .changeover ∧ plant.modeSel.mode ≠ .heat ∧
      (atStep (.stop .demand) .t2 plant).engine.running = some (.stop .demand) ∧
      (asking { Requests.empty with stop := some .freeze } plant).engine.requests.stop = some .freeze ∧
      ((atStep .start .s4 (frosting 0 0)).engine.state = .running ∧
        (atStep .start .s4 (frosting 0 0)).engine.requests = .empty ∧
        (atStep .start .s4 (frosting 0 0)).modeSel.mode = .heat ∧
        (atStep .start .s4 (frosting 0 0)).engine.run = true ∧
        (atStep .start .s4 (frosting 0 0)).engine.valve = .heating) ∧
      (waitingAt (.stop .demand) .t1 .stop plant).engine.state = .waiting := by decide +kernel

theorem witness_stop_and_start_begin :
    (coolPlant.engine.listening = .expired ∧ coolPlant.aside = false ∧ coolPlant.engine.requests = .empty ∧
      coolPlant.engine.state = .idle ∧ coolPlant.engine.running = none ∧
      coolPlant.protection.waiting = none ∧ coolPlant.protection.run = some 1000 ∧
      coolPlant.pp.minRun ≤ 1000) ∧
      (coolPlant.setProtection { coolPlant.protection with run := some 299 }).protection.run = some 299 ∧
      299 < coolPlant.pp.minRun ∧
      ((waitingAt .start .s3 .start plant).engine.state = .waiting ∧
        (waitingAt .start .s3 .start plant).engine.running = some .start ∧
        (waitingAt .start .s3 .start plant).engine.requests = .empty) ∧
      (let s := asking { Requests.empty with stop := some .demand } (atStep .start .s1 plant);
      s.plantReady = true ∧ s.engine.running = some .start ∧ s.engine.step = some .s1 ∧
        StepId.s1.next = some .s2 ∧ s.engine.state = .running ∧ s.engine.delaying = false ∧
        s.engine.exitTime = some 30 ∧ s.engine.requests.stop = some .demand) ∧
      (let s := waitingAt (.stop .demand) .t1 .stop coolPlant;
      s.engine.state = .waiting ∧ s.engine.running = some (.stop .demand) ∧ s.engine.step = some .t1 ∧
        s.protection.waiting = some .stop ∧ s.engine.listening = .expired ∧ s.aside = false) ∧
      (plant.engine.state = .idle ∧ plant.engine.running = none ∧ plant.engine.run = false ∧
        plant.protection.lockout = none ∧ coolPlant.engine.run = true ∧
        coolPlant.protection.lockout = none) := by decide +kernel

theorem witness_chains_end_and_are_withdrawn :
    (let s := atStep (.stop .freeze) .t2 plant;
      s.plantReady = true ∧ s.aside = false ∧ s.engine.running = some (.stop .freeze) ∧
        s.engine.step = some .t2 ∧ s.engine.state = .running ∧ s.engine.delaying = false ∧
        s.engine.exitTime = some 60 ∧ s.engine.requests = .empty) ∧
      (coolPlant.engine.listening = .expired ∧ coolPlant.engine.run = true ∧
        coolPlant.protection.run = some 1000 ∧ coolPlant.pp.minRun ≤ 1000) ∧
      (coolPlant.setProtection { coolPlant.protection with run := some 299 }).protection.run = some 299 ∧
      (let s := plant.setProtection { plant.protection with stopAge := 60 };
      s.engine.run = false ∧ s.protection.run = none ∧ 60 ≤ s.protection.stopAge) ∧
      (let s := (waitingAt (.stop .demand) .t1 .stop coolPlant).setCapacity
          { coolPlant.capacity with c := 150 };
      s.engine.state = .waiting ∧ s.engine.requests = .empty ∧ s.pp.startThreshold ≤ s.capacity.c ∧
        s.modeSel.mode.valve = some .cooling ∧ s.engine.valve = .cooling) ∧
      (let s := waitingAt .start .s3 .start plant;
      s.engine.running = some .start ∧ s.engine.step = some .s3 ∧ s.capacity.c < s.pp.stopThreshold) ∧
      (waitingAt .start .s2 .valve plant).engine.step = some .s2 := by decide +kernel

theorem witness_static_trip_and_emergency_hold :
    ((pressed.plantReady = true ∧ pressed.aside = false ∧
      (after .protectionTimer pressed).capacity.staticCount = 10 ∧
      0 < pressed.capacity.blowerCommand ∧ pressed.engine.listening = .expired ∧
      pressed.engine.inEmergency = false ∧ pressed.protection.run.isSome = true) ∧
      (atStep (.emergency .inverter) .e2 pressed).engine.inEmergency = true ∧
      (atStep .start .s1 pressed).engine.running.isSome = true) ∧
    ((emergency 2).plantReady = true ∧ (emergency 2).engine.running = some (.emergency .static) ∧
      (emergency 2).engine.step = some .e2 ∧ (emergency 2).engine.state = .running ∧
      (emergency 2).engine.delaying = false ∧ 2 ≤ (emergency 2).engine.emergencyHold) ∧
      (emergency 1).engine.emergencyHold ≤ 1 ∧ (emergency 1).engine.requests = .empty := by
  decide +kernel

/-- The plant of section 7.8 a second before a count ends, with a contact asserted or not. -/
def guarded (inverter condensate : Bool) (coil : Int) (airCount : Nat) : State :=
  (blowing.setSensors
    { blowing.sensors with
      inverter := { asserted := inverter, last := some true }
      condensate := { asserted := condensate, last := some true }, indoorCoil := tracking coil }).setCapacity
    { blowing.capacity with freezeCount := 119, airflowCount := airCount, effective := 299 }

theorem witness_protective_requests_stop_the_compressor :
    (blowing.plantReady = true ∧ blowing.aside = false ∧ blowing.engine.listening = .expired ∧
      blowing.engine.state = .idle ∧ blowing.engine.running = none ∧ blowing.engine.run = true ∧
      blowing.engine.requests = .empty ∧ blowing.protection.waiting = none ∧
      blowing.capacity.staticCount < 9 ∧ blowing.modeSel.mode = .cool ∧ blowing.engine.step = none) ∧
      (guarded true false 850 0).sensors.inverter.asserted = true ∧
      (guarded false true 850 0).sensors.condensate.asserted = true ∧
      ((guarded false false (-201) 0).sensors.indoorCoil.value < -200 ∧
        min 120 ((guarded false false (-201) 0).capacity.freezeCount + 1) = 120) ∧
      (let s := (blowing.setModeSel { blowing.modeSel with mode := .heat }).setSensors
          { blowing.sensors with supplyAir := tracking 6500 };
      s.modeSel.mode = .heat ∧ s.sensors.supplyAir.valid = true ∧ 6500 ≤ s.sensors.supplyAir.value) ∧
      ((guarded false false 850 59).capacity.effective < 300 ∧
        min 60 ((guarded false false 850 59).capacity.airflowCount + 1) = 60) ∧
      (guarded false false 850 0).sensors.inverter.last = some true ∧
      ({ pins with inverterFault := true } : PinSample).inverterFault = true ∧
      ({ pins with condensateFloat := true } : PinSample).condensateFloat = true ∧
      (guarded false false 850 0).engine.inEmergency = false := by decide +kernel

theorem witness_plant_state_is_the_first_row_that_holds :
    ((atStep .changeover .x2 plant).engine.running = some .changeover ∧
      (atStep .changeover .x2 plant).engine.step = some .x2 ∧ StepId.x2 ∈ Proc.changeover.chain ∧
      (atStep .changeover .s4 plant).plantState = .starting) ∧
      (after .offHoldTimer lockedOut).plantReady = true ∧ lockedOut.plantReady = true ∧
      lockedOut.engine.shown = lockedOut.plantState ∧
      (after .offHoldTimer lockedOut).plantState ≠ lockedOut.plantState := by decide +kernel

/-- The START with its spacing met. -/
def granted : State :=
  starting.setProtection { starting.protection with stopAge := 180, valveAge := 30, budget := 1 }

theorem witness_start_grant_runs_the_compressor :
    granted.plantReady = true ∧ granted.engine.running = some .start ∧ granted.engine.step = some .s1 ∧
      granted.engine.state = .running ∧ granted.engine.delaying = false ∧
      granted.engine.exitTime = some 30 ∧ granted.engine.requests = .empty ∧
      granted.modeSel.mode.valve = some .heating ∧ granted.engine.valve = .heating ∧
      granted.pp.stopThreshold ≤ granted.capacity.c ∧ granted.startPermitted = true := by decide +kernel

theorem witness_defrost_melts_until_its_limit :
    ((defrosting .d4).plantReady = true ∧ (defrosting .d4).engine.running = some .defrost ∧
      (defrosting .d4).engine.state = .running ∧ (defrosting .d4).engine.requests = .empty ∧
      (defrosting .d4).engine.step = some .d4 ∧ (defrosting .d4).engine.delaying = true ∧
      (defrosting .d4).sensors.outdoorCoil.valid = false) ∧
      (defrosting .d5).engine.step = some .d5 ∧ (defrosting .d5).engine.delaying = false ∧
      (defrosting .d5).engine.timeLimit = some 840 := by decide +kernel

/-- A DEFROST at D5 whose coil is a reading away from 1200, with D5's end as given. -/
def melting (st : StepId) (way : Option D5End) : State :=
  let s := defrosting st
  (s.setSensors { s.sensors with outdoorCoil := tracking 1199 }).setEngine { s.engine with d5 := way }

theorem witness_defrost_ends_are_counted :
    (let s := melting .d5 none;
      s.plantReady = true ∧ s.engine.running = some .defrost ∧ s.engine.step = some .d5 ∧
        s.engine.state = .running ∧ s.engine.delaying = false ∧ s.engine.requests = .empty ∧
        s.sensors.outdoorCoil.valid = true ∧ s.sensors.outdoorCoil.filtered = some 1199 ∧
        1200 ≤ 1199 + nearest (1201 - 1199) 4 ∧ pins.inverterFault = false ∧
        pins.condensateFloat = false) ∧
      ((melting .d10 (some .limit)).engine.step = some .d10 ∧
        (melting .d10 (some .limit)).engine.timeLimit = some 120 ∧
        (melting .d10 (some .limit)).engine.d5 = some .limit ∧
        (melting .d10 (some .exit)).engine.d5 = some .exit) ∧
      ((melting .d5 none).engine.listening = .expired ∧ (melting .d5 none).aside = false) ∧
      (let s := asking { Requests.empty with stop := some .demand } (melting .d7 (some .exit));
      s.engine.step = some .d7 ∧ s.engine.exitTime = some 30 ∧ s.engine.requests.stop = some .demand) ∧
      (melting .d2 none).engine.step = some .d2 := by decide +kernel

/-- A plant whose units allow whatever waits at the next second. -/
def ripe (p : Proc) (st : StepId) (g : GuardRequest) : State :=
  let s := waitingAt p st g coolPlant
  (s.setCapacity { s.capacity with c := 80 }).setProtection
    { s.protection with stopAge := 179, valveAge := 59, run := some 299 }

theorem witness_retained_timer_advances :
    (State.reset.protection.held = true ∧
      (plant.protection.held = false ∧ plant.protection.waiting = none ∧ plant.plantReady = true) ∧
      zone.plantReady = false ∧ zone.protection.held = false ∧ zone.protection.waiting = none ∧
      (let s := lockedOut.setProtection { lockedOut.protection with lockout := some 1 };
        s.protection.waiting = none ∧ s.protection.lockout = some 1 ∧ s.plantReady = true)) ∧
      (let s := ripe .start .s3 .start;
      s.plantReady = true ∧ s.aside = false ∧ s.protection.held = false ∧
        s.protection.waiting = some .start ∧ s.engine.requests = .empty ∧ s.engine.state = .waiting ∧
        s.engine.step = some .s3 ∧
        (s.protection.afterSecond true).stopAge = 180 ∧ s.pp.antiShort = 180 ∧
        (s.protection.afterSecond true).history = [] ∧ (s.protection.afterSecond true).budget = 1 ∧
        (s.protection.afterSecond true).lockout = none ∧ s.engine.emergencyHold = 0 ∧
        s.sensors.condensate.asserted = false) ∧
      (let s := (ripe (.stop .demand) .t1 .stop).setProtection
          { (ripe (.stop .demand) .t1 .stop).protection with lockout := some 1 };
      s.plantReady = true ∧ s.plantState = .stopping ∧ s.protection.waiting = some .stop) ∧
      (let s := ripe (.stop .demand) .t1 .stop;
      (s.protection.afterSecond true).run = some 300 ∧ s.pp.minRun = 300) ∧
      (let s := ripe .changeover .x1 .stop;
      s.engine.step = some .x1 ∧ s.engine.run = true) ∧
      (let s := (ripe .start .s2 .valve).setModeSel { coolPlant.modeSel with mode := .heat };
      s.modeSel.mode.valve = some .heating ∧ s.engine.valve = .cooling ∧
        s.pp.stopThreshold ≤ s.capacity.c ∧ (s.protection.afterSecond true).valveAge = 60) ∧
      (let s := (after .plantControlTimer turning).setProtection
          { (after .plantControlTimer turning).protection with stopAge := 59 };
      s.engine.running = some .changeover ∧ s.engine.step = some .x2 ∧
        s.protection.waiting = some .spacing ∧ (s.protection.afterSecond true).stopAge = 60) := by
  decide +kernel

theorem witness_frost_timer_advances_and_defrosts :
    ((plant.setEngine { plant.engine with standby := true }).aside = true ∧
      plant.plantReady = true ∧ plant.aside = false) ∧
      (after .frostTimer plant).frost.interval < plant.pp.defrostInterval ∧
      (let s := frosting 9960 1799;
        s.heatRunning = true ∧ s.pp.defrostInterval ≤ (after .frostTimer s).frost.interval ∧
        s.sensors.outdoorCoil.valid = true ∧ (after .frostTimer s).frost.index = 10000 ∧
        s.engine.state = .idle ∧ s.engine.requests = .empty ∧ s.engine.listening = .expired ∧
        s.engine.valve = .heating) ∧
      (let s := ((frosting 0 1799).setFrost { (frosting 0 1799).frost with timed := 2699 }).setSensors
          { (frosting 0 1799).sensors with
            outdoorCoil := { tracking (-200) with state := .faulted }, outdoorAir := tracking 499 };
      s.heatRunning = true ∧ (after .frostTimer s).frost.timed = 2700 ∧
        s.sensors.outdoorAirValue < 500 ∧ s.sensors.outdoorCoil.valid = false) := by decide +kernel

end Sys2Proof.Tests
end

