-- ==== Sys2Proof/Proofs/Prompts.lean ====
section
/-! PROOFS. What the plant's and the zone's shared operations do to the line, to the shown plant state and to the
outputs of the Capacity Controller: at most the main report's prompt, nothing, and the blower command alone. -/

namespace Sys2Proof.Machine

/-! ## The main report's prompt (R8) -/

/-- A second trigger of a kind changes nothing (R8). -/
@[simp] theorem LineState.trigger_trigger (k : ReportKind) (l : LineState) :
    (l.trigger k).trigger k = l.trigger k := by
  cases k <;> simp [LineState.trigger, LineState.setKind, LineState.kind, LineState.attempting]

/-- The line stands as it was, or with the main report prompted (R8, R10, R11). -/
def LineState.Prompted (l l' : LineState) : Prop := l' = l ∨ l' = l.trigger .main

theorem LineState.Prompted.refl (l : LineState) : l.Prompted l := .inl rfl

theorem LineState.Prompted.trans {l l' l'' : LineState} (h : l.Prompted l') (k : l'.Prompted l'') :
    l.Prompted l'' := by
  obtain rfl | rfl := h
  · exact k
  · obtain rfl | rfl := k
    · exact .inr rfl
    · exact .inr (LineState.trigger_trigger _ _)

/-- A prompt that stands goes on standing. -/
theorem LineState.Prompted.pending {l l' : LineState} (h : l.Prompted l') (hp : l.main.pending = true) :
    l'.main.pending = true := by
  obtain rfl | rfl := h
  · exact hp
  · rfl

@[simp] theorem LineState.settle_main (b : Bool) (l : LineState) : (l.settle b).main = l.main := by
  unfold LineState.settle
  (repeat' split) <;> rfl

/-- The operation leaves the loader and the shown plant state alone, and of the line it raises at most the main
report's prompt. -/
structure PromptFrame (s t : State) : Prop where
  loader : t.loader = s.loader
  line : s.line.Prompted t.line
  shown : t.engine.shown = s.engine.shown

theorem PromptFrame.refl (s : State) : PromptFrame s s := ⟨rfl, .refl _, rfl⟩

theorem PromptFrame.trans {s t u : State} (h : PromptFrame s t) (k : PromptFrame t u) : PromptFrame s u :=
  ⟨k.loader.trans h.loader, h.line.trans k.line, k.shown.trans h.shown⟩

theorem PromptFrame.after {s t u : State} (k : PromptFrame t u) (h : PromptFrame s t) : PromptFrame s u :=
  h.trans k

theorem PromptFrame.of {s t : State} (hl : t.loader = s.loader) (hline : t.line = s.line)
    (hs : t.engine.shown = s.engine.shown) : PromptFrame s t := ⟨hl, .inl hline, hs⟩

theorem State.prompt_promptFrame (s : State) : PromptFrame s s.prompt := ⟨rfl, .inr rfl, rfl⟩

/-! ## The plant's outputs -/

/-- The blower values lie within 0 to 1000: the loop's, the command, and the one a step holds (R113, R123). -/
structure State.BlowerInRange (s : State) : Prop where
  loop : s.capacity.loopBlower ≤ 1000
  command : s.capacity.blowerCommand ≤ 1000
  hold : ∀ v, s.engine.blowerHold = some v → v ≤ 1000

/-- The engine's operations prompt at most, change of the Capacity Controller the commands and the loop speed alone,
and keep the blower values in range. -/
structure EngineFrame (s t : State) : Prop extends PromptFrame s t where
  capacity : t.capacity =
    { s.capacity with
      loopSpeed := t.capacity.loopSpeed, speedCommand := t.capacity.speedCommand
      speedFollows := t.capacity.speedFollows, blowerCommand := t.capacity.blowerCommand }
  blower : s.loader.Sound → s.BlowerInRange → t.BlowerInRange

theorem EngineFrame.refl (s : State) : EngineFrame s s := ⟨.refl s, rfl, fun _ h => h⟩

theorem EngineFrame.trans {s t u : State} (h : EngineFrame s t) (k : EngineFrame t u) : EngineFrame s u where
  toPromptFrame := h.toPromptFrame.trans k.toPromptFrame
  capacity := by rw [k.capacity, h.capacity]
  blower := fun hl hb => k.blower (h.loader ▸ hl) (h.blower hl hb)

theorem EngineFrame.after {s t u : State} (k : EngineFrame t u) (h : EngineFrame s t) : EngineFrame s u :=
  h.trans k

/-- A held blower value that is new is at most the fan airflow (R142 to R147). -/
theorem EngineFrame.of {s t : State} (hl : t.loader = s.loader) (hline : s.line.Prompted t.line)
    (hs : t.engine.shown = s.engine.shown) (hc : t.capacity = s.capacity)
    (hh : ∀ v, t.engine.blowerHold = some v → s.engine.blowerHold = some v ∨ v ≤ s.pp.fanAirflow) :
    EngineFrame s t where
  loader := hl
  line := hline
  shown := hs
  capacity := by rw [hc]
  blower hls hb := by
    refine ⟨hc ▸ hb.loop, hc ▸ hb.command, fun v hv => ?_⟩
    rcases hh v hv with h | h
    · exact hb.hold v h
    · exact h.trans (State.pp_inRange hls).fanAirflow.2

/-- An operation that leaves the loader, the line, the controller, the shown plant state and the held blower value
alone. -/
theorem EngineFrame.same {s t : State} (hl : t.loader = s.loader) (hline : t.line = s.line)
    (hs : t.engine.shown = s.engine.shown) (hc : t.capacity = s.capacity)
    (hh : t.engine.blowerHold = s.engine.blowerHold) : EngineFrame s t :=
  .of hl (.inl hline) hs hc fun _ hv => .inl (hh ▸ hv)

theorem State.prompt_engineFrame (s : State) : EngineFrame s s.prompt :=
  .of rfl (.inr rfl) rfl rfl fun _ hv => .inl hv

/-- The outputs follow: the blower command is 0, a held value, or the loop's with at least 100 (R123). -/
theorem State.driveOutputs_engineFrame (s : State) : EngineFrame s s.driveOutputs where
  loader := rfl
  line := .refl _
  shown := rfl
  capacity := rfl
  blower _ hb := by
    refine ⟨hb.loop, ?_, hb.hold⟩
    have hloop := hb.loop
    simp only [State.driveOutputs, State.setCapacity_capacity]
    split
    · omega
    · cases hv : s.engine.blowerHold with
      | none => simp only [Option.getD_none]; split <;> omega
      | some v => exact hb.hold v hv

theorem State.runOff_engineFrame (s : State) : EngineFrame s s.runOff := by
  unfold State.runOff; split
  · exact .same rfl rfl rfl rfl rfl
  · exact .refl s

theorem State.driveValve_engineFrame (v : Valve) (s : State) : EngineFrame s (s.driveValve v) := by
  unfold State.driveValve; split
  · exact .refl s
  · exact .same rfl rfl rfl rfl rfl

theorem State.closeRun_engineFrame (c : StopCause) (s : State) : EngineFrame s (s.closeRun c) := by
  obtain ⟨r, n, he⟩ := State.closeRun_engine c s
  exact .same (State.closeRun_plant c s).loader (by simp) (by rw [he]) (by simp) (by rw [he])

theorem State.endProc_engineFrame (o : ProcOutcome) (s : State) : EngineFrame s (s.endProc o) := by
  unfold State.endProc
  refine EngineFrame.trans ?_ (State.driveOutputs_engineFrame _)
  dsimp only
  split
  · exact .of rfl (.refl _) (by cases o <;> rfl) rfl (by simp)
  · exact .of rfl (.refl _) (by cases o <;> rfl) rfl (by simp)

/-- A step's action: of what the frame reads it may hold a blower value, 0 or the fan airflow (R142 to R147). -/
theorem State.act_engineFrame (st : StepId) (s : State) : EngineFrame s (s.act st) := by
  obtain ⟨hc, hline, _, _, _, _, he⟩ := State.act_effect st s
  refine .of (State.act_plant st s).loader (.inl hline) (by rw [he]) hc fun v hv => ?_
  rw [he] at hv
  dsimp only at hv
  split at hv
  · cases hv
  · cases hv
  · exact .inr (Option.some.inj hv ▸ le_refl _)
  · exact .inr (Option.some.inj hv ▸ le_refl _)
  · exact .inr (Option.some.inj hv ▸ Nat.zero_le _)
  · exact .inr (Option.some.inj hv ▸ Nat.zero_le _)
  · exact .inr (Option.some.inj hv ▸ Nat.zero_le _)
  · exact .inl hv

theorem State.mark_engineFrame (st : StepId) (s : State) : EngineFrame s (s.mark st) := by
  unfold State.mark; split
  · exact EngineFrame.after (State.prompt_engineFrame _) (.same rfl rfl rfl rfl rfl)
  · exact .refl s

/-! ## The engine's moves (R138 to R141) -/

theorem State.takeStep_engineFrame (st : StepId) (s : State) : EngineFrame s (s.takeStep st).2 := by
  have h : EngineFrame s (s.current st) := .same rfl rfl rfl rfl rfl
  unfold State.takeStep
  dsimp only
  split
  · exact h.trans (State.endProc_engineFrame _ _)
  · split
    next g _ =>
      have k : EngineFrame (s.current st)
          (((s.current st).setEngine { (s.current st).engine with state := .waiting }).setProtection
            { (s.current st).protection with waiting := some g }) := .same rfl rfl rfl rfl rfl
      split
      · exact (h.trans k).trans (State.endProc_engineFrame _ _)
      · split
        · exact (h.trans k).trans (.same rfl rfl rfl rfl rfl)
        · exact h.trans k
    next => split <;> exact h

theorem State.askSpacing_engineFrame (s : State) : EngineFrame s s.askSpacing.2 := by
  unfold State.askSpacing; split
  · exact .refl s
  · exact .same rfl rfl rfl rfl rfl

theorem State.applyStep_engineFrame (s : State) : EngineFrame s s.applyStep.2 := by
  unfold State.applyStep
  split
  · exact .refl s
  · rename_i st _
    have h : EngineFrame s
        ((((s.setEngine { s.engine with state := .running, delaying := false, stepTime := 0 }).act
          st).driveOutputs).mark st) :=
      .after (State.mark_engineFrame _ _) (.after (State.driveOutputs_engineFrame _)
        (.after (State.act_engineFrame st _) (.same rfl rfl rfl rfl rfl)))
    dsimp only
    split
    · exact h.trans (State.askSpacing_engineFrame _)
    · split <;> exact h

theorem State.writeBoundary_engineFrame (st : StepId) (b : Bool) (s : State) :
    EngineFrame s (s.writeBoundary st b) := by
  unfold State.writeBoundary
  dsimp only
  split <;> exact .same rfl rfl rfl rfl rfl

theorem State.boundary_engineFrame (b : Bool) (s : State) : EngineFrame s (s.boundary b).2 := by
  unfold State.boundary
  split
  · exact .refl s
  · rename_i st _
    have h := State.writeBoundary_engineFrame st b s
    dsimp only
    split
    · exact h.trans (State.endProc_engineFrame _ _)
    · split
      · exact h.trans (State.endProc_engineFrame _ _)
      · exact h

theorem State.startNext_engineFrame (s : State) : EngineFrame s s.startNext.2 := by
  unfold State.startNext
  split
  · exact .refl s
  · dsimp only; split <;> exact .same rfl rfl rfl rfl rfl

theorem State.move_engineFrame (t : Todo) (s : State) : EngineFrame s (s.move t).2 := by
  cases t with
  | take st => exact State.takeStep_engineFrame _ s
  | apply => exact State.applyStep_engineFrame s
  | boundary b => exact State.boundary_engineFrame _ s
  | startNext => exact State.startNext_engineFrame s
  | rest => exact .refl s

theorem State.run_engineFrame (t : Todo) (s : State) : EngineFrame s (s.run t) := by
  obtain ⟨_, h⟩ := State.drive_keeps (P := fun _ u => EngineFrame s u)
    (fun t u hu => hu.trans (State.move_engineFrame t u)) 64 t s (.refl s)
  exact h

/-! ## Requests (R136, R144, R147) -/

theorem State.setRequests_engineFrame (r : Requests) (s : State) : EngineFrame s (s.setRequests r) :=
  .same rfl rfl rfl rfl rfl

theorem State.withdrawRequest_engineFrame (s : State) : EngineFrame s s.withdrawRequest :=
  .same rfl rfl rfl rfl rfl

theorem State.entered_engineFrame (p : Proc) (s : State) : EngineFrame s (s.entered p) := by
  unfold State.entered
  split
  · exact State.run_engineFrame _ s
  · split
    · exact (State.endProc_engineFrame _ s).trans (State.run_engineFrame _ _)
    · exact .refl s
  · exact .refl s
  · exact .refl s

theorem State.startEmergency_engineFrame (c : EmergencyCause) (s : State) :
    EngineFrame s (s.startEmergency c) := by
  have hstart (u : State) : EngineFrame u ((u.startProc (.emergency c)).run (.take .e1)) :=
    EngineFrame.after (State.run_engineFrame _ _) (.same rfl rfl rfl rfl rfl)
  unfold State.startEmergency
  dsimp only
  split
  · exact (State.endProc_engineFrame _ s).trans (hstart _)
  · exact hstart s

theorem State.mergeEmergency_engineFrame (c : EmergencyCause) (s : State) :
    EngineFrame s (s.mergeEmergency c) := by
  unfold State.mergeEmergency; split
  · exact .same rfl rfl rfl rfl rfl
  · exact .refl s

theorem State.mergeStop_engineFrame (r : StopReason) (s : State) : EngineFrame s (s.mergeStop r) := by
  unfold State.mergeStop
  split
  · exact EngineFrame.after (State.run_engineFrame _ _) (.same rfl rfl rfl rfl rfl)
  · exact .refl s

theorem State.request_engineFrame (p : Proc) (s : State) : EngineFrame s (s.request p) := by
  have hin (r : Requests) (q : Proc) : EngineFrame s ((s.setRequests r).entered q) :=
    (State.setRequests_engineFrame r s).trans (State.entered_engineFrame q _)
  unfold State.request
  split
  · cases p with
    | emergency c =>
      dsimp only
      split
      · exact State.mergeEmergency_engineFrame c s
      · exact State.startEmergency_engineFrame c s
    | stop r =>
      dsimp only [State.takeStop]
      split
      · exact State.mergeStop_engineFrame r s
      · split
        · exact State.setRequests_engineFrame _ s
        · exact hin _ _
    | defrost =>
      dsimp only [State.takeDefrost]
      split
      · exact .refl s
      · exact hin _ _
    | changeover =>
      dsimp only [State.takeChangeover]
      split
      · exact .refl s
      · exact hin _ _
    | start =>
      dsimp only [State.takeStart]
      split
      · exact .same rfl rfl rfl rfl rfl
      · split
        · exact .refl s
        · exact hin _ _
  · exact .refl s

theorem State.handOffC_engineFrame (s : State) : EngineFrame s s.handOffC := by
  unfold State.handOffC
  split
  · exact (State.endProc_engineFrame _ s).trans (State.run_engineFrame _ _)
  · exact .refl s

/-! ## Standing aside (R35, R153) -/

theorem State.dropPlant_engineFrame (s : State) : EngineFrame s s.dropPlant := by
  have h : EngineFrame s ((s.runOff.driveValve (deEnergised s.loader.straps.energised)).closeRun .standby) :=
    ((State.runOff_engineFrame s).trans (State.driveValve_engineFrame _ _)).trans
      (State.closeRun_engineFrame _ _)
  have k (u : State) : EngineFrame u (u.withdrawRequest.setRequests .empty).driveOutputs :=
    ((State.withdrawRequest_engineFrame u).trans (State.setRequests_engineFrame _ _)).trans
      (State.driveOutputs_engineFrame _)
  unfold State.dropPlant
  dsimp only
  split
  · exact (h.trans (State.endProc_engineFrame _ _)).trans (k _)
  · exact h.trans (k _)

theorem State.enterStandby_engineFrame (s : State) : EngineFrame s s.enterStandby := by
  unfold State.enterStandby
  split
  · exact .refl s
  · exact EngineFrame.after (State.dropPlant_engineFrame _) (.same rfl rfl rfl rfl rfl)

/-! ## The plant's timers -/

theorem State.noteLockoutEnd_engineFrame (before : Option Nat) (s : State) :
    EngineFrame s (s.noteLockoutEnd before) := by
  obtain ⟨_, _, _, h⟩ | h := State.noteLockoutEnd_cases before s
  · rw [h]; exact State.prompt_engineFrame s
  · rw [h]; exact .refl s

theorem State.examineRequest_engineFrame (s : State) : EngineFrame s s.examineRequest := by
  unfold State.examineRequest
  split
  · rename_i g _
    have h : EngineFrame s (s.answer g) := .same rfl rfl rfl rfl rfl
    split
    · dsimp only
      split <;> exact h.trans (State.run_engineFrame _ _)
    · exact .refl s
  · exact .refl s

theorem State.retainedAdvance_engineFrame (s : State) : EngineFrame s s.retainedAdvance :=
  EngineFrame.after (State.noteLockoutEnd_engineFrame _ _) (.same rfl rfl rfl rfl rfl)

theorem State.examineSensorExit_engineFrame (s : State) : EngineFrame s s.examineSensorExit := by
  unfold State.examineSensorExit
  split
  · split
    · exact State.run_engineFrame _ s
    · exact .refl s
  · exact .refl s

theorem State.contactRequests_engineFrame (i c : Bool) (s : State) : EngineFrame s (s.contactRequests i c) := by
  have h : EngineFrame s (if i then s.request (.emergency .inverter) else s) := by
    split
    · exact State.request_engineFrame _ s
    · exact .refl s
  have hc (u : State) : EngineFrame u (if c && u.coolingRuns then u.request (.stop .condensate) else u) := by
    split
    · exact State.request_engineFrame _ u
    · exact .refl u
  exact h.trans (hc _)

theorem State.plantSensors_engineFrame (p : PinSample) (s : State) : EngineFrame s (s.plantSensors p) := by
  unfold State.plantSensors State.seedFrost
  dsimp only
  split
  · split <;> exact .same rfl rfl rfl rfl rfl
  · exact .same rfl rfl rfl rfl rfl

theorem State.plantSensorExpiry_engineFrame (p : PinSample) (first : Bool) (s : State) :
    EngineFrame s (s.plantSensorExpiry p first) := by
  unfold State.plantSensorExpiry
  have h := State.plantSensors_engineFrame p s
  dsimp only
  split
  · exact (h.trans (State.contactRequests_engineFrame _ _ _)).trans (State.examineSensorExit_engineFrame _)
  · exact (h.trans (State.examineSensorExit_engineFrame _)).trans (State.contactRequests_engineFrame _ _ _)

/-! ## A control period (R97, R114) and a protection expiry (R127) -/

theorem State.setCapacity_promptFrame (s : State) (c : Capacity) : PromptFrame s (s.setCapacity c) :=
  .of rfl rfl rfl

theorem State.request_promptFrame (p : Proc) (s : State) : PromptFrame s (s.request p) :=
  (State.request_engineFrame p s).toPromptFrame

theorem State.selectMode_engineFrame (s : State) : EngineFrame s s.selectMode := .same rfl rfl rfl rfl rfl

theorem State.requestForMode_engineFrame (g : Option Group) (s : State) :
    EngineFrame s (s.requestForMode g) := by
  unfold State.requestForMode
  split
  · split
    · split <;> exact State.request_engineFrame _ s
    · exact .refl s
  · split
    · exact State.request_engineFrame _ s
    · exact .refl s

theorem State.modeExpiry_engineFrame (s : State) : EngineFrame s s.modeExpiry := by
  unfold State.modeExpiry
  refine EngineFrame.trans (EngineFrame.trans (State.selectMode_engineFrame s) ?_)
    (State.requestForMode_engineFrame _ _)
  split
  · exact State.prompt_engineFrame _
  · exact .refl _

theorem State.raiseStart_engineFrame (s : State) : EngineFrame s s.raiseStart := by
  unfold State.raiseStart; split
  · exact State.request_engineFrame _ s
  · exact .refl s

theorem State.raiseStop_engineFrame (s : State) : EngineFrame s s.raiseStop := by
  unfold State.raiseStop; split
  · exact State.request_engineFrame _ s
  · exact .refl s

theorem State.formAirflow_promptFrame (s : State) : PromptFrame s s.formAirflow := by
  unfold State.formAirflow
  dsimp only
  split
  · exact (State.setCapacity_promptFrame s _).trans (State.prompt_promptFrame _)
  · exact State.setCapacity_promptFrame s _

theorem State.formSpeed_promptFrame (s : State) : PromptFrame s s.formSpeed := by
  unfold State.formSpeed
  dsimp only
  split <;> exact State.setCapacity_promptFrame s _

theorem State.formC_promptFrame (s : State) : PromptFrame s s.formC :=
  (State.setCapacity_promptFrame s _).trans (State.handOffC_engineFrame _).toPromptFrame

theorem State.adjustCaps_promptFrame (s : State) : PromptFrame s s.adjustCaps :=
  State.setCapacity_promptFrame s _

theorem State.formRunning_promptFrame (s : State) : PromptFrame s s.formRunning :=
  State.setCapacity_promptFrame s _

theorem State.formCounts_promptFrame (s : State) : PromptFrame s s.formCounts :=
  State.setCapacity_promptFrame s _

theorem State.formBlower_promptFrame (s : State) : PromptFrame s s.formBlower :=
  (State.setCapacity_promptFrame s _).trans (State.driveOutputs_engineFrame _).toPromptFrame

theorem State.capacityPeriod_promptFrame (s : State) : PromptFrame s s.capacityPeriod :=
  (((((((s.formC_promptFrame.trans (State.adjustCaps_promptFrame _)).trans
    (State.formRunning_promptFrame _)).trans (State.formCounts_promptFrame _)).trans
    (State.raiseStart_engineFrame _).toPromptFrame).trans (State.raiseStop_engineFrame _).toPromptFrame).trans
    (State.formAirflow_promptFrame _)).trans (State.formBlower_promptFrame _)).trans
    (State.formSpeed_promptFrame _)

/-- A trip that sets its count and may then raise a request. -/
theorem PromptFrame.counted (s : State) (c : Capacity) (b : Prop) [Decidable b] (p : Proc) :
    PromptFrame s (if b then (s.setCapacity c).request p else s.setCapacity c) := by
  split
  · exact (State.setCapacity_promptFrame s c).trans (State.request_promptFrame p _)
  · exact State.setCapacity_promptFrame s c

/-- A trip that may raise a request. -/
theorem PromptFrame.raised (s : State) (b : Prop) [Decidable b] (p : Proc) :
    PromptFrame s (if b then s.request p else s) := by
  split
  · exact State.request_promptFrame p _
  · exact .refl s

/-- The six stages of a protection timer expiry (R128 to R133). -/
def State.protectionStages (s : State) : State :=
  s.staticTrip.inverterTrip.condensateStop.freezeStop.supplyStop.airflowStop

theorem State.protectionStages_promptFrame (s : State) : PromptFrame s s.protectionStages := by
  have hstatic : PromptFrame s s.staticTrip := .counted s _ _ _
  have hinverter := hstatic.trans (.raised s.staticTrip _ _ : PromptFrame _ s.staticTrip.inverterTrip)
  have hfloat := hinverter.trans (.raised _ _ _ : PromptFrame _ s.staticTrip.inverterTrip.condensateStop)
  have hfreeze := hfloat.trans
    (.counted _ _ _ _ : PromptFrame _ s.staticTrip.inverterTrip.condensateStop.freezeStop)
  have hsupply := hfreeze.trans
    (.raised _ _ _ : PromptFrame _ s.staticTrip.inverterTrip.condensateStop.freezeStop.supplyStop)
  exact hsupply.trans (.counted _ _ _ _)

/-! ## The zone's operations -/

/-- The operation leaves the loader, the engine and the Protection Unit alone, and of the line it raises at most the
main report's prompt. -/
structure CalmFrame (s t : State) : Prop where
  loader : t.loader = s.loader
  line : s.line.Prompted t.line
  engine : t.engine = s.engine
  protection : t.protection = s.protection

theorem CalmFrame.refl (s : State) : CalmFrame s s := ⟨rfl, .refl _, rfl, rfl⟩

theorem CalmFrame.trans {s t u : State} (h : CalmFrame s t) (k : CalmFrame t u) : CalmFrame s u :=
  ⟨k.loader.trans h.loader, h.line.trans k.line, k.engine.trans h.engine, k.protection.trans h.protection⟩

theorem CalmFrame.after {s t u : State} (k : CalmFrame t u) (h : CalmFrame s t) : CalmFrame s u := h.trans k

theorem CalmFrame.of {s t : State} (hl : t.loader = s.loader) (hline : t.line = s.line)
    (he : t.engine = s.engine) (hp : t.protection = s.protection) : CalmFrame s t := ⟨hl, .inl hline, he, hp⟩

theorem CalmFrame.promptFrame {s t : State} (h : CalmFrame s t) : PromptFrame s t :=
  ⟨h.loader, h.line, by rw [h.engine]⟩

/-- The plant state is derived from the engine and the Protection Unit alone (R152). -/
theorem CalmFrame.plantState {s t : State} (h : CalmFrame s t) : t.plantState = s.plantState := by
  unfold State.plantState; rw [h.engine, h.protection]

theorem State.prompt_calmFrame (s : State) : CalmFrame s s.prompt := ⟨rfl, .inr rfl, rfl, rfl⟩

theorem State.placeTier_calmFrame (s : State) : CalmFrame s s.placeTier := by
  unfold State.placeTier
  dsimp only
  split
  · exact CalmFrame.after (State.prompt_calmFrame _) (.of rfl rfl rfl rfl)
  · exact .of rfl rfl rfl rfl

theorem State.placeTarget_calmFrame (o : Opening) (s : State) : CalmFrame s (s.placeTarget o) := by
  have h (b : Bool) : CalmFrame s
      (if b then (s.setShare { s.share with target := o }).prompt
        else s.setShare { s.share with target := o }) := by
    split
    · exact CalmFrame.after (State.prompt_calmFrame _) (.of rfl rfl rfl rfl)
    · exact .of rfl rfl rfl rfl
  unfold State.placeTarget
  cases o with
  | percent p => exact (h _).trans (.of rfl rfl rfl rfl)
  | unknown => exact h _

theorem State.recompute_calmFrame (s : State) : CalmFrame s s.recompute :=
  .after (State.placeTarget_calmFrame _ _) (s.placeTier_calmFrame.trans (.of rfl rfl rfl rfl))

theorem State.lossNotice_calmFrame (s : State) : CalmFrame s s.lossNotice :=
  CalmFrame.after (State.recompute_calmFrame _) (.of rfl rfl rfl rfl)

theorem State.plantNotice_calmFrame (old : Option Facts) (new : Facts) (b : Bool) (s : State) :
    CalmFrame s (s.plantNotice old new b) := by
  unfold State.plantNotice
  dsimp only
  split
  · exact CalmFrame.after (State.recompute_calmFrame _) (.of rfl rfl rfl rfl)
  · exact .of rfl rfl rfl rfl

theorem State.evaluatePlant_calmFrame (old : Option Facts) (s : State) :
    CalmFrame s (s.evaluatePlant old) := by
  unfold State.evaluatePlant
  dsimp only
  split
  · split
    · exact .of rfl rfl rfl rfl
    · exact CalmFrame.after (State.plantNotice_calmFrame _ _ _ _) (.of rfl rfl rfl rfl)
  · split
    · exact .refl s
    · split
      · exact .after (State.lossNotice_calmFrame _) (.after (State.prompt_calmFrame _) (.of rfl rfl rfl rfl))
      · exact CalmFrame.after (State.lossNotice_calmFrame _) (.of rfl rfl rfl rfl)

theorem State.losePlant_calmFrame (s : State) : CalmFrame s s.losePlant :=
  .after (State.recompute_calmFrame _) (.after (State.prompt_calmFrame _) (.of rfl rfl rfl rfl))

theorem State.yieldDemand_calmFrame (s : State) : CalmFrame s s.yieldDemand := by
  unfold State.yieldDemand
  dsimp only
  split
  · exact CalmFrame.after (State.prompt_calmFrame _) (.of rfl rfl rfl rfl)
  · exact .of rfl rfl rfl rfl

theorem State.zoneSensors_calmFrame (s : State) : CalmFrame s s.zoneSensors := by
  unfold State.zoneSensors
  dsimp only
  split
  · exact CalmFrame.after (State.prompt_calmFrame _) (.of rfl rfl rfl rfl)
  · exact .of rfl rfl rfl rfl

theorem State.ageEntry_calmFrame (a : Nat) (s : State) : CalmFrame s (s.ageEntry a) := by
  unfold State.ageEntry
  split
  · exact .refl s
  · split
    · unfold State.ageOut
      split
      · split
        · exact .of rfl rfl rfl rfl
        · exact .refl s
      · split
        · dsimp only
          split
          · exact CalmFrame.after (State.evaluatePlant_calmFrame _ _) (.of rfl rfl rfl rfl)
          · exact .of rfl rfl rfl rfl
          · exact .of rfl rfl rfl rfl
        · exact .refl s
    · exact .refl s

theorem State.ageEntries_calmFrame (l : List Nat) :
    ∀ s : State, CalmFrame s (l.foldl State.ageEntry s) := by
  induction l with
  | nil => exact CalmFrame.refl
  | cons a l ih => exact fun s => (State.ageEntry_calmFrame a s).trans (ih _)

theorem State.headOctets_calmFrame (octets : List Byte) :
    ∀ s : State, CalmFrame s (octets.foldl State.headOctet s) := by
  induction octets with
  | nil => exact CalmFrame.refl
  | cons o l ih =>
    intro s
    refine CalmFrame.trans ?_ (ih _)
    unfold State.headOctet State.headEvent
    dsimp only
    split <;> exact .of rfl rfl rfl rfl

end Sys2Proof.Machine
end

