-- ==== Sys2Proof/Proofs/Line.lean ====
section
/-! PROOFS. The zone line: what each of its operations does, and that every step keeps its soundness (chapter 1). -/

namespace Sys2Proof.Machine

/-! ## The operations of the line, each said once -/

/-- A station can send when it is READY and not YIELDED, a flag is set, a token is there and no attempt runs (R12). -/
theorem LineState.canSend_iff (b : Bool) (l : LineState) :
    l.canSend b = true ↔ b = true ∧ l.yielded = false ∧
      (l.main.pending = true ∨ l.summary.pending = true) ∧ 1 ≤ l.tokens ∧ l.attempt = none := by
  simp [LineState.canSend, and_assoc]

/-- What settling readiness does: a station that cannot send does not wait; one that can keeps its choice, or chooses
anew and restarts its gap count (R12). -/
theorem LineState.settle_cases (b : Bool) (l : LineState) :
    (l.canSend b = false ∧ l.settle b = { l with waiting := none }) ∨
    (l.canSend b = true ∧ l.settle b = l ∧
      (l.waiting = some .main ∨ l.waiting = some .summary ∧ l.main.pending = false)) ∨
    (l.canSend b = true ∧ l.settle b = { l with waiting := some l.chosenKind, gap := 0 } ∧
      (l.waiting = none ∨ l.waiting = some .summary ∧ l.main.pending = true)) := by
  unfold LineState.settle
  cases hc : l.canSend b with
  | false => simp
  | true =>
    match hw : l.waiting with
    | none => simp
    | some .main => simp
    | some .summary => cases hm : l.main.pending <;> simp [LineState.chosenKind, hm]

/-- Settling moves the wait and the gap count alone (R12). -/
theorem LineState.settle_eq (b : Bool) (l : LineState) :
    l.settle b = { l with waiting := (l.settle b).waiting, gap := (l.settle b).gap } := by
  obtain ⟨_, h⟩ | ⟨_, h, _⟩ | ⟨_, h, _⟩ := l.settle_cases b <;> rw [h]

/-- The choice of a station that can send has its flag set (R12). -/
theorem LineState.chosenKind_pending {l : LineState} (h : l.main.pending = true ∨ l.summary.pending = true) :
    (l.kind l.chosenKind).pending = true := by
  unfold LineState.chosenKind
  split
  · assumption
  · simp_all [LineState.kind]

/-- A gap abandons and counts a frame in progress (R4). -/
theorem LineState.gapAbandon_eq (l : LineState) :
    l.gapAbandon =
      { l with
        rx := if l.rx.inFrame = true then .hunt else l.rx
        malformed := if l.rx.inFrame = true then l.malformed + 1 else l.malformed } := by
  unfold LineState.gapAbandon; split <;> rfl

/-- An octet with a framing error abandons and counts a frame in progress, and the receiver hunts (R4). -/
theorem LineState.framingAbandon_eq (l : LineState) :
    l.framingAbandon =
      { l with
        rx := .hunt, malformed := if l.rx.inFrame = true then l.malformed + 1 else l.malformed } := by
  unfold LineState.framingAbandon; split <;> rfl

/-- The quiet count reaches a value, if it has not yet (R2). -/
theorem LineState.quietReaches_eq (l : LineState) (n : Nat) :
    l.quietReaches n =
      { l with quiet := max n l.quiet, gap := l.gap + (n - l.quiet), octetOnLine := false } := by
  have h : l.quiet + (n - l.quiet) = max n l.quiet := by omega
  simp [LineState.quietReaches, LineState.pass, h]

/-- The gap count reaches a value, if it has not yet (R2, R13). -/
theorem LineState.gapReaches_eq (l : LineState) (n : Nat) :
    l.gapReaches n = { l with quiet := l.quiet + (n - l.gap), gap := max l.gap n } := by
  have h : l.gap + (n - l.gap) = max l.gap n := by omega
  simp [LineState.gapReaches, LineState.pass, h]

/-- A gap that is reached abandons a frame in progress, whatever the counts (R4, R13). -/
theorem LineState.gapReaches_gapAbandon (l : LineState) (n : Nat) :
    (l.gapReaches n).gapAbandon =
      { l.gapAbandon with quiet := l.quiet + (n - l.gap), gap := max l.gap n } := by
  rw [LineState.gapAbandon_eq, LineState.gapReaches_eq, LineState.gapAbandon_eq]

/-- The station's own start bit holds both counts at 0, whatever they were (R2). -/
theorem LineState.beginAttempt_counts (l : LineState) (q g : Nat) (a : Attempt) :
    LineState.beginAttempt { l with quiet := q, gap := g } a = l.beginAttempt a := by
  unfold LineState.beginAttempt
  cases a.kind <;> rfl

theorem Receiver.not_inFrame_of_abandoned (r : Receiver) :
    (if r.inFrame = true then Receiver.hunt else r).inFrame = false := by
  split
  · rfl
  · simp_all

/-! ## The kinds -/

@[simp] theorem LineState.kind_setKind_same (l : LineState) (k : ReportKind) (x : KindState) :
    (l.setKind k x).kind k = x := by cases k <;> rfl

theorem LineState.kind_setKind_other (l : LineState) {k j : ReportKind} (x : KindState) (h : j ≠ k) :
    (l.setKind k x).kind j = l.kind j := by
  cases k <;> cases j
  · exact absurd rfl h
  · rfl
  · rfl
  · exact absurd rfl h

/-- Setting a kind leaves everything but the kinds alone. -/
theorem LineState.setKind_eq (l : LineState) (k : ReportKind) (x : KindState) :
    l.setKind k x =
      { l with main := (l.setKind k x).main, summary := (l.setKind k x).summary } := by
  cases k <;> rfl

/-- A trigger keeps every collision count. -/
theorem LineState.trigger_k (l : LineState) (k j : ReportKind) :
    ((l.trigger k).kind j).k = (l.kind j).k := by cases k <;> cases j <;> rfl

/-- A trigger clears no flag. -/
theorem LineState.trigger_pending (l : LineState) (k : ReportKind) {j : ReportKind}
    (h : (l.kind j).pending = true) : ((l.trigger k).kind j).pending = true := by
  by_cases hj : j = k
  · subst hj; simp [LineState.trigger]
  · rw [LineState.trigger, LineState.kind_setKind_other _ _ hj]; exact h

/-- A trigger leaves everything but the kinds alone. -/
theorem LineState.trigger_eq (l : LineState) (k : ReportKind) :
    l.trigger k = { l with main := (l.trigger k).main, summary := (l.trigger k).summary } :=
  LineState.setKind_eq _ _ _

/-! ## Each operation keeps the line sound -/

/-- Kinds that keep their counts in range and their flags keep the line sound (R8, R15). -/
theorem LineState.Sound.ofKinds {l l' : LineState} (h : l.Sound) (hk : ∀ j, (l'.kind j).k ≤ 7)
    (hp : ∀ j, (l.kind j).pending = true → (l'.kind j).pending = true)
    (he : l' = { l with main := l'.main, summary := l'.summary }) : l'.Sound := by
  generalize hm : l'.main = m at he
  generalize hu : l'.summary = u at he
  subst he
  exact { h with
    collided := hk
    waiting := fun j hj => hp j (h.waiting j hj)
    attempt := fun a ha => ⟨(h.attempt a ha).1, hp _ (h.attempt a ha).2.1, (h.attempt a ha).2.2⟩ }

theorem LineState.Sound.trigger {l : LineState} (h : l.Sound) (k : ReportKind) : (l.trigger k).Sound :=
  h.ofKinds (fun j => l.trigger_k k j ▸ h.collided j) (fun _ => l.trigger_pending k) (l.trigger_eq k)

theorem LineState.Sound.prompted {l l' : LineState} (h : l.Sound) (p : l.Prompted l') : l'.Sound := by
  obtain rfl | rfl := p
  · exact h
  · exact h.trigger _

/-- A station that ceases to wait stays sound (R12). -/
theorem LineState.Sound.stopWaiting {l : LineState} (h : l.Sound) :
    ({ l with waiting := none } : LineState).Sound :=
  { h with
    waiting := fun _ hk => nomatch hk
    attempt := fun a ha => ⟨(h.attempt a ha).1, (h.attempt a ha).2.1, rfl⟩
    yielded := fun hy => ⟨rfl, (h.yielded hy).2⟩ }

/-- Settling readiness keeps the line sound (R12, R13). -/
theorem LineState.Sound.settle {l : LineState} (h : l.Sound) (b : Bool) : (l.settle b).Sound := by
  obtain ⟨_, e⟩ | ⟨_, e, _⟩ | ⟨hc, e, _⟩ := l.settle_cases b <;> rw [e]
  · exact h.stopWaiting
  · exact h
  · obtain ⟨_, hy, hp, _, ha⟩ := (LineState.canSend_iff b l).1 hc
    exact { h with
      waiting := fun k hk => by
        obtain rfl := Option.some.inj hk
        exact LineState.chosenKind_pending hp
      attempt := fun a haa => by rw [ha] at haa; cases haa
      yielded := fun hyy => by rw [hy] at hyy; cases hyy
      counts := ⟨Nat.zero_le _, h.counts.2⟩
      octet := fun ho => ⟨(h.octet ho).1, rfl⟩ }

/-- A start bit keeps the line sound (R2). -/
theorem LineState.Sound.startBit {l : LineState} (h : l.Sound) : l.startBit.Sound :=
  { h with
    counts := ⟨le_refl _, Nat.zero_le _⟩
    octet := fun _ => ⟨rfl, rfl⟩
    arriving := fun _ => Nat.zero_le _
    driving := fun a ha => ⟨rfl, (h.driving a ha).2⟩ }

/-- The end of an octet of another station keeps the line sound (R2). -/
theorem LineState.Sound.octetEnd {l : LineState} (h : l.Sound) (ha : l.attempt = none) : l.octetEnd.Sound :=
  { h with
    counts := ⟨le_refl _, Nat.zero_le _⟩
    octet := fun ho => nomatch ho
    arriving := fun _ => Nat.zero_le _
    driving := fun a haa => by
      have : l.attempt = some a := haa
      rw [ha] at this; cases this }

/-- The receiver may move while the gap is short and no attempt runs (R4). -/
theorem LineState.Sound.receive {l : LineState} (h : l.Sound) (ha : l.attempt = none) (r : Receiver)
    (hr : r.inFrame = true → l.quiet ≤ 20) : ({ l with rx := r } : LineState).Sound :=
  { h with
    arriving := hr
    driving := fun a haa => by
      have : l.attempt = some a := haa
      rw [ha] at this; cases this }

/-- A frame in progress may be abandoned while no attempt runs (R4). -/
theorem LineState.Sound.gapAbandon {l : LineState} (h : l.Sound) (ha : l.attempt = none) : l.gapAbandon.Sound := by
  rw [LineState.gapAbandon_eq]
  have hr := h.receive ha (if l.rx.inFrame = true then .hunt else l.rx) fun hi => by
    rw [Receiver.not_inFrame_of_abandoned] at hi; cases hi
  exact { hr with }

/-- A gap of at most 30 bit times, which abandons a frame in progress, keeps the line sound (R2, R4). -/
theorem LineState.Sound.gapPasses {l : LineState} (h : l.Sound) (ha : l.attempt = none) {n : Nat} (hn : n ≤ 30) :
    (l.quietReaches n).gapAbandon.Sound := by
  rw [LineState.gapAbandon_eq, LineState.quietReaches_eq]
  obtain ⟨hg, hq⟩ := h.counts
  exact { h with
    counts := ⟨by dsimp only; omega, by dsimp only; omega⟩
    octet := fun ho => nomatch ho
    arriving := fun hi => by
      rw [Receiver.not_inFrame_of_abandoned] at hi
      cases hi
    driving := fun a haa => by
      have : l.attempt = some a := haa
      rw [ha] at this; cases this }

/-- Entry to YIELDED keeps the line sound while no attempt runs (R17). -/
theorem LineState.Sound.yield {l : LineState} (h : l.Sound) (ha : l.attempt = none) : l.yield.Sound :=
  { h with
    collided := fun j => by cases j <;> exact Nat.zero_le 7
    waiting := fun _ hk => nomatch hk
    attempt := fun a haa => by
      have : l.attempt = some a := haa
      rw [ha] at this; cases this
    yielded := fun _ => ⟨rfl, ha⟩ }

/-! ## What the octets of other stations do to the line (R4, R5, R16, R17) -/

/-- What octets taken from the line leave alone: the tokens, the attempt, the two counts, the page, the collisions, and,
unless the station yields, the collision counts; and they keep the line sound. -/
structure LineState.Hears (l l' : LineState) : Prop where
  tokens : l'.tokens = l.tokens
  attempt : l'.attempt = l.attempt
  quiet : l'.quiet = l.quiet
  pageOne : l'.pageOne = l.pageOne
  collisions : l'.collisions = l.collisions
  dropped : l'.dropped = l.dropped
  yields : l.yielded = true → l'.yielded = true
  counts : l'.yielded = false → ∀ k, (l'.kind k).k = (l.kind k).k
  sound : l.Sound → l.attempt = none → l.quiet = 0 → l'.Sound

theorem LineState.Hears.refl (l : LineState) : l.Hears l :=
  ⟨rfl, rfl, rfl, rfl, rfl, rfl, id, fun _ _ => rfl, fun h _ _ => h⟩

theorem LineState.Hears.trans {l l' l'' : LineState} (h : l.Hears l') (k : l'.Hears l'') : l.Hears l'' where
  tokens := k.tokens.trans h.tokens
  attempt := k.attempt.trans h.attempt
  quiet := k.quiet.trans h.quiet
  pageOne := k.pageOne.trans h.pageOne
  collisions := k.collisions.trans h.collisions
  dropped := k.dropped.trans h.dropped
  yields hy := k.yields (h.yields hy)
  counts hy j := by
    have hy' : l'.yielded = false := by
      cases hl : l'.yielded with
      | false => rfl
      | true => rw [k.yields hl] at hy; cases hy
    exact (k.counts hy j).trans (h.counts hy' j)
  sound hs ha hq := k.sound (h.sound hs ha hq) (h.attempt.trans ha) (h.quiet.trans hq)

theorem LineState.Prompted.hears {l l' : LineState} (h : l.Prompted l') : l.Hears l' := by
  obtain rfl | rfl := h
  · exact .refl _
  · exact ⟨rfl, rfl, rfl, rfl, rfl, rfl, id, fun _ j => l.trigger_k .main j, fun h _ _ => h.trigger _⟩

/-- The line counters move without touching anything else of what octets leave alone (R18). -/
theorem LineState.Hears.counted (l : LineState) (good crc malformed conflicts : Counter) :
    l.Hears { l with good := good, crcDiscards := crc, malformed := malformed, conflicts := conflicts } :=
  ⟨rfl, rfl, rfl, rfl, rfl, rfl, id, fun _ _ => rfl, fun h _ _ => { h with }⟩

theorem LineState.Hears.receives (l : LineState) (r : Receiver) : l.Hears { l with rx := r } :=
  ⟨rfl, rfl, rfl, rfl, rfl, rfl, id, fun _ _ => rfl, fun h ha hq => h.receive ha r fun _ => hq ▸ Nat.zero_le _⟩

theorem LineState.Hears.yields_line (l : LineState) : l.Hears l.yield :=
  ⟨rfl, rfl, rfl, rfl, rfl, rfl, fun _ => rfl, fun hy => (nomatch hy), fun h ha _ => h.yield ha⟩

/-- The operation does to the line what octets do. -/
def State.Hears (s t : State) : Prop := s.line.Hears t.line

theorem State.Hears.refl (s : State) : s.Hears s := LineState.Hears.refl _

theorem State.Hears.trans {s t u : State} (h : s.Hears t) (k : t.Hears u) : s.Hears u := LineState.Hears.trans h k

theorem PromptFrame.hears {s t : State} (h : PromptFrame s t) : s.Hears t := h.line.hears

/-- A state with another line hears what that line hears. -/
theorem State.Hears.line {s : State} {x : LineState} (h : s.line.Hears x) : s.Hears (s.setLine x) := h

theorem State.countConflict_hears (s : State) : s.Hears s.countConflict := LineState.Hears.counted _ _ _ _ _

theorem State.enterYielded_hears (s : State) : s.Hears s.enterYielded := by
  have h : s.Hears (s.setLine s.line.yield) := LineState.Hears.yields_line s.line
  unfold State.enterYielded
  split
  · exact .refl s
  · refine h.trans ?_
    dsimp only
    split
    · exact ((State.yieldDemand_calmFrame _).trans (State.recompute_calmFrame _)).promptFrame.hears
    · exact (State.dropPlant_engineFrame _).hears

theorem State.compareTag_hears (tag : Tag) (s : State) : s.Hears (s.compareTag tag) := by
  unfold State.compareTag
  dsimp only
  split
  · exact s.countConflict_hears.trans (State.enterYielded_hears _)
  · exact s.countConflict_hears

theorem State.takeReport_hears (a : Nat) (c : Contents) (s : State) : s.Hears (s.takeReport a c) := by
  have h : s.Hears (s.setPeers (s.peers.take a c)) := LineState.Hears.refl s.line
  unfold State.takeReport
  dsimp only
  split
  · refine h.trans ?_
    unfold State.detectPlant
    split
    · exact .refl _
    · split
      · exact (State.enterStandby_engineFrame _).hears
      · split
        · exact .refl _
        · exact State.countConflict_hears _
  · exact h
  · exact h.trans (State.evaluatePlant_calmFrame _ _).promptFrame.hears
  · split
    · exact h.trans (State.evaluatePlant_calmFrame _ _).promptFrame.hears
    · exact h

theorem State.acceptFrame_hears (h : Byte) (p : List Byte) (s : State) : s.Hears (s.acceptFrame h p) := by
  unfold State.acceptFrame
  split
  · exact .refl s
  · split
    · exact State.compareTag_hears _ s
    · exact State.takeReport_hears _ _ s

theorem State.frameEvent_hears (e : FrameEvent) (s : State) : s.Hears (s.frameEvent e) := by
  cases e with
  | none => exact .refl s
  | malformed => exact LineState.Hears.counted _ _ _ _ _
  | crcDiscard => exact LineState.Hears.counted _ _ _ _ _
  | good h p =>
    have hg : s.Hears (s.setLine { s.line with good := s.line.good + 1 }) := LineState.Hears.counted _ _ _ _ _
    exact hg.trans (State.acceptFrame_hears h p _)

theorem State.takeOctet_hears (s : State) (o : Byte) : s.Hears (s.takeOctet o) :=
  State.Hears.trans (.line (LineState.Hears.receives s.line _)) (State.frameEvent_hears _ _)

theorem State.foldOctets_hears (octets : List Byte) : ∀ s : State, s.Hears (octets.foldl State.takeOctet s) := by
  induction octets with
  | nil => exact State.Hears.refl
  | cons o l ih => exact fun s => (s.takeOctet_hears o).trans (ih _)

theorem State.takeOctets_hears (octets : List Byte) (s : State) : s.Hears (s.takeOctets octets) := by
  unfold State.takeOctets
  split
  · exact State.foldOctets_hears octets s
  · exact .refl s

/-- Octets that follow an octet's end are heard on a sound line (R2, R4). -/
theorem State.heardOctets_sound (octets : List Byte) {s : State} (h : s.line.Sound) (ha : s.line.attempt = none) :
    ((s.setLine s.line.octetEnd).takeOctets octets).line.Sound :=
  (State.takeOctets_hears octets (s.setLine s.line.octetEnd)).sound (h.octetEnd ha) ha rfl

theorem State.heard_sound (octets : List Byte) {s : State} (h : s.line.Sound) (ha : s.line.attempt = none) :
    (s.heard octets).line.Sound ∧ (s.heard octets).line.attempt = none := by
  unfold State.heard
  split
  · exact ⟨h, ha⟩
  · exact ⟨State.heardOctets_sound octets h ha,
      (State.takeOctets_hears octets (s.setLine s.line.octetEnd)).attempt.trans ha⟩

/-! ## The ends of commands -/

theorem State.settle_sound {s : State} (h : s.line.Sound) : s.settle.line.Sound := h.settle _

/-- The plant state's note prompts the main report or leaves the line alone (R11). -/
theorem State.notePlantState_prompted (s : State) : s.line.Prompted s.notePlantState.line := by
  unfold State.notePlantState
  split
  · exact .inr rfl
  · exact .refl _

theorem State.settlePlant_sound {s : State} (h : s.line.Sound) : s.settlePlant.line.Sound :=
  State.settle_sound (h.prompted s.notePlantState_prompted)

/-! ## Attempts (R12 to R15) -/

/-- An attempt that begins at its gap keeps the line sound (R2, R4, R13, R14). -/
theorem LineState.Sound.beginAttempt {l : LineState} (h : l.Sound) {a : Attempt}
    (hrx : l.rx.inFrame = false) (hp : (l.kind a.kind).pending = true) (ht : 1 ≤ l.tokens)
    (hy : l.yielded = false) (hg : 30 ≤ a.gap) : (l.beginAttempt a).Sound := by
  have hk : ((l.setKind a.kind { l.kind a.kind with renewal := false }).startBit).Sound := by
    refine LineState.Sound.startBit (h.ofKinds ?_ ?_ (LineState.setKind_eq _ _ _))
    · intro j
      by_cases hj : j = a.kind
      · subst hj; rw [LineState.kind_setKind_same]; exact h.collided _
      · rw [LineState.kind_setKind_other _ _ hj]; exact h.collided j
    · intro j hjp
      by_cases hj : j = a.kind
      · subst hj; rw [LineState.kind_setKind_same]; exact hjp
      · rw [LineState.kind_setKind_other _ _ hj]; exact hjp
  have hpa : ((l.setKind a.kind { l.kind a.kind with renewal := false }).kind a.kind).pending = true := by
    rw [LineState.kind_setKind_same]; exact hp
  have he : l.setKind a.kind { l.kind a.kind with renewal := false } = _ := LineState.setKind_eq _ _ _
  exact { hk with
    waiting := fun _ hj => nomatch hj
    attempt := fun b hb => by
      obtain rfl := Option.some.inj hb
      exact ⟨by show 1 ≤ (l.setKind _ _).tokens; rw [he]; exact ht, hpa, rfl⟩
    yielded := fun hyy => by
      have : (l.setKind a.kind { l.kind a.kind with renewal := false }).yielded = true := hyy
      rw [he] at this
      exact absurd (hy.symm.trans this) (by decide)
    driving := fun b hb => by
      obtain rfl := Option.some.inj hb
      exact ⟨rfl, by show (l.setKind _ _).rx.inFrame = _; rw [he]; exact hrx, hg⟩ }

theorem KindState.collide_k_le (x : KindState) : x.collide.k ≤ 7 := by
  unfold KindState.collide
  split
  · exact Nat.zero_le 7
  · dsimp only; omega

/-- The end of an attempt keeps the line sound when the kind's count stays in range (R14, R15). -/
theorem LineState.Sound.endAttempt {l : LineState} (h : l.Sound) {a : Attempt} (ha : l.attempt = some a)
    {x : KindState} (hx : x.k ≤ 7) : ({ l.setKind a.kind x with attempt := none } : LineState).Sound := by
  have hw := (h.attempt a ha).2.2
  have hk : ∀ j, ((l.setKind a.kind x).kind j).k ≤ 7 := by
    intro j
    by_cases hj : j = a.kind
    · subst hj; rw [LineState.kind_setKind_same]; exact hx
    · rw [LineState.kind_setKind_other _ _ hj]; exact h.collided j
  rw [LineState.setKind_eq] at hk ⊢
  exact { h with
    collided := hk
    waiting := fun j hj => by
      have : l.waiting = some j := hj
      rw [hw] at this; cases this
    attempt := fun _ hb => nomatch hb
    yielded := fun hy => ⟨hw, rfl⟩
    driving := fun _ hb => nomatch hb }

/-- What completion records leaves the rest of the line sound (R10, R11, R192). -/
theorem LineState.Sound.record {l : LineState} (h : l.Sound) (role : Role) (a : Attempt) :
    (l.record role a).Sound := by
  unfold LineState.record
  split <;> exact { h with }

theorem LineState.Sound.completeAttempt {l : LineState} (h : l.Sound) {a : Attempt} (ha : l.attempt = some a)
    (role : Role) : (l.completeAttempt role a).Sound := by
  have hrec := (h.endAttempt ha (x := (l.kind a.kind).release) (Nat.zero_le 7)).record role a
  have ht := hrec.tokens
  have he : l.completeAttempt role a =
      { (LineState.record { l.setKind a.kind (l.kind a.kind).release with attempt := none } role a).octetEnd with
        tokens := (l.setKind a.kind (l.kind a.kind).release).tokens - 1, rx := .hunt } := by
    unfold LineState.completeAttempt LineState.record
    dsimp only
    split <;> rfl
  have hnone : (LineState.record { l.setKind a.kind (l.kind a.kind).release with attempt := none } role
      a).attempt = none := by
    unfold LineState.record; split <;> rfl
  have hoct := hrec.octetEnd hnone
  rw [he]
  exact { hoct with
    tokens := by
      have := h.tokens
      rw [LineState.setKind_eq]; dsimp only; omega
    attempt := fun b hb => by
      have : (LineState.record { l.setKind a.kind (l.kind a.kind).release with attempt := none } role
        a).attempt = some b := hb
      rw [hnone] at this; cases this
    arriving := fun hi => nomatch hi
    driving := fun b hb => by
      have : (LineState.record { l.setKind a.kind (l.kind a.kind).release with attempt := none } role
        a).attempt = some b := hb
      rw [hnone] at this; cases this }

theorem LineState.Sound.collide {l : LineState} (h : l.Sound) {a : Attempt} (ha : l.attempt = some a) :
    (l.collide a).Sound :=
  let hk := (h.endAttempt ha (KindState.collide_k_le (l.kind a.kind))).startBit
  { hk with }

/-! ## The commands that raise at most a report -/

/-- The timers and events of the other blocks: of the line they raise at most the main report's prompt. -/
def leavesLine (c : Instr) : Bool :=
  match c with
  | .ageTimer | .graceTimer | .headFrameArrival _ | .headFrameAbandoned _ | .lossTimer | .sensorTimer _ _
  | .demandTimer | .homingStepCompletion _ | .stepCompletion _ | .budgetRefillTimer | .rehomeAgeTimer
  | .plantControlTimer | .offHoldTimer | .protectionTimer | .listeningTimer | .stepDelayExpiry
  | .stepTimeExit | .stepTimeLimit | .emergencyHoldTick | .retainedTimer | .frostTimer => true
  | .powerOnReset | .resetInputAsserted | .resetRelease _ _ | .readAttempt _ | .readRetryTimer
  | .tokenRefillTimer | .lineIdle | .attemptBegin | .attemptComplete | .collision _ | .frameReceived _
  | .frameAbandoned _ | .zonePeriodicTimer | .plantPeriodicTimer | .summaryTimer | .startBitSeen
  | .framingError _ => false

/-- How such a command ends: with a plant state as it was, settled or not, or with the plant state shown (R11, R12). -/
inductive Concludes (s t : State) : Prop where
  | kept (h : PromptFrame s t) (hp : s.plantReady = true → t.plantState = s.plantState)
  | settled (u : State) (h : PromptFrame s u) (hp : s.plantReady = true → u.plantState = s.plantState)
      (e : t = u.settle)
  | shown (u : State) (h : PromptFrame s u) (e : t = u.settlePlant)

theorem Concludes.unchanged (s : State) : Concludes s s := .kept (.refl s) fun _ => rfl

theorem CalmFrame.concludes {s t : State} (h : CalmFrame s t) : Concludes s t :=
  .kept h.promptFrame fun _ => h.plantState

theorem CalmFrame.settles {s u : State} (h : CalmFrame s u) : Concludes s u.settle :=
  .settled u h.promptFrame (fun _ => h.plantState) rfl

theorem PromptFrame.shows {s u : State} (h : PromptFrame s u) : Concludes s u.settlePlant := .shown u h rfl

theorem Concludes.sound {s t : State} (h : Concludes s t) (hs : s.line.Sound) : t.line.Sound := by
  cases h with
  | kept h => exact hs.prompted h.line
  | settled u h _ e => exact e ▸ State.settle_sound (hs.prompted h.line)
  | shown u h e => exact e ▸ State.settlePlant_sound (hs.prompted h.line)

theorem State.runs_shows (t : Todo) (s : State) : Concludes s (s.run t).settlePlant :=
  (State.run_engineFrame t s).toPromptFrame.shows

/-- Each of these commands raises at most the main report, and notes a plant state that it can have moved (R8, R11). -/
theorem exec_concludes {c : Instr} {s t : State} (hc : leavesLine c = true) (h : exec c s = .next t) :
    Concludes s t := by
  have same : ∀ {u : State}, advance u = .next t → u = t := fun e => by rwa [advance_eq_next] at e
  cases c with
  | powerOnReset | resetInputAsserted | resetRelease | readAttempt | readRetryTimer | tokenRefillTimer | lineIdle
  | attemptBegin | attemptComplete | collision | frameReceived | frameAbandoned | zonePeriodicTimer
  | plantPeriodicTimer | summaryTimer | startBitSeen | framingError => cases hc
  | ageTimer =>
    simp only [exec, execAgeTimer] at h
    split at h <;> obtain rfl := same h
    · refine CalmFrame.settles ?_
      exact .after (State.ageEntries_calmFrame _ _) (.of rfl rfl rfl rfl)
    · exact .unchanged s
  | graceTimer =>
    simp only [exec, execGraceTimer] at h
    split at h
    · split at h <;> obtain rfl := same h
      · refine CalmFrame.settles ?_
        exact .after (State.losePlant_calmFrame _) (.of rfl rfl rfl rfl)
      · exact CalmFrame.concludes (.of rfl rfl rfl rfl)
    · obtain rfl := same h; exact .unchanged s
  | headFrameArrival octets =>
    simp only [exec, execHeadFrameArrival] at h
    split at h <;> obtain rfl := same h
    · exact (State.headOctets_calmFrame octets s).concludes
    · exact .unchanged s
  | headFrameAbandoned octets =>
    simp only [exec, execHeadFrameAbandoned] at h
    split at h <;> obtain rfl := same h
    · refine CalmFrame.concludes ?_
      exact (State.headOctets_calmFrame octets s).trans (.of rfl rfl rfl rfl)
    · exact .unchanged s
  | lossTimer =>
    simp only [exec, execLossTimer] at h
    split at h <;> obtain rfl := same h
    · exact CalmFrame.concludes (.of rfl rfl rfl rfl)
    · exact .unchanged s
  | sensorTimer pins first =>
    simp only [exec, execSensorTimer] at h
    split at h
    · split at h <;> obtain rfl := same h
      · exact (State.zoneSensors_calmFrame s).settles
      · exact (State.plantSensorExpiry_engineFrame pins first s).toPromptFrame.shows
    · obtain rfl := same h; exact .unchanged s
  | demandTimer =>
    simp only [exec, execDemandTimer] at h
    split at h <;> obtain rfl := same h
    · refine CalmFrame.settles (.after (State.recompute_calmFrame _) ?_)
      split
      · refine CalmFrame.trans (t := (s.setDemand _).prompt) ?_ (.of rfl rfl rfl rfl)
        exact .after (State.prompt_calmFrame _) (.of rfl rfl rfl rfl)
      · exact .of rfl rfl rfl rfl
    · exact .unchanged s
  | homingStepCompletion stall =>
    simp only [exec, execHomingStepCompletion] at h
    split at h <;> obtain rfl := same h
    · exact CalmFrame.concludes (.of rfl rfl rfl rfl)
    · exact .unchanged s
  | stepCompletion stall =>
    simp only [exec, execStepCompletion] at h
    split at h
    · split at h <;> obtain rfl := same h
      · exact CalmFrame.settles (.after (State.recompute_calmFrame _)
          (.after (State.prompt_calmFrame _) (.of rfl rfl rfl rfl)))
      · exact CalmFrame.concludes (.of rfl rfl rfl rfl)
    · obtain rfl := same h; exact .unchanged s
  | budgetRefillTimer =>
    simp only [exec, execBudgetRefillTimer] at h
    split at h <;> obtain rfl := same h
    · exact CalmFrame.concludes (.of rfl rfl rfl rfl)
    · exact .unchanged s
  | rehomeAgeTimer =>
    simp only [exec, execRehomeAgeTimer] at h
    split at h <;> obtain rfl := same h
    · exact CalmFrame.concludes (.of rfl rfl rfl rfl)
    · exact .unchanged s
  | plantControlTimer =>
    simp only [exec, execPlantControlTimer] at h
    split at h <;> obtain rfl := same h
    · exact ((State.modeExpiry_engineFrame s).toPromptFrame.trans (State.capacityPeriod_promptFrame _)).shows
    · exact .unchanged s
  | offHoldTimer =>
    simp only [exec, execOffHoldTimer] at h
    split at h <;> obtain rfl := same h
    · exact PromptFrame.shows
        (.after (State.noteLockoutEnd_engineFrame _ _).toPromptFrame (.of rfl rfl rfl))
    · exact .unchanged s
  | protectionTimer =>
    simp only [exec, execProtectionTimer] at h
    split at h <;> obtain rfl := same h
    · exact (State.protectionStages_promptFrame s).shows
    · exact .unchanged s
  | listeningTimer =>
    simp only [exec, execListeningTimer] at h
    split at h <;> obtain rfl := same h
    · exact .kept (.of rfl rfl rfl) fun _ => rfl
    · exact .unchanged s
  | stepDelayExpiry =>
    simp only [exec, execStepDelayExpiry] at h
    split at h <;> obtain rfl := same h
    · exact State.runs_shows _ s
    · exact .unchanged s
  | stepTimeExit =>
    simp only [exec, execStepTimeExit] at h
    split at h
    · split at h <;> obtain rfl := same h
      · exact PromptFrame.shows (.after (State.run_engineFrame _ _).toPromptFrame (.of rfl rfl rfl))
      · exact .unchanged s
    · obtain rfl := same h; exact .unchanged s
  | stepTimeLimit =>
    simp only [exec, execStepTimeLimit] at h
    split at h
    · split at h <;> obtain rfl := same h
      · exact PromptFrame.shows (.after (State.run_engineFrame _ _).toPromptFrame (.of rfl rfl rfl))
      · exact .unchanged s
    · obtain rfl := same h; exact .unchanged s
  | emergencyHoldTick =>
    simp only [exec, execEmergencyHoldTick] at h
    split at h
    · split at h <;> obtain rfl := same h
      · exact PromptFrame.shows (.after (State.run_engineFrame _ _).toPromptFrame (.of rfl rfl rfl))
      · exact .kept (.of rfl rfl rfl) fun _ => rfl
    · obtain rfl := same h; exact .unchanged s
  | retainedTimer =>
    simp only [exec, execRetainedTimer] at h
    split at h
    · obtain rfl := same h; exact .unchanged s
    · split at h
      · obtain rfl := same h
        exact ((State.retainedAdvance_engineFrame s).trans
          (State.examineRequest_engineFrame _)).toPromptFrame.shows
      · rename_i hr
        obtain rfl := same h
        exact .kept (State.retainedAdvance_engineFrame s).toPromptFrame fun hp => absurd hp hr
  | frostTimer =>
    simp only [exec, execFrostTimer] at h
    have ha : PromptFrame s s.frostAdvance := .of rfl rfl rfl
    split at h
    · split at h <;> obtain rfl := same h
      · exact (ha.trans (State.request_promptFrame _ _)).shows
      · exact .kept ha fun _ => rfl
    · obtain rfl := same h; exact .unchanged s

/-! ## Resets and the load leave a reset line, or one whose main report is pending (R8, R187, R188) -/

theorem LineState.reset_sound : LineState.reset.Sound where
  tokens := le_refl _
  collided k := by cases k <;> exact Nat.zero_le 7
  waiting _ h := nomatch h
  attempt _ h := nomatch h
  yielded h := nomatch h
  counts := ⟨le_refl _, Nat.zero_le _⟩
  octet h := nomatch h
  arriving h := nomatch h
  driving _ h := nomatch h

/-- READY sets the main report's flag and settles the line (R8, R187). -/
theorem State.becomeReady_sound {s : State} (h : s.line.Sound) : s.becomeReady.line.Sound := by
  have hm : ({ s.line with main := { s.line.main with pending := true } } : LineState).Sound := by
    refine h.ofKinds (fun j => ?_) (fun j hj => ?_) rfl
    · have := h.collided j
      cases j <;> exact this
    · cases j
      · rfl
      · exact hj
  unfold State.becomeReady
  dsimp only
  split
  · exact State.settle_sound hm
  · exact State.settlePlant_sound hm

theorem State.loadDefaults_sound (r : LoadResult) {s : State} (h : s.line.Sound) :
    (s.loadDefaults r).line.Sound :=
  State.becomeReady_sound (s := s.setLoader _) h

theorem State.checkImage_sound (image : List Byte) {s : State} (h : s.line.Sound) :
    (s.checkImage image).line.Sound := by
  unfold State.checkImage
  split
  · exact State.loadDefaults_sound _ h
  · exact State.becomeReady_sound (s := s.setLoader _) h

theorem State.readFailed_sound {s : State} (h : s.line.Sound) : s.readFailed.line.Sound := by
  unfold State.readFailed
  split
  · exact h
  · exact State.loadDefaults_sound _ h

theorem State.beginLoad_sound {s : State} (h : s.line.Sound) : s.beginLoad.line.Sound := by
  unfold State.beginLoad
  split
  · exact h
  · split
    · exact h
    · exact State.loadDefaults_sound _ h

/-- The resets and the load keep the line sound (R8, R182 to R188). -/
theorem exec_load_sound {c : Instr} {s t : State}
    (hc : c = .powerOnReset ∨ c = .resetInputAsserted ∨ (∃ k st, c = .resetRelease k st) ∨
      (∃ l, c = .readAttempt l) ∨ c = .readRetryTimer)
    (hs : s.line.Sound) (h : exec c s = .next t) : t.line.Sound := by
  have same : ∀ {u : State}, advance u = .next t → u = t := fun e => by rwa [advance_eq_next] at e
  obtain rfl | rfl | ⟨kind, straps, rfl⟩ | ⟨octets, rfl⟩ | rfl := hc
  · obtain rfl := same h; exact LineState.reset_sound
  · obtain rfl := same h; exact LineState.reset_sound
  · simp only [exec, execResetRelease] at h
    split at h
    · split at h <;> obtain rfl := same h
      · exact hs
      · exact State.beginLoad_sound hs
    · obtain rfl := same h; exact hs
  · simp only [exec, execReadAttempt] at h
    split at h
    · split at h <;> obtain rfl := same h
      · exact State.readFailed_sound hs
      · exact State.checkImage_sound _ hs
    · obtain rfl := same h; exact hs
  · simp only [exec, execReadRetryTimer] at h
    split at h <;> obtain rfl := same h <;> exact hs

/-! ## The line's own events (R2, R4, R7, R9, R13 to R15) -/

/-- ATTEMPT_BEGIN keeps the line sound: the gap that it needs has abandoned a frame in progress (R4, R13). -/
theorem exec_attemptBegin_sound {s t : State} (hs : s.line.Sound) (h : exec .attemptBegin s = .next t) :
    t.line.Sound := by
  have same : ∀ {u : State}, advance u = .next t → u = t := fun e => by rwa [advance_eq_next] at e
  simp only [exec, execAttemptBegin] at h
  split at h
  · rename_i k hk
    split at h
    · rename_i hc
      simp only [Bool.and_eq_true] at hc
      obtain ⟨_, hy, _, ht, ha⟩ := (LineState.canSend_iff _ _).1 hc.1
      obtain rfl := same h
      show (LineState.beginAttempt _ _).Sound
      rw [State.setLine_line, LineState.gapReaches_gapAbandon, LineState.beginAttempt_counts]
      refine LineState.Sound.beginAttempt (hs.gapAbandon ha) ?_ ?_ ?_ ?_ ?_
      · rw [LineState.gapAbandon_eq]; exact Receiver.not_inFrame_of_abandoned _
      · rw [LineState.gapAbandon_eq]; exact hs.waiting k hk
      · rw [LineState.gapAbandon_eq]; exact ht
      · rw [LineState.gapAbandon_eq]; exact hy
      · exact (Nat.le_add_right 30 _).trans (le_max_right _ _)
    · obtain rfl := same h; exact hs
  · obtain rfl := same h; exact hs

/-- The line is free to take octets: no reset is asserted and the station does not transmit. -/
theorem State.not_transmitting {s : State} (h : ¬ (s.inReset || s.line.attempt.isSome) = true) :
    s.line.attempt = none := by
  simp only [Bool.or_eq_true, not_or, Option.not_isSome_iff_eq_none] at h
  exact h.2

/-- A refill leaves at least one token (R7). -/
theorem one_le_satAdd_three (n : Nat) : 1 ≤ satAdd 3 n 1 := by unfold satAdd; omega

/-- The commands of the line's own events. -/
theorem exec_line_sound {c : Instr} {s t : State}
    (hc : c = .tokenRefillTimer ∨ c = .lineIdle ∨ c = .attemptComplete ∨ (∃ b, c = .collision b) ∨
      (∃ l, c = .frameReceived l) ∨ (∃ l, c = .frameAbandoned l) ∨ c = .zonePeriodicTimer ∨
      c = .plantPeriodicTimer ∨ c = .summaryTimer ∨ c = .startBitSeen ∨ ∃ l, c = .framingError l)
    (hs : s.line.Sound) (h : exec c s = .next t) : t.line.Sound := by
  have same : ∀ {u : State}, advance u = .next t → u = t := fun e => by rwa [advance_eq_next] at e
  obtain rfl | rfl | rfl | ⟨bit, rfl⟩ | ⟨octets, rfl⟩ | ⟨octets, rfl⟩ | rfl | rfl | rfl | rfl | ⟨octets, rfl⟩ := hc
  · simp only [exec, execTokenRefillTimer] at h
    split at h <;> obtain rfl := same h
    · refine State.settle_sound ?_
      exact { hs with
        tokens := satAdd_le 3 _ 1
        attempt := fun a ha => ⟨one_le_satAdd_three _, (hs.attempt a ha).2⟩ }
    · exact hs
  · simp only [exec, execLineIdle] at h
    split at h <;> obtain rfl := same h
    · exact hs
    · exact hs.gapPasses (State.not_transmitting ‹_›) (le_refl 30)
  · simp only [exec, execAttemptComplete] at h
    split at h <;> obtain rfl := same h
    · exact State.settle_sound (hs.completeAttempt ‹_› _)
    · exact hs
  · simp only [exec, execCollision] at h
    split at h
    · split at h <;> obtain rfl := same h
      · exact State.settlePlant_sound ((State.takeOctets_hears _ (s.setLine _)).sound (hs.collide ‹_›) rfl rfl)
      · exact hs
    · obtain rfl := same h; exact hs
  · simp only [exec, execFrameReceived] at h
    split at h <;> obtain rfl := same h
    · exact hs
    · exact State.settlePlant_sound (State.heardOctets_sound octets hs (State.not_transmitting ‹_›))
  · simp only [exec, execFrameAbandoned] at h
    split at h <;> obtain rfl := same h
    · exact hs
    · obtain ⟨hh, ha⟩ := State.heard_sound octets hs (State.not_transmitting ‹_›)
      exact State.settlePlant_sound (hh.gapPasses ha (by decide))
  · simp only [exec, execZonePeriodicTimer] at h
    split at h <;> obtain rfl := same h
    · exact State.settle_sound (hs.trigger .main)
    · exact hs
  · simp only [exec, execPlantPeriodicTimer] at h
    split at h <;> obtain rfl := same h
    · exact State.settle_sound (hs.trigger .main)
    · exact hs
  · simp only [exec, execSummaryTimer] at h
    split at h <;> obtain rfl := same h
    · exact State.settle_sound (hs.trigger .summary)
    · exact hs
  · simp only [exec, execStartBitSeen] at h
    split at h <;> obtain rfl := same h
    · exact hs
    · exact hs.startBit
  · simp only [exec, execFramingError] at h
    split at h <;> obtain rfl := same h
    · exact hs
    · obtain ⟨hh, ha⟩ := State.heard_sound octets hs (State.not_transmitting ‹_›)
      refine State.settlePlant_sound (LineState.Sound.octetEnd ?_ ?_)
      · rw [LineState.framingAbandon_eq]
        have hr := hh.receive ha .hunt fun hi => nomatch hi
        exact { hr with }
      · rw [LineState.framingAbandon_eq]; exact ha

/-- Every command keeps the line sound (chapter 1). -/
theorem exec_line_stays_sound {c : Instr} {s t : State} (hs : s.line.Sound) (h : exec c s = .next t) :
    t.line.Sound := by
  cases hc : leavesLine c with
  | true => exact (exec_concludes hc h).sound hs
  | false =>
    cases c with
    | powerOnReset | resetInputAsserted | resetRelease | readAttempt | readRetryTimer =>
      exact exec_load_sound (by simp) hs h
    | attemptBegin => exact exec_attemptBegin_sound hs h
    | tokenRefillTimer | lineIdle | attemptComplete | collision | frameReceived | frameAbandoned
    | zonePeriodicTimer | plantPeriodicTimer | summaryTimer | startBitSeen | framingError =>
      exact exec_line_sound (by simp) hs h
    | ageTimer | graceTimer | headFrameArrival | headFrameAbandoned | lossTimer | sensorTimer | demandTimer
    | homingStepCompletion | stepCompletion | budgetRefillTimer | rehomeAgeTimer | plantControlTimer
    | offHoldTimer | protectionTimer | listeningTimer | stepDelayExpiry | stepTimeExit | stepTimeLimit
    | emergencyHoldTick | retainedTimer | frostTimer => cases hc

/-- A step runs the command at the front of the queue on the state with the queue's rest, or idles. -/
theorem step_cases {s t : State} (h : step s = .next t) :
    (s.pending = [] ∧ t = s) ∨
      ∃ c rest, s.pending = c :: rest ∧ exec c (s.setPending rest) = .next t := by
  unfold step at h
  split at h
  next hp =>
    cases h
    exact .inl ⟨hp, rfl⟩
  next c rest hp => exact .inr ⟨c, rest, hp, h⟩

/-- Settles O8: every command keeps the line sound, and the queue is no part of the line. -/
theorem lineStaysSound : Obligations.LineStaysSound := by
  unfold Obligations.LineStaysSound
  intro s t hs h
  obtain ⟨_, rfl⟩ | ⟨c, rest, _, hx⟩ := step_cases h
  · exact hs
  · exact exec_line_stays_sound (s := s.setPending rest) hs hx

end Sys2Proof.Machine
end

