-- ==== Sys2Proof/Proofs/Ranges.lean ====
section
/-! PROOFS. The table's records, the Sensor Inputs, the Mode Selector and the Capacity Controller stay in their ranges
over every step (R6, R20, R39 to R47, R96, R113, R121, R182). -/

namespace Sys2Proof.Machine

/-! ## Records that are decoded (R6) -/

theorem Opening.ofCode_orZero_le (n : Nat) : (Opening.ofCode n).orZero ≤ 100 := by
  unfold Opening.ofCode
  split
  · exact Nat.zero_le _
  · exact Nat.min_le_left _ _

/-- The target octet, in steps of half a degree above 16 °C, clamps to at most 30 °C (R6, R190). -/
theorem clamp_target (n : Nat) :
    ∃ m : Nat, m ≤ 28 ∧ clamp 1600 3000 (1600 + 50 * (n : Int)) = 1600 + 50 * (m : Int) :=
  ⟨min 28 n, Nat.min_le_left _ _, by unfold clamp; push_cast; omega⟩

theorem decodeZone_inRange {p : List Byte} {r : ZoneRecord} (h : decodeZone p = some r) : r.InRange := by
  unfold decodeZone at h
  split at h
  · cases h
  · obtain rfl := Option.some.inj h
    exact
      { ds := Nat.min_le_left _ _, dl := Nat.min_le_left _ _
        weight := clampNat_bounds _ _ _ (by decide), tier := Nat.min_le_left _ _
        base := Opening.ofCode_orZero_le _, relief := Nat.min_le_left _ _
        position := Opening.ofCode_orZero_le _, roomTemp := clamp_bounds _ _ _ (by decide)
        roomRh := Nat.min_le_left _ _, target := clamp_target _ }

theorem decodePlant_inRange {p : List Byte} {r : PlantRecord} (h : decodePlant p = some r) : r.InRange := by
  unfold decodePlant at h
  split at h
  · obtain rfl := Option.some.inj h
    exact
      { f := Nat.min_le_left _ _, capacity := Nat.min_le_left _ _, blower := Nat.min_le_left _ _
        supplyAir := clamp_bounds _ _ _ (by decide), outdoorAir := clamp_bounds _ _ _ (by decide) }
  · cases h

/-- What a good frame carries lies in the ranges that its decoding clamps it to (R6). -/
theorem decodeContents_inRange {h : Byte} {p : List Byte} {c : Contents} (hd : decodeContents h p = some c) :
    c.InRange := by
  unfold decodeContents at hd
  split at hd
  · obtain ⟨r, hr, rfl⟩ := Option.map_eq_some_iff.1 hd
    exact decodeZone_inRange hr
  · split at hd
    · obtain ⟨r, hr, rfl⟩ := Option.map_eq_some_iff.1 hd
      exact decodePlant_inRange hr
    · cases hd

/-! ## Carrying the ranges from one state to another -/

/-- The ranges of a table's entries (R6, R20). -/
def EntriesInRange (l : List PeerEntry) : Prop :=
  ∀ e ∈ l, ∀ h, e.held = some h → h.age ≤ 65535 ∧ h.contents.InRange

/-- What the address of a station that has left IDLE is (R182, R183). -/
def Loader.AddressSound (l : Loader) : Prop :=
  l.state ≠ .idle → l.straps.addr ≤ 15 ∧ (l.straps.addr = 0 ↔ l.state = .configHalt)

/-- The ranges that a mode change or a new weighing must keep (R96, R98). -/
structure ModeSelector.InRange (m : ModeSelector) : Prop where
  weights : m.wc ≤ 1400000 ∧ m.wh ≤ 1400000 ∧ m.wd ≤ 1400000
  ages : m.modeAge ≤ 65535 ∧ m.shiftAge ≤ 65535 ∧ m.quiet ≤ 65535 ∧ m.dominance ≤ 65535

theorem State.RangesSound.modeSel {s : State} (h : s.RangesSound) : s.modeSel.InRange := ⟨h.weights, h.ages⟩

/-- The ranges of a state, block by block. -/
theorem State.RangesSound.of {t : State} (ha : t.loader.AddressSound) (he : EntriesInRange t.peers.entries)
    (hx : t.sensors.InRange) (hm : t.modeSel.InRange) (hc : t.capacity.InRange)
    (hb : ∀ v, t.engine.blowerHold = some v → v ≤ 1000) : t.RangesSound :=
  ⟨ha, he, hx, hm.weights, hm.ages, hc, hb⟩

/-- The off-hold timer has no range. -/
theorem ModeSelector.InRange.of {m n : ModeSelector} (h : m.InRange)
    (e : { n with offHold := m.offHold } = m) : n.InRange := by
  rw [← e] at h
  exact ⟨h.weights, h.ages⟩

theorem ZoneFrame.ranges {s t : State} (f : ZoneFrame s t) (h : s.RangesSound) : t.RangesSound := by
  refine .of ?_ ?_ ?_ ?_ ?_ ?_
  · rw [f.loader]; exact h.address
  · rw [f.entries]; exact h.table
  · rw [f.sensors]; exact h.sensors
  · rw [f.modeSel]; exact h.modeSel
  · rw [f.capacity]; exact h.capacity
  · rw [f.engine]; exact h.blowerHold

theorem PlantFrame.ranges {s t : State} (f : PlantFrame s t) (h : s.RangesSound) (hc : t.capacity.InRange)
    (hb : ∀ v, t.engine.blowerHold = some v → v ≤ 1000) : t.RangesSound := by
  refine .of ?_ ?_ ?_ (h.modeSel.of f.modeSel) hc hb
  · rw [f.loader]; exact h.address
  · rw [f.peers]; exact h.table
  · rw [f.sensors]; exact h.sensors

/-- The blower values of a state in range. -/
theorem State.RangesSound.blowerInRange {s : State} (h : s.RangesSound) : s.BlowerInRange :=
  ⟨h.capacity.blower.2.1, h.capacity.blower.2.2, h.blowerHold⟩

theorem EngineFrame.capacity_inRange {s t : State} (e : EngineFrame s t) (hl : s.loader.Sound)
    (h : s.capacity.InRange) (hb : s.BlowerInRange) : t.capacity.InRange := by
  have hcmd := (e.blower hl hb).command
  have hx := e.capacity
  generalize t.capacity = x at hx hcmd
  rw [hx]
  exact { h with blower := ⟨h.blower.1, h.blower.2.1, hcmd⟩ }

/-- The engine's operations keep the ranges (R113, R123). -/
theorem EngineFrame.ranges {s t : State} (e : EngineFrame s t) (f : PlantFrame s t) (hl : s.loader.Sound)
    (h : s.RangesSound) : t.RangesSound :=
  f.ranges h (e.capacity_inRange hl h.capacity h.blowerInRange) (e.blower hl h.blowerInRange).hold

theorem State.RangesSound.setLine {s : State} (h : s.RangesSound) (x : LineState) : (s.setLine x).RangesSound :=
  ⟨h.address, h.table, h.sensors, h.weights, h.ages, h.capacity, h.blowerHold⟩

theorem State.RangesSound.setSensors {s : State} (h : s.RangesSound) {x : Sensors} (hx : x.InRange) :
    (s.setSensors x).RangesSound :=
  ⟨h.address, h.table, hx, h.weights, h.ages, h.capacity, h.blowerHold⟩

theorem State.RangesSound.setPeers {s : State} (h : s.RangesSound) {x : Peers} (hx : EntriesInRange x.entries) :
    (s.setPeers x).RangesSound :=
  ⟨h.address, hx, h.sensors, h.weights, h.ages, h.capacity, h.blowerHold⟩

theorem State.RangesSound.setCapacity {s : State} (h : s.RangesSound) {x : Capacity} (hx : x.InRange) :
    (s.setCapacity x).RangesSound :=
  ⟨h.address, h.table, h.sensors, h.weights, h.ages, hx, h.blowerHold⟩

theorem State.RangesSound.setModeSel {s : State} (h : s.RangesSound) {x : ModeSelector} (hx : x.InRange) :
    (s.setModeSel x).RangesSound :=
  ⟨h.address, h.table, h.sensors, hx.weights, hx.ages, h.capacity, h.blowerHold⟩

theorem State.RangesSound.settle {s : State} (h : s.RangesSound) : s.settle.RangesSound := h.setLine _

theorem State.RangesSound.prompt {s : State} (h : s.RangesSound) : s.prompt.RangesSound := h.setLine _

theorem State.RangesSound.settlePlant {s : State} (h : s.RangesSound) : s.settlePlant.RangesSound := by
  refine State.RangesSound.settle ?_
  unfold State.notePlantState
  split
  · exact ⟨h.address, h.table, h.sensors, h.weights, h.ages, h.capacity, h.blowerHold⟩
  · exact h

theorem State.RangesSound.request {s : State} (h : s.RangesSound) (hl : s.loader.Sound) (p : Proc) :
    (s.request p).RangesSound :=
  (State.request_engineFrame p s).ranges (State.request_plant p s) hl h

theorem State.RangesSound.run {s : State} (h : s.RangesSound) (hl : s.loader.Sound) (t : Todo) :
    (s.run t).RangesSound :=
  (State.run_engineFrame t s).ranges (State.run_plant t s) hl h

/-! ## The peer table (R6, R20, R26 to R28) -/

theorem Peers.take_inRange {p : Peers} (h : EntriesInRange p.entries) (a : Nat) {c : Contents} (hc : c.InRange) :
    EntriesInRange (p.take a c).entries := by
  intro e he x hx
  obtain ⟨o, ho, rfl⟩ := List.mem_map.1 he
  split at hx
  · obtain rfl := Option.some.inj hx
    exact ⟨Nat.zero_le _, hc⟩
  · exact h o ho x hx

theorem Peers.setHeld_inRange {p : Peers} (h : EntriesInRange p.entries) (a : Nat) {x : Option Presence}
    (hx : ∀ y, x = some y → y.age ≤ 65535 ∧ y.contents.InRange) :
    EntriesInRange (p.setHeld a x).entries := by
  intro e he y hy
  obtain ⟨o, ho, rfl⟩ := List.mem_map.1 he
  split at hy
  · exact hx y hy
  · exact h o ho y hy

theorem Peers.older_inRange {p : Peers} (h : EntriesInRange p.entries) (own : Nat) :
    EntriesInRange (p.older own).entries := by
  intro e he y hy
  obtain ⟨o, ho, rfl⟩ := List.mem_map.1 he
  split at hy
  · exact h o ho y hy
  · obtain ⟨x, hx, rfl⟩ := Option.map_eq_some_iff.1 hy
    exact ⟨ageUp_le _ _, (h o ho x hx).2⟩

/-- An entry that is looked up is one of the table's. -/
theorem Peers.entry_mem {p : Peers} {a : Nat} {e : PeerEntry} (h : p.entry a = some e) : e ∈ p.entries :=
  List.mem_of_find?_eq_some h

theorem State.RangesSound.ageEntry {s : State} (h : s.RangesSound) (a : Nat) : (s.ageEntry a).RangesSound := by
  unfold State.ageEntry
  split
  · exact h
  · split
    · rename_i x hx
      obtain ⟨e, he, hh⟩ := Option.bind_eq_some_iff.1 hx
      have hr := h.table e (Peers.entry_mem he) x hh
      unfold State.ageOut
      split
      · split
        · refine h.setPeers ?_
          exact Peers.setHeld_inRange h.table a fun y hy => Option.some.inj hy ▸ hr
        · exact h
      · split
        · have hrm := h.setPeers (x := { s.peers.setHeld a none with peersLost := s.peers.peersLost + 1 })
            (Peers.setHeld_inRange (p := s.peers) h.table a fun y hy => nomatch hy)
          dsimp only
          split
          · exact (State.evaluatePlant_zone _ _).ranges hrm
          · exact hrm
          · exact hrm
        · exact h
    · exact h

theorem State.RangesSound.ageEntries (l : List Nat) :
    ∀ {s : State}, s.RangesSound → (l.foldl State.ageEntry s).RangesSound := by
  induction l with
  | nil => exact fun h => h
  | cons a l ih => exact fun h => ih (h.ageEntry a)

/-! ## Frames from the line (R6, R16, R17, R24, R34, R35) -/

/-- Standing aside keeps the ranges, for either role that can (R17, R35). -/
theorem State.RangesSound.dropPlant {s : State} (h : s.RangesSound) (hl : s.loader.Sound) :
    s.dropPlant.RangesSound :=
  (State.dropPlant_engineFrame s).ranges (State.dropPlant_plant s) hl h

theorem State.RangesSound.enterStandby {s : State} (h : s.RangesSound) (hl : s.loader.Sound) :
    s.enterStandby.RangesSound := by
  unfold State.enterStandby
  split
  · exact h
  · refine State.RangesSound.dropPlant ?_ hl
    exact ⟨h.address, h.table, h.sensors, h.weights, h.ages, h.capacity, h.blowerHold⟩

theorem State.RangesSound.enterYielded {s : State} (h : s.RangesSound) (hl : s.loader.Sound) :
    s.enterYielded.RangesSound := by
  have hy := h.setLine s.line.yield
  unfold State.enterYielded
  split
  · exact h
  · dsimp only
    split
    · exact ((State.yieldDemand_zone _).trans (State.recompute_zone _)).ranges hy
    · exact hy.dropPlant hl

theorem State.RangesSound.takeReport {s : State} (h : s.RangesSound) (hl : s.loader.Sound) (a : Nat)
    {c : Contents} (hc : c.InRange) : (s.takeReport a c).RangesSound := by
  have ht := h.setPeers (Peers.take_inRange h.table a hc)
  unfold State.takeReport
  dsimp only
  split
  · unfold State.detectPlant
    split
    · exact ht
    · split
      · exact ht.enterStandby hl
      · split
        · exact ht
        · exact ht.setLine _
  · exact ht
  · exact (State.evaluatePlant_zone _ _).ranges ht
  · split
    · exact (State.evaluatePlant_zone _ _).ranges ht
    · exact ht

theorem State.RangesSound.acceptFrame {s : State} (h : s.RangesSound) (hl : s.loader.Sound) (hd : Byte)
    (p : List Byte) : (s.acceptFrame hd p).RangesSound := by
  unfold State.acceptFrame
  split
  · exact h
  · rename_i c hc
    split
    · have hk : s.countConflict.RangesSound := h.setLine _
      unfold State.compareTag
      dsimp only
      split
      · exact hk.enterYielded hl
      · exact hk
    · exact h.takeReport hl _ (decodeContents_inRange hc)

theorem State.enterYielded_loader (s : State) : s.enterYielded.loader = s.loader := by
  unfold State.enterYielded
  split
  · rfl
  · dsimp only
    split
    · exact ((State.yieldDemand_zone _).trans (State.recompute_zone _)).loader
    · exact (State.dropPlant_plant _).loader

theorem State.compareTag_loader (tag : Tag) (s : State) : (s.compareTag tag).loader = s.loader := by
  unfold State.compareTag
  dsimp only
  split
  · exact State.enterYielded_loader _
  · rfl

theorem State.takeReport_loader (a : Nat) (c : Contents) (s : State) : (s.takeReport a c).loader = s.loader := by
  unfold State.takeReport
  dsimp only
  split
  · unfold State.detectPlant
    split
    · rfl
    · split
      · exact (State.enterStandby_plant _).loader
      · split <;> rfl
  · rfl
  · exact (State.evaluatePlant_zone _ _).loader
  · split
    · exact (State.evaluatePlant_zone _ _).loader
    · rfl

theorem State.acceptFrame_loader (hd : Byte) (p : List Byte) (s : State) :
    (s.acceptFrame hd p).loader = s.loader := by
  unfold State.acceptFrame
  split
  · rfl
  · split
    · exact State.compareTag_loader _ s
    · exact State.takeReport_loader _ _ s

theorem State.takeOctet_loader (s : State) (o : Byte) : (s.takeOctet o).loader = s.loader := by
  unfold State.takeOctet State.frameEvent
  split
  · rfl
  · rfl
  · rfl
  · exact State.acceptFrame_loader _ _ _

theorem State.RangesSound.takeOctet {s : State} (h : s.RangesSound) (hl : s.loader.Sound) (o : Byte) :
    (s.takeOctet o).RangesSound := by
  unfold State.takeOctet State.frameEvent
  have hr := h.setLine { s.line with rx := (s.line.rx.octet o).1 }
  split
  · exact hr
  · exact hr.setLine _
  · exact hr.setLine _
  · refine State.RangesSound.acceptFrame ?_ ?_ _ _
    · exact hr.setLine _
    · exact hl

theorem State.RangesSound.foldOctets (octets : List Byte) :
    ∀ {s : State}, s.RangesSound → s.loader.Sound → (octets.foldl State.takeOctet s).RangesSound := by
  induction octets with
  | nil => exact fun h _ => h
  | cons o l ih =>
    intro s h hl
    refine ih (h.takeOctet hl o) ?_
    rw [State.takeOctet_loader]
    exact hl

theorem State.RangesSound.takeOctets {s : State} (h : s.RangesSound) (hl : s.loader.Sound) (octets : List Byte) :
    (s.takeOctets octets).RangesSound := by
  unfold State.takeOctets
  split
  · exact State.RangesSound.foldOctets octets h hl
  · exact h

theorem State.RangesSound.heard {s : State} (h : s.RangesSound) (hl : s.loader.Sound) (octets : List Byte) :
    (s.heard octets).RangesSound := by
  unfold State.heard
  split
  · exact h
  · exact State.RangesSound.takeOctets (s := s.setLine s.line.octetEnd) (h.setLine _) hl octets

/-! ## Sensor Inputs (R39, R43, R45 to R47) -/

/-- A target is a multiple of half a degree within 16 °C to 30 °C (R39). -/
theorem dialTarget_range (t : Int) : ∃ n : Nat, n ≤ 28 ∧ dialTarget t = 1600 + 50 * (n : Int) := by
  unfold dialTarget clamp
  generalize nearest t 50 = q
  exact ⟨(max 0 (min 28 (q - 32))).toNat, by omega, by omega⟩

theorem Sensors.InRange.wallArrival {x : Sensors} (h : x.InRange) (temp rh target : Int) (on : Bool) :
    (x.wallArrival temp rh target on).InRange :=
  { h with
    roomTemp := { h.roomTemp with }
    roomRh := { h.roomRh with }
    target := dialTarget_range _ }

theorem State.RangesSound.headEvent {s : State} (h : s.RangesSound) (e : HeadEvent) :
    (s.headEvent e).RangesSound := by
  cases e with
  | none => exact h
  | wall temp rh target on => exact h.setSensors (h.sensors.wallArrival temp rh target on)
  | plant sw fan =>
    refine State.RangesSound.setSensors ?_ { h.sensors with }
    exact h.setModeSel { h.modeSel with }

theorem State.RangesSound.headOctets (octets : List Byte) :
    ∀ {s : State}, s.RangesSound → (octets.foldl State.headOctet s).RangesSound := by
  induction octets with
  | nil => exact fun h => h
  | cons o l ih =>
    intro s h
    refine ih (State.RangesSound.headEvent ?_ _)
    exact h.setSensors { h.sensors with }

/-- A head link's class is GOOD only where the value's own class is (R43). -/
theorem classifyHead_good {link : HeadLink} {arrived : Bool} {r : Reading}
    (h : classifyHead link arrived r = .good) : r = .good := by
  unfold classifyHead at h
  split at h
  · cases h
  · split at h
    · exact h
    · cases h
  · split at h
    · exact h
    · cases h

/-- A room temperature is GOOD only in its range (R43). -/
theorem classifyRoom_good {previous : Option Int} {raw : Int} (h : classifyRoom previous raw = .good) :
    -2000 ≤ raw ∧ raw ≤ 6000 := by
  refine classifyRange_good ?_
  unfold classifyRoom at h
  split at h
  · assumption
  · exact h

theorem Sensors.InRange.zoneExpiry {x : Sensors} (h : x.InRange) : x.zoneExpiry.InRange :=
  { h with
    roomTemp :=
      let ht := h.roomTemp.take 4 (by decide) (classifyHead x.link x.arrived
        (classifyRoom x.roomTemp.previous (x.roomTemp.raw.getD 0))) fun e =>
          classifyRoom_good (classifyHead_good e)
      { ht with }
    roomRh := h.roomRh.take 4 (by decide) _ fun e => classifyRange_good (classifyHead_good e) }

/-! ## The zone entries that a plant reads (R98, R115, R121) -/

/-- A stored zone entry with its freshness. -/
def PeerEntry.zoneHeld (e : PeerEntry) : Option (Freshness × ZoneRecord) :=
  match e.held with
  | some { freshness := fr, contents := .zone r, .. } => some (fr, r)
  | _ => none

theorem PeerEntry.zoneHeld_eq_some {e : PeerEntry} {x : Freshness × ZoneRecord} (h : e.zoneHeld = some x) :
    ∃ age, e.held = some { freshness := x.1, age := age, contents := .zone x.2 } := by
  unfold PeerEntry.zoneHeld at h
  split at h
  next fr age r hh =>
    obtain rfl := Option.some.inj h
    exact ⟨age, hh⟩
  next => cases h

/-- A plant's zone entries are those of the other stations: its own entry is a plant's (R23). -/
theorem State.zoneEntries_plant {s : State} (hr : s.loader.straps.role = .plant) :
    s.zoneEntries = s.others.filterMap PeerEntry.zoneHeld := by
  unfold State.zoneEntries State.others
  rw [List.filterMap_filter]
  congr 1
  funext e
  by_cases ha : e.address = s.address
  · have hown : s.ownContents = .plant s.ownPlant := by unfold State.ownContents; rw [hr]
    cases hrdy : s.ready <;> simp [State.presence, ha, hown, hrdy]
  · simp only [State.presence, ha, if_false, ne_eq, not_false_eq_true, decide_true, if_true]
    unfold PeerEntry.zoneHeld
    rfl

/-- A plant's zone entries are in range (R6, R21). -/
theorem State.zoneEntries_inRange {s : State} (hr : s.loader.straps.role = .plant)
    (h : EntriesInRange s.peers.entries) {e : Freshness × ZoneRecord} (he : e ∈ s.zoneEntries) :
    e.2.InRange := by
  rw [State.zoneEntries_plant hr] at he
  obtain ⟨p, hp, hz⟩ := List.mem_filterMap.1 he
  obtain ⟨age, hh⟩ := PeerEntry.zoneHeld_eq_some hz
  exact (h p (List.mem_filter.1 hp).1 _ hh).2

/-- Fourteen stations stand beside the own one (R19). -/
theorem State.others_length {s : State} (ht : s.TableSound) (ha : 1 ≤ s.address ∧ s.address ≤ 15) :
    s.others.length = 14 := by
  have hmap : (s.others.map PeerEntry.address).length = 14 := by
    have hf : s.others.map PeerEntry.address =
        [1, 2, 3, 4, 5, 6, 7, 8, 9, 10, 11, 12, 13, 14, 15].filter fun a => decide (a ≠ s.address) := by
      rw [← ht.addresses, List.filter_map]
      rfl
    rw [hf]
    obtain ⟨h1, h2⟩ := ha
    generalize s.address = a at h1 h2
    interval_cases a <;> rfl
  rwa [List.length_map] at hmap

/-- What a plant weighs the calls by: fourteen zone entries at most, each in range (R98, R115, R121). -/
structure ZonesWeighable (l : List (Freshness × ZoneRecord)) : Prop where
  count : l.length ≤ 14
  ranges : ∀ e ∈ l, e.2.InRange

theorem State.zoneEntries_weighable {s : State} (hr : s.loader.straps.role = .plant) (hrdy : s.ready = true)
    (ht : s.TableSound) (h : s.RangesSound) : ZonesWeighable s.zoneEntries := by
  refine ⟨?_, fun e he => State.zoneEntries_inRange hr h.table he⟩
  have hready : s.loader.state = .ready := by simpa [State.ready] using hrdy
  obtain ⟨hle, h0⟩ := h.address (by rw [hready]; decide)
  have hpos : 1 ≤ s.address := by
    by_contra hc
    have := h0.1 (by omega)
    rw [hready] at this
    cases this
  rw [State.zoneEntries_plant hr, ← State.others_length ht ⟨hpos, hle⟩]
  exact List.length_filterMap_le _ _

/-- A sum over at most fourteen entries of terms that have a bound. -/
theorem sum_le_fourteen {α : Type} {l : List α} (hl : l.length ≤ 14) {f : α → Nat} {b : Nat}
    (h : ∀ e ∈ l, f e ≤ b) : (l.map f).sum ≤ 14 * b := by
  have hs := List.sum_le_card_nsmul (l.map f) b fun x hx => by
    obtain ⟨e, he, rfl⟩ := List.mem_map.1 hx
    exact h e he
  rw [List.length_map, smul_eq_mul] at hs
  exact hs.trans (Nat.mul_le_mul_right b hl)

theorem ZonesWeighable.totalWeight_le {l : List (Freshness × ZoneRecord)} (h : ZonesWeighable l) :
    (l.map fun e => e.2.weight).sum ≤ 1400 :=
  sum_le_fourteen h.count fun e he => (h.ranges e he).weight.2

/-- An entry opens at most its weight times base and relief of 100 each (R121). -/
theorem fmaxTerm_le {e : Freshness × ZoneRecord} (h : e.2.InRange) : fmaxTerm e ≤ 20000 := by
  have hw := h.weight.2
  have hb := h.base
  have hr := h.relief
  unfold fmaxTerm
  split
  · split
    · exact Nat.zero_le _
    · rename_i p hp
      rw [hp] at hb
      have hp' : p ≤ 100 := hb
      exact (Nat.mul_le_mul hw (Nat.add_le_add hp' hr)).trans (by decide)
  · exact (Nat.mul_le_mul_right 100 hw).trans (by decide)

theorem ZonesWeighable.fmaxOf_le {l : List (Freshness × ZoneRecord)} (h : ZonesWeighable l) :
    fmaxOf l ≤ 280000 :=
  sum_le_fourteen h.count fun e he => fmaxTerm_le (h.ranges e he)

/-- The weight of a call is at most 1000 times the weight of all entries (R98). -/
theorem callWeight_le (c : Call) (demand : ZoneRecord → Nat) (l : List (Freshness × ZoneRecord))
    (h : ∀ e ∈ l, demand e.2 ≤ 1000) : callWeight c demand l ≤ 1000 * (l.map fun e => e.2.weight).sum := by
  unfold callWeight
  induction l with
  | nil => exact Nat.zero_le _
  | cons e l ih =>
    have ih := ih fun x hx => h x (List.mem_cons_of_mem _ hx)
    have he : e.2.weight * demand e.2 ≤ 1000 * e.2.weight := by
      rw [Nat.mul_comm 1000]; exact Nat.mul_le_mul_left _ (h e List.mem_cons_self)
    rw [List.filter_cons]
    split
    · simp only [List.map_cons, List.sum_cons]; omega
    · simp only [List.map_cons, List.sum_cons]; omega

/-! ## A control period (R96 to R125) -/

/-- The plant's weighing stands: its zone entries can be weighed, and no admitted weight is more than 1000 times the
weight of all of them (R98, R115). -/
structure State.Weighed (s : State) : Prop where
  loader : s.loader.Sound
  role : s.loader.straps.role = .plant
  zones : ZonesWeighable s.zoneEntries
  weights : s.modeSel.wc ≤ 1000 * s.totalWeight ∧ s.modeSel.wh ≤ 1000 * s.totalWeight ∧
    s.modeSel.wd ≤ 1000 * s.totalWeight

theorem State.Weighed.totalWeight_le {s : State} (h : s.Weighed) : s.totalWeight ≤ 1400 := h.zones.totalWeight_le

/-- The zone entries of a plant are read from the table and the own address alone. -/
theorem State.zoneEntries_of {s t : State} (hl : t.loader = s.loader) (hp : t.peers = s.peers)
    (hr : s.loader.straps.role = .plant) : t.zoneEntries = s.zoneEntries := by
  rw [State.zoneEntries_plant (hl ▸ hr), State.zoneEntries_plant hr]
  unfold State.others State.address
  rw [hl, hp]

theorem State.totalWeight_of {s t : State} (hl : t.loader = s.loader) (hp : t.peers = s.peers)
    (hr : s.loader.straps.role = .plant) : t.totalWeight = s.totalWeight := by
  unfold State.totalWeight; rw [State.zoneEntries_of hl hp hr]

theorem PlantFrame.weighed {s t : State} (f : PlantFrame s t) (h : s.Weighed) : t.Weighed := by
  have hc : t.modeSel.wc = s.modeSel.wc := by rw [← f.modeSel]
  have hh : t.modeSel.wh = s.modeSel.wh := by rw [← f.modeSel]
  have hd : t.modeSel.wd = s.modeSel.wd := by rw [← f.modeSel]
  refine ⟨f.loader ▸ h.loader, f.loader ▸ h.role, ?_, ?_⟩
  · rw [State.zoneEntries_of f.loader f.peers h.role]; exact h.zones
  · rw [State.totalWeight_of f.loader f.peers h.role, hc, hh, hd]; exact h.weights

/-! ### The Mode Selector's stages (R98 to R108) -/

/-- Stage 2 weighs the calls (R98, R99). -/
theorem State.weigh_weighed {s : State} (hl : s.loader.Sound) (hr : s.loader.straps.role = .plant)
    (hz : ZonesWeighable s.zoneEntries) : s.weigh.Weighed := by
  have ht : s.weigh.totalWeight = s.totalWeight := State.totalWeight_of rfl rfl hr
  have hze : s.weigh.zoneEntries = s.zoneEntries := State.zoneEntries_of rfl rfl hr
  have hds (c : Call) : callWeight c ZoneRecord.ds s.zoneEntries ≤ 1000 * s.totalWeight :=
    callWeight_le _ _ _ fun e he => (hz.ranges e he).ds
  have hdl (c : Call) : callWeight c ZoneRecord.dl s.zoneEntries ≤ 1000 * s.totalWeight :=
    callWeight_le _ _ _ fun e he => (hz.ranges e he).dl
  refine ⟨hl, hr, hze ▸ hz, ?_⟩
  rw [ht]
  refine ⟨?_, ?_, ?_⟩ <;> simp only [State.weigh, State.setModeSel_modeSel] <;> split
  · exact hds _
  · exact Nat.zero_le _
  · exact hds _
  · exact Nat.zero_le _
  · exact hdl _
  · exact Nat.zero_le _

/-- What stage 4 can do to the Mode Selector: nothing, a shift, a mode without a group, or a group taken (R101 to
R108). -/
theorem ModeSelector.decide_cases (m : ModeSelector) (sw : SystemSwitch) (idle : Bool) :
    m.decide sw idle = m ∨ m.decide sw idle = m.shift ∨ (∃ mode, m.decide sw idle = m.leave mode) ∨
      ∃ g, m.decide sw idle = m.takeGroup g := by
  have group : ∀ w : Option Group, ∀ n, n = (match w with
      | some g => if idle then m.takeGroup g else m
      | none => m.shift) → n = m ∨ n = m.shift ∨ (∃ mode, n = m.leave mode) ∨ ∃ g, n = m.takeGroup g := by
    rintro (_ | g) n rfl
    · exact .inr (.inl rfl)
    · cases idle
      · exact .inl rfl
      · exact .inr (.inr (.inr ⟨g, rfl⟩))
  cases sw with
  | off => exact .inr (.inr (.inl ⟨_, rfl⟩))
  | fan => exact .inr (.inr (.inl ⟨_, rfl⟩))
  | cool => exact group (m.wants .cool) _ rfl
  | heat => exact group (m.wants .heat) _ rfl
  | auto => exact group (m.wants .auto) _ rfl

/-- Stage 4 leaves the weights alone. -/
theorem ModeSelector.decide_weights (m : ModeSelector) (sw : SystemSwitch) (idle : Bool) :
    (m.decide sw idle).wc = m.wc ∧ (m.decide sw idle).wh = m.wh ∧ (m.decide sw idle).wd = m.wd := by
  obtain h | h | ⟨_, h⟩ | ⟨_, h⟩ := m.decide_cases sw idle <;> rw [h]
  · exact ⟨rfl, rfl, rfl⟩
  · unfold ModeSelector.shift; split <;> exact ⟨rfl, rfl, rfl⟩
  · exact ⟨rfl, rfl, rfl⟩
  · exact ⟨rfl, rfl, rfl⟩

/-- Stage 3 keeps the ranges (R100, R105). -/
theorem ModeSelector.InRange.advance {m : ModeSelector} (h : m.InRange) (sw : SystemSwitch) :
    (m.advance sw).InRange where
  weights := h.weights
  ages := by
    refine ⟨?_, ageUp_le _ _, ?_, ?_⟩ <;> simp only [ModeSelector.advance] <;> split
    · exact h.ages.1
    · exact ageUp_le _ _
    · exact ageUp_le _ _
    · exact Nat.zero_le _
    · exact ageUp_le _ _
    · exact Nat.zero_le _

/-- Stage 4 keeps the ranges: what it sets it sets to 0 (R101 to R104). -/
theorem ModeSelector.InRange.decide {m : ModeSelector} (h : m.InRange) (sw : SystemSwitch) (idle : Bool) :
    (m.decide sw idle).InRange := by
  obtain ⟨hm, hs, hq, hd⟩ := h.ages
  obtain e | e | ⟨_, e⟩ | ⟨_, e⟩ := m.decide_cases sw idle <;> rw [e]
  · exact h
  · unfold ModeSelector.shift
    split
    · exact ⟨h.weights, hm, Nat.zero_le _, hq, hd⟩
    · exact h
  · exact ⟨h.weights, Nat.zero_le _, hs, Nat.zero_le _, Nat.zero_le _⟩
  · exact ⟨h.weights, Nat.zero_le _, hs, Nat.zero_le _, Nat.zero_le _⟩

theorem State.requestForMode_plant (g : Option Group) (s : State) : PlantFrame s (s.requestForMode g) := by
  unfold State.requestForMode
  split
  · split
    · split <;> exact State.request_plant _ s
    · exact PlantFrame.rfl' s
  · split
    · exact State.request_plant _ s
    · exact PlantFrame.rfl' s

/-- What follows the Mode Selector's stages leaves what they have set (R97, R101, R102, R109). -/
theorem State.modeExpiry_frames (s : State) :
    PlantFrame s.selectMode s.modeExpiry ∧ EngineFrame s.selectMode s.modeExpiry := by
  unfold State.modeExpiry
  dsimp only
  split
  · exact ⟨(State.prompt_plant _).trans (State.requestForMode_plant _ _),
      (State.prompt_engineFrame _).trans (State.requestForMode_engineFrame _ _)⟩
  · exact ⟨State.requestForMode_plant _ _, State.requestForMode_engineFrame _ _⟩

theorem State.selectMode_weighed {s : State} (h : s.weigh.Weighed) : s.selectMode.Weighed := by
  obtain ⟨hc, hh, hd⟩ := (s.weigh.modeSel.advance s.sensors.systemSwitch).decide_weights
    s.sensors.systemSwitch (s.engine.state = .idle)
  have hz : s.selectMode.zoneEntries = s.weigh.zoneEntries := State.zoneEntries_of rfl rfl h.role
  have ht : s.selectMode.totalWeight = s.weigh.totalWeight := State.totalWeight_of rfl rfl h.role
  refine ⟨h.loader, h.role, hz ▸ h.zones, ?_⟩
  rw [ht]
  simp only [State.selectMode, State.setModeSel_modeSel, hc, hh, hd]
  exact h.weights

/-- The Mode Selector's part of an expiry keeps the ranges, and leaves the plant weighed (R96 to R109). -/
theorem State.RangesSound.modeExpiry {s : State} (h : s.RangesSound) (hl : s.loader.Sound)
    (hr : s.loader.straps.role = .plant) (hz : ZonesWeighable s.zoneEntries) :
    s.modeExpiry.RangesSound ∧ s.modeExpiry.Weighed := by
  have hw := State.weigh_weighed hl hr hz
  have hm : s.weigh.modeSel.InRange := by
    have ht := hw.totalWeight_le
    obtain ⟨h1, h2, h3⟩ := hw.weights
    exact ⟨⟨by omega, by omega, by omega⟩, h.ages⟩
  have hsel : s.selectMode.RangesSound :=
    h.setModeSel ((hm.advance s.sensors.systemSwitch).decide s.sensors.systemSwitch (s.engine.state = .idle))
  obtain ⟨f, e⟩ := s.modeExpiry_frames
  exact ⟨e.ranges f hl hsel, f.weighed (State.selectMode_weighed hw)⟩

/-! ### The Capacity Controller's stages (R114 to R123) -/

/-- The Capacity Controller's ranges but for the opening, which stage 6 forms anew from the Fmax of stage 4, and the
blower value that a step holds (R113). -/
structure State.Forming (s : State) : Prop where
  c : s.capacity.c ≤ 1000
  counts : s.capacity.startCount ≤ 2 ∧ s.capacity.stopCount ≤ 3
  airflow : s.capacity.airflow ≤ 1000 ∧ s.capacity.effective ≤ 1000 ∧ s.capacity.effectiveRunning ≤ 1000
  fmax : s.capacity.fmax ≤ 280000
  limit : s.capacity.blowerLimit ≤ 1000
  blower : s.BlowerInRange
  protection : s.capacity.staticCount ≤ 10 ∧ s.capacity.freezeCount ≤ 120 ∧ s.capacity.airflowCount ≤ 60

theorem State.RangesSound.forming {s : State} (h : s.RangesSound) : s.Forming :=
  ⟨h.capacity.c, h.capacity.counts, h.capacity.airflow, h.capacity.opening.2.2, h.capacity.blower.1,
    h.blowerInRange, h.capacity.protection⟩

/-- The opening formed, the ranges are complete. -/
theorem State.Forming.capacity {s : State} (h : s.Forming)
    (hf : s.capacity.f ≤ s.capacity.fmax ∧ s.capacity.f ≤ 140000) : s.capacity.InRange :=
  ⟨h.c, h.counts, h.airflow, ⟨hf.1, hf.2, h.fmax⟩, ⟨h.limit, h.blower.loop, h.blower.command⟩, h.protection⟩

/-- The engine's operations keep what the controller forms. -/
theorem EngineFrame.forming {s t : State} (e : EngineFrame s t) (hl : s.loader.Sound) (h : s.Forming) :
    t.Forming := by
  have hb := e.blower hl h.blower
  have hx := e.capacity
  exact ⟨by rw [hx]; exact h.c, by rw [hx]; exact h.counts, by rw [hx]; exact h.airflow,
    by rw [hx]; exact h.fmax, by rw [hx]; exact h.limit, hb, by rw [hx]; exact h.protection⟩

theorem State.capacityRequest_le {s : State} (h : s.Weighed) : s.capacityRequest ≤ 1000 := by
  have hn {x : Nat} (hx : x ≤ 1000 * s.totalWeight) (hw : s.totalWeight ≠ 0) :
      (nearest x s.totalWeight).toNat ≤ 1000 := by
    have := nearest_le x 1000 s.totalWeight (Nat.pos_of_ne_zero hw) (by exact_mod_cast hx)
    omega
  obtain ⟨hc, hh, hd⟩ := h.weights
  unfold State.capacityRequest
  dsimp only
  split
  · exact Nat.zero_le _
  · rename_i hw
    split
    · exact hn hc hw
    · exact hn hh hw
    · exact (Nat.min_le_left _ _).trans (by decide)
    · exact Nat.zero_le _
    · exact Nat.zero_le _

/-- The running airflow of a capacity request of at most 1000 (R120). -/
theorem runningAirflow_le (m : Mode) {c : Nat} (h : c ≤ 1000) : runningAirflow m c ≤ 1000 := by
  have hx : max 400 (300 + c * 7 / 10) ≤ 1000 := by omega
  unfold runningAirflow
  dsimp only
  split
  · exact hx
  · exact hx
  · unfold upDiv; omega
  · exact Nat.zero_le _
  · exact Nat.zero_le _

/-- What is carried out is at most what is wanted (R121). -/
theorem carried_le (a w fmax : Nat) : carried a w fmax ≤ a := by
  unfold carried
  split
  · exact Nat.zero_le _
  · rename_i hw
    split
    · exact le_refl _
    · rename_i hn
      have hlt : fmax * 10 < a * w := by unfold needed upDiv at hn; omega
      exact Nat.div_le_of_le_mul (by rw [Nat.mul_comm w]; exact hlt.le)

/-- The published opening is at most Fmax, and at most what fourteen zones need (R121). -/
theorem published_le {a w : Nat} (fmax : Nat) (ha : a ≤ 1000) (hw : w ≤ 1400) :
    published a w fmax ≤ fmax ∧ published a w fmax ≤ 140000 := by
  have hn : needed a w ≤ 140000 := by
    have := Nat.mul_le_mul ha hw
    unfold needed upDiv
    omega
  unfold published
  split
  · exact ⟨Nat.zero_le _, Nat.zero_le _⟩
  · exact ⟨Nat.min_le_right _ _, (Nat.min_le_left _ _).trans hn⟩

theorem State.requiredAirflow_le {s : State} (hl : s.loader.Sound) (hc : s.capacity.c ≤ 1000) :
    s.requiredAirflow ≤ 1000 := by
  have hfan := (State.pp_inRange hl).fanAirflow.2
  have hrun := runningAirflow_le s.modeSel.mode hc
  unfold State.requiredAirflow
  split
  · split
    · assumption
    · split <;> omega
  · split
    · assumption
    · split <;> omega
  · split
    · assumption
    · split <;> omega
  · exact hfan
  · split <;> omega

theorem State.Forming.formC {s : State} (h : s.Forming) (hw : s.Weighed) : s.formC.Forming := by
  refine EngineFrame.forming (State.handOffC_engineFrame _) hw.loader ?_
  exact { h with c := State.capacityRequest_le hw, blower := { h.blower with } }

theorem State.Forming.adjustCaps {s : State} (h : s.Forming) : s.adjustCaps.Forming :=
  { h with blower := { h.blower with } }

theorem State.Forming.formRunning {s : State} (h : s.Forming) (hw : s.Weighed) : s.formRunning.Forming :=
  { h with
    airflow := ⟨h.airflow.1, h.airflow.2.1, (carried_le _ _ _).trans (runningAirflow_le _ h.c)⟩
    fmax := by
      simp only [State.formRunning, State.setCapacity_capacity]
      split
      · exact Nat.zero_le _
      · exact hw.zones.fmaxOf_le
    blower := { h.blower with } }

theorem State.Forming.formCounts {s : State} (h : s.Forming) : s.formCounts.Forming :=
  { h with
    counts := by
      simp only [State.formCounts, State.setCapacity_capacity]
      constructor <;> split <;> omega
    blower := { h.blower with } }

/-- Stage 6 forms the opening within the Fmax that stands (R121). -/
theorem State.Forming.formAirflow {s : State} (h : s.Forming) (hw : s.Weighed) :
    s.formAirflow.Forming ∧ s.formAirflow.capacity.f ≤ s.formAirflow.capacity.fmax ∧
      s.formAirflow.capacity.f ≤ 140000 := by
  have ha := State.requiredAirflow_le hw.loader h.c
  have hf := published_le s.capacity.fmax ha hw.totalWeight_le
  unfold State.formAirflow
  dsimp only
  split <;>
    exact ⟨{ h with
      airflow := ⟨ha, (carried_le _ _ _).trans ha, h.airflow.2.2⟩
      blower := { h.blower with } }, hf⟩

theorem State.nextBlowerLimit_le {s : State} (h : s.capacity.blowerLimit ≤ 1000) : s.nextBlowerLimit ≤ 1000 := by
  unfold State.nextBlowerLimit
  dsimp only
  split
  · split
    · omega
    · split <;> omega
  · decide

theorem State.Forming.formBlower {s : State} (h : s.Forming) (hl : s.loader.Sound) : s.formBlower.Forming := by
  have hlim := State.nextBlowerLimit_le h.limit
  refine EngineFrame.forming (State.driveOutputs_engineFrame _) hl ?_
  exact { h with
    limit := hlim
    blower := { h.blower with loop := (Nat.min_le_right _ _).trans hlim } }

theorem State.Forming.formSpeed {s : State} (h : s.Forming) : s.formSpeed.Forming := by
  unfold State.formSpeed
  dsimp only
  split <;> exact { h with blower := { h.blower with } }

theorem State.formSpeed_opening (s : State) :
    s.formSpeed.capacity.f = s.capacity.f ∧ s.formSpeed.capacity.fmax = s.capacity.fmax := by
  unfold State.formSpeed
  dsimp only
  split <;> exact ⟨rfl, rfl⟩

/-- The stages before the opening is formed: the capacity request, the caps, Fmax, the counts and their requests (R114
to R121, R124, R125). -/
def State.beforeAirflow (s : State) : State := s.formC.adjustCaps.formRunning.formCounts.raiseStart.raiseStop

theorem State.Forming.beforeAirflow {s : State} (h : s.Forming) (hw : s.Weighed) :
    s.beforeAirflow.Forming ∧ s.beforeAirflow.Weighed := by
  have hC := h.formC hw
  have wC := (State.formC_plant s).weighed hw
  have hCaps := hC.adjustCaps
  have wCaps : s.formC.adjustCaps.Weighed := (State.setCapacity_plant _ _).weighed wC
  have hRun := hCaps.formRunning wCaps
  have wRun : s.formC.adjustCaps.formRunning.Weighed := (State.setCapacity_plant _ _).weighed wCaps
  have hCounts := hRun.formCounts
  have wCounts : s.formC.adjustCaps.formRunning.formCounts.Weighed := (State.setCapacity_plant _ _).weighed wRun
  have hStart := (State.raiseStart_engineFrame _).forming wCounts.loader hCounts
  have wStart := (State.raiseStart_plant _).weighed wCounts
  exact ⟨(State.raiseStop_engineFrame _).forming wStart.loader hStart, (State.raiseStop_plant _).weighed wStart⟩

/-- The blower and the ramp leave the opening that stage 6 has formed (R119, R122, R123). -/
theorem State.Forming.finish {s : State} (h : s.Forming) (hl : s.loader.Sound)
    (ho : s.capacity.f ≤ s.capacity.fmax ∧ s.capacity.f ≤ 140000) :
    s.formBlower.formSpeed.capacity.InRange ∧ s.formBlower.formSpeed.BlowerInRange := by
  have hSpeed := (h.formBlower hl).formSpeed
  obtain ⟨hf, hm⟩ := State.formSpeed_opening s.formBlower
  refine ⟨State.Forming.capacity hSpeed ?_, hSpeed.blower⟩
  rw [hf, hm]
  exact ho

/-- A capacity period forms every item in its range (R114 to R123). -/
theorem State.RangesSound.capacityPeriod {s : State} (h : s.RangesSound) (hw : s.Weighed) :
    s.capacityPeriod.RangesSound := by
  obtain ⟨hBefore, wBefore⟩ := h.forming.beforeAirflow hw
  obtain ⟨hAir, oAir⟩ := hBefore.formAirflow wBefore
  have wAir := (State.formAirflow_plant s.beforeAirflow).weighed wBefore
  obtain ⟨hcap, hblower⟩ := hAir.finish wAir.loader oAir
  exact (State.capacityPeriod_plant s).ranges h hcap hblower.hold

/-! ## The plant's other commands -/

/-- A trip that sets a count and may raise a request keeps the ranges (R128, R131, R133). -/
theorem State.RangesSound.counted {s : State} (h : s.RangesSound) (hl : s.loader.Sound) {c : Capacity}
    (hc : c.InRange) (b : Prop) [Decidable b] (p : Proc) :
    (if b then (s.setCapacity c).request p else s.setCapacity c).RangesSound := by
  split
  · exact (h.setCapacity hc).request hl p
  · exact h.setCapacity hc

theorem State.RangesSound.raised {s : State} (h : s.RangesSound) (hl : s.loader.Sound) (b : Prop) [Decidable b]
    (p : Proc) : (if b then s.request p else s).RangesSound := by
  split
  · exact h.request hl p
  · exact h

theorem persist_le (b : Bool) (top n : Nat) : persist b top n ≤ top := by
  unfold persist; split <;> omega

theorem State.RangesSound.staticTrip {s : State} (h : s.RangesSound) (hl : s.loader.Sound) :
    s.staticTrip.RangesSound := by
  unfold State.staticTrip
  refine h.counted hl ?_ _ _
  exact { h.capacity with protection := ⟨persist_le _ _ _, h.capacity.protection.2⟩ }

theorem State.RangesSound.freezeStop {s : State} (h : s.RangesSound) (hl : s.loader.Sound) :
    s.freezeStop.RangesSound := by
  unfold State.freezeStop
  refine h.counted hl ?_ _ _
  exact { h.capacity with
    protection := ⟨h.capacity.protection.1, persist_le _ _ _, h.capacity.protection.2.2⟩ }

theorem State.RangesSound.airflowStop {s : State} (h : s.RangesSound) (hl : s.loader.Sound) :
    s.airflowStop.RangesSound := by
  unfold State.airflowStop
  refine h.counted hl ?_ _ _
  exact { h.capacity with
    protection := ⟨h.capacity.protection.1, h.capacity.protection.2.1, persist_le _ _ _⟩ }

/-- A protection timer expiry keeps the ranges (R127 to R133). -/
theorem State.RangesSound.protectionStages {s : State} (h : s.RangesSound) (hl : s.loader.Sound) :
    s.protectionStages.RangesSound := by
  have f1 : PromptFrame s s.staticTrip := .counted s _ _ _
  have f2 : PromptFrame s s.staticTrip.inverterTrip := f1.trans (.raised s.staticTrip _ _)
  have f3 : PromptFrame s s.staticTrip.inverterTrip.condensateStop := f2.trans (.raised _ _ _)
  have f4 : PromptFrame s s.staticTrip.inverterTrip.condensateStop.freezeStop := f3.trans (.counted _ _ _ _)
  have f5 : PromptFrame s s.staticTrip.inverterTrip.condensateStop.freezeStop.supplyStop :=
    f4.trans (.raised _ _ _)
  have h2 : s.staticTrip.inverterTrip.RangesSound := (h.staticTrip hl).raised (f1.loader ▸ hl) _ _
  have h3 : s.staticTrip.inverterTrip.condensateStop.RangesSound := h2.raised (f2.loader ▸ hl) _ _
  have h4 := h3.freezeStop (f3.loader ▸ hl)
  have h5 : s.staticTrip.inverterTrip.condensateStop.freezeStop.supplyStop.RangesSound :=
    h4.raised (f4.loader ▸ hl) _ _
  exact h5.airflowStop (f5.loader ▸ hl)

theorem State.examineRequest_plant (s : State) : PlantFrame s s.examineRequest := by
  unfold State.examineRequest
  split
  · rename_i g _
    have h : PlantFrame s (s.answer g) := by constructor <;> rfl
    split
    · dsimp only
      split <;> exact h.trans (State.run_plant _ _)
    · exact PlantFrame.rfl' s
  · exact PlantFrame.rfl' s

theorem State.retainedAdvance_plant (s : State) : PlantFrame s s.retainedAdvance := by
  refine PlantFrame.trans ?_ (State.noteLockoutEnd_plant _ _)
  constructor <;> rfl

theorem State.examineSensorExit_plant (s : State) : PlantFrame s s.examineSensorExit := by
  unfold State.examineSensorExit
  split
  · split
    · exact State.run_plant _ s
    · exact PlantFrame.rfl' s
  · exact PlantFrame.rfl' s

theorem State.contactRequests_plant (i c : Bool) (s : State) : PlantFrame s (s.contactRequests i c) := by
  have h : PlantFrame s (if i then s.request (.emergency .inverter) else s) := by
    split
    · exact State.request_plant _ s
    · exact PlantFrame.rfl' s
  have hc (u : State) : PlantFrame u (if c && u.coolingRuns then u.request (.stop .condensate) else u) := by
    split
    · exact State.request_plant _ u
    · exact PlantFrame.rfl' u
  exact h.trans (hc _)

/-- What a plant's sensor timer expiry does after its inputs have moved (R44, R140, R178). -/
theorem State.plantSensorExpiry_plant (p : PinSample) (first : Bool) (s : State) :
    PlantFrame (s.setSensors (s.sensors.plantExpiry p)) (s.plantSensorExpiry p first) := by
  have hs : PlantFrame (s.setSensors (s.sensors.plantExpiry p)) (s.plantSensors p) := by
    unfold State.plantSensors State.seedFrost
    dsimp only
    split
    · split
      · constructor <;> rfl
      · exact PlantFrame.rfl' _
    · exact PlantFrame.rfl' _
  unfold State.plantSensorExpiry
  dsimp only
  split
  · exact (hs.trans (State.contactRequests_plant _ _ _)).trans (State.examineSensorExit_plant _)
  · exact (hs.trans (State.examineSensorExit_plant _)).trans (State.contactRequests_plant _ _ _)

theorem State.RangesSound.plantSensorExpiry {s : State} (h : s.RangesSound) (hl : s.loader.Sound) (p : PinSample)
    (first : Bool) : (s.plantSensorExpiry p first).RangesSound := by
  have hx := h.setSensors (h.sensors.plantExpiry p)
  have e := State.plantSensorExpiry_engineFrame p first s
  exact (State.plantSensorExpiry_plant p first s).ranges hx
    (e.capacity_inRange hl h.capacity h.blowerInRange) (e.blower hl h.blowerInRange).hold

/-! ## Resets and the load (R182 to R188) -/

theorem Input.reset_inRange (low high : Int) : Input.reset.InRange low high :=
  ⟨fun _ h => (nomatch h), fun _ => rfl, fun h => (nomatch h), ⟨by decide, fun _ => by decide⟩, by decide⟩

theorem Sensors.reset_inRange : Sensors.reset.InRange :=
  ⟨Input.reset_inRange _ _, Input.reset_inRange _ _, Input.reset_inRange _ _, Input.reset_inRange _ _,
    Input.reset_inRange _ _, Input.reset_inRange _ _, Input.reset_inRange _ _, 16, by decide, by decide⟩

theorem emptyEntries_inRange : EntriesInRange emptyEntries := by
  intro e he h hh
  obtain ⟨a, _, rfl⟩ := List.mem_map.1 he
  cases hh

theorem Capacity.reset_inRange : Capacity.reset.InRange := by constructor <;> decide

theorem ModeSelector.reset_inRange : ModeSelector.reset.InRange := by constructor <;> decide

/-- A station whose blocks stand at their reset values is in range; its address is not yet the latched one (R188). -/
theorem State.RangesSound.atReset {t : State} (hl : t.loader.state = .idle) (hp : t.peers = .reset)
    (hx : t.sensors = .reset) (hm : t.modeSel = .reset) (hc : t.capacity = .reset)
    (hb : t.engine.blowerHold = none) : t.RangesSound := by
  refine .of (fun hi => absurd hl hi) ?_ ?_ ?_ ?_ fun v hv => by rw [hb] at hv; cases hv
  · rw [hp]; exact emptyEntries_inRange
  · rw [hx]; exact Sensors.reset_inRange
  · rw [hm]; exact ModeSelector.reset_inRange
  · rw [hc]; exact Capacity.reset_inRange

/-- A new loader keeps the ranges when its address does. -/
theorem State.RangesSound.setLoader {s : State} (h : s.RangesSound) {l : Loader} (hl : l.AddressSound) :
    (s.setLoader l).RangesSound :=
  ⟨hl, h.table, h.sensors, h.weights, h.ages, h.capacity, h.blowerHold⟩

/-- What READY leaves of the table's entries, the Sensor Inputs and the Mode Selector (R187). -/
theorem State.becomeReady_blocks (s : State) :
    s.becomeReady.peers.entries = s.peers.entries ∧
      s.becomeReady.sensors = { s.sensors with lossRunning := true } ∧
      s.becomeReady.modeSel = s.modeSel := by
  unfold State.becomeReady
  dsimp only
  split
  · exact ⟨rfl, rfl, rfl⟩
  · have hm : ∀ u : State, u.settlePlant.peers = u.peers ∧ u.settlePlant.sensors = u.sensors ∧
        u.settlePlant.modeSel = u.modeSel := by
      intro u
      unfold State.settlePlant State.notePlantState
      split <;> exact ⟨rfl, rfl, rfl⟩
    obtain ⟨h1, h2, h3⟩ := hm _
    exact ⟨by rw [h1]; rfl, by rw [h2]; rfl, by rw [h3]; rfl⟩

/-- READY keeps the ranges of a station whose address is 1 to 15 (R182, R187). -/
theorem State.RangesSound.becomeReady {s : State} (h : s.RangesSound) (ha : 1 ≤ s.address ∧ s.address ≤ 15) :
    s.becomeReady.RangesSound := by
  obtain ⟨hl, hc, he⟩ := State.becomeReady_frame s
  obtain ⟨hp, hx, hm⟩ := State.becomeReady_blocks s
  refine .of ?_ ?_ ?_ ?_ ?_ ?_
  · rw [hl]
    have h1 : 1 ≤ s.loader.straps.addr := ha.1
    exact fun _ => ⟨ha.2, ⟨fun e => by dsimp only at e; omega, fun e => nomatch e⟩⟩
  · rw [hp]; exact h.table
  · rw [hx]; exact { h.sensors with }
  · rw [hm]; exact h.modeSel
  · rw [hc]; exact h.capacity
  · rw [he]; exact h.blowerHold

/-- A set or the defaults are loaded into a station whose address is 1 to 15 (R183 to R185). -/
theorem State.RangesSound.loaded {s : State} (h : s.RangesSound) (ha : 1 ≤ s.address ∧ s.address ≤ 15)
    {l : Loader} (hs : l.straps = s.loader.straps) : (s.setLoader l).becomeReady.RangesSound := by
  have haddr : l.straps.addr = s.address := by rw [hs]; rfl
  have hl : (s.setLoader { l with state := .reading }).RangesSound :=
    h.setLoader fun _ => by
      refine ⟨haddr ▸ ha.2, fun e => ?_, fun e => nomatch e⟩
      have : l.straps.addr = 0 := e
      omega
  have hr := State.RangesSound.becomeReady hl (s := s.setLoader { l with state := .reading })
    (haddr ▸ ha : 1 ≤ l.straps.addr ∧ l.straps.addr ≤ 15)
  exact hr

theorem State.RangesSound.loadDefaults {s : State} (h : s.RangesSound) (ha : 1 ≤ s.address ∧ s.address ≤ 15)
    (r : LoadResult) : (s.loadDefaults r).RangesSound := by
  unfold State.loadDefaults
  dsimp only
  cases hr : s.loader.straps.role <;> exact h.loaded ha rfl

theorem State.RangesSound.checkImage {s : State} (h : s.RangesSound) (ha : 1 ≤ s.address ∧ s.address ≤ 15)
    (image : List Byte) : (s.checkImage image).RangesSound := by
  unfold State.checkImage
  split
  · exact h.loadDefaults ha _
  · unfold State.loadImage
    dsimp only
    cases hr : s.loader.straps.role <;> exact h.loaded ha rfl

/-- The load that begins at the latching keeps the ranges, with an address that four pins can bring (R182, R183). -/
theorem State.RangesSound.beginLoad {s : State} (h : s.RangesSound) (ha : s.address < 16) :
    s.beginLoad.RangesSound := by
  have h15 : s.loader.straps.addr ≤ 15 := Nat.le_of_lt_succ ha
  unfold State.beginLoad
  split
  · rename_i h0
    exact h.setLoader fun _ => ⟨h15, fun _ => rfl, fun _ => h0⟩
  · rename_i h0
    split
    · exact h.setLoader fun _ => ⟨h15, fun e => absurd e h0, fun e => nomatch e⟩
    · exact h.loadDefaults ⟨Nat.pos_of_ne_zero h0, h15⟩ _

/-- A station that reads its memory has an address of 1 to 15 (R183). -/
theorem State.RangesSound.reading_address {s : State} (h : s.RangesSound) (hr : s.loader.state = .reading) :
    1 ≤ s.address ∧ s.address ≤ 15 := by
  obtain ⟨hle, h0⟩ := h.address (by rw [hr]; decide)
  refine ⟨?_, hle⟩
  by_contra hc
  have := h0.1 (by omega)
  rw [hr] at this
  cases this

/-! ## Every command -/

/-- The resets and the load keep the ranges. -/
theorem exec_load_ranges {c : Instr} {s t : State} (hwf : c.wf = true)
    (hc : c = .powerOnReset ∨ c = .resetInputAsserted ∨ (∃ k st, c = .resetRelease k st) ∨
      (∃ l, c = .readAttempt l) ∨ c = .readRetryTimer)
    (hs : s.RangesSound) (hl : s.loader.Sound) (h : exec c s = .next t) : t.RangesSound := by
  have same : ∀ {u : State}, advance u = .next t → u = t := fun e => by rwa [advance_eq_next] at e
  obtain rfl | rfl | ⟨kind, straps, rfl⟩ | ⟨octets, rfl⟩ | rfl := hc
  · obtain rfl := same h; exact .atReset rfl rfl rfl rfl rfl rfl
  · obtain rfl := same h; exact .atReset rfl rfl rfl rfl rfl rfl
  · simp only [exec, execResetRelease] at h
    split at h
    · rename_i ha
      -- a reset that is asserted holds the loader in IDLE, where no address counts yet
      have hidle : s.loader.state = .idle := hl.idle.2 <| by
        cases kind
        · exact .inl ha
        · exact .inr ha
      have hrel : (s.setLoader (s.loader.release kind)).RangesSound :=
        hs.setLoader fun hne => absurd (by cases kind <;> exact hidle) hne
      split at h <;> obtain rfl := same h
      · exact hrel
      · refine State.RangesSound.beginLoad (s := (s.setLoader (s.loader.release kind)).latch straps) ?_ ?_
        · refine .of (fun hne => absurd (by cases kind <;> exact hidle) hne) hs.table hs.sensors hs.modeSel
            hs.capacity fun v hv => nomatch hv
        · have hlt : straps.addr < 16 := by simpa [Instr.wf, Straps.wf] using hwf
          exact hlt
    · obtain rfl := same h; exact hs
  · simp only [exec, execReadAttempt] at h
    split at h
    · rename_i hr
      have hread : s.loader.state = .reading := by simp at hr; exact hr.1
      have ha := hs.reading_address hread
      split at h <;> obtain rfl := same h
      · unfold State.readFailed
        split
        · exact hs.setLoader hs.address
        · exact hs.loadDefaults ha _
      · exact hs.checkImage ha _
    · obtain rfl := same h; exact hs
  · simp only [exec, execReadRetryTimer] at h
    split at h <;> obtain rfl := same h
    · exact hs.setLoader hs.address
    · exact hs

/-- The line's own events keep the ranges. -/
theorem exec_line_ranges {c : Instr} {s t : State}
    (hc : c = .tokenRefillTimer ∨ c = .lineIdle ∨ c = .attemptBegin ∨ c = .attemptComplete ∨
      (∃ b, c = .collision b) ∨
      (∃ l, c = .frameReceived l) ∨ (∃ l, c = .frameAbandoned l) ∨ c = .zonePeriodicTimer ∨
      c = .plantPeriodicTimer ∨ c = .summaryTimer ∨ c = .startBitSeen ∨ ∃ l, c = .framingError l)
    (hs : s.RangesSound) (hl : s.loader.Sound) (h : exec c s = .next t) : t.RangesSound := by
  have same : ∀ {u : State}, advance u = .next t → u = t := fun e => by rwa [advance_eq_next] at e
  obtain rfl | rfl | rfl | rfl | ⟨bit, rfl⟩ | ⟨octets, rfl⟩ | ⟨octets, rfl⟩ | rfl | rfl | rfl | rfl |
    ⟨octets, rfl⟩ := hc
  · simp only [exec, execTokenRefillTimer] at h
    split at h <;> obtain rfl := same h
    · exact hs.setLine _
    · exact hs
  · simp only [exec, execLineIdle] at h
    split at h <;> obtain rfl := same h
    · exact hs
    · exact hs.setLine _
  · simp only [exec, execAttemptBegin] at h
    split at h
    · split at h <;> obtain rfl := same h
      · exact hs.setLine _
      · exact hs
    · obtain rfl := same h; exact hs
  · simp only [exec, execAttemptComplete] at h
    split at h <;> obtain rfl := same h
    · exact hs.setLine _
    · exact hs
  · simp only [exec, execCollision] at h
    split at h
    · split at h <;> obtain rfl := same h
      · refine State.RangesSound.settlePlant (State.RangesSound.takeOctets ?_ ?_ _)
        · exact hs.setLine _
        · exact hl
      · exact hs
    · obtain rfl := same h; exact hs
  · simp only [exec, execFrameReceived] at h
    split at h <;> obtain rfl := same h
    · exact hs
    · refine State.RangesSound.settlePlant (State.RangesSound.takeOctets ?_ ?_ _)
      · exact hs.setLine _
      · exact hl
  · simp only [exec, execFrameAbandoned] at h
    split at h <;> obtain rfl := same h
    · exact hs
    · refine State.RangesSound.settlePlant ?_
      exact (hs.heard hl octets).setLine _
  · simp only [exec, execZonePeriodicTimer] at h
    split at h <;> obtain rfl := same h
    · exact hs.setLine _
    · exact hs
  · simp only [exec, execPlantPeriodicTimer] at h
    split at h <;> obtain rfl := same h
    · exact hs.setLine _
    · exact hs
  · simp only [exec, execSummaryTimer] at h
    split at h <;> obtain rfl := same h
    · exact hs.setLine _
    · exact hs
  · simp only [exec, execStartBitSeen] at h
    split at h <;> obtain rfl := same h
    · exact hs
    · exact hs.setLine _
  · simp only [exec, execFramingError] at h
    split at h <;> obtain rfl := same h
    · exact hs
    · refine State.RangesSound.settlePlant ?_
      exact (hs.heard hl octets).setLine _

/-- The timers of the table, the sensors and the zone keep the ranges. -/
theorem exec_zone_ranges {c : Instr} {s t : State}
    (hc : c = .ageTimer ∨ c = .graceTimer ∨ (∃ l, c = .headFrameArrival l) ∨ (∃ l, c = .headFrameAbandoned l) ∨
      c = .lossTimer ∨ (∃ p b, c = .sensorTimer p b) ∨ c = .demandTimer ∨ (∃ b, c = .homingStepCompletion b) ∨
      (∃ b, c = .stepCompletion b) ∨ c = .budgetRefillTimer ∨ c = .rehomeAgeTimer)
    (hs : s.RangesSound) (hl : s.loader.Sound) (h : exec c s = .next t) : t.RangesSound := by
  have same : ∀ {u : State}, advance u = .next t → u = t := fun e => by rwa [advance_eq_next] at e
  have damper (x : Damper) : (s.setDamper x).RangesSound :=
    ⟨hs.address, hs.table, hs.sensors, hs.weights, hs.ages, hs.capacity, hs.blowerHold⟩
  obtain rfl | rfl | ⟨octets, rfl⟩ | ⟨octets, rfl⟩ | rfl | ⟨pins, first, rfl⟩ | rfl | ⟨stall, rfl⟩ |
    ⟨stall, rfl⟩ | rfl | rfl := hc
  · simp only [exec, execAgeTimer] at h
    split at h <;> obtain rfl := same h
    · refine State.RangesSound.settle (State.RangesSound.ageEntries _ ?_)
      exact hs.setPeers (Peers.older_inRange hs.table _)
    · exact hs
  · simp only [exec, execGraceTimer] at h
    split at h
    · have hg : (s.setPeers { s.peers with grace := .expired }).RangesSound := hs.setPeers hs.table
      split at h <;> obtain rfl := same h
      · exact ((State.losePlant_zone _).ranges hg).settle
      · exact hg
    · obtain rfl := same h; exact hs
  · simp only [exec, execHeadFrameArrival] at h
    split at h <;> obtain rfl := same h
    · exact State.RangesSound.headOctets octets hs
    · exact hs
  · simp only [exec, execHeadFrameAbandoned] at h
    split at h <;> obtain rfl := same h
    · have hh := State.RangesSound.headOctets octets hs
      exact hh.setSensors { hh.sensors with }
    · exact hs
  · simp only [exec, execLossTimer] at h
    split at h <;> obtain rfl := same h
    · exact hs.setSensors { hs.sensors with }
    · exact hs
  · simp only [exec, execSensorTimer] at h
    split at h
    · split at h <;> obtain rfl := same h
      · have hx := hs.setSensors hs.sensors.zoneExpiry
        refine State.RangesSound.settle ?_
        unfold State.zoneSensors
        dsimp only
        split
        · exact hx.prompt
        · exact hx
      · exact (hs.plantSensorExpiry hl pins first).settlePlant
    · obtain rfl := same h; exact hs
  · simp only [exec, execDemandTimer] at h
    split at h <;> obtain rfl := same h
    · refine State.RangesSound.settle ((State.recompute_zone _).ranges ?_)
      split <;> exact ⟨hs.address, hs.table, hs.sensors, hs.weights, hs.ages, hs.capacity, hs.blowerHold⟩
    · exact hs
  · simp only [exec, execHomingStepCompletion] at h
    split at h <;> obtain rfl := same h
    · exact damper _
    · exact hs
  · simp only [exec, execStepCompletion] at h
    split at h
    · split at h <;> obtain rfl := same h
      · exact State.RangesSound.settle (((State.prompt_zone _).trans (State.recompute_zone _)).ranges (damper _))
      · exact damper _
    · obtain rfl := same h; exact hs
  · simp only [exec, execBudgetRefillTimer] at h
    split at h <;> obtain rfl := same h
    · exact damper _
    · exact hs
  · simp only [exec, execRehomeAgeTimer] at h
    split at h <;> obtain rfl := same h
    · exact damper _
    · exact hs

/-- The plant's timers keep the ranges. -/
theorem exec_plant_ranges {c : Instr} {s t : State}
    (hc : c = .plantControlTimer ∨ c = .offHoldTimer ∨ c = .protectionTimer ∨ c = .listeningTimer ∨
      c = .stepDelayExpiry ∨ c = .stepTimeExit ∨ c = .stepTimeLimit ∨ c = .emergencyHoldTick ∨
      c = .retainedTimer ∨ c = .frostTimer)
    (hs : s.RangesSound) (hl : s.loader.Sound) (ht : s.TableSound) (h : exec c s = .next t) : t.RangesSound := by
  have same : ∀ {u : State}, advance u = .next t → u = t := fun e => by rwa [advance_eq_next] at e
  have engine (x : Engine) (hb : x.blowerHold = s.engine.blowerHold) : (s.setEngine x).RangesSound :=
    ⟨hs.address, hs.table, hs.sensors, hs.weights, hs.ages, hs.capacity, hb ▸ hs.blowerHold⟩
  obtain rfl | rfl | rfl | rfl | rfl | rfl | rfl | rfl | rfl | rfl := hc
  · simp only [exec, execPlantControlTimer] at h
    split at h <;> obtain rfl := same h
    · rename_i hr
      simp only [State.plantReady, Bool.and_eq_true, decide_eq_true_eq] at hr
      obtain ⟨⟨hrdy, hrole⟩, _⟩ := hr
      obtain ⟨hmode, hw⟩ := hs.modeExpiry hl hrole (State.zoneEntries_weighable hrole hrdy ht hs)
      exact (hmode.capacityPeriod hw).settlePlant
    · exact hs
  · simp only [exec, execOffHoldTimer] at h
    split at h <;> obtain rfl := same h
    · refine State.RangesSound.settlePlant ((State.noteLockoutEnd_engineFrame _ _).ranges
        (State.noteLockoutEnd_plant _ _) ?_ ?_)
      · exact hl
      · exact ⟨hs.address, hs.table, hs.sensors, hs.weights, hs.ages, hs.capacity, hs.blowerHold⟩
    · exact hs
  · simp only [exec, execProtectionTimer] at h
    split at h <;> obtain rfl := same h
    · exact (hs.protectionStages hl).settlePlant
    · exact hs
  · simp only [exec, execListeningTimer] at h
    split at h <;> obtain rfl := same h
    · exact engine _ rfl
    · exact hs
  · simp only [exec, execStepDelayExpiry] at h
    split at h <;> obtain rfl := same h
    · exact (hs.run hl _).settlePlant
    · exact hs
  · simp only [exec, execStepTimeExit] at h
    split at h
    · split at h <;> obtain rfl := same h
      · refine State.RangesSound.settlePlant (State.RangesSound.run ?_ ?_ _)
        · exact engine _ rfl
        · exact hl
      · exact hs
    · obtain rfl := same h; exact hs
  · simp only [exec, execStepTimeLimit] at h
    split at h
    · split at h <;> obtain rfl := same h
      · refine State.RangesSound.settlePlant (State.RangesSound.run ?_ ?_ _)
        · exact engine _ rfl
        · exact hl
      · exact hs
    · obtain rfl := same h; exact hs
  · simp only [exec, execEmergencyHoldTick] at h
    split at h
    · split at h <;> obtain rfl := same h
      · refine State.RangesSound.settlePlant (State.RangesSound.run ?_ ?_ _)
        · exact engine _ rfl
        · exact hl
      · exact engine _ rfl
    · obtain rfl := same h; exact hs
  · simp only [exec, execRetainedTimer] at h
    have ha := (State.retainedAdvance_engineFrame s).ranges (State.retainedAdvance_plant s) hl hs
    have hla : s.retainedAdvance.loader.Sound := (State.retainedAdvance_plant s).loader ▸ hl
    split at h
    · obtain rfl := same h; exact hs
    · split at h <;> obtain rfl := same h
      · exact State.RangesSound.settlePlant ((State.examineRequest_engineFrame _).ranges
          (State.examineRequest_plant _) hla ha)
      · exact ha
  · simp only [exec, execFrostTimer] at h
    have ha : s.frostAdvance.RangesSound :=
      ⟨hs.address, hs.table, hs.sensors, hs.weights, hs.ages, hs.capacity, hs.blowerHold⟩
    split at h
    · split at h <;> obtain rfl := same h
      · exact (ha.request hl _).settlePlant
      · exact ha
    · obtain rfl := same h; exact hs

/-- Every command keeps the ranges, with operands that the pins and the line can bring. -/
theorem exec_ranges_stay_sound {c : Instr} {s t : State} (hwf : c.wf = true) (hs : s.RangesSound)
    (hl : s.loader.Sound) (ht : s.TableSound) (h : exec c s = .next t) : t.RangesSound := by
  cases c with
  | powerOnReset | resetInputAsserted | resetRelease | readAttempt | readRetryTimer =>
    exact exec_load_ranges hwf (by simp) hs hl h
  | tokenRefillTimer | lineIdle | attemptBegin | attemptComplete | collision | frameReceived | frameAbandoned
  | zonePeriodicTimer | plantPeriodicTimer | summaryTimer | startBitSeen | framingError =>
    exact exec_line_ranges (by simp) hs hl h
  | ageTimer | graceTimer | headFrameArrival | headFrameAbandoned | lossTimer | sensorTimer | demandTimer
  | homingStepCompletion | stepCompletion | budgetRefillTimer | rehomeAgeTimer =>
    exact exec_zone_ranges (by simp) hs hl h
  | plantControlTimer | offHoldTimer | protectionTimer | listeningTimer | stepDelayExpiry | stepTimeExit
  | stepTimeLimit | emergencyHoldTick | retainedTimer | frostTimer =>
    exact exec_plant_ranges (by simp) hs hl ht h

/-- Settles O11: every command keeps the ranges, and the queue is no part of them. -/
theorem rangesStaySound : Obligations.RangesStaySound := by
  unfold Obligations.RangesStaySound
  intro s t hq hl ht hs h
  obtain ⟨_, rfl⟩ | ⟨c, rest, hp, hx⟩ := step_cases h
  · exact hs
  · have hs' : (s.setPending rest).RangesSound :=
      ⟨hs.address, hs.table, hs.sensors, hs.weights, hs.ages, hs.capacity, hs.blowerHold⟩
    have ht' : (s.setPending rest).TableSound := ⟨ht.addresses, ht.empty, ht.own⟩
    exact exec_ranges_stay_sound (hq c (by simp [hp])) hs' hl ht' hx

end Sys2Proof.Machine
end

