-- ==== Sys2Proof/Proofs/Payloads.lean ====
section
/-! PROOFS. What a payload carries at its offsets, and what a receiver decodes from it (R6, R189 to R194). -/

namespace Sys2Proof.Machine

/-! ## Octets and fields (R189) -/

@[simp] theorem octet_toNat (n : Nat) : (octet n).toNat = n % 256 := BitVec.toNat_ofNat _ _

@[simp] theorem octetAt_cons_zero (o : Byte) (l : List Byte) : octetAt (o :: l) 0 = o.toNat := rfl

@[simp] theorem octetAt_cons_succ (o : Byte) (l : List Byte) (i : Nat) :
    octetAt (o :: l) (i + 1) = octetAt l i := rfl

@[simp] theorem flagAt_cons_zero (o : Byte) (l : List Byte) (i : Nat) : flagAt (o :: l) 0 i = o.getLsbD i := rfl

@[simp] theorem flagAt_cons_succ (o : Byte) (l : List Byte) (n i : Nat) :
    flagAt (o :: l) (n + 1) i = flagAt l n i := rfl

/-- A bit of an octet is a binary digit of its number. -/
theorem octet_getLsbD (n : Nat) {i : Nat} (hi : i < 8) : (octet n).getLsbD i = decide (n / 2 ^ i % 2 = 1) := by
  rw [octet, BitVec.getLsbD_ofNat, Nat.testBit_eq_decide_div_mod_eq]
  simp [hi]

/-- Two octets bring back the number they were put from (R189). -/
theorem get16_put16 {n : Nat} (h : n < 65536) : n / 256 % 256 * 256 + n % 256 = n := by omega

/-- Three octets bring back the number they were put from (R189). -/
theorem get24_put24 {n : Nat} (h : n < 16777216) :
    n / 65536 % 256 * 65536 + (n / 256 % 256 * 256 + n % 256) = n := by omega

/-- Four octets bring back the number they were put from (R189). -/
theorem get32_put32 {n : Nat} (h : n < 4294967296) :
    n / 16777216 % 256 * 16777216 + (n / 65536 % 256 * 65536 + (n / 256 % 256 * 256 + n % 256)) = n := by
  omega

/-- The two's complement of a temperature brings back the temperature (R189). -/
theorem getTemp_putTemp {t : Int} (h : -32768 ≤ t ∧ t < 32768) :
    (if (t % 65536).toNat / 256 % 256 * 256 + (t % 65536).toNat % 256 < 32768 then
        (((t % 65536).toNat / 256 % 256 * 256 + (t % 65536).toNat % 256 : Nat) : Int)
      else (((t % 65536).toNat / 256 % 256 * 256 + (t % 65536).toNat % 256 : Nat) : Int) - 65536) = t := by
  rw [get16_put16 (by omega)]
  split <;> omega

/-- Seven flags in an octet come back, bit by bit, and bit 7 is clear (R190, R191). -/
theorem flags_octet (a b c d e f g : Bool) :
    (octet (flagBit a 0 + flagBit b 1 + flagBit c 2 + flagBit d 3 + flagBit e 4 + flagBit f 5 +
      flagBit g 6)).toNat < 128 ∧
    ∀ i, (octet (flagBit a 0 + flagBit b 1 + flagBit c 2 + flagBit d 3 + flagBit e 4 + flagBit f 5 +
      flagBit g 6)).getLsbD i = [a, b, c, d, e, f, g].getD i false := by
  constructor
  · revert a b c d e f g; decide
  · intro i
    by_cases hi : i < 8
    · interval_cases i <;> revert a b c d e f g <;> decide
    · rw [BitVec.getLsbD_of_ge _ _ (by omega)]
      match i, hi with
      | n + 8, _ => rfl

/-! ## Codes -/

theorem Call.ofCode_eq (n : Nat) : Call.ofCode n = [Call.off, .idle, .cool, .heat, .dry][n]? := by
  match n with
  | 0 | 1 | 2 | 3 | 4 => rfl
  | _ + 5 => rfl

theorem Call.list_code (c : Call) : [Call.off, .idle, .cool, .heat, .dry][c.code]? = some c := by
  cases c <;> rfl

theorem Call.code_le (c : Call) : c.code ≤ 4 := by cases c <;> decide

theorem Mode.ofCode_eq (n : Nat) : Mode.ofCode n = [Mode.off, .fan, .cool, .dry, .heat][n]? := by
  match n with
  | 0 | 1 | 2 | 3 | 4 => rfl
  | _ + 5 => rfl

theorem Mode.list_code (m : Mode) : [Mode.off, .fan, .cool, .dry, .heat][m.code]? = some m := by
  cases m <;> rfl

theorem Mode.code_le (m : Mode) : m.code ≤ 4 := by cases m <;> decide

theorem PlantState.ofCode_eq (n : Nat) : PlantState.ofCode n =
    [PlantState.idle, .starting, .running, .stopping, .changeover, .defrost, .emergency, .lockout,
      .standby][n]? := by
  match n with
  | 0 | 1 | 2 | 3 | 4 | 5 | 6 | 7 | 8 => rfl
  | _ + 9 => rfl

theorem PlantState.list_code (p : PlantState) :
    [PlantState.idle, .starting, .running, .stopping, .changeover, .defrost, .emergency, .lockout,
      .standby][p.code]? = some p := by
  cases p <;> rfl

theorem PlantState.code_le (p : PlantState) : p.code ≤ 8 := by cases p <;> decide

theorem deliveringOfCode_eq (n : Nat) : deliveringOfCode n = [false, true][n]? := by
  match n with
  | 0 | 1 => rfl
  | _ + 2 => rfl

/-- An opening within 0 to 100 has its code in one octet, and comes back from it (R189). -/
theorem Opening.code_octet {o : Opening} (h : o.orZero ≤ 100) :
    o.code % 256 = o.code ∧ o = if o.code = 255 then .unknown else .percent o.code := by
  cases o with
  | unknown => exact ⟨rfl, rfl⟩
  | percent p =>
    have hp : p ≤ 100 := h
    refine ⟨Nat.mod_eq_of_lt (by simp only [Opening.code]; omega), ?_⟩
    have : p ≠ 255 := by omega
    simp [Opening.code, this]

/-- Clamping leaves an opening in range as it is (R6). -/
theorem Opening.ofCode_of {o : Opening} {n : Nat} (h : o.orZero ≤ 100)
    (e : o = if n = 255 then .unknown else .percent n) : Opening.ofCode n = o := by
  unfold Opening.ofCode
  rw [e] at h ⊢
  split
  · rfl
  · rename_i hn
    simp only [hn, if_false, Opening.orZero] at h
    rw [Nat.min_eq_right h]

/-! ## The ZONE payload (R190) -/

theorem encodeZone_eq (tag : Tag) (r : ZoneRecord) :
    encodeZone tag r =
      [octet (tag.toNat / 65536), octet (tag.toNat / 256), octet tag.toNat, octet (r.call.code * 16 + r.tier),
        octet (r.ds / 256), octet r.ds, octet (r.dl / 256), octet r.dl, octet r.weight, octet r.base.code,
        octet r.relief, octet r.position.code, octet ((r.roomTemp % 65536).toNat / 256),
        octet (r.roomTemp % 65536).toNat, octet (r.roomRh / 256), octet r.roomRh,
        octet ((r.target - 1600) / 50).toNat, r.flags.octet] := rfl

theorem encodeZone_length (tag : Tag) (r : ZoneRecord) : (encodeZone tag r).length = 18 := rfl

/-- A ZONE payload carries each field of a record in range at its offset (R190). -/
theorem encodeZone_payload (tag : Tag) {r : ZoneRecord} (h : r.InRange) :
    ZonePayload tag r (encodeZone tag r) := by
  have hcall := r.call.code_le
  have htier := h.tier
  have hct : (r.call.code * 16 + r.tier) % 256 / 16 = r.call.code ∧
      (r.call.code * 16 + r.tier) % 256 % 16 = r.tier := by omega
  obtain ⟨hb, hb'⟩ := Opening.code_octet h.base
  obtain ⟨hp, hp'⟩ := Opening.code_octet h.position
  have hflags := flags_octet r.flags.sensorFault r.flags.damperFault r.flags.demandSaturated
    r.flags.reliefOptOut r.flags.plantLost r.flags.configDefaulted r.flags.configClamped
  have hds := h.ds
  have hdl := h.dl
  have hw := h.weight.2
  have hrel := h.relief
  have hrh := h.roomRh
  have hrt := h.roomTemp
  obtain ⟨n, hn, htar⟩ := h.target
  rw [encodeZone_eq]
  exact
    { length := rfl
      tag := by simpa [get24, get16] using get24_put24 tag.isLt
      call := by simp [hct.1, Call.list_code]
      tier := by simp [hct.2]
      demands := by simp [get16, get16_put16 (show r.ds < 65536 by omega),
        get16_put16 (show r.dl < 65536 by omega)]
      weight := by simp; omega
      base := by simpa [hb] using hb'
      relief := by simp; omega
      position := by simpa [hp] using hp'
      room := by
        refine ⟨?_, by simp [get16, get16_put16 (show r.roomRh < 65536 by omega)]⟩
        simpa [getTemp, get16] using getTemp_putTemp (t := r.roomTemp) (by omega)
      target := by simp only [octetAt_cons_succ, octetAt_cons_zero, octet_toNat, htar]; omega
      flags := ⟨hflags.1, hflags.2 0, hflags.2 1, hflags.2 2, hflags.2 3, hflags.2 4, hflags.2 5, hflags.2 6⟩ }

/-- A receiver decodes the record that a ZONE payload carries (R6, R190). -/
theorem ZonePayload.decode {tag : Tag} {r : ZoneRecord} {p : List Byte} (h : ZonePayload tag r p)
    (hr : r.InRange) : decodeZone p = some r := by
  obtain ⟨hds, hdl⟩ := h.demands
  obtain ⟨hrt, hrh⟩ := h.room
  obtain ⟨_, f0, f1, f2, f3, f4, f5, f6⟩ := h.flags
  obtain ⟨n, hn, htar⟩ := hr.target
  have hoct : (octetAt p 16 : Int) = n := by have := h.target; omega
  have hw : clampNat 1 100 r.weight = r.weight := by
    obtain ⟨h1, h2⟩ := hr.weight; unfold clampNat; omega
  have ht : clamp (-2000) 6000 r.roomTemp = r.roomTemp := by
    obtain ⟨h1, h2⟩ := hr.roomTemp; unfold clamp; omega
  have hx : clamp 1600 3000 (1600 + 50 * (n : Int)) = r.target := by unfold clamp; omega
  unfold decodeZone
  rw [Call.ofCode_eq, h.call]
  simp only [hds, hdl, h.weight, h.tier, h.relief, hrt, hrh, f0, f1, f2, f3, f4, f5, f6, hoct, hw, ht, hx,
    Opening.ofCode_of hr.base h.base, Opening.ofCode_of hr.position h.position,
    Nat.min_eq_right hr.ds, Nat.min_eq_right hr.dl, Nat.min_eq_right hr.tier, Nat.min_eq_right hr.relief,
    Nat.min_eq_right hr.roomRh]

theorem payloadTag_of {tag : Tag} {p : List Byte} (h : get24 p 0 = tag.toNat) : payloadTag p = tag := by
  unfold payloadTag
  rw [h, BitVec.ofNat_toNat, BitVec.setWidth_eq]

/-! ## The PLANT payload (R191) -/

theorem encodePlant_eq (tag : Tag) (r : PlantRecord) :
    encodePlant tag r =
      [octet (tag.toNat / 65536), octet (tag.toNat / 256), octet tag.toNat, octet r.mode.code,
        octet r.state.code, octet (flagBit r.delivering 0), octet (r.f / 16777216), octet (r.f / 65536),
        octet (r.f / 256), octet r.f, octet (r.capacity / 256), octet r.capacity, octet (r.blower / 256),
        octet r.blower, octet ((r.supplyAir % 65536).toNat / 256), octet (r.supplyAir % 65536).toNat,
        octet ((r.outdoorAir % 65536).toNat / 256), octet (r.outdoorAir % 65536).toNat, r.flags.octet,
        0#8] := rfl

theorem encodePlant_length (tag : Tag) (r : PlantRecord) : (encodePlant tag r).length = 20 := rfl

/-- A PLANT payload carries each field of a record in range at its offset (R191). -/
theorem encodePlant_payload (tag : Tag) {r : PlantRecord} (h : r.InRange) :
    PlantPayload tag r (encodePlant tag r) := by
  have hm := r.mode.code_le
  have hs := r.state.code_le
  have hflags := flags_octet r.flags.airflowLimited r.flags.pressureLimiting r.flags.defrostPending
    r.flags.budgetEmpty r.flags.peerLate r.flags.configDefaulted r.flags.configClamped
  have hf := h.f
  have hc := h.capacity
  have hb := h.blower
  have ha := h.supplyAir
  have ho := h.outdoorAir
  rw [encodePlant_eq]
  exact
    { length := rfl
      tag := by simpa [get24, get16] using get24_put24 tag.isLt
      mode := by simpa [Nat.mod_eq_of_lt (show r.mode.code < 256 by omega)] using r.mode.list_code
      state := by simpa [Nat.mod_eq_of_lt (show r.state.code < 256 by omega)] using r.state.list_code
      delivering := by cases hd : r.delivering <;> rfl
      f := by simpa [get32, get24, get16] using get32_put32 (n := r.f) (by omega)
      commands := by simp [get16, get16_put16 (show r.capacity < 65536 by omega),
        get16_put16 (show r.blower < 65536 by omega)]
      air := by
        constructor
        · simpa [getTemp, get16] using getTemp_putTemp (t := r.supplyAir) (by omega)
        · simpa [getTemp, get16] using getTemp_putTemp (t := r.outdoorAir) (by omega)
      flags := ⟨hflags.1, hflags.2 0, hflags.2 1, hflags.2 2, hflags.2 3, hflags.2 4, hflags.2 5, hflags.2 6⟩
      fill := rfl }

/-- A receiver decodes the record that a PLANT payload carries (R6, R191). -/
theorem PlantPayload.decode {tag : Tag} {r : PlantRecord} {p : List Byte} (h : PlantPayload tag r p)
    (hr : r.InRange) : decodePlant p = some r := by
  obtain ⟨hc, hb⟩ := h.commands
  obtain ⟨ha, ho⟩ := h.air
  obtain ⟨_, f0, f1, f2, f3, f4, f5, f6⟩ := h.flags
  have hca : clamp (-4000) 9000 r.supplyAir = r.supplyAir := by
    obtain ⟨h1, h2⟩ := hr.supplyAir; unfold clamp; omega
  have hco : clamp (-4000) 9000 r.outdoorAir = r.outdoorAir := by
    obtain ⟨h1, h2⟩ := hr.outdoorAir; unfold clamp; omega
  unfold decodePlant
  rw [Mode.ofCode_eq, PlantState.ofCode_eq, deliveringOfCode_eq, h.mode, h.state, h.delivering]
  simp only [h.f, hc, hb, ha, ho, f0, f1, f2, f3, f4, f5, f6, hca, hco, Nat.min_eq_right hr.f,
    Nat.min_eq_right hr.capacity, Nat.min_eq_right hr.blower]

/-- Settles O24: the payloads carry each field at its offset, and decoding reads the same offsets. -/
theorem recordsRoundTripAtTheirOffsets : Obligations.RecordsRoundTripAtTheirOffsets := by
  unfold Obligations.RecordsRoundTripAtTheirOffsets
  constructor
  · intro tag r hr
    have h := encodeZone_payload tag hr
    exact ⟨h.decode hr, payloadTag_of h.tag, h⟩
  · intro tag r hr
    have h := encodePlant_payload tag hr
    exact ⟨h.decode hr, payloadTag_of h.tag, h⟩

end Sys2Proof.Machine
end

