-- ==== Sys2Proof/Proofs/Receiver.lean ====
section
/-! PROOFS. The receiver: what it makes of the octets of a frame, one after the other (R4, R5), and the shape of the
frames that a station samples (R3, R14). -/

namespace Sys2Proof.Machine

/-! ## Octets without an event -/

/-- The receiver after octets none of which ends a frame, none where one does. -/
def Receiver.run (r : Receiver) : List Byte → Option Receiver
  | [] => some r
  | o :: os => if (r.octet o).2 = .none then (r.octet o).1.run os else none

theorem Receiver.run_cons {r : Receiver} {o : Byte} (os : List Byte) (h : (r.octet o).2 = .none) :
    r.run (o :: os) = (r.octet o).1.run os := if_pos h

theorem Receiver.run_append (l m : List Byte) : ∀ r : Receiver, r.run (l ++ m) = (r.run l).bind (·.run m) := by
  induction l with
  | nil => intro r; rfl
  | cons o os ih =>
    intro r
    simp only [List.cons_append, Receiver.run]
    split
    · exact ih _
    · rfl

/-- An initial segment of octets without an event has none. -/
theorem Receiver.run_take {r r' : Receiver} {l : List Byte} (h : r.run l = some r') (n : Nat) :
    ∃ r'', r.run (l.take n) = some r'' := by
  rw [← List.take_append_drop n l, Receiver.run_append] at h
  exact Option.isSome_iff_exists.1 (Option.isSome_of_isSome_bind (by rw [h]; rfl))

/-- Octets without an event move the receiver alone. -/
theorem State.foldOctets_run (l : List Byte) :
    ∀ {s : State} {r : Receiver}, s.line.rx.run l = some r →
      l.foldl State.takeOctet s = s.setLine { s.line with rx := r } := by
  induction l with
  | nil => intro s r h; obtain rfl := Option.some.inj h; rfl
  | cons o os ih =>
    intro s r h
    rw [Receiver.run] at h
    split at h
    · rename_i he
      have hs : s.takeOctet o = s.setLine { s.line with rx := (s.line.rx.octet o).1 } := by
        rw [State.takeOctet, he]; rfl
      rw [List.foldl_cons, hs, ih h]; rfl
    · cases h

/-! ## The parts of a frame -/

/-- The sync octets bring a receiver that is outside a frame to the header (R4). -/
theorem Receiver.run_sync {r : Receiver} (h : r.inFrame = false) : r.run [0xD2#8, 0x2D#8] = some .header := by
  cases r
  · rfl
  · rfl
  all_goals simp [Receiver.inFrame] at h

/-- The octets of a payload are taken up to its length (R4). -/
theorem Receiver.run_payload (h len : Byte) (rest : List Byte) :
    ∀ taken, rest ≠ [] → (taken ++ rest).length = len.toNat →
      (Receiver.payload h len taken).run rest = some (.check h len (taken ++ rest) none) := by
  induction rest with
  | nil => intro taken hn; exact absurd rfl hn
  | cons o os ih =>
    intro taken _ hl
    rw [Receiver.run_cons os rfl, Receiver.octet]
    cases os with
    | nil => rw [if_pos hl]; rfl
    | cons p ps =>
      have hlt : (taken ++ [o]).length ≠ len.toNat := by simp at hl ⊢; omega
      rw [if_neg hlt, ih _ (List.cons_ne_nil _ _) (by simpa using hl)]
      simp

/-- A frame up to its last octet has no event: the receiver then waits for the low octet of the check value (R4). -/
theorem Receiver.run_frame {r : Receiver} {h len : Byte} {payload : List Byte} (hr : r.inFrame = false)
    (hh : headerGood h = true) (hl : lengthGood h len = true) (hp : payload.length = len.toNat) (high : Byte) :
    r.run ([0xD2#8, 0x2D#8] ++ ([h, len] ++ (payload ++ [high]))) = some (.check h len payload (some high)) := by
  have hlen : len ≠ 0#8 := by
    rintro rfl
    simp [lengthGood] at hl
  have hne : payload ≠ [] := by
    rintro rfl
    exact hlen (BitVec.eq_of_toNat_eq (by simpa using hp.symm))
  rw [Receiver.run_append, Receiver.run_sync hr, Option.bind_some, Receiver.run_append]
  have hhl : Receiver.header.run [h, len] = some (.payload h len []) := by
    simp [Receiver.run, Receiver.octet, hh, hl, hlen]
  rw [hhl, Option.bind_some, Receiver.run_append, Receiver.run_payload h len payload [] hne hp]
  rfl

/-! ## Headers and lengths (R3, R5) -/

/-- The payload length that goes with a kind code (R3). -/
def kindTakes (kind n : Nat) : Prop := kind = 1 ∧ n = 18 ∨ kind = 2 ∧ n = 20 ∨ kind = 3 ∧ (n = 16 ∨ n = 30)

/-- The header octet of a kind and an address carries both (R3). -/
theorem header_octet {kind a : Nat} (hk : kind ≤ 3) (ha : a ≤ 15) :
    headerKind (octet (kind * 16 + a)) = kind ∧ headerAddress (octet (kind * 16 + a)) = a := by
  simp only [headerKind, headerAddress, octet_toNat]
  omega

theorem kindTakes.bounds {kind n : Nat} (h : kindTakes kind n) : 1 ≤ kind ∧ kind ≤ 3 ∧ n ≤ 30 := by
  unfold kindTakes at h; omega

/-- The header of a frame of R3 passes R5's check. -/
theorem kindTakes.headerGood {kind n a : Nat} (h : kindTakes kind n) (h1 : 1 ≤ a) (h15 : a ≤ 15) :
    headerGood (octet (kind * 16 + a)) = true := by
  obtain ⟨hk1, hk3, _⟩ := h.bounds
  obtain ⟨hk, ha⟩ := header_octet hk3 h15
  rw [Machine.headerGood, hk, ha, decide_eq_true_eq]
  omega

/-- The length of a frame of R3 passes R5's check. -/
theorem kindTakes.lengthGood {kind n a : Nat} (h : kindTakes kind n) (h15 : a ≤ 15) :
    lengthGood (octet (kind * 16 + a)) (octet n) = true := by
  obtain ⟨_, hk3, _⟩ := h.bounds
  rw [Machine.lengthGood, (header_octet hk3 h15).1, octet_toNat, decide_eq_true_eq]
  unfold kindTakes at h
  omega

/-- A frame of R3 with its last octet apart. -/
theorem buildFrame_eq (kind a : Nat) (payload : List Byte) :
    buildFrame kind a payload =
      [0xD2#8, 0x2D#8] ++ ([octet (kind * 16 + a), octet payload.length] ++
        (payload ++ [octet ((crc16 (octet (kind * 16 + a) :: octet payload.length :: payload)).toNat / 256)])) ++
        [octet (crc16 (octet (kind * 16 + a) :: octet payload.length :: payload)).toNat] := by
  simp [buildFrame, crcOctets, put16]

/-- An initial segment of a frame of R3 that lacks its last octet has no event (R4). -/
theorem Receiver.run_initial {r : Receiver} {kind a : Nat} {payload : List Byte} (hr : r.inFrame = false)
    (hk : kindTakes kind payload.length) (h1 : 1 ≤ a) (h15 : a ≤ 15) {n : Nat}
    (hn : n < (buildFrame kind a payload).length) :
    ∃ r', r.run ((buildFrame kind a payload).take n) = some r' := by
  rw [buildFrame_eq] at hn ⊢
  rw [List.length_append, List.length_singleton] at hn
  rw [List.take_append_of_le_length (by omega)]
  refine Receiver.run_take (Receiver.run_frame hr (hk.headerGood h1 h15) (hk.lengthGood h15) ?_ _) n
  rw [octet_toNat]
  have := hk.bounds
  omega

/-! ## The frames that a station samples (R3, R14) -/

theorem State.summaryPayload_length (s : State) :
    s.summaryPayload.length = match s.loader.straps.role with | .zone => 16 | .plant => 30 := by
  unfold State.summaryPayload
  split <;> rename_i hr _ <;> rw [hr]
  · rfl
  · rfl
  · rfl
  · unfold State.plantSummary1 newestOctets
    cases s.protection.history.getLast? <;> rfl

/-- The kind code of what a station of a role samples (R3). -/
def kindCode (k : ReportKind) (role : Role) : Nat :=
  match k, role with
  | .main, .zone => zoneKind
  | .main, .plant => plantKind
  | .summary, _ => summaryKind

/-- The payload of what a station samples (R14). -/
def State.samplePayload (s : State) (k : ReportKind) : List Byte :=
  match k, s.loader.straps.role with
  | .main, .zone => encodeZone s.loader.tag s.ownZone
  | .main, .plant => encodePlant s.loader.tag s.ownPlant
  | .summary, _ => s.summaryPayload

/-- What a station samples is a frame of R3. -/
theorem State.sampleFrame_eq (s : State) (k : ReportKind) :
    s.sampleFrame k = buildFrame (kindCode k s.loader.straps.role) s.address (s.samplePayload k) := by
  unfold State.sampleFrame State.samplePayload kindCode
  cases k
  · cases s.loader.straps.role <;> rfl
  · rfl

theorem State.samplePayload_kindTakes (s : State) (k : ReportKind) :
    kindTakes (kindCode k s.loader.straps.role) (s.samplePayload k).length := by
  have hs := s.summaryPayload_length
  unfold State.samplePayload kindCode kindTakes
  cases k <;> cases hr : s.loader.straps.role <;> rw [hr] at hs
  · exact .inl ⟨rfl, rfl⟩
  · exact .inr (.inl ⟨rfl, rfl⟩)
  · exact .inr (.inr ⟨rfl, .inl hs⟩)
  · exact .inr (.inr ⟨rfl, .inr hs⟩)

end Sys2Proof.Machine
end

