-- ==== Sys2Proof/Proofs/Attempts.lean ====
section
/-! PROOFS. The line's timers, its counts, and the attempts from their beginning to completion or collision
(chapter 1). -/

namespace Sys2Proof.Machine

/-! ## What the readiness of a line does to its wait (R12, R13) -/

/-- A station that can send waits with the kind it chooses now, and keeps its gap count if it waited with it. -/
theorem LineState.settle_waits {b : Bool} {l : LineState} (h : l.canSend b = true)
    (hm : l.waiting = some .main → l.main.pending = true) :
    (l.settle b).waiting = some l.chosenKind ∧
      (l.settle b).gap = if l.waiting = some l.chosenKind then l.gap else 0 := by
  obtain ⟨hc, _⟩ | ⟨_, he, hw | ⟨hw, hp⟩⟩ | ⟨_, he, hw | ⟨hw, hp⟩⟩ := l.settle_cases b
  · rw [hc] at h; contradiction
  · simp [he, hw, LineState.chosenKind, hm hw]
  · simp [he, hw, LineState.chosenKind, hp]
  · simp [he, hw]
  · simp [he, hw, LineState.chosenKind, hp]

/-- A station that cannot send does not wait, and its gap count goes on. -/
theorem LineState.settle_silent {b : Bool} {l : LineState} (h : l.canSend b = false) :
    (l.settle b).waiting = none ∧ (l.settle b).gap = l.gap := by
  obtain ⟨_, he⟩ | ⟨hc, _⟩ | ⟨hc, _⟩ := l.settle_cases b
  · simp [he]
  · rw [h] at hc; contradiction
  · rw [h] at hc; contradiction

/-- YIELDED, without a token, or with an attempt in progress, a station cannot send (R12). -/
theorem LineState.not_canSend {b : Bool} {l : LineState}
    (h : l.yielded = true ∨ l.tokens = 0 ∨ l.attempt.isSome = true) : l.canSend b = false := by
  rw [Bool.eq_false_iff, Ne, LineState.canSend_iff]
  rintro ⟨_, hy, _, ht, ha⟩
  obtain h | h | h := h
  · rw [hy] at h; contradiction
  · omega
  · rw [ha] at h; contradiction

/-! ## The trigger of a kind (R8) -/

theorem LineState.attempting_iff (l : LineState) (k : ReportKind) :
    l.attempting k = true ↔ ∃ a, l.attempt = some a ∧ a.kind = k := by
  unfold LineState.attempting; cases l.attempt <;> simp

/-- A trigger sets the flag, and the mark too while an attempt of the same kind is in progress. -/
theorem LineState.trigger_kind (l : LineState) (k : ReportKind) :
    (l.trigger k).kind k =
      { pending := true, renewal := (l.kind k).renewal || l.attempting k, k := (l.kind k).k } :=
  LineState.kind_setKind_same _ _ _

/-- What settling a triggered line leaves of it: the state of that kind, the wait and the gap count. -/
theorem LineState.trigger_settle_kind (l : LineState) (b : Bool) (k : ReportKind) :
    ((l.trigger k).settle b).kind k =
      { pending := true, renewal := (l.kind k).renewal || l.attempting k, k := (l.kind k).k } := by
  rw [LineState.settle_eq]
  exact LineState.trigger_kind l k

/-- A main trigger makes a station that can send wait with the main kind. -/
theorem LineState.trigger_main_waits {l : LineState} (hy : l.yielded = false) (ht : 1 ≤ l.tokens)
    (ha : l.attempt = none) :
    ((l.trigger .main).settle true).waiting = some .main ∧
      ((l.trigger .main).settle true).gap = if l.waiting = some .main then l.gap else 0 :=
  LineState.settle_waits ((LineState.canSend_iff _ _).2 ⟨rfl, hy, .inl rfl, ht, ha⟩) fun _ => rfl

/-- A SUMMARY trigger makes a station that can send wait with the kind it now chooses. -/
theorem LineState.trigger_summary_waits {l : LineState} (hy : l.yielded = false) (ht : 1 ≤ l.tokens)
    (ha : l.attempt = none) (hm : l.waiting = some .main → l.main.pending = true) :
    ((l.trigger .summary).settle true).waiting = some l.chosenKind ∧
      ((l.trigger .summary).settle true).gap = if l.waiting = some l.chosenKind then l.gap else 0 :=
  LineState.settle_waits ((LineState.canSend_iff _ _).2 ⟨rfl, hy, .inr rfl, ht, ha⟩) hm

/-- A main trigger and the look at the readiness move the main kind, the wait and the gap count alone. -/
theorem LineState.trigger_main_settle_eq (l : LineState) (b : Bool) :
    (l.trigger .main).settle b =
      { l with
        main := ((l.trigger .main).settle b).main
        waiting := ((l.trigger .main).settle b).waiting
        gap := ((l.trigger .main).settle b).gap } := by
  obtain ⟨_, h⟩ | ⟨_, h, _⟩ | ⟨_, h, _⟩ := (l.trigger .main).settle_cases b <;> rw [h] <;> rfl

/-- A SUMMARY trigger and the look at the readiness move the SUMMARY kind, the wait and the gap count alone. -/
theorem LineState.trigger_summary_settle_eq (l : LineState) (b : Bool) :
    (l.trigger .summary).settle b =
      { l with
        summary := ((l.trigger .summary).settle b).summary
        waiting := ((l.trigger .summary).settle b).waiting
        gap := ((l.trigger .summary).settle b).gap } := by
  obtain ⟨_, h⟩ | ⟨_, h, _⟩ | ⟨_, h, _⟩ := (l.trigger .summary).settle_cases b <;> rw [h] <;> rfl

/-- Settling a READY station whose line was replaced. -/
theorem State.settle_setLine {s : State} (hr : s.ready = true) (l : LineState) :
    (s.setLine l).settle = s.setLine (l.settle true) := by
  rw [State.settle, State.setLine_ready, hr]; rfl

/-- The facts a periodic report timer of the main kind leaves behind (R8, R9, R12). -/
theorem State.triggerMain_settles (s : State) (hr : s.ready = true) :
    ∃ t : State, (s.setLine (s.line.trigger .main)).settle = t ∧ t.line.main.pending = true ∧
      (t.line.main.renewal = true ↔
        s.line.main.renewal = true ∨ ∃ a, s.line.attempt = some a ∧ a.kind = .main) ∧
      t.line.main.k = s.line.main.k ∧
      (s.line.yielded = false → 1 ≤ s.line.tokens → s.line.attempt = none →
        t.line.waiting = some .main ∧
          t.line.gap = if s.line.waiting = some .main then s.line.gap else 0) ∧
      (s.line.yielded = true ∨ s.line.tokens = 0 ∨ s.line.attempt.isSome = true →
        t.line.waiting = none ∧ t.line.gap = s.line.gap) ∧
      t = s.setLine
        { s.line with main := t.line.main, waiting := t.line.waiting, gap := t.line.gap } := by
  have hk : ((s.line.trigger .main).settle true).main = _ := s.line.trigger_settle_kind true .main
  refine ⟨_, State.settle_setLine hr _, congrArg KindState.pending hk, ?_, (congrArg KindState.k hk :),
    fun hy ht ha => LineState.trigger_main_waits hy ht ha,
    fun h => LineState.settle_silent (l := s.line.trigger .main) (LineState.not_canSend h),
    congrArg s.setLine (s.line.trigger_main_settle_eq true)⟩
  rw [← s.line.attempting_iff, ← Bool.or_eq_true]
  exact iff_of_eq (congrArg (fun x => KindState.renewal x = true) hk)

/-- Settles O19: each timer is its trigger or token, then one look at the readiness. -/
theorem tokenRefillAndReportTimers : Obligations.TokenRefillAndReportTimers := by
  refine ⟨fun s hr => ?_, fun s hr => ⟨fun hz => ⟨?_, ?_⟩, fun hp => ⟨?_, ?_⟩, ?_⟩⟩
  · set l : LineState := { s.line with tokens := satAdd 3 s.line.tokens 1 } with hl
    have ht : satAdd 3 s.line.tokens 1 = if s.line.tokens < 3 then s.line.tokens + 1 else 3 := by
      unfold satAdd; split <;> omega
    have he := l.settle_eq true
    refine ⟨s.setLine (l.settle true), ?_, ?_, fun hy ha hw hp => ?_, ?_⟩
    · simp [exec, execTokenRefillTimer, hr, State.settle_setLine hr, hl]
    · rw [he]; exact ht
    · have hc : l.canSend true = true :=
        (LineState.canSend_iff _ _).2 ⟨rfl, hy, hp, one_le_satAdd_three _, ha⟩
      obtain ⟨h1, h2⟩ := LineState.settle_waits hc fun h => absurd (hw.symm.trans h) (by simp)
      exact ⟨h1, h2.trans (if_neg (by simp [hl, hw]))⟩
    · rw [he]; rfl
  · simp [exec, execPlantPeriodicTimer, State.not_plantReady_of_role hz]
  · obtain ⟨t, ht, facts⟩ := s.triggerMain_settles hr
    exact ⟨t, by simp [exec, execZonePeriodicTimer, State.zoneReady, hr, hz, ht], facts⟩
  · simp [exec, execZonePeriodicTimer, State.zoneReady, hp]
  · obtain ⟨t, ht, facts⟩ := s.triggerMain_settles hr
    exact ⟨t, by simp [exec, execPlantPeriodicTimer, State.plantReady, hr, hp, ht], facts⟩
  · have hk : ((s.line.trigger .summary).settle true).summary = _ := s.line.trigger_settle_kind true .summary
    refine ⟨_, ?_, congrArg KindState.pending hk, ?_, (congrArg KindState.k hk :), fun hy ht ha hm => ?_,
      fun h => LineState.settle_silent (l := s.line.trigger .summary) (LineState.not_canSend h),
      congrArg s.setLine (s.line.trigger_summary_settle_eq true)⟩
    · simp [exec, execSummaryTimer, hr, State.settle_setLine hr]
    · rw [← s.line.attempting_iff, ← Bool.or_eq_true]
      exact iff_of_eq (congrArg (fun x => KindState.renewal x = true) hk)
    · obtain ⟨h1, h2⟩ := LineState.trigger_summary_waits hy ht ha hm
      refine ⟨h1, h2.trans ?_⟩
      simp only [State.setLine_line, h1, eq_comm]

/-! ## The plant state's note at the end of a line event (R11, R12) -/

theorem State.inReset_eq_false {s : State} (hp : s.loader.powerAsserted = false)
    (hi : s.loader.inputAsserted = false) : s.inReset = false := by simp [State.inReset, hp, hi]

/-- A station that shows its plant state has nothing to note. -/
theorem State.notePlantState_of_shown {s : State} (h : s.ShownSound) : s.notePlantState = s := by
  refine if_neg fun hc => ?_
  obtain ⟨hr, hne⟩ := Bool.and_eq_true_iff.1 hc
  exact of_decide_eq_true hne (h hr).symm

theorem State.settlePlant_of_shown {s : State} (h : s.ShownSound) : s.settlePlant = s.settle := by
  rw [State.settlePlant, State.notePlantState_of_shown h]

/-- The end of a line event moves the main kind, the wait and the gap count alone on the line. -/
theorem State.settlePlant_line (s : State) :
    s.settlePlant.line =
      { s.line with
        main := s.settlePlant.line.main
        waiting := s.settlePlant.line.waiting
        gap := s.settlePlant.line.gap } := by
  have hs : s.settlePlant.line = s.notePlantState.line.settle s.notePlantState.ready := rfl
  rw [hs]
  obtain hl | hl := s.notePlantState_prompted <;> rw [hl]
  · obtain ⟨_, h⟩ | ⟨_, h, _⟩ | ⟨_, h, _⟩ := s.line.settle_cases s.notePlantState.ready <;> rw [h]
  · exact s.line.trigger_main_settle_eq _

/-- With its plant state shown, the end of a line event moves the wait and the gap count alone. -/
theorem State.settlePlant_setLine {s : State} (h : s.ShownSound) (l : LineState) :
    (s.setLine l).settlePlant = s.setLine (l.settle s.ready) := by
  rw [State.settlePlant_of_shown (s := s.setLine l) h, State.settle, State.setLine_ready]; rfl

/-! ## The counts and abandoned frames (R2, R4) -/

/-- Settles O20: the counts by their operations' equations; a gap and a bad octet each abandon a frame once. -/
theorem lineCountsAndAbandonedFrames : Obligations.LineCountsAndAbandonedFrames := by
  refine ⟨fun s hp hi => ⟨?_, fun ha => ?_, fun ha => ?_⟩, fun s hp hi ha hs => ⟨?_, ?_⟩,
    fun s octets hp hi ha => ⟨?_, ?_⟩⟩
  all_goals have hr := State.inReset_eq_false hp hi
  · simp [exec, execStartBitSeen, hr, LineState.startBit]
  · simp [exec, execLineIdle, ha]
  · simp [exec, execLineIdle, hr, ha, LineState.gapAbandon_eq, LineState.quietReaches_eq]
  · refine ⟨_, by simp [exec, execFrameAbandoned, hr, ha, State.heard]; rfl, ?_⟩
    rw [State.settlePlant_setLine hs, LineState.settle_eq]
    simp [LineState.gapAbandon_eq, LineState.quietReaches_eq]
  · refine ⟨_, by simp [exec, execFramingError, hr, ha, State.heard]; rfl, ?_⟩
    rw [State.settlePlant_setLine hs]
    have hg : (s.line.framingAbandon.octetEnd.settle s.ready).gap = 0 := by
      obtain ⟨_, h⟩ | ⟨_, h, _⟩ | ⟨_, h, _⟩ := s.line.framingAbandon.octetEnd.settle_cases s.ready <;>
        rw [h] <;> rfl
    refine ⟨?_, ?_, ?_, hg, rfl⟩ <;> rw [State.setLine_line, LineState.settle_eq] <;>
      simp [LineState.framingAbandon_eq, LineState.octetEnd]
  · refine ⟨_, by simp only [exec, execFrameAbandoned, hr, ha]; rfl, ?_⟩
    rw [State.settlePlant_line]
    simp [LineState.gapAbandon_eq, LineState.quietReaches_eq, Receiver.not_inFrame_of_abandoned]
  · refine ⟨_, by simp only [exec, execFramingError, hr, ha]; rfl, ?_⟩
    rw [State.settlePlant_line]
    simp [LineState.framingAbandon_eq, LineState.octetEnd]

/-! ## The beginning of an attempt (R13, R14) -/

/-- The line as an attempt begins, after its gap has abandoned a frame (R2, R4, R8, R13, R14). -/
theorem LineState.gapReaches_beginAttempt (l : LineState) (n : Nat) (a : Attempt) :
    LineState.beginAttempt (l.gapReaches n).gapAbandon a =
      { l.setKind a.kind { l.kind a.kind with renewal := false } with
        quiet := 0, gap := 0, octetOnLine := true, attempt := some a, waiting := none
        rx := if l.rx.inFrame = true then .hunt else l.rx
        malformed := if l.rx.inFrame = true then l.malformed + 1 else l.malformed } := by
  rw [LineState.gapReaches_gapAbandon, LineState.beginAttempt_counts, LineState.gapAbandon_eq]
  unfold LineState.beginAttempt
  cases a.kind <;> rfl

/-- Settles O21: the attempt's line and its sample, each by its equation. -/
theorem attemptBeginsAtItsGap : Obligations.AttemptBeginsAtItsGap := by
  refine fun s k hw hc => ⟨fun ho => ?_, fun ho => ?_⟩
  · simp [exec, execAttemptBegin, hw, ho]
  · refine ⟨_, by simp only [exec, execAttemptBegin, hw, hc, ho]; rfl, ?_⟩
    simp only [State.setLine_line, LineState.gapReaches_beginAttempt]
    refine ⟨trivial, trivial, ?_, trivial, trivial, trivial, trivial, ?_⟩
    · rw [LineState.gapReaches_gapAbandon, LineState.gapAbandon_eq]; rfl
    · cases k
      · exact ⟨rfl, rfl, rfl, fun | .summary, _ => rfl, rfl, rfl, rfl⟩
      · exact ⟨rfl, rfl, rfl, fun | .main, _ => rfl, rfl, rfl, rfl⟩

/-! ## The end of an attempt (R7, R8, R14, R15) -/

/-- A frame drives ten levels for each octet (R1). -/
theorem frameLevels_length (frame : List Byte) : (frameLevels frame).length = 10 * frame.length := by
  induction frame with
  | nil => rfl
  | cons o os ih =>
    have hc : (frameLevels (o :: os)).length = 10 + (frameLevels os).length := by
      simp [frameLevels, octetLevels]; omega
    rw [hc, ih, List.length_cons]
    ring

/-- A bit that is driven belongs to an octet of the frame (R1). -/
theorem octet_of_bit {frame : List Byte} {bit : Nat} {b : Bool} (h : (frameLevels frame)[bit]? = some b) :
    bit / 10 < frame.length := by
  obtain ⟨hlt, _⟩ := List.getElem?_eq_some_iff.1 h
  rw [frameLevels_length] at hlt
  omega

/-- The kinds of a line from here on are its `main` and `summary`; settling moves neither. -/
theorem LineState.settle_kind (b : Bool) (l : LineState) (k : ReportKind) : (l.settle b).kind k = l.kind k := by
  rw [LineState.settle_eq]; cases k <;> rfl

/-- The line after a completed attempt, each item by its rule (R7, R8, R10, R11, R14, R192). -/
theorem LineState.completeAttempt_facts (l : LineState) (role : Role) (a : Attempt) :
    let l' := l.completeAttempt role a
    l'.attempt = none ∧ l'.tokens = l.tokens - 1 ∧ l'.rx = .hunt ∧
      l'.kind a.kind = (l.kind a.kind).release ∧ (∀ other, other ≠ a.kind → l'.kind other = l.kind other) ∧
      l'.pageOne = (if a.kind = .summary then !l.pageOne else l.pageOne) ∧
      l'.lastTarget = (if a.kind = .main ∧ role = .zone then some a.target else l.lastTarget) ∧
      l'.lastF = (if a.kind = .main ∧ role = .plant then some a.f else l.lastF) ∧
      l'.collisions = l.collisions ∧ l'.dropped = l.dropped ∧ l'.good = l.good := by
  obtain ⟨kind, _, _, _, _⟩ := a
  cases kind <;> cases role
  · exact ⟨rfl, rfl, rfl, rfl, fun | .summary, _ => rfl, rfl, rfl, rfl, rfl, rfl, rfl⟩
  · exact ⟨rfl, rfl, rfl, rfl, fun | .summary, _ => rfl, rfl, rfl, rfl, rfl, rfl, rfl⟩
  · exact ⟨rfl, rfl, rfl, rfl, fun | .main, _ => rfl, rfl, rfl, rfl, rfl, rfl, rfl⟩
  · exact ⟨rfl, rfl, rfl, rfl, fun | .main, _ => rfl, rfl, rfl, rfl, rfl, rfl, rfl⟩

/-- A kind after a collision: at the eighth its report is dropped (R15). -/
theorem KindState.collide_eq (x : KindState) :
    x.collide =
      if 7 ≤ x.k then { pending := x.pending && x.renewal, renewal := false, k := 0 }
      else { pending := x.pending, renewal := x.renewal, k := x.k + 1 } := by
  unfold KindState.collide
  by_cases h : 7 ≤ x.k
  · rw [if_pos (Nat.succ_le_succ h), if_pos h]; rfl
  · rw [if_neg (by omega), if_neg h]

/-- The line after a collision, each item by its rule (R15). -/
theorem LineState.collide_facts (l : LineState) (a : Attempt) :
    let l' := l.collide a
    l'.attempt = none ∧ l'.collisions = l.collisions + 1 ∧ l'.tokens = l.tokens ∧ l'.pageOne = l.pageOne ∧
      l'.dropped = (if 7 ≤ (l.kind a.kind).k then l.dropped + 1 else l.dropped) ∧
      l'.kind a.kind = (l.kind a.kind).collide ∧ (∀ other, other ≠ a.kind → l'.kind other = l.kind other) ∧
      l'.yielded = l.yielded ∧ l'.rx = l.rx := by
  have hd : (if 8 ≤ (l.kind a.kind).k + 1 then l.dropped + 1 else l.dropped) =
      if 7 ≤ (l.kind a.kind).k then l.dropped + 1 else l.dropped := by
    simp only [show 8 ≤ (l.kind a.kind).k + 1 ↔ 7 ≤ (l.kind a.kind).k by omega]
  obtain ⟨kind, _, _, _, _⟩ := a
  cases kind
  · exact ⟨rfl, rfl, rfl, rfl, hd, rfl, fun | .summary, _ => rfl, rfl, rfl⟩
  · exact ⟨rfl, rfl, rfl, rfl, hd, rfl, fun | .main, _ => rfl, rfl, rfl⟩

theorem LineState.settle_hears (b : Bool) (l : LineState) : l.Hears (l.settle b) := by
  have hk := l.settle_kind b
  obtain ⟨_, h⟩ | ⟨_, h, _⟩ | ⟨_, h, _⟩ := l.settle_cases b
  all_goals
    refine ⟨?_, ?_, ?_, ?_, ?_, ?_, ?_, fun _ k => by rw [hk], fun hs _ _ => hs.settle b⟩ <;> rw [h]
    exact id

/-- The end of a line event does to the line what octets do. -/
theorem State.settlePlant_hears (s : State) : s.Hears s.settlePlant :=
  LineState.Hears.trans s.notePlantState_prompted.hears (LineState.settle_hears _ _)

/-- Of a frame of R3 that a station outside a frame has read in part, the octets move the receiver alone. -/
theorem State.takeOctets_initial {s : State} {kind a : Nat} {payload : List Byte} (hr : s.line.rx.inFrame = false)
    (hk : kindTakes kind payload.length) (h1 : 1 ≤ a) (h15 : a ≤ 15) {n : Nat}
    (hn : n < (buildFrame kind a payload).length) :
    ∃ r, s.takeOctets ((buildFrame kind a payload).take n) = s.setLine { s.line with rx := r } := by
  obtain ⟨r, hrun⟩ := Receiver.run_initial hr hk h1 h15 hn
  unfold State.takeOctets
  split
  · exact ⟨r, State.foldOctets_run _ hrun⟩
  · exact ⟨s.line.rx, rfl⟩

/-- Settles O23: completion by its facts; a collision by its facts and by what the octets read so far can do. -/
theorem attemptsEndByCompletionOrCollision : Obligations.AttemptsEndByCompletionOrCollision := by
  refine ⟨fun s a ha => ?_, fun s a bit ha => ⟨fun hb => ?_, fun hb => ?_⟩⟩
  · set l := s.line.completeAttempt s.loader.straps.role a with hl
    obtain ⟨h1, h2, h3, h4, h5, h6, h7, h8, h9, h10, h11⟩ := s.line.completeAttempt_facts s.loader.straps.role a
    refine ⟨s.setLine (l.settle s.ready), by simp [exec, execAttemptComplete, ha, State.settle, hl], ?_⟩
    have he := l.settle_eq s.ready
    have hk := l.settle_kind s.ready
    simp only [State.setLine_line, hk]
    rw [he]
    exact ⟨h1, h2, h3, h4, h5, h6, h7, h8, h9, h10, h11, trivial⟩
  · set s1 := s.setLine (s.line.collide a) with hs1
    obtain ⟨h1, h2, h3, h4, h5, h6, h7, h8, h9⟩ := s.line.collide_facts a
    have hears : s1.Hears ((s1.takeOctets (a.frame.take (bit / 10))).settlePlant) :=
      (State.takeOctets_hears _ _).trans (State.settlePlant_hears _)
    refine ⟨_, by simp only [exec, execCollision, ha, hb]; rfl, fun hshown hrx hframe => ?_,
      hears.attempt.trans h1, hears.collisions.trans h2, hears.tokens.trans h3, hears.pageOne.trans h4,
      hears.dropped.trans h5, fun hy => ?_⟩
    · obtain ⟨u, hu1, hu15, hu⟩ := hframe
      rw [u.sampleFrame_eq] at hu
      have hbit := octet_of_bit hb
      rw [hu] at hbit ⊢
      obtain ⟨r, hr⟩ := State.takeOctets_initial (s := s1) (h9 ▸ hrx) (u.samplePayload_kindTakes _) hu1 hu15 hbit
      have hs1 : s1.ShownSound := hshown
      rw [hr, State.settlePlant_setLine hs1]
      refine ⟨?_, fun other ho => ?_, ?_, rfl⟩
      · exact (LineState.settle_kind _ _ _).trans (h6.trans (KindState.collide_eq _))
      · exact (LineState.settle_kind _ _ _).trans (h7 other ho)
      · rw [State.setLine_line, LineState.settle_yielded]; exact h8
    · refine (hears.counts hy a.kind).trans ?_
      rw [State.setLine_line, h6, KindState.collide_eq]
      split <;> rfl
  · simp [exec, execCollision, ha, hb]

end Sys2Proof.Machine
end

