-- ==== Sys2Proof/Proofs/Frames.lean ====
section
/-! PROOFS. What a station does with a whole frame: the checks of R5, the entry a report fills (R24), and a frame with
the own address (R16, R17). -/

namespace Sys2Proof.Machine

/-! ## A whole frame (R4, R5) -/

/-- The station as it stands once the octets of a frame have been read from HUNT, before what the frame does. -/
def State.afterOctets (s : State) : State :=
  s.setLine { s.line with quiet := 0, gap := 0, octetOnLine := false }

/-- FRAME_RECEIVED of a station that hears the line: the octets in order, then the end of the event. -/
theorem exec_frameReceived {s : State} (hr : s.ready = true) (hp : s.loader.powerAsserted = false)
    (hi : s.loader.inputAsserted = false) (ha : s.line.attempt = none) (octets : List Byte) :
    exec (.frameReceived octets) s = .next (octets.foldl State.takeOctet s.afterOctets).settlePlant := by
  have hres := State.inReset_eq_false hp hi
  simp only [exec, execFrameReceived, hres, ha, State.takeOctets, State.setLine_ready, hr]
  rfl

theorem State.afterOctets_rx {s : State} (h : s.line.rx = .hunt) :
    s.afterOctets.setLine { s.afterOctets.line with rx := .hunt } = s.afterOctets := by
  rw [show Receiver.hunt = s.afterOctets.line.rx from h.symm]; rfl

/-- The octet that ends a frame leaves the receiver hunting and does what the frame's end says. -/
theorem State.takeOctet_end {s u : State} {r : Receiver} {o : Byte} {e : FrameEvent} (hx : s.line.rx = .hunt)
    (hu : u = s.afterOctets.setLine { s.afterOctets.line with rx := r }) (hr : r.octet o = (.hunt, e)) :
    u.takeOctet o = s.afterOctets.frameEvent e := by
  subst hu
  rw [← State.afterOctets_rx hx, State.takeOctet, State.setLine_line, hr]
  rfl

/-- A hunting station takes a whole frame: what it does is what the frame's end says (R3, R4, R5). -/
theorem exec_wholeFrame {s : State} {kind a : Nat} {payload : List Byte} (hr : s.ready = true)
    (hp : s.loader.powerAsserted = false) (hi : s.loader.inputAsserted = false) (ha : s.line.attempt = none)
    (hx : s.line.rx = .hunt) (h1 : 1 ≤ a) (h15 : a ≤ 15) (hk : kindTakes kind payload.length) (high low : Byte) :
    exec (.frameReceived
      ([0xD2#8, 0x2D#8, octet (kind * 16 + a), octet payload.length] ++ payload ++ [high, low])) s =
        .next (s.afterOctets.frameEvent
          (frameEnd (octet (kind * 16 + a)) (octet payload.length) payload high low)).settlePlant := by
  have hlen : payload.length = (octet payload.length).toNat := by
    rw [octet_toNat]; have := hk.bounds; omega
  have hrun : s.afterOctets.line.rx.run _ = _ :=
    Receiver.run_frame (r := s.line.rx) (by rw [hx]; rfl) (hk.headerGood h1 h15) (hk.lengthGood h15) hlen high
  have hsplit : [0xD2#8, 0x2D#8, octet (kind * 16 + a), octet payload.length] ++ payload ++ [high, low] =
      [0xD2#8, 0x2D#8] ++ ([octet (kind * 16 + a), octet payload.length] ++ (payload ++ [high])) ++ [low] := by
    simp
  rw [exec_frameReceived hr hp hi ha, hsplit, List.foldl_append, State.foldOctets_run _ hrun]
  exact congrArg (fun u => Host.Outcome.next (State.settlePlant u)) (State.takeOctet_end hx rfl rfl)

/-- The frame of R3 in octets. -/
theorem buildFrame_octets (kind a : Nat) (payload : List Byte) :
    ∃ high low : Byte, crcOctets (octet (kind * 16 + a) :: octet payload.length :: payload) = [high, low] ∧
      buildFrame kind a payload =
        [0xD2#8, 0x2D#8, octet (kind * 16 + a), octet payload.length] ++ payload ++ [high, low] :=
  ⟨_, _, rfl, by simp [buildFrame, crcOctets, put16]⟩

/-- A frame of R3 with its own check value is judged by its enumerations alone (R5). -/
theorem exec_builtFrame {s : State} {kind a : Nat} {payload : List Byte} (hr : s.ready = true)
    (hp : s.loader.powerAsserted = false) (hi : s.loader.inputAsserted = false) (ha : s.line.attempt = none)
    (hx : s.line.rx = .hunt) (h1 : 1 ≤ a) (h15 : a ≤ 15) (hk : kindTakes kind payload.length) :
    exec (.frameReceived (buildFrame kind a payload)) s =
      .next (s.afterOctets.frameEvent
        (if enumsGood (octet (kind * 16 + a)) payload = true then .good (octet (kind * 16 + a)) payload
          else .malformed)).settlePlant := by
  obtain ⟨high, low, hcrc, hframe⟩ := buildFrame_octets kind a payload
  rw [hframe, exec_wholeFrame hr hp hi ha hx h1 h15 hk, frameEnd, if_neg (by simp [hcrc])]

/-- A frame that ends at the header or the length is malformed (R5). -/
theorem exec_cutFrame {s : State} {l : List Byte} {o : Byte} {r : Receiver} (hr : s.ready = true)
    (hp : s.loader.powerAsserted = false) (hi : s.loader.inputAsserted = false) (ha : s.line.attempt = none)
    (hx : s.line.rx = .hunt) (hrun : Receiver.hunt.run l = some r) (ho : r.octet o = (.hunt, .malformed)) :
    exec (.frameReceived (l ++ [o])) s =
      .next (s.setLine
        { s.line with
          quiet := 0, gap := 0, octetOnLine := false, malformed := s.line.malformed + 1 }).settlePlant := by
  have hrun' : s.afterOctets.line.rx.run l = some r := by rw [← hrun, ← hx]; rfl
  rw [exec_frameReceived hr hp hi ha, List.foldl_append, State.foldOctets_run _ hrun']
  exact congrArg (fun u => Host.Outcome.next (State.settlePlant u)) (State.takeOctet_end hx rfl ho)

/-- Settles O25: a whole frame by its check value and enumerations, a cut one by its header or length. -/
theorem framesAreTakenByTheirCheckValue : Obligations.FramesAreTakenByTheirCheckValue := by
  refine ⟨fun s kind a payload hr hp hi ha hx h1 h15 hk => ⟨fun he => ?_, fun he => ?_, fun high low hne => ?_⟩,
    fun s header length hr hp hi ha hx => ⟨fun hh => ?_, fun ha0 hh => ?_⟩⟩
  · rw [exec_builtFrame hr hp hi ha hx h1 h15 hk, if_pos he]; rfl
  · rw [exec_builtFrame hr hp hi ha hx h1 h15 hk, if_neg (by simp [he])]; rfl
  · rw [exec_wholeFrame hr hp hi ha hx h1 h15 hk, frameEnd, if_pos (fun h => hne h.symm)]; rfl
  · have hbad : headerGood header = false := by
      rw [headerGood, decide_eq_false_iff_not, headerKind, headerAddress]; omega
    exact exec_cutFrame (l := [0xD2#8, 0x2D#8]) hr hp hi ha hx (Receiver.run_sync rfl) (by simp [Receiver.octet, hbad])
  · have hgood : headerGood header = true := by
      rw [headerGood, decide_eq_true_eq, headerKind, headerAddress]; omega
    have hbad : lengthGood header length = false := by
      rw [lengthGood, decide_eq_false_iff_not, headerKind]; omega
    exact exec_cutFrame (l := [0xD2#8, 0x2D#8, header]) (r := .length header) hr hp hi ha hx
      (by simp [Receiver.run, Receiver.octet, hgood]) (by simp [Receiver.octet, hbad])

/-! ## Good reports (R6, R24) -/

/-- The station once a good frame is counted, before it goes to the table (R18). -/
def State.counted (s : State) : State :=
  s.setLine { s.line with quiet := 0, gap := 0, octetOnLine := false, good := s.line.good + 1 }

/-- A ZONE payload in its ranges decodes to its record at the octets of its frame (R6). -/
theorem decodeContents_zone {a : Nat} (h15 : a ≤ 15) (tag : Tag) {r : ZoneRecord} (hr : r.InRange) :
    decodeContents (octet (1 * 16 + a)) (encodeZone tag r) = some (.zone r) := by
  rw [decodeContents, (header_octet (by decide) h15).1, if_pos (show 1 = zoneKind from rfl), (encodeZone_payload tag hr).decode hr]
  rfl

/-- A PLANT payload in its ranges decodes to its record at the octets of its frame (R6). -/
theorem decodeContents_plant {a : Nat} (h15 : a ≤ 15) (tag : Tag) {r : PlantRecord} (hr : r.InRange) :
    decodeContents (octet (2 * 16 + a)) (encodePlant tag r) = some (.plant r) := by
  rw [decodeContents, (header_octet (by decide) h15).1, if_neg (by decide), if_pos (show 2 = plantKind from rfl),
    (encodePlant_payload tag hr).decode hr]
  rfl

/-- A good report is counted and goes to the table, or to the comparison of tags if it has the own address
(R6, R16, R24). -/
theorem exec_goodReport {s : State} {kind a : Nat} {payload : List Byte} {c : Contents} (hr : s.ready = true)
    (hp : s.loader.powerAsserted = false) (hi : s.loader.inputAsserted = false) (ha : s.line.attempt = none)
    (hx : s.line.rx = .hunt) (h1 : 1 ≤ a) (h15 : a ≤ 15) (hk : kindTakes kind payload.length)
    (hc : decodeContents (octet (kind * 16 + a)) payload = some c) :
    exec (.frameReceived (buildFrame kind a payload)) s =
      .next (if a = s.address then s.counted.compareTag (payloadTag payload)
        else s.counted.takeReport a c).settlePlant := by
  have he : enumsGood (octet (kind * 16 + a)) payload = true := by simp [enumsGood, hc]
  have haddr := (header_octet (a := a) hk.bounds.2.1 h15).2
  have hev : s.afterOctets.frameEvent (.good (octet (kind * 16 + a)) payload) =
      s.counted.acceptFrame (octet (kind * 16 + a)) payload := rfl
  rw [exec_builtFrame hr hp hi ha hx h1 h15 hk, if_pos he, hev, State.acceptFrame, hc]
  dsimp only
  rw [haddr]
  rfl

/-- A ZONE report that stands where no plant stood fills its entry, whatever the role (R24). -/
theorem State.takeReport_zone {s : State} {a : Nat} (r : ZoneRecord)
    (h : s.loader.straps.role = .zone → s.peers.plantAt a = none) :
    s.takeReport a (.zone r) = s.setPeers (s.peers.take a (.zone r)) := by
  unfold State.takeReport
  cases hrole : s.loader.straps.role
  · simp [h hrole]
  · rfl

/-- Settles O26: the report is counted, its entry filled, and nothing else stands to be noted. -/
theorem zoneReportFillsItsEntry : Obligations.ZoneReportFillsItsEntry := by
  intro s a tag r hr hp hi ha hx h1 h15 hne hir hshown hplant
  have hexec := exec_goodReport hr hp hi ha hx h1 h15 (.inl ⟨rfl, encodeZone_length tag r⟩)
    (decodeContents_zone h15 tag hir)
  have hs : (s.setPeers (s.peers.take a (.zone r))).ShownSound := hshown
  rw [if_neg hne, State.takeReport_zone (s := s.counted) r hplant] at hexec
  have hend : (s.counted.setPeers (s.counted.peers.take a (.zone r))).settlePlant =
      (s.setPeers (s.peers.take a (.zone r))).setLine (s.counted.line.settle s.ready) :=
    State.settlePlant_setLine hs s.counted.line
  refine ⟨_, hexec.trans (congrArg _ hend), rfl, ?_⟩
  rw [State.setLine_line, LineState.settle_eq]
  exact ⟨rfl, hx, rfl, rfl, rfl, rfl⟩

/-! ## A plant that stands aside (R35, R153, R162) -/

/-- What is left of a plant once its equipment has dropped, its procedure is aborted and its run is closed. -/
structure State.Dropped (s t : State) : Prop where
  run : t.engine.run = false
  speed : t.capacity.speedCommand = 0
  blower : t.capacity.blowerCommand = 0
  valve : t.engine.valve = deEnergised s.loader.straps.energised
  running : t.engine.running = none
  state : t.engine.state = .idle
  requests : t.engine.requests = .empty
  waiting : t.protection.waiting = none
  openRun : t.protection.run = none
  index : t.frost.index = s.frost.index
  aborted : s.engine.running.isSome = true →
    t.engine.aborted = s.engine.aborted + 1 ∧ t.engine.status.outcome = .aborted
  closed : s.protection.run.isSome = true →
    ∃ rec, t.protection.history.getLast? = some rec ∧ rec.cause = .standby

/-- What closing the open run leaves of the record and the frost items (R162). -/
theorem State.closeRun_record (c : StopCause) (s : State) :
    (s.closeRun c).protection.run = none ∧ (s.closeRun c).frost = s.frost ∧
      (s.protection.run.isSome = true →
        ∃ rec, (s.closeRun c).protection.history.getLast? = some rec ∧ rec.cause = c) := by
  unfold State.closeRun
  split
  next h => exact ⟨h, rfl, fun hs => by rw [h] at hs; cases hs⟩
  next age h =>
    have hlast : (appendRecord s.protection.history (runRecord c age s.pp.minRun)).getLast? =
        some (runRecord c age s.pp.minRun) := List.getLast?_concat
    dsimp only
    split
    · unfold State.beginLockout
      dsimp only
      split <;> exact ⟨rfl, rfl, fun _ => ⟨_, hlast, rfl⟩⟩
    · exact ⟨rfl, rfl, fun _ => ⟨_, hlast, rfl⟩⟩

/-- What an aborted procedure leaves behind (R153). -/
theorem State.endProc_aborted (s : State) :
    (s.endProc .aborted).engine =
        { s.engine with
          aborted := s.engine.aborted + 1, state := .idle, running := none, step := none, delaying := false
          stepTime := 0, exitTime := none, timeLimit := none, emergencyHold := 0, speedHold := none
          blowerHold := none, d5 := none, status := s.engine.endStatus .aborted } ∧
      (s.endProc .aborted).protection = { s.protection with waiting := none } ∧
      (s.endProc .aborted).frost.index = s.frost.index := by
  unfold State.endProc
  dsimp only
  split
  · refine ⟨rfl, rfl, ?_⟩
    show (s.frost.ended .aborted s.engine.d5).index = _
    unfold Frost.ended
    split <;> rfl
  · exact ⟨rfl, rfl, rfl⟩

/-- The outputs of a station that stands aside with its compressor off (R118, R123). -/
theorem State.driveOutputs_aside {s : State} (ha : s.aside = true) (hr : s.engine.run = false) :
    s.driveOutputs.capacity.speedCommand = 0 ∧ s.driveOutputs.capacity.blowerCommand = 0 := by
  unfold State.driveOutputs
  simp [ha, hr]

/-- The end of dropping a plant: no request is left and the outputs follow (R35, R153). -/
theorem State.dropPlant_end {v : State} (ha : v.aside = true) (hr : v.engine.run = false) :
    let w := (v.withdrawRequest.setRequests .empty).driveOutputs
    w.engine = { v.engine with requests := .empty } ∧ w.protection = { v.protection with waiting := none } ∧
      w.frost = v.frost ∧ w.capacity.speedCommand = 0 ∧ w.capacity.blowerCommand = 0 :=
  ⟨rfl, rfl, rfl, State.driveOutputs_aside (s := v.withdrawRequest.setRequests .empty) ha hr⟩

/-- A plant that stands aside drops its equipment and rests (R35 steps 1 and 2, R153, R162). -/
theorem State.dropPlant_dropped {s : State} (ha : s.aside = true)
    (hidle : s.engine.running = none → s.engine.state = .idle) : s.Dropped s.dropPlant := by
  obtain ⟨r, n, he⟩ := State.closeRun_engine .standby (s.runOff.driveValve (deEnergised s.loader.straps.energised))
  obtain ⟨hrun, hfrost, hclosed⟩ := State.closeRun_record .standby
    (s.runOff.driveValve (deEnergised s.loader.straps.energised))
  rw [State.driveValve_engine, State.runOff_engine] at he
  have hu : PlantFrame s ((s.runOff.driveValve (deEnergised s.loader.straps.energised)).closeRun .standby) :=
    ((s.runOff_plant).trans (State.driveValve_plant _ _)).trans (State.closeRun_plant _ _)
  have hold : (s.runOff.driveValve (deEnergised s.loader.straps.energised)).protection.run = s.protection.run ∧
      (s.runOff.driveValve (deEnergised s.loader.straps.energised)).frost = s.frost := by
    unfold State.driveValve State.runOff
    (repeat' split) <;> exact ⟨rfl, rfl⟩
  rw [hold.1] at hclosed
  rw [hold.2] at hfrost
  unfold State.dropPlant
  generalize (s.runOff.driveValve (deEnergised s.loader.straps.energised)).closeRun .standby = u at *
  have hua : u.aside = true := hu.aside.trans ha
  dsimp only
  split
  next hs =>
    obtain ⟨hve, hvp, hvf⟩ := u.endProc_aborted
    have hva : (u.endProc .aborted).aside = true := (State.endProc_plant _ u).aside.trans hua
    obtain ⟨h1, h2, h3, h4, h5⟩ := State.dropPlant_end hva (by rw [hve, he])
    rw [hve, he] at h1
    rw [hvp] at h2
    exact
      { run := by rw [h1], speed := h4, blower := h5, valve := by rw [h1], running := by rw [h1]
        state := by rw [h1], requests := by rw [h1], waiting := by rw [h2], openRun := by rw [h2]; exact hrun
        index := by rw [h3, hvf, hfrost], aborted := fun _ => by rw [h1]; exact ⟨rfl, rfl⟩
        closed := fun hr => by rw [h2]; exact hclosed hr }
  next hs =>
    have hn : s.engine.running = none := by rw [he] at hs; simpa using hs
    obtain ⟨h1, h2, h3, h4, h5⟩ := State.dropPlant_end hua (by rw [he])
    rw [he] at h1
    exact
      { run := by rw [h1], speed := h4, blower := h5, valve := by rw [h1], running := by rw [h1]; exact hn
        state := by rw [h1]; exact hidle hn, requests := by rw [h1], waiting := by rw [h2]
        openRun := by rw [h2]; exact hrun, index := by rw [h3, hfrost]
        aborted := fun hr => by rw [hn] at hr; cases hr
        closed := fun hr => by rw [h2]; exact hclosed hr }

/-! ## Entry to YIELDED (R16, R17) -/

theorem LineState.Prompted.conflicts {l l' : LineState} (h : l.Prompted l') : l'.conflicts = l.conflicts := by
  obtain rfl | rfl := h <;> rfl

theorem LineState.Prompted.yielded {l l' : LineState} (h : l.Prompted l') : l'.yielded = l.yielded := by
  obtain rfl | rfl := h <;> rfl

/-- What a comparison of tags leaves alone, in either role. -/
structure State.KeepsTable (s t : State) : Prop where
  loader : t.loader = s.loader
  entries : t.peers.entries = s.peers.entries
  sensors : t.sensors = s.sensors
  pending : t.pending = s.pending
  conflicts : t.line.conflicts = s.line.conflicts

/-- Entry to YIELDED leaves the table, the sensors and the conflicts alone, and YIELDED then stands (R17). -/
theorem State.enterYielded_keeps (s : State) : s.KeepsTable s.enterYielded ∧ s.enterYielded.line.yielded = true := by
  unfold State.enterYielded
  split
  next h => exact ⟨⟨rfl, rfl, rfl, rfl, rfl⟩, h⟩
  next =>
    dsimp only
    split
    · have hz := (State.yieldDemand_zone (s.setLine s.line.yield)).trans (State.recompute_zone _)
      have hl := ((State.yieldDemand_calmFrame (s.setLine s.line.yield)).trans (State.recompute_calmFrame _)).line
      exact ⟨⟨hz.loader, hz.entries, hz.sensors, hz.pending, hl.conflicts⟩, hl.yielded⟩
    · have hp := State.dropPlant_plant (s.setLine s.line.yield)
      have hl := (State.dropPlant_engineFrame (s.setLine s.line.yield)).line
      exact ⟨⟨hp.loader, congrArg Peers.entries hp.peers, hp.sensors, hp.pending, hl.conflicts⟩, hl.yielded⟩

/-- A recomputation of a YIELDED zone gives tier 0, the base Omin and no relief (R77, R78, R81). -/
theorem State.recompute_yielded {s : State} (h : s.line.yielded = true) :
    s.recompute.share.tier = 0 ∧ s.recompute.share.relief = 0 ∧
      s.recompute.share.base = if s.damper.state = .faulted then .unknown else .percent s.zp.omin := by
  have ht := s.chooseTier_zero (.inr (.inl h))
  have hplaced : s.placeTier.share.tier = 0 := by
    rw [← ht]; unfold State.placeTier; dsimp only; split <;> rfl
  rw [State.recompute_share]
  refine ⟨ht, if_pos hplaced, ?_⟩
  show s.chooseBase _ = _
  rw [State.chooseBase, h]
  rfl

/-- What a zone takes on entry to YIELDED (R17, R72, R77, R78). -/
theorem State.enterYielded_zone {s : State} (hz : s.loader.straps.role = .zone) (hy : s.line.yielded = false) :
    s.enterYielded.demand = s.demand.yield ∧ s.enterYielded.share.tier = 0 ∧ s.enterYielded.share.relief = 0 ∧
      s.enterYielded.share.base = if s.damper.state = .faulted then .unknown else .percent s.zp.omin := by
  have he : s.enterYielded = (s.setLine s.line.yield).yieldDemand.recompute := by
    simp [State.enterYielded, hy, hz]
  have hd : (s.setLine s.line.yield).yieldDemand.demand = s.demand.yield ∧
      (s.setLine s.line.yield).yieldDemand.damper = s.damper := by
    unfold State.yieldDemand; dsimp only; split <;> exact ⟨rfl, rfl⟩
  have hl := (State.yieldDemand_calmFrame (s.setLine s.line.yield))
  have hzp : (s.setLine s.line.yield).yieldDemand.zp = s.zp := by
    unfold State.zp; rw [hl.loader]; rfl
  have hr := State.recompute_yielded (s := (s.setLine s.line.yield).yieldDemand) hl.line.yielded
  rw [he, State.recompute_demand, ← hd.2, ← hzp]
  exact ⟨hd.1, hr⟩

/-- What a plant takes on entry to YIELDED (R17, R35, R153, R162). -/
theorem State.enterYielded_plant {s : State} (hp : s.loader.straps.role = .plant) (hy : s.line.yielded = false)
    (hs : s.PlantSound) : s.Dropped s.enterYielded ∧ PlantFrame (s.setLine s.line.yield) s.enterYielded := by
  have he : s.enterYielded = (s.setLine s.line.yield).dropPlant := by
    simp [State.enterYielded, hy, hp]
  have ha : (s.setLine s.line.yield).aside = true := by simp [State.aside, LineState.yield]
  have hd : (s.setLine s.line.yield).Dropped (s.setLine s.line.yield).dropPlant :=
    State.dropPlant_dropped ha fun hn => (hs.idle hn).state
  rw [he]
  exact ⟨{ hd with }, State.dropPlant_plant _⟩

/-- The comparison of tags: a conflict is counted, and the station yields if its tag is not above (R16). -/
theorem State.compareTag_eq (tag : Tag) (s : State) :
    s.compareTag tag = if s.loader.tag.toNat ≤ tag.toNat then s.countConflict.enterYielded else s.countConflict := rfl

/-- What the comparison of tags leaves alone, what it counts, and whether YIELDED then stands (R16, R17). -/
theorem State.compareTag_keeps (tag : Tag) (s : State) :
    s.countConflict.KeepsTable (s.compareTag tag) ∧
      ((s.compareTag tag).line.yielded = true ↔ s.line.yielded = true ∨ s.loader.tag.toNat ≤ tag.toNat) := by
  rw [State.compareTag_eq]
  split
  next h =>
    obtain ⟨hk, hy⟩ := s.countConflict.enterYielded_keeps
    exact ⟨hk, iff_of_true hy (.inr h)⟩
  next h => exact ⟨⟨rfl, rfl, rfl, rfl, rfl⟩, by simp [h, State.countConflict]⟩

/-- A frame with the own address is counted and goes to the comparison of tags (R16). -/
theorem exec_ownFrame {s : State} {tag : Tag} {frame : List Byte} (hr : s.ready = true)
    (hp : s.loader.powerAsserted = false) (hi : s.loader.inputAsserted = false) (ha : s.line.attempt = none)
    (hx : s.line.rx = .hunt) (h1 : 1 ≤ s.address) (h15 : s.address ≤ 15)
    (hf : (∃ r : ZoneRecord, r.InRange ∧ frame = buildFrame 1 s.address (encodeZone tag r)) ∨
      (∃ r : PlantRecord, r.InRange ∧ frame = buildFrame 2 s.address (encodePlant tag r))) :
    exec (.frameReceived frame) s = .next (s.counted.compareTag tag).settlePlant := by
  obtain ⟨r, hir, rfl⟩ | ⟨r, hir, rfl⟩ := hf
  · rw [exec_goodReport hr hp hi ha hx h1 h15 (.inl ⟨rfl, encodeZone_length tag r⟩)
      (decodeContents_zone h15 tag hir), if_pos rfl, payloadTag_of (encodeZone_payload tag hir).tag]
  · rw [exec_goodReport hr hp hi ha hx h1 h15 (.inr (.inl ⟨rfl, encodePlant_length tag r⟩))
      (decodeContents_plant h15 tag hir), if_pos rfl, payloadTag_of (encodePlant_payload tag hir).tag]

/-- The end of a line event on the engine: the plant state shown, and nothing else (R11). -/
theorem State.settlePlant_engine (s : State) :
    s.settlePlant.engine = { s.engine with shown := s.settlePlant.engine.shown } := by
  unfold State.settlePlant State.notePlantState
  split <;> rfl

/-- The end of a line event leaves every block but the line and the engine alone. -/
theorem State.settlePlant_blocks (s : State) :
    s.settlePlant.loader = s.loader ∧ s.settlePlant.peers = s.peers ∧ s.settlePlant.sensors = s.sensors ∧
      s.settlePlant.demand = s.demand ∧ s.settlePlant.share = s.share ∧ s.settlePlant.damper = s.damper ∧
      s.settlePlant.modeSel = s.modeSel ∧ s.settlePlant.capacity = s.capacity ∧
      s.settlePlant.protection = s.protection ∧ s.settlePlant.frost = s.frost ∧ s.settlePlant.pending = s.pending := by
  unfold State.settlePlant State.notePlantState
  split <;> exact ⟨rfl, rfl, rfl, rfl, rfl, rfl, rfl, rfl, rfl, rfl, rfl⟩

/-- A YIELDED station does not wait at the end of a line event (R12, R17). -/
theorem State.settlePlant_yielded {s : State} (h : s.line.yielded = true) : s.settlePlant.line.waiting = none :=
  (LineState.settle_silent (l := s.notePlantState.line)
    (LineState.not_canSend (.inl (s.notePlantState_prompted.yielded.trans h)))).1

theorem deEnergised_ne (v : Valve) : deEnergised v ≠ v := by cases v <;> decide

/-- Settles O29: the comparison of tags, then what YIELDED takes from either role. -/
theorem ownAddressFrameIsAConflict : Obligations.OwnAddressFrameIsAConflict := by
  intro s tag frame hr hp hi ha hx h1 h15 hf
  refine ⟨_, exec_ownFrame hr hp hi ha hx h1 h15 hf, ?_⟩
  obtain ⟨hk, hy⟩ := s.counted.compareTag_keeps tag
  obtain ⟨b1, b2, b3, b4, b5, b6, b7, b8, b9, b10, b11⟩ := (s.counted.compareTag tag).settlePlant_blocks
  have he := (s.counted.compareTag tag).settlePlant_engine
  have hl := (s.counted.compareTag tag).settlePlant_line
  have hcon : (s.counted.compareTag tag).settlePlant.line.conflicts = s.line.conflicts + 1 := by
    rw [hl]; exact hk.conflicts
  have hyl : (s.counted.compareTag tag).settlePlant.line.yielded = (s.counted.compareTag tag).line.yielded := by
    rw [hl]
  refine ⟨hcon, by rw [b2]; exact hk.entries, by rw [hyl]; exact hy, b1.trans hk.loader, b3.trans hk.sensors,
    b11.trans hk.pending, fun hz hn htag => ?_, fun hplant hsound hn htag => ?_⟩
  · have hwait := State.settlePlant_yielded (hy.2 (.inr htag))
    have hc : s.counted.compareTag tag = s.counted.countConflict.enterYielded := if_pos htag
    obtain ⟨z1, z2, z3, z4⟩ := State.enterYielded_zone (s := s.counted.countConflict) hz hn
    rw [b4, b5, hwait, hc, z1]
    exact ⟨rfl, rfl, rfl, z2, z3, rfl, z4⟩
  · have hwait := State.settlePlant_yielded (hy.2 (.inr htag))
    have hc : s.counted.compareTag tag = s.counted.countConflict.enterYielded := if_pos htag
    have hs1 : s.counted.countConflict.PlantSound := hsound.ofZone (by constructor <;> rfl) (.inr rfl)
    obtain ⟨hd, hframe⟩ := State.enterYielded_plant (s := s.counted.countConflict) hplant hn hs1
    rw [hc] at he b1 b7 b8 b9 b10 hwait ⊢
    have hvalve : (s.counted.countConflict.enterYielded).settlePlant.valveEnergised = false := by
      rw [State.valveEnergised, b1, hframe.loader, he]
      exact decide_eq_false (hd.valve ▸ deEnergised_ne _)
    rw [he, b7, b8, b9, b10]
    exact ⟨hd.run, hd.speed, hd.blower, hvalve, hd.running, hd.state, hd.requests, hd.waiting, hd.openRun, hwait,
      (congrArg ModeSelector.mode hframe.modeSel :), hd.index, hd.aborted, hd.closed⟩

end Sys2Proof.Machine
end

