-- ==== Sys2Proof/Proofs/Samples.lean ====
section
/-! PROOFS. What a station samples: the ranges of its own entry, and the pages of its SUMMARY at their offsets (R21, R22,
R192 to R194). -/

namespace Sys2Proof.Machine

/-! ## The own entry lies in its ranges (R20 to R22) -/

/-- What an input reports lies between its bounds (R49, R50). -/
theorem Input.InRange.reported {i : Input} {low high floor : Int} (h : i.InRange low high)
    (hf : low ≤ floor ∧ floor ≤ high) : low ≤ i.reported floor ∧ i.reported floor ≤ high := by
  have hv : low ≤ i.filtered.getD floor ∧ i.filtered.getD floor ≤ high := by
    cases hx : i.filtered with
    | none => exact hf
    | some f => exact h.filtered f hx
  unfold Input.reported
  split
  · exact hf
  all_goals exact hv

/-- The position that a drive reports is an opening (R91). -/
theorem Damper.Sound.reported {d : Damper} (h : d.Sound) : d.reported.orZero ≤ 100 := by
  have hp : ∀ p, d.position = some p → (nearest (p : Int) 12).toNat ≤ 100 := by
    intro p hd
    have := h.position p hd
    unfold nearest
    omega
  unfold Damper.reported
  split
  next hd => exact hp _ hd
  next hd => exact hp _ hd
  next hd => exact hp _ hd
  next => exact Nat.zero_le _

/-- A sound zone's own record lies in the ranges of its payload (R21, R49). -/
theorem State.ZoneSound.ownZone {s : State} (h : s.ZoneSound) (hr : s.RangesSound) : s.ownZone.InRange where
  ds := h.demand.ds
  dl := h.demand.dl
  weight := (State.zp_inRange h.loader).weight
  tier := h.share.tier
  base := (Nat.le_add_right _ _).trans h.share.sum
  relief := (Nat.le_add_left _ _).trans h.share.sum
  position := h.damper.reported
  roomTemp := hr.sensors.roomTemp.reported (by decide)
  roomRh := by
    have := hr.sensors.roomRh.reported (floor := 0) (by decide)
    show (s.sensors.roomRh.reported 0).toNat ≤ 1000
    omega
  target := hr.sensors.target

/-- The speed command of a sound plant is at most 1000 (R118). -/
theorem State.PlantSound.speed_le {s : State} (h : s.PlantSound) : s.capacity.speedCommand ≤ 1000 := by
  cases hrun : s.engine.run with
  | false => rw [(h.off hrun).1]; exact Nat.zero_le _
  | true => exact (h.on hrun).2

/-- A sound plant's own record lies in the ranges of its payload (R22, R50). -/
theorem State.PlantSound.ownPlant {s : State} (h : s.PlantSound) (hr : s.RangesSound) : s.ownPlant.InRange where
  f := by
    show (if _ then 0 else _) ≤ _
    split
    · exact Nat.zero_le _
    · exact hr.capacity.opening.2.1
  capacity := by
    show (if _ then 0 else _) ≤ _
    split
    · exact Nat.zero_le _
    · exact h.speed_le
  blower := by
    show (if _ then 0 else _) ≤ _
    split
    · exact Nat.zero_le _
    · exact hr.capacity.blower.2.2
  supplyAir := hr.sensors.supplyAir.reported (by decide)
  outdoorAir := hr.sensors.outdoorAir.reported (by decide)

/-! ## The codes of the SUMMARY pages (section 12.4) -/

theorem inputOfCode_code (i : InputState) : inputOfCode i.code = some i := by cases i <;> rfl

theorem InputState.code_le (i : InputState) : i.code ≤ 3 := by cases i <;> decide

theorem HeadLink.list_code (h : HeadLink) : [HeadLink.waiting, .present, .missing][h.code]? = some h := by
  cases h <;> rfl

theorem HeadLink.code_le (h : HeadLink) : h.code ≤ 2 := by cases h <;> decide

theorem LoadResult.list_code (r : LoadResult) :
    [LoadResult.none, .loaded, .loadedClamped, .noMemory, .noAck, .badVersion, .badLength, .badCrc][r.code]? =
      some r := by
  cases r <;> rfl

theorem LoadResult.code_le (r : LoadResult) : r.code ≤ 7 := by cases r <;> decide

theorem DriveState.list_code (d : DriveState) :
    [DriveState.unhomed, .homing, .holding, .moving, .waitingBudget, .faulted][d.code]? = some d := by
  cases d <;> rfl

theorem DriveState.code_le (d : DriveState) : d.code ≤ 5 := by cases d <;> decide

theorem StopCause.ofCode_code (c : StopCause) : causeOfCode c.code = some (some c) := by cases c <;> rfl

theorem StopCause.code_le (c : StopCause) : c.code ≤ 10 := by cases c <;> decide

theorem procCode_hasCode (p : Option Proc) : Proc.hasCode p (procCode p) := by
  match p with
  | none => rfl
  | some (.emergency c) => exact ⟨c, rfl⟩
  | some (.stop r) => exact ⟨r, rfl⟩
  | some .defrost | some .changeover | some .start => rfl

theorem procCode_le (p : Option Proc) : procCode p ≤ 5 := by
  unfold procCode; split <;> decide

theorem procCauseCode_carries (p : Option Proc) :
    causeOfCode (procCauseCode p) = some (p.bind Proc.carries) := by
  match p with
  | some (.emergency c) => exact StopCause.ofCode_code _
  | some (.stop r) => exact StopCause.ofCode_code _
  | none | some .defrost | some .changeover | some .start => rfl

theorem procCauseCode_le (p : Option Proc) : procCauseCode p ≤ 10 := by
  unfold procCauseCode
  split
  · exact StopCause.code_le _
  · exact StopCause.code_le _
  all_goals exact Nat.zero_le _

theorem stepCode_list (st : Option StepId) :
    [none, some StepId.s1, some .s2, some .s3, some .s4, some .t1, some .t2, some .t3, some .x1, some .x2,
      some .x3, some .d1, some .d2, some .d3, some .d4, some .d5, some .d6, some .d7, some .d8, some .d9,
      some .d10, some .e1, some .e2][stepCode st]? = some st := by
  cases st with
  | none => rfl
  | some st => cases st <;> rfl

theorem stepCode_le (st : Option StepId) : stepCode st ≤ 22 := by
  cases st with
  | none => decide
  | some st => cases st <;> decide

theorem ProcOutcome.list_code (o : ProcOutcome) :
    [ProcOutcome.none, .inProgress, .done, .preempted, .aborted, .withdrawn][o.code]? = some o := by
  cases o <;> rfl

theorem ProcOutcome.code_le (o : ProcOutcome) : o.code ≤ 5 := by cases o <;> decide

theorem EngineState.list_code (e : EngineState) :
    [EngineState.idle, .waiting, .running][e.code]? = some e := by
  cases e <;> rfl

theorem EngineState.code_le (e : EngineState) : e.code ≤ 2 := by cases e <;> decide

/-! ## Octets that carry a code and flags -/

theorem flagBit_true (i : Nat) : flagBit true i = 2 ^ i := rfl

theorem flagBit_false (i : Nat) : flagBit false i = 0 := rfl

/-- A bit of an octet is set where the binary digit says so. -/
theorem octet_getLsbD_eq {n i : Nat} {b : Bool} (hi : i < 8) (h : n / 2 ^ i % 2 = 1 ↔ b = true) :
    (octet n).getLsbD i = b := by
  rw [octet_getLsbD n hi]
  cases b <;> simpa using h

/-- A code below 128 and a flag in bit 7 come back (section 12.4). -/
theorem octet_flag7 {n : Nat} (hn : n < 128) (b : Bool) :
    (octet (n + flagBit b 7)).toNat % 128 = n ∧ (octet (n + flagBit b 7)).getLsbD 7 = b := by
  rw [octet_toNat]
  refine ⟨?_, octet_getLsbD_eq (by decide) ?_⟩ <;> cases b <;> simp only [flagBit_true, flagBit_false] <;> simp <;>
    omega

/-- A code below 64 and the flags in bits 6 and 7 come back (section 12.4). -/
theorem octet_flags67 {n : Nat} (hn : n < 64) (a b : Bool) :
    (octet (n + flagBit a 6 + flagBit b 7)).toNat % 64 = n ∧
      (octet (n + flagBit a 6 + flagBit b 7)).getLsbD 6 = a ∧
      (octet (n + flagBit a 6 + flagBit b 7)).getLsbD 7 = b := by
  rw [octet_toNat]
  refine ⟨?_, octet_getLsbD_eq (by decide) ?_, octet_getLsbD_eq (by decide) ?_⟩ <;> cases a <;> cases b <;>
    simp only [flagBit_true, flagBit_false] <;> simp <;> omega

/-- A code below 16 and the flags in bits 4 and 5 come back (R194). -/
theorem octet_flags45 {n : Nat} (hn : n < 16) (a b : Bool) :
    (octet (n + flagBit a 4 + flagBit b 5)).toNat % 16 = n ∧
      (octet (n + flagBit a 4 + flagBit b 5)).getLsbD 4 = a ∧
      (octet (n + flagBit a 4 + flagBit b 5)).getLsbD 5 = b := by
  rw [octet_toNat]
  refine ⟨?_, octet_getLsbD_eq (by decide) ?_, octet_getLsbD_eq (by decide) ?_⟩ <;> cases a <;> cases b <;>
    simp only [flagBit_true, flagBit_false] <;> simp <;> omega

/-- The load result octet carries the result and the two flags (section 12.4). -/
theorem Loader.resultOctet_resultAt {l : Loader} {p : List Byte} {i : Nat} (h : p[i]? = some l.resultOctet) :
    l.ResultAt p i := by
  have hp : p.getD i 0 = l.resultOctet := by rw [List.getD_eq_getElem?_getD, h]; rfl
  have hle := l.result.code_le
  obtain ⟨h64, h6, h7⟩ := octet_flags67 (show l.result.code < 64 by omega) l.defaulted l.clamped
  have h8 : octetAt p i % 8 = l.result.code := by
    have h64' : l.resultOctet.toNat % 64 = l.result.code := h64
    rw [octetAt, hp]
    omega
  refine ⟨by rw [h8]; exact l.result.list_code, ?_, ?_⟩ <;> rw [flagAt, hp]
  · exact h6
  · exact h7

/-! ## The pages of a zone's SUMMARY (R193) -/

theorem counter_put (c : Counter) : c.toNat / 256 % 256 * 256 + c.toNat % 256 = c.toNat := get16_put16 c.isLt

theorem State.zoneSummary0_eq (s : State) :
    s.zoneSummary0 =
      [octet 0, octet (s.line.good.toNat / 256), octet s.line.good.toNat, octet (s.line.crcDiscards.toNat / 256),
        octet s.line.crcDiscards.toNat, octet (s.line.malformed.toNat / 256), octet s.line.malformed.toNat,
        octet (s.line.collisions.toNat / 256), octet s.line.collisions.toNat, octet (s.line.dropped.toNat / 256),
        octet s.line.dropped.toNat, octet (s.peers.lateEvents.toNat / 256), octet s.peers.lateEvents.toNat,
        octet (s.peers.peersLost.toNat / 256), octet s.peers.peersLost.toNat, octet s.line.tokens] := rfl

theorem State.zoneSummary1_eq (s : State) :
    s.zoneSummary1 =
      [octet 1, octet (s.line.conflicts.toNat / 256), octet s.line.conflicts.toNat,
        octet (s.damper.rehomes.toNat / 256), octet s.damper.rehomes.toNat,
        octet (s.sensors.faultEntries.toNat / 256), octet s.sensors.faultEntries.toNat,
        octet (s.sensors.roomTemp.state.code + 4 * s.sensors.roomRh.state.code + 16 * s.sensors.link.code),
        octet (s.damper.state.code + flagBit s.demand.errorClamped 7), s.loader.resultOctet,
        octet (s.peers.followed.getD 0), octet (s.damper.positionField / 256), octet s.damper.positionField,
        octet (s.demand.integral.toNat / 65536), octet (s.demand.integral.toNat / 256),
        octet s.demand.integral.toNat] := rfl

/-- The followed plant's address fits its octet, 0 for none (R193). -/
theorem followed_octet {f : Option Nat} (h : ∀ a, f = some a → 1 ≤ a ∧ a ≤ 15) : f.getD 0 % 256 = f.getD 0 := by
  cases f with
  | none => rfl
  | some a =>
    have := h a rfl
    exact Nat.mod_eq_of_lt (by simp only [Option.getD_some]; omega)

/-- A drive's position comes back from its field, 65 535 for none (R193). -/
theorem Damper.Sound.positionField {d : Damper} (h : d.Sound) :
    d.positionField < 65536 ∧
      d.position = if d.positionField = 65535 then none else some d.positionField := by
  unfold Damper.positionField
  cases hp : d.position with
  | none => exact ⟨by decide, rfl⟩
  | some p =>
    have := h.position p hp
    exact ⟨by simp only [Option.getD_some]; omega, (if_neg (by simp only [Option.getD_some]; omega)).symm⟩

/-- Page 0 of a zone's SUMMARY at its offsets. -/
theorem State.zoneSummary0_page {s : State} (hp : s.line.pageOne = false) (hl : s.line.Sound) :
    ZoneSummaryPage s s.zoneSummary0 := by
  have ht := hl.tokens
  rw [State.zoneSummary0_eq]
  exact
    { length := rfl
      page := by simp [hp]
      first := fun _ => by simp [get16, counter_put]; omega
      second := fun h => by rw [hp] at h; cases h }

/-- Page 1 of a zone's SUMMARY at its offsets. -/
theorem State.zoneSummary1_page {s : State} (hp : s.line.pageOne = true) (hd : s.demand.Sound) (hm : s.damper.Sound)
    (hf : ∀ a, s.peers.followed = some a → 1 ≤ a ∧ a ≤ 15) : ZoneSummaryPage s s.zoneSummary1 := by
  have ha := s.sensors.roomTemp.state.code_le
  have hb := s.sensors.roomRh.state.code_le
  have hc := s.sensors.link.code_le
  have hs := s.damper.state.code_le
  have hi := hd.integral
  obtain ⟨hpos, hpos'⟩ := hm.positionField
  obtain ⟨h128, h7⟩ := octet_flag7 (show s.damper.state.code < 128 by omega) s.demand.errorClamped
  have hstates : (s.sensors.roomTemp.state.code + 4 * s.sensors.roomRh.state.code + 16 * s.sensors.link.code) % 256
        % 4 = s.sensors.roomTemp.state.code ∧
      (s.sensors.roomTemp.state.code + 4 * s.sensors.roomRh.state.code + 16 * s.sensors.link.code) % 256 / 4 % 4 =
        s.sensors.roomRh.state.code ∧
      (s.sensors.roomTemp.state.code + 4 * s.sensors.roomRh.state.code + 16 * s.sensors.link.code) % 256 / 16 % 4 =
        s.sensors.link.code := by omega
  have hdrive : (octet (s.damper.state.code + flagBit s.demand.errorClamped 7)).toNat % 8 = s.damper.state.code := by
    omega
  rw [State.zoneSummary1_eq]
  exact
    { length := rfl
      page := by simp [hp]
      first := fun h => by rw [hp] at h; cases h
      second := fun _ => by
        refine ⟨counter_put _, counter_put _, counter_put _, ?_, ?_, ?_, ?_, h7, Loader.resultOctet_resultAt rfl,
          followed_octet hf, ?_, ?_⟩ <;> simp only [get16, get24, octetAt_cons_succ, octetAt_cons_zero, octet_toNat]
        · rw [hstates.1, inputOfCode_code]
        · rw [hstates.2.1, inputOfCode_code]
        · rw [hstates.2.2, HeadLink.list_code]
        · rw [← octet_toNat, hdrive, DriveState.list_code]
        · rw [get16_put16 hpos]; exact hpos'
        · rw [get24_put24 (by omega)]; omega }

/-! ## The pages of a plant's SUMMARY (R194) -/

theorem State.plantSummary0_eq (s : State) :
    s.plantSummary0 =
      [octet 0, octet (s.line.good.toNat / 256), octet s.line.good.toNat, octet (s.line.crcDiscards.toNat / 256),
        octet s.line.crcDiscards.toNat, octet (s.line.malformed.toNat / 256), octet s.line.malformed.toNat,
        octet (s.line.collisions.toNat / 256), octet s.line.collisions.toNat, octet (s.line.dropped.toNat / 256),
        octet s.line.dropped.toNat, octet (s.peers.lateEvents.toNat / 256), octet s.peers.lateEvents.toNat,
        octet (s.peers.peersLost.toNat / 256), octet s.peers.peersLost.toNat, octet (s.line.conflicts.toNat / 256),
        octet s.line.conflicts.toNat, octet s.line.tokens, s.loader.resultOctet,
        octet (s.sensors.supplyAir.state.code + 4 * s.sensors.indoorCoil.state.code +
          16 * s.sensors.outdoorAir.state.code + 64 * s.sensors.outdoorCoil.state.code),
        octet (s.sensors.staticPressure.state.code + 4 * s.sensors.link.code +
          flagBit s.sensors.inverter.asserted 4 + flagBit s.sensors.condensate.asserted 5),
        octet (s.frost.index / 256), octet s.frost.index, octet (s.frost.normal.toNat / 256),
        octet s.frost.normal.toNat, octet (s.frost.limited.toNat / 256), octet s.frost.limited.toNat,
        octet (s.protection.lockouts.toNat / 256), octet s.protection.lockouts.toNat,
        octet s.protection.budget] := rfl

theorem State.plantSummary1_eq (s : State) :
    s.plantSummary1 =
      octet 1 :: octet (s.engine.stepsLoaded.toNat / 256) :: octet s.engine.stepsLoaded.toNat ::
        octet (s.engine.marks.toNat / 256) :: octet s.engine.marks.toNat :: octet (s.engine.done.toNat / 256) ::
        octet s.engine.done.toNat :: octet (s.engine.preempted.toNat / 256) :: octet s.engine.preempted.toNat ::
        octet (s.engine.aborted.toNat / 256) :: octet s.engine.aborted.toNat ::
        octet (s.engine.withdrawn.toNat / 256) :: octet s.engine.withdrawn.toNat ::
        octet (s.engine.refused.toNat / 256) :: octet s.engine.refused.toNat :: octet (procCode s.engine.status.proc) ::
        octet (procCauseCode s.engine.status.proc) :: octet (stepCode s.engine.status.step) ::
        octet (s.engine.status.outcome.code + flagBit s.engine.status.limited 7) :: octet s.engine.state.code ::
        octet (s.engine.emergencyHold / 256) :: octet s.engine.emergencyHold ::
        octet (s.protection.lockout.getD 0 / 256) :: octet (s.protection.lockout.getD 0) ::
        octet (s.protection.history.length + flagBit s.protection.doubling 7) ::
        newestOctets s.protection.history := rfl

/-- Page 0 of a plant's SUMMARY at its offsets. -/
theorem State.plantSummary0_page {s : State} (hp : s.line.pageOne = false) (hl : s.line.Sound)
    (hr : s.RecordSound) : PlantSummaryPage s s.plantSummary0 := by
  have ht := hl.tokens
  have hb := hr.protection.budget
  have hi := hr.frost.index
  have h1 := s.sensors.supplyAir.state.code_le
  have h2 := s.sensors.indoorCoil.state.code_le
  have h3 := s.sensors.outdoorAir.state.code_le
  have h4 := s.sensors.outdoorCoil.state.code_le
  have h5 := s.sensors.staticPressure.state.code_le
  have h6 := s.sensors.link.code_le
  obtain ⟨h16, hf4, hf5⟩ := octet_flags45
    (show s.sensors.staticPressure.state.code + 4 * s.sensors.link.code < 16 by omega)
    s.sensors.inverter.asserted s.sensors.condensate.asserted
  rw [octet_toNat] at h16
  rw [State.plantSummary0_eq]
  exact
    { length := rfl
      page := by simp [hp]
      first := fun _ => by
        refine ⟨counter_put _, counter_put _, counter_put _, counter_put _, counter_put _, counter_put _,
          counter_put _, counter_put _, Nat.mod_eq_of_lt (by omega), Loader.resultOctet_resultAt rfl,
          ?_, ?_, ?_, ?_, ?_, ?_, hf4, hf5, get16_put16 (by omega), counter_put _, counter_put _, counter_put _,
          Nat.mod_eq_of_lt (by omega)⟩ <;> simp only [octetAt_cons_succ, octetAt_cons_zero, octet_toNat]
        · rw [← inputOfCode_code]; congr 1; omega
        · rw [← inputOfCode_code]; congr 1; omega
        · rw [← inputOfCode_code]; congr 1; omega
        · rw [← inputOfCode_code]; congr 1; omega
        · rw [← inputOfCode_code]; congr 1; omega
        · rw [← HeadLink.list_code]; congr 1; omega
      second := fun h => by rw [hp] at h; cases h }

/-- The newest record's octets of page 1 (R194). -/
theorem newestOctets_length (history : List RunRecord) : (newestOctets history).length = 5 := by
  unfold newestOctets
  split <;> rfl

/-- Page 1 of a plant's SUMMARY at its offsets. -/
theorem State.plantSummary1_page {s : State} (hp : s.line.pageOne = true) (hr : s.RecordSound) :
    PlantSummaryPage s s.plantSummary1 := by
  have h1 := procCode_le s.engine.status.proc
  have h2 := procCauseCode_le s.engine.status.proc
  have h3 := stepCode_le s.engine.status.step
  have h4 := s.engine.status.outcome.code_le
  have h5 := s.engine.state.code_le
  have hh := hr.hold.1
  have hlen := hr.protection.history
  have hlock : s.protection.lockout.getD 0 < 65536 := by
    cases hl : s.protection.lockout with
    | none => decide
    | some n => have := hr.protection.lockout n hl; simp only [Option.getD_some]; omega
  obtain ⟨ho, hlim⟩ := octet_flag7 (show s.engine.status.outcome.code < 128 by omega) s.engine.status.limited
  obtain ⟨hn, hdoub⟩ := octet_flag7 (show s.protection.history.length < 128 by omega) s.protection.doubling
  rw [octet_toNat] at ho hn
  rw [State.plantSummary1_eq]
  refine
    { length := by simp [newestOctets_length]
      page := by simp [hp]
      first := fun h => by rw [hp] at h; cases h
      second := fun _ => ?_ }
  refine ⟨counter_put _, counter_put _, counter_put _, counter_put _, counter_put _, counter_put _, counter_put _,
    ?_, ?_, ?_, ?_, hlim, ?_, get16_put16 (by omega), get16_put16 hlock, ?_, hdoub, fun he => ?_, fun r hlast => ?_⟩ <;>
    simp only [octetAt_cons_succ, octetAt_cons_zero, octet_toNat, get16, get24, get32, flagAt_cons_succ]
  · rw [Nat.mod_eq_of_lt (by omega)]; exact procCode_hasCode _
  · rw [Nat.mod_eq_of_lt (by omega), procCauseCode_carries]
  · rw [Nat.mod_eq_of_lt (by omega), stepCode_list]
  · rw [← ProcOutcome.list_code]; congr 1; omega
  · rw [← EngineState.list_code]; congr 1; omega
  · omega
  · rw [he]; exact ⟨rfl, rfl⟩
  · have hrec := hr.protection.records r (List.mem_of_getLast? hlast)
    have hc := r.cause.code_le
    obtain ⟨hcode, hshort⟩ := octet_flag7 (show r.cause.code < 128 by omega) r.short
    have hnew : newestOctets s.protection.history =
        [octet (r.startAge / 256), octet r.startAge, octet (r.duration / 256), octet r.duration,
          octet (r.cause.code + flagBit r.short 7)] := by
      unfold newestOctets; rw [hlast]; rfl
    have hs := hrec.startAge
    have hdur := hrec.duration
    rw [hnew]
    refine ⟨get16_put16 (by omega), get16_put16 (by omega), ?_, hshort⟩
    rw [← StopCause.ofCode_code]
    exact congrArg causeOfCode hcode

/-! ## The frames (R3, R14) -/

/-- The SUMMARY payload of a zone is the page that its index names (R192, R193). -/
theorem State.zoneSummary_page {s : State} (hz : s.loader.straps.role = .zone) (hl : s.line.Sound)
    (hd : s.demand.Sound) (hm : s.damper.Sound) (hf : ∀ a, s.peers.followed = some a → 1 ≤ a ∧ a ≤ 15) :
    ZoneSummaryPage s s.summaryPayload := by
  cases hp : s.line.pageOne with
  | false => simp only [State.summaryPayload, hz, hp]; exact State.zoneSummary0_page hp hl
  | true => simp only [State.summaryPayload, hz, hp]; exact State.zoneSummary1_page hp hd hm hf

/-- The SUMMARY payload of a plant is the page that its index names (R192, R194). -/
theorem State.plantSummary_page {s : State} (hr : s.loader.straps.role = .plant) (hl : s.line.Sound)
    (hrec : s.RecordSound) : PlantSummaryPage s s.summaryPayload := by
  cases hp : s.line.pageOne with
  | false => simp only [State.summaryPayload, hr, hp]; exact State.plantSummary0_page hp hl hrec
  | true => simp only [State.summaryPayload, hr, hp]; exact State.plantSummary1_page hp hrec

/-- Settles O22: the own entries by their blocks' soundness, and each payload by its page at its offsets. -/
theorem sentFramesHaveTheirLayout : Obligations.SentFramesHaveTheirLayout := by
  refine ⟨fun s hr => ⟨fun h => h.ownZone hr, fun h => h.ownPlant hr⟩,
    fun s k => ⟨s.samplePayload k, ?_, ?_⟩⟩
  · have hlen := s.summaryPayload_length
    unfold State.samplePayload
    cases k <;> cases hrole : s.loader.straps.role <;> rw [hrole] at hlen
    · exact ⟨rfl, fun h => encodeZone_payload _ h⟩
    · exact ⟨rfl, fun h => encodePlant_payload _ h⟩
    · exact ⟨hlen, fun hl hd hm hf => State.zoneSummary_page hrole hl hd hm hf⟩
    · exact ⟨hlen, fun hl hrec => State.plantSummary_page hrole hl hrec⟩
  · rw [State.sampleFrame_eq]
    cases k <;> cases s.loader.straps.role <;> rfl

end Sys2Proof.Machine
end

