-- ==== Sys2Proof/Proofs/ZoneExpiries.lean ====
section
/-! PROOFS. A zone's sensor timer expiry, input by input (R36, R43 to R49), and what a demand timer expiry hands to the
Airflow Share Unit (R57, R71). -/

namespace Sys2Proof.Machine

/-! ## What a reading does to an input (R45 to R47) -/

theorem Input.good_takesGood (i : Input) (d : Nat) (raw : Int) : i.TakesGood (i.good d raw) d raw := by
  unfold Input.good
  constructor
  · intro h; rw [h]; exact ⟨rfl, rfl, rfl⟩
  · rintro f (h | h) hf <;> rw [h, hf] <;> exact ⟨rfl, rfl, rfl⟩
  · intro h hr
    rw [h]; dsimp only
    rw [if_neg (by omega)]
    exact ⟨rfl, rfl, rfl⟩
  · intro h hr
    rw [h]; dsimp only
    rw [if_pos (by omega)]
    exact ⟨rfl, rfl, rfl, rfl⟩

theorem Input.count_eq (i : Input) (n : Nat) (next : InputState) :
    (i.count n next).filtered = i.filtered ∧ (i.count n next).hold = n ∧
      (i.count n next).state = (if 30 ≤ n then .faulted else next) ∧ (30 ≤ n → (i.count n next).recovery = 0) := by
  unfold Input.count
  split
  next h => exact ⟨rfl, rfl, rfl, fun _ => rfl⟩
  next h => exact ⟨rfl, rfl, rfl, fun hn => absurd hn h⟩

theorem Input.bad_takesBad (i : Input) : i.TakesBad i.bad := by
  unfold Input.bad
  cases h : i.state
  case unseeded =>
    obtain ⟨h1, h2, h3, h4⟩ := i.count_eq (i.hold + 1) .unseeded
    exact ⟨h1, by simp [h], fun _ => ⟨h2, by rw [h]; exact h3, h4⟩, by simp [h]⟩
  case tracking =>
    obtain ⟨h1, h2, h3, _⟩ := i.count_eq 1 .holding
    exact ⟨h1, fun _ => ⟨h3, h2⟩, by simp [h], by simp [h]⟩
  case holding =>
    obtain ⟨h1, h2, h3, h4⟩ := i.count_eq (i.hold + 1) .holding
    exact ⟨h1, by simp [h], fun _ => ⟨h2, by rw [h]; exact h3, h4⟩, by simp [h]⟩
  case faulted => exact ⟨rfl, by simp [h], by simp [h], fun _ => ⟨rfl, rfl, rfl⟩⟩

/-- A reading leaves an input's raw value and the previous one as they are. -/
theorem Input.take_raw (i : Input) (d : Nat) (r : Reading) (raw : Int) : (i.take d r raw).raw = i.raw := by
  unfold Input.take Input.good Input.bad Input.count
  (repeat' split) <;> rfl

/-- The previous raw value takes no part in what a bad reading does. -/
theorem Input.TakesBad.withPrevious {i j : Input} (h : i.TakesBad j) (p : Option Int) :
    i.TakesBad { j with previous := p } := { h with }

/-- Nor in what a good reading does. -/
theorem Input.TakesGood.withPrevious {i j : Input} {d : Nat} {raw : Int} (h : i.TakesGood j d raw) (p : Option Int) :
    i.TakesGood { j with previous := p } d raw := { h with }

/-! ## The classes of a reading (R43) -/

theorem classifyRange_in {low high raw : Int} (h : low ≤ raw ∧ raw ≤ high) : classifyRange low high raw = .good :=
  if_pos h

theorem classifyRange_out {low high raw : Int} (h : raw < low ∨ high < raw) :
    classifyRange low high raw = .invalid := if_neg (by omega)

theorem classifyRoom_out (previous : Option Int) {raw : Int} (h : raw < -2000 ∨ 6000 < raw) :
    classifyRoom previous raw = .invalid := by
  unfold classifyRoom
  rw [classifyRange_out h]

theorem classifyRoom_near {previous : Option Int} {raw : Int} (h : -2000 ≤ raw ∧ raw ≤ 6000)
    (hp : ∀ p, previous = some p → -300 ≤ raw - p ∧ raw - p ≤ 300) : classifyRoom previous raw = .good := by
  unfold classifyRoom
  rw [classifyRange_in h]
  cases previous with
  | none => rfl
  | some p =>
    have := hp p rfl
    exact if_neg (by omega)

theorem classifyRoom_far {previous : Option Int} {raw p : Int} (h : -2000 ≤ raw ∧ raw ≤ 6000)
    (hp : previous = some p) (hf : raw - p < -300 ∨ 300 < raw - p) : classifyRoom previous raw = .rejected := by
  unfold classifyRoom
  rw [classifyRange_in h, hp]
  exact if_pos (by omega)

theorem classifyHead_arrived {x : HeadLink} (h : x ≠ .missing) (r : Reading) : classifyHead x true r = r := by
  cases x
  · rfl
  · rfl
  · exact absurd rfl h

theorem classifyHead_waiting {x : HeadLink} (h : x ≠ .missing) (r : Reading) : classifyHead x false r = .none := by
  cases x
  · rfl
  · rfl
  · exact absurd rfl h

/-! ## The zone's two inputs at an expiry -/

/-- The room temperature after a reading of a class (R43, R45 to R47). -/
theorem Sensors.roomTempNext_of {x : Sensors} {raw : Int} {r : Reading} (hraw : x.roomTemp.raw.getD 0 = raw)
    (hc : classifyHead x.link x.arrived (classifyRoom x.roomTemp.previous raw) = r) :
    x.roomTempNext =
      { x.roomTemp.take 4 r raw with previous := previousAfter r x.roomTemp.previous x.roomTemp.raw } := by
  unfold Sensors.roomTempNext
  simp only [hraw, hc]

/-- The RH after a reading of a class (R43, R45 to R47). -/
theorem Sensors.roomRhNext_of {x : Sensors} {raw : Int} {r : Reading} (hraw : x.roomRh.raw.getD 0 = raw)
    (hc : classifyHead x.link x.arrived (classifyRange 0 1000 raw) = r) :
    x.roomRhNext = x.roomRh.take 4 r raw := by
  unfold Sensors.roomRhNext
  simp only [hraw, hc]

/-- With no arrival since the last expiry both inputs stand (R43). -/
theorem Sensors.zoneExpiry_waiting {x : Sensors} (hl : x.link ≠ .missing) (ha : x.arrived = false) :
    x.roomTempNext = x.roomTemp ∧ x.roomRhNext = x.roomRh :=
  ⟨Sensors.roomTempNext_of rfl (ha ▸ classifyHead_waiting hl _), Sensors.roomRhNext_of rfl (ha ▸ classifyHead_waiting hl _)⟩

/-- On a MISSING link both inputs take a bad reading (R43, R46). -/
theorem Sensors.zoneExpiry_missing {x : Sensors} (hl : x.link = .missing) :
    x.roomTemp.TakesBad x.roomTempNext ∧ x.roomTempNext.previous = none ∧ x.roomRh.TakesBad x.roomRhNext := by
  have hc (b : Bool) (r : Reading) : classifyHead x.link b r = .missing := by rw [hl]; rfl
  rw [Sensors.roomTempNext_of rfl (hc _ _), Sensors.roomRhNext_of rfl (hc _ _)]
  exact ⟨x.roomTemp.bad_takesBad.withPrevious _, rfl, x.roomRh.bad_takesBad⟩

/-- A new room temperature by its range and its step (R43, R45 to R47). -/
theorem Sensors.roomTempNext_arrived {x : Sensors} (hl : x.link ≠ .missing) (ha : x.arrived = true) {raw : Int}
    (hraw : x.roomTemp.raw = some raw) :
    (raw < -2000 ∨ 6000 < raw → x.roomTemp.TakesBad x.roomTempNext ∧ x.roomTempNext.previous = none) ∧
    (-2000 ≤ raw → raw ≤ 6000 → x.roomTempNext.previous = some raw ∧
      ((∀ p, x.roomTemp.previous = some p → -300 ≤ raw - p ∧ raw - p ≤ 300) →
        x.roomTemp.TakesGood x.roomTempNext 4 raw) ∧
      (∀ p, x.roomTemp.previous = some p → raw - p < -300 ∨ 300 < raw - p →
        x.roomTemp.TakesBad x.roomTempNext)) := by
  have hg : x.roomTemp.raw.getD 0 = raw := by rw [hraw]; rfl
  have hnext {r : Reading} (h : classifyRoom x.roomTemp.previous raw = r) :
      x.roomTempNext =
        { x.roomTemp.take 4 r raw with previous := previousAfter r x.roomTemp.previous x.roomTemp.raw } :=
    Sensors.roomTempNext_of hg (by rw [ha, classifyHead_arrived hl, h])
  have hgood (h1 : -2000 ≤ raw) (h2 : raw ≤ 6000)
      (hp : ∀ p, x.roomTemp.previous = some p → -300 ≤ raw - p ∧ raw - p ≤ 300) :
      x.roomTempNext.previous = some raw ∧ x.roomTemp.TakesGood x.roomTempNext 4 raw := by
    rw [hnext (classifyRoom_near ⟨h1, h2⟩ hp)]
    exact ⟨hraw, (x.roomTemp.good_takesGood 4 raw).withPrevious _⟩
  have hfar (h1 : -2000 ≤ raw) (h2 : raw ≤ 6000) (p : Int) (hp : x.roomTemp.previous = some p)
      (hf : raw - p < -300 ∨ 300 < raw - p) :
      x.roomTempNext.previous = some raw ∧ x.roomTemp.TakesBad x.roomTempNext := by
    rw [hnext (classifyRoom_far ⟨h1, h2⟩ hp hf)]
    exact ⟨hraw, x.roomTemp.bad_takesBad.withPrevious _⟩
  refine ⟨fun h => ?_, fun h1 h2 => ⟨?_, fun hp => (hgood h1 h2 hp).2, fun p hp hf => (hfar h1 h2 p hp hf).2⟩⟩
  · rw [hnext (classifyRoom_out _ h)]
    exact ⟨x.roomTemp.bad_takesBad.withPrevious _, rfl⟩
  · cases hp : x.roomTemp.previous with
    | none => exact (hgood h1 h2 (by simp [hp])).1
    | some p =>
      by_cases hn : -300 ≤ raw - p ∧ raw - p ≤ 300
      · refine (hgood h1 h2 fun q hq => ?_).1
        obtain rfl : p = q := Option.some.inj (hp.symm.trans hq)
        exact hn
      · exact (hfar h1 h2 p hp (by omega)).1

/-- A new RH by its range alone (R43, R45 to R47). -/
theorem Sensors.roomRhNext_arrived {x : Sensors} (hl : x.link ≠ .missing) (ha : x.arrived = true) {raw : Int}
    (hraw : x.roomRh.raw = some raw) :
    (0 ≤ raw → raw ≤ 1000 → x.roomRh.TakesGood x.roomRhNext 4 raw) ∧
      (raw < 0 ∨ 1000 < raw → x.roomRh.TakesBad x.roomRhNext) := by
  have hg : x.roomRh.raw.getD 0 = raw := by rw [hraw]; rfl
  have hnext {r : Reading} (h : classifyRange 0 1000 raw = r) : x.roomRhNext = x.roomRh.take 4 r raw :=
    Sensors.roomRhNext_of hg (by rw [ha, classifyHead_arrived hl, h])
  refine ⟨fun h1 h2 => ?_, fun h => ?_⟩
  · rw [hnext (classifyRange_in ⟨h1, h2⟩)]; exact x.roomRh.good_takesGood 4 raw
  · rw [hnext (classifyRange_out h)]; exact x.roomRh.bad_takesBad

/-! ## The fault entries and the report (R10, R46, R49) -/

theorem faultEntered_iff (old new : Input) :
    faultEntered old new = true ↔ new.state = .faulted ∧ old.state ≠ .faulted := by
  simp [faultEntered, and_comm]

/-- The line after a zone's expiry: a fault entry raises the main report (R10). -/
theorem State.zoneSensors_eq (s : State) :
    s.zoneSensors = (s.setSensors s.sensors.zoneExpiry).setLine s.zoneSensors.line ∧
      (faultEntered s.sensors.roomTemp s.sensors.roomTempNext = true ∨
        faultEntered s.sensors.roomRh s.sensors.roomRhNext = true → s.zoneSensors.line.main.pending = true) := by
  unfold State.zoneSensors
  dsimp only
  split
  next => exact ⟨rfl, fun _ => rfl⟩
  next h => exact ⟨rfl, fun hf => absurd (Bool.or_eq_true_iff.2 hf) h⟩

/-- Settles O34: the expiry is its two inputs' readings, the fault entries they make, and the report. -/
theorem zoneInputsAtAnExpiry : Obligations.ZoneInputsAtAnExpiry := by
  intro s pins first hz
  obtain ⟨hr, hrole⟩ : s.ready = true ∧ s.loader.straps.role = .zone := by
    simpa [State.zoneReady] using hz
  obtain ⟨heq, hpend⟩ := s.zoneSensors_eq
  have hsens : s.zoneSensors.sensors = s.sensors.zoneExpiry := by rw [heq]; rfl
  have hset : s.zoneSensors.settle.sensors = s.sensors.zoneExpiry := hsens
  refine ⟨s.zoneSensors.settle, by simp [exec, execSensorTimer, hr, hrole], ?_⟩
  rw [hset]
  refine ⟨Sensors.zoneExpiry_waiting, Sensors.zoneExpiry_missing,
    fun hl ha => ⟨fun raw hraw => Sensors.roomTempNext_arrived hl ha hraw,
      fun raw hraw => Sensors.roomRhNext_arrived hl ha hraw⟩, ?_, fun hne => ?_, rfl, ?_, ?_, ?_⟩
  · simp only [← faultEntered_iff]; rfl
  · refine (congrArg KindState.pending (LineState.settle_kind s.zoneSensors.ready _ .main)).trans (hpend ?_)
    by_contra hn
    obtain ⟨h1, h2⟩ := not_or.1 hn
    refine hne ?_
    simp [Sensors.zoneExpiry, h1, h2]
  · exact Input.take_raw _ _ _ _
  · exact Input.take_raw _ _ _ _
  · have h := congrArg (fun u => State.setLine u s.zoneSensors.settle.line) heq
    exact h

/-! ## The demand's hand-off (R57, R71, R75, R83) -/

/-- The demand after an expiry of the demand timer (R52). -/
def State.nextDemand (s : State) : Demand :=
  s.demand.expiry s.line.yielded s.sensors.zoneSwitch s.zp s.errors

/-- The zone once its new demand stands and is handed to the Airflow Share Unit (R57, R71). -/
def State.handsOver (s : State) : State :=
  let s1 := s.setDemand s.nextDemand
  let s2 := if s.nextDemand.call ≠ s.demand.call then s1.prompt else s1
  s2.setShare
    { s2.share with
      inputs :=
        { call := s.nextDemand.call, ds := s.nextDemand.ds, dl := s.nextDemand.dl
          tempFault := s.errors.tempFault } }

theorem exec_demandTimer {s : State} (h : s.zoneReady = true) :
    exec .demandTimer s = .next s.handsOver.recompute.settle := if_pos h

/-- A demand timer expiry leaves the Demand Engine's view as it is (R54). -/
theorem Demand.expiry_view (d : Demand) (y z : Bool) (p : ZoneParams) (e : Errors) :
    (d.expiry y z p e).view = d.view := by
  have henter (c : Call) : (d.enter c).view = d.view := by unfold Demand.enter; split <;> rfl
  unfold Demand.expiry
  dsimp only
  split
  · exact henter _
  · exact henter _

/-- What the hand-off changes: the demand, the inputs of the Airflow Share Unit, and the prompt of a changed call. -/
theorem State.handsOver_eq (s : State) :
    s.handsOver =
        ((s.setDemand s.nextDemand).setShare
          { s.share with
            inputs :=
              { call := s.nextDemand.call, ds := s.nextDemand.ds, dl := s.nextDemand.dl
                tempFault := s.errors.tempFault } }).setLine s.handsOver.line ∧
      (s.nextDemand.call ≠ s.demand.call → s.handsOver.line.main.pending = true) := by
  unfold State.handsOver
  dsimp only
  split
  next => exact ⟨rfl, fun _ => rfl⟩
  next h => exact ⟨rfl, fun hc => absurd hc h⟩

/-- A recomputation leaves a prompt that stands, and raises one where it changes the tier (R10, R76). -/
theorem State.recompute_pending {s : State}
    (h : s.line.main.pending = true ∨ s.recompute.share.tier ≠ s.share.tier) :
    s.recompute.line.main.pending = true := by
  have hplaced : s.placeTier.line.main.pending = true := by
    obtain hp | ht := h
    · exact s.placeTier_calmFrame.line.pending hp
    · rw [State.recompute_share] at ht
      unfold State.placeTier
      dsimp only
      rw [if_pos ht]
      rfl
  refine LineState.Prompted.pending ?_ hplaced
  exact (State.placeTarget_calmFrame _ (s.placeTier.setShare { s.placeTier.share with
    relief := s.placeTier.chooseRelief })).line

/-- Settles O40: the hand-off, then the recomputation by what it leaves alone. -/
theorem demandReachesTheShareUnit : Obligations.DemandReachesTheShareUnit := by
  intro s hz
  refine ⟨_, exec_demandTimer hz, ?_⟩
  obtain ⟨heq, hcall⟩ := s.handsOver_eq
  have hd : s.handsOver.recompute.settle.demand = s.nextDemand := by
    rw [State.settle_demand, State.recompute_demand, heq]; rfl
  have hsh : s.handsOver.recompute.settle.share = _ := s.handsOver.recompute_share
  have hold : s.handsOver.share = _ := congrArg State.share heq
  have hf : ZoneFrame s s.handsOver.recompute.settle := by
    refine ZoneFrame.trans ?_ ((State.recompute_zone _).trans (State.settle_zone _))
    rw [heq]
    constructor <;> rfl
  have hpeers : s.handsOver.recompute.settle.peers = s.peers := by
    rw [State.settle_peers, State.recompute_peers, heq]; rfl
  refine ⟨?_, ?_, ?_, fun h => ?_, ?_, hf.loader, hpeers, hf.sensors, hf.modeSel, hf.capacity, hf.engine,
    hf.protection, hf.frost, hf.pending⟩
  · rw [hsh, hd, hold]; rfl
  · rw [hsh, hold]; rfl
  · rw [hsh]
  · refine (congrArg KindState.pending (LineState.settle_main _ _)).trans (State.recompute_pending ?_)
    rw [hd] at h
    obtain h | h := h
    · exact .inl (hcall h)
    · refine .inr ?_
      rw [hold]
      exact h
  · rw [hd]; exact Demand.expiry_view _ _ _ _ _

end Sys2Proof.Machine
end

