-- ==== Sys2Proof/Proofs/PlantShown.lean ====
section
/-! PROOFS. The events that await READY (R187), the state at reset, and the plant state that a READY plant shows (R11,
R152). -/

namespace Sys2Proof.Machine

/-! ## Before READY -/

theorem State.not_zoneReady_of {s : State} (h : s.ready = false) : s.zoneReady = false := by
  simp [State.zoneReady, h]

/-- Settles O3: each of these events asks for READY, or for a station that can send. -/
theorem eventsThatAwaitReadyChangeNothing : Obligations.EventsThatAwaitReadyChangeNothing := by
  intro c s hc hr
  have hz := State.not_zoneReady_of hr
  have hp := State.not_plantReady_of hr
  cases c with
  | powerOnReset | resetInputAsserted | resetRelease | readAttempt | readRetryTimer | lineIdle | attemptComplete
  | collision | frameReceived | frameAbandoned | retainedTimer | startBitSeen | framingError => cases hc
  | attemptBegin =>
    have hs : s.line.canSend s.ready = false := by simp [LineState.canSend, hr]
    simp only [exec, execAttemptBegin, hs]
    cases s.line.waiting <;> rfl
  | tokenRefillTimer => simp [exec, execTokenRefillTimer, hr]
  | zonePeriodicTimer => simp [exec, execZonePeriodicTimer, hz]
  | plantPeriodicTimer => simp [exec, execPlantPeriodicTimer, hp]
  | summaryTimer => simp [exec, execSummaryTimer, hr]
  | ageTimer => simp [exec, execAgeTimer, hr]
  | graceTimer => simp [exec, execGraceTimer, hz]
  | headFrameArrival => simp [exec, execHeadFrameArrival, hr]
  | headFrameAbandoned => simp [exec, execHeadFrameAbandoned, hr]
  | lossTimer => simp [exec, execLossTimer, hr]
  | sensorTimer => simp [exec, execSensorTimer, hr]
  | demandTimer => simp [exec, execDemandTimer, hz]
  | homingStepCompletion => simp [exec, execHomingStepCompletion, hz]
  | stepCompletion => simp [exec, execStepCompletion, hz]
  | budgetRefillTimer => simp [exec, execBudgetRefillTimer, hz]
  | rehomeAgeTimer => simp [exec, execRehomeAgeTimer, hz]
  | plantControlTimer => simp [exec, execPlantControlTimer, hp]
  | offHoldTimer => simp [exec, execOffHoldTimer, hp]
  | protectionTimer => simp [exec, execProtectionTimer, hp]
  | listeningTimer => simp [exec, execListeningTimer, hp]
  | stepDelayExpiry => simp [exec, execStepDelayExpiry, hp]
  | stepTimeExit =>
    simp only [exec, execStepTimeExit, hp]
    cases s.engine.exitTime <;> rfl
  | stepTimeLimit =>
    simp only [exec, execStepTimeLimit, hp]
    cases s.engine.timeLimit <;> rfl
  | emergencyHoldTick => simp [exec, execEmergencyHoldTick, hp]
  | frostTimer => simp [exec, execFrostTimer, hp]

/-! ## The state at reset -/

theorem State.reset_loader_sound : State.reset.loader.Sound := Loader.reset_sound _ _ _ _ (.inl rfl)

theorem State.reset_zoneSound : State.reset.ZoneSound :=
  ⟨State.reset_loader_sound, Demand.reset_sound, Share.reset_sound, Damper.reset_sound⟩

theorem State.reset_tableSound : State.reset.TableSound where
  addresses := rfl
  empty _ e he := by
    obtain ⟨a, _, rfl⟩ := List.mem_map.1 he
    rfl
  own e he _ := by
    obtain ⟨a, _, rfl⟩ := List.mem_map.1 he
    rfl

theorem State.reset_followSound : State.reset.FollowSound := by
  constructor <;> decide

theorem State.reset_recordSound : State.reset.RecordSound where
  protection :=
    { stopAge := Nat.zero_le _
      valveAge := Nat.zero_le _
      run := fun _ h => nomatch h
      budget := by decide
      progress := Nat.zero_le _
      full := fun _ => rfl
      history := Nat.zero_le _
      records := fun _ h => nomatch h
      doubling := rfl
      lockout := fun _ h => nomatch h }
  hold := ⟨by decide, fun _ => rfl⟩
  frost := by constructor <;> decide

/-- Settles O5: each block's soundness at its reset values. -/
theorem resetStateIsSound : Obligations.ResetStateIsSound :=
  ⟨State.reset_zoneSound, fun _ => ⟨rfl, rfl, rfl⟩, State.reset_tableSound, State.reset_followSound,
    LineState.reset_sound, .atReset State.reset_loader_sound rfl rfl _ rfl, fun _ => ⟨rfl, rfl, rfl, rfl⟩,
    State.reset_recordSound, fun _ => rfl, .atReset rfl rfl rfl rfl rfl rfl⟩

/-! ## The rows of R152's table -/

/-- A CHANGEOVER at a step of its chain is at its own steps or at START's (R143, R152). -/
theorem Engine.changeover_step {e : Engine} (h : ∃ st, e.step = some st ∧ st ∈ Proc.changeover.chain) :
    (e.atChangeoverStep = true ∧ (e.step = some .x1 ∨ e.step = some .x2 ∨ e.step = some .x3)) ∨
      (e.atChangeoverStep = false ∧ ¬(e.step = some .x1 ∨ e.step = some .x2 ∨ e.step = some .x3) ∧
        (e.step = some .s1 ∨ e.step = some .s2 ∨ e.step = some .s3 ∨ e.step = some .s4)) := by
  obtain ⟨st, hs, hm⟩ := h
  rw [Engine.atChangeoverStep, hs]
  simp only [Proc.chain, List.mem_cons, List.not_mem_nil, or_false] at hm
  obtain rfl | rfl | rfl | rfl | rfl | rfl | rfl := hm <;> decide

/-- Delivering is yes in RUNNING, and in STARTING at S4 (R152). -/
theorem State.delivering_iff (s : State) :
    s.delivering = true ↔ s.plantState = .running ∨ (s.plantState = .starting ∧ s.engine.step = some .s4) := by
  unfold State.delivering
  cases s.plantState <;> simp

/-- The derived plant state is the first row that holds (R152). -/
theorem State.plantState_rows (s : State)
    (hc : s.engine.running = some .changeover → ∃ st, s.engine.step = some st ∧ st ∈ Proc.changeover.chain) :
    s.plantState =
      if s.engine.standby = true then .standby
      else if s.engine.inEmergency = true then .emergency
      else if s.engine.running = some .defrost then .defrost
      else if s.engine.running = some .changeover ∧
          (s.engine.step = some .x1 ∨ s.engine.step = some .x2 ∨ s.engine.step = some .x3) then .changeover
      else if s.engine.running = some .start ∨ (s.engine.running = some .changeover ∧
          (s.engine.step = some .s1 ∨ s.engine.step = some .s2 ∨ s.engine.step = some .s3 ∨
            s.engine.step = some .s4)) then .starting
      else if ∃ r ∈ [StopReason.demand, .condensate, .freeze, .supply, .airflow],
          s.engine.running = some (.stop r) then .stopping
      else if s.protection.lockout.isSome = true then .lockout
      else if s.engine.run = true then .running
      else .idle := by
  unfold State.plantState plantStateOf Engine.inEmergency
  cases hs : s.engine.standby with
  | true => rfl
  | false =>
    match hr : s.engine.running with
    | none => simp
    | some (.emergency _) => simp
    | some .defrost => simp
    | some .start => simp
    | some (.stop r) => cases r <;> simp
    | some .changeover =>
      obtain ⟨ha, hx⟩ | ⟨ha, hx, hn⟩ := Engine.changeover_step (hc hr)
      · simp [ha, hx]
      · simp [ha, hx, hn]

/-! ## What keeps the shown plant state until it is noted (R11) -/

/-- The loader and the shown plant state stand. -/
def State.KeepsShown (s t : State) : Prop := t.loader = s.loader ∧ t.engine.shown = s.engine.shown

theorem State.KeepsShown.trans {s t u : State} (h : s.KeepsShown t) (k : t.KeepsShown u) : s.KeepsShown u :=
  ⟨k.1.trans h.1, k.2.trans h.2⟩

theorem State.KeepsShown.ofLine {s u : State} {l : LineState} (h : (s.setLine l).KeepsShown u) : s.KeepsShown u := h

theorem State.KeepsShown.toLine {s u : State} {l : LineState} (h : s.KeepsShown u) : s.KeepsShown (u.setLine l) := h

theorem PromptFrame.keepsShown {s t : State} (h : PromptFrame s t) : s.KeepsShown t := ⟨h.loader, h.shown⟩

theorem ZoneFrame.keepsShown {s t : State} (h : ZoneFrame s t) : s.KeepsShown t :=
  ⟨h.loader, congrArg Engine.shown h.engine⟩

theorem State.enterYielded_keepsShown (s : State) : s.KeepsShown s.enterYielded := by
  unfold State.enterYielded
  split
  · exact ⟨rfl, rfl⟩
  · dsimp only
    have hy : s.KeepsShown (s.setLine s.line.yield) := ⟨rfl, rfl⟩
    split
    · exact hy.trans ((State.yieldDemand_zone _).trans (State.recompute_zone _)).keepsShown
    · exact hy.trans (State.dropPlant_engineFrame _).keepsShown

theorem State.takeReport_keepsShown (a : Nat) (c : Contents) (s : State) : s.KeepsShown (s.takeReport a c) := by
  have hp : s.KeepsShown (s.setPeers (s.peers.take a c)) := ⟨rfl, rfl⟩
  unfold State.takeReport
  dsimp only
  split
  · unfold State.detectPlant
    split
    · exact hp
    · split
      · exact hp.trans (State.enterStandby_engineFrame _).keepsShown
      · split <;> exact hp
  · exact hp
  · exact hp.trans (State.evaluatePlant_zone _ _).keepsShown
  · split
    · exact hp.trans (State.evaluatePlant_zone _ _).keepsShown
    · exact hp

theorem State.acceptFrame_keepsShown (h : Byte) (p : List Byte) (s : State) : s.KeepsShown (s.acceptFrame h p) := by
  unfold State.acceptFrame
  split
  · exact ⟨rfl, rfl⟩
  · split
    · rw [State.compareTag_eq]
      split
      · exact (State.enterYielded_keepsShown _).ofLine
      · exact ⟨rfl, rfl⟩
    · exact State.takeReport_keepsShown _ _ _

theorem State.takeOctet_keepsShown (s : State) (o : Byte) : s.KeepsShown (s.takeOctet o) := by
  unfold State.takeOctet State.frameEvent
  split
  · exact ⟨rfl, rfl⟩
  · exact ⟨rfl, rfl⟩
  · exact ⟨rfl, rfl⟩
  · exact (State.acceptFrame_keepsShown _ _ _).ofLine.ofLine

theorem State.takeOctets_keepsShown (octets : List Byte) (s : State) : s.KeepsShown (s.takeOctets octets) := by
  have hfold : ∀ (l : List Byte) (u : State), u.KeepsShown (l.foldl State.takeOctet u) := by
    intro l
    induction l with
    | nil => exact fun u => ⟨rfl, rfl⟩
    | cons o os ih => exact fun u => (u.takeOctet_keepsShown o).trans (ih _)
  unfold State.takeOctets
  split
  · exact hfold octets s
  · exact ⟨rfl, rfl⟩

theorem State.heard_keepsShown (octets : List Byte) (s : State) : s.KeepsShown (s.heard octets) := by
  unfold State.heard
  split
  · exact ⟨rfl, rfl⟩
  · exact (State.takeOctets_keepsShown octets _).ofLine

/-! ## The prompt of a change of plant state (R11) -/

theorem State.settlePlant_pending {s : State} (h : s.line.main.pending = true) :
    s.settlePlant.line.main.pending = true :=
  (congrArg KindState.pending (LineState.settle_main _ _)).trans (s.notePlantState_prompted.pending h)

theorem State.settlePlant_plantState (s : State) : s.settlePlant.plantState = s.plantState := by
  have he := s.settlePlant_engine
  obtain ⟨_, _, _, _, _, _, _, _, hp, _, _⟩ := s.settlePlant_blocks
  unfold State.plantState
  rw [he, hp]
  rfl

/-- A plant whose shown state is left behind prompts as the command ends (R11). -/
theorem State.settlePlant_prompts {s u : State} (hr : s.plantReady = true) (hs : s.ShownSound) (h : s.KeepsShown u)
    (hne : u.settlePlant.plantState ≠ s.plantState) : u.settlePlant.line.main.pending = true := by
  rw [State.settlePlant_plantState] at hne
  have hur : u.plantReady = true := (State.plantReady_of_loader h.1).trans hr
  have hsh : u.plantState ≠ u.engine.shown := by rw [h.2, hs hr]; exact hne
  have hn : u.notePlantState = (u.setEngine { u.engine with shown := u.plantState }).prompt :=
    if_pos (by rw [hur, decide_eq_true hsh]; rfl)
  show (u.notePlantState.line.settle _).main.pending = true
  rw [LineState.settle_main, hn]
  rfl

/-- READY is entered with the main report pending (R8, R187). -/
theorem State.becomeReady_pending (s : State) : s.becomeReady.line.main.pending = true := by
  unfold State.becomeReady
  dsimp only
  split
  · exact congrArg KindState.pending (LineState.settle_main _ _)
  · exact State.settlePlant_pending rfl

/-- Commands that can move the plant state end by noting it (R11). -/
theorem Concludes.prompts {s t : State} (h : Concludes s t) (hr : s.plantReady = true) (hs : s.ShownSound)
    (hne : t.plantState ≠ s.plantState) : t.line.main.pending = true := by
  cases h with
  | kept _ hp => exact absurd (hp hr) hne
  | settled u _ hp e => subst e; exact absurd (hp hr) hne
  | shown u h e => subst e; exact State.settlePlant_prompts hr hs h.keepsShown hne

/-- The line's own events leave the plant as it is, or take octets and note the plant state (R11). -/
theorem exec_line_shows {c : Instr} {s t : State}
    (hc : c = .tokenRefillTimer ∨ c = .lineIdle ∨ c = .attemptBegin ∨ c = .attemptComplete ∨
      (∃ b, c = .collision b) ∨ (∃ l, c = .frameReceived l) ∨ (∃ l, c = .frameAbandoned l) ∨
      c = .zonePeriodicTimer ∨ c = .plantPeriodicTimer ∨ c = .summaryTimer ∨ c = .startBitSeen ∨
      ∃ l, c = .framingError l)
    (h : exec c s = .next t) : t.plantState = s.plantState ∨ ∃ u, s.KeepsShown u ∧ t = u.settlePlant := by
  have same : ∀ {u : State}, advance u = .next t → u = t := fun e => by rwa [advance_eq_next] at e
  obtain rfl | rfl | rfl | rfl | ⟨bit, rfl⟩ | ⟨octets, rfl⟩ | ⟨octets, rfl⟩ | rfl | rfl | rfl | rfl | ⟨octets, rfl⟩ :=
    hc
  · simp only [exec, execTokenRefillTimer] at h
    split at h <;> obtain rfl := same h <;> exact .inl rfl
  · simp only [exec, execLineIdle] at h
    split at h <;> obtain rfl := same h <;> exact .inl rfl
  · simp only [exec, execAttemptBegin] at h
    split at h
    · split at h <;> obtain rfl := same h <;> exact .inl rfl
    · obtain rfl := same h; exact .inl rfl
  · simp only [exec, execAttemptComplete] at h
    split at h <;> obtain rfl := same h <;> exact .inl rfl
  · simp only [exec, execCollision] at h
    split at h
    · split at h <;> obtain rfl := same h
      · exact .inr ⟨_, (State.takeOctets_keepsShown _ _).ofLine, rfl⟩
      · exact .inl rfl
    · obtain rfl := same h; exact .inl rfl
  · simp only [exec, execFrameReceived] at h
    split at h <;> obtain rfl := same h
    · exact .inl rfl
    · exact .inr ⟨_, (State.takeOctets_keepsShown _ _).ofLine, rfl⟩
  · simp only [exec, execFrameAbandoned] at h
    split at h <;> obtain rfl := same h
    · exact .inl rfl
    · exact .inr ⟨_, (State.heard_keepsShown octets s).toLine, rfl⟩
  · simp only [exec, execZonePeriodicTimer] at h
    split at h <;> obtain rfl := same h <;> exact .inl rfl
  · simp only [exec, execPlantPeriodicTimer] at h
    split at h <;> obtain rfl := same h <;> exact .inl rfl
  · simp only [exec, execSummaryTimer] at h
    split at h <;> obtain rfl := same h <;> exact .inl rfl
  · simp only [exec, execStartBitSeen] at h
    split at h <;> obtain rfl := same h <;> exact .inl rfl
  · simp only [exec, execFramingError] at h
    split at h <;> obtain rfl := same h
    · exact .inl rfl
    · exact .inr ⟨_, (State.heard_keepsShown octets s).toLine, rfl⟩

/-- The load, once begun, leaves the part unready or enters READY with the main report pending (R183, R187). -/
theorem State.beginLoad_prompts (s : State) (h : s.beginLoad.ready = true) :
    s.beginLoad.line.main.pending = true := by
  unfold State.beginLoad at h ⊢
  split at h
  next => simp [State.ready] at h
  next ha =>
    rw [if_neg ha]
    split at h
    next => simp [State.ready] at h
    next hc => rw [if_neg hc]; exact State.becomeReady_pending _

/-- From READY, a reset or a part of the load leaves the plant state, the readiness lost, or the report pending. -/
theorem exec_load_prompts {c : Instr} {s t : State}
    (hc : c = .powerOnReset ∨ c = .resetInputAsserted ∨ (∃ k st, c = .resetRelease k st) ∨
      (∃ l, c = .readAttempt l) ∨ c = .readRetryTimer)
    (hr : s.ready = true) (h : exec c s = .next t) :
    t.plantState = s.plantState ∨ t.ready = false ∨ (t.ready = true → t.line.main.pending = true) := by
  have same : ∀ {u : State}, advance u = .next t → u = t := fun e => by rwa [advance_eq_next] at e
  have hstate : s.loader.state = .ready := of_decide_eq_true hr
  obtain rfl | rfl | ⟨kind, straps, rfl⟩ | ⟨octets, rfl⟩ | rfl := hc
  · obtain rfl := same h; exact .inr (.inl rfl)
  · obtain rfl := same h; exact .inr (.inl rfl)
  · simp only [exec, execResetRelease] at h
    split at h
    · split at h <;> obtain rfl := same h
      · exact .inl rfl
      · exact .inr (.inr (State.beginLoad_prompts _))
    · obtain rfl := same h; exact .inl rfl
  · simp only [exec, execReadAttempt, hstate] at h
    obtain rfl := same h; exact .inl rfl
  · simp only [exec, execReadRetryTimer, hstate] at h
    obtain rfl := same h; exact .inl rfl

/-- A command that leaves a READY plant with another plant state than it found prompts (R11, R152). -/
theorem exec_prompts_plantState {c : Instr} {s t : State} (hr : s.plantReady = true) (hs : s.ShownSound)
    (h : exec c s = .next t) (htr : t.plantReady = true) (hne : t.plantState ≠ s.plantState) :
    t.line.main.pending = true := by
  have hready {u : State} (hu : u.plantReady = true) : u.ready = true := (Bool.and_eq_true_iff.1 hu).1
  cases hc : leavesLine c with
  | true => exact (exec_concludes hc h).prompts hr hs hne
  | false =>
    cases c with
    | powerOnReset | resetInputAsserted | resetRelease | readAttempt | readRetryTimer =>
      obtain he | hn | hp := exec_load_prompts (by simp) (hready hr) h
      · exact absurd he hne
      · rw [hready htr] at hn; cases hn
      · exact hp (hready htr)
    | attemptBegin | tokenRefillTimer | lineIdle | attemptComplete | collision | frameReceived | frameAbandoned
    | zonePeriodicTimer | plantPeriodicTimer | summaryTimer | startBitSeen | framingError =>
      obtain he | ⟨u, hu, rfl⟩ := exec_line_shows (by simp) h
      · exact absurd he hne
      · exact State.settlePlant_prompts hr hs hu hne
    | ageTimer | graceTimer | headFrameArrival | headFrameAbandoned | lossTimer | sensorTimer | demandTimer
    | homingStepCompletion | stepCompletion | budgetRefillTimer | rehomeAgeTimer | plantControlTimer
    | offHoldTimer | protectionTimer | listeningTimer | stepDelayExpiry | stepTimeExit | stepTimeLimit
    | emergencyHoldTick | retainedTimer | frostTimer => cases hc

/-- Settles O55: the table by the running procedure, and the prompt by how each command ends. -/
theorem plantStateIsTheFirstRowThatHolds : Obligations.PlantStateIsTheFirstRowThatHolds :=
  ⟨State.plantState_rows, fun s => ⟨s.delivering_iff, rfl, rfl⟩,
    fun _ _ _ hr hs h htr hne => exec_prompts_plantState hr hs h htr hne⟩

end Sys2Proof.Machine
end

