-- ==== Sys2Proof/Proofs/LineEvents.lean ====
section
/-! PROOFS. The line's own events, reduced to what they are made of: the line set, frames accepted, and the end of a
command. With it, that the shown plant state stays the derived one over every step (R23, R152). -/

namespace Sys2Proof.Machine

/-! ## What the line's own events are made of -/

/-- What holds of every state of a READY station while it takes octets: the line may be set, a good frame may be
accepted, and the end of the command gives `P` (R4, R5, R6). -/
structure KeptByOctets (P Q : State → Prop) : Prop where
  start : ∀ {u : State}, P u → Q u
  line : ∀ {u : State} (l : LineState), Q u → Q (u.setLine l)
  accept : ∀ {u : State} (h : Byte) (p : List Byte), u.ready = true → Q u → Q (u.acceptFrame h p)
  finish : ∀ {u : State}, Q u → P u.settlePlant

theorem KeptByOctets.takeOctet {P Q : State → Prop} (k : KeptByOctets P Q) {s : State} (hr : s.ready = true)
    (h : Q s) (o : Byte) : Q (s.takeOctet o) := by
  have hrx := k.line { s.line with rx := (s.line.rx.octet o).1 } h
  unfold State.takeOctet State.frameEvent
  split
  · exact hrx
  · exact k.line _ hrx
  · exact k.line _ hrx
  · exact k.accept _ _ hr (k.line _ hrx)

theorem KeptByOctets.takeOctets {P Q : State → Prop} (k : KeptByOctets P Q) (octets : List Byte) {s : State}
    (h : Q s) : Q (s.takeOctets octets) := by
  have hfold : ∀ (l : List Byte) (u : State), u.ready = true → Q u → Q (l.foldl State.takeOctet u) := by
    intro l
    induction l with
    | nil => exact fun _ _ hu => hu
    | cons o l ih =>
      exact fun u hr hu => ih _ (by rw [State.ready, State.takeOctet_loader]; exact hr) (k.takeOctet hr hu o)
  unfold State.takeOctets
  split
  · exact hfold octets s ‹_› h
  · exact h

theorem KeptByOctets.heard {P Q : State → Prop} (k : KeptByOctets P Q) (octets : List Byte) {s : State}
    (h : Q s) : Q (s.heard octets) := by
  unfold State.heard
  split
  · exact h
  · exact k.takeOctets octets (k.line _ h)

/-- A property that setting the line keeps, and that octets taken keep, is kept by the line's own events. -/
theorem KeptByOctets.exec_line {P Q : State → Prop} (k : KeptByOctets P Q)
    (hline : ∀ {u : State} (l : LineState), P u → P (u.setLine l)) {c : Instr} {s t : State}
    (hc : c = .tokenRefillTimer ∨ c = .lineIdle ∨ c = .attemptBegin ∨ c = .attemptComplete ∨
      (∃ b, c = .collision b) ∨ (∃ l, c = .frameReceived l) ∨ (∃ l, c = .frameAbandoned l) ∨
      c = .zonePeriodicTimer ∨ c = .plantPeriodicTimer ∨ c = .summaryTimer ∨ c = .startBitSeen ∨
      ∃ l, c = .framingError l)
    (hs : P s) (h : exec c s = .next t) : P t := by
  have same : ∀ {u : State}, advance u = .next t → u = t := fun e => by rwa [advance_eq_next] at e
  obtain rfl | rfl | rfl | rfl | ⟨bit, rfl⟩ | ⟨octets, rfl⟩ | ⟨octets, rfl⟩ | rfl | rfl | rfl | rfl |
    ⟨octets, rfl⟩ := hc
  · simp only [exec, execTokenRefillTimer] at h
    split at h <;> obtain rfl := same h
    · exact hline _ (hline _ hs)
    · exact hs
  · simp only [exec, execLineIdle] at h
    split at h <;> obtain rfl := same h
    · exact hs
    · exact hline _ hs
  · simp only [exec, execAttemptBegin] at h
    split at h
    · split at h <;> obtain rfl := same h
      · exact hline _ (hline _ hs)
      · exact hs
    · obtain rfl := same h; exact hs
  · simp only [exec, execAttemptComplete] at h
    split at h <;> obtain rfl := same h
    · exact hline _ (hline _ hs)
    · exact hs
  · simp only [exec, execCollision] at h
    split at h
    · split at h <;> obtain rfl := same h
      · exact k.finish (k.takeOctets _ (k.line _ (k.start hs)))
      · exact hs
    · obtain rfl := same h; exact hs
  · simp only [exec, execFrameReceived] at h
    split at h <;> obtain rfl := same h
    · exact hs
    · exact k.finish (k.takeOctets octets (k.line _ (k.start hs)))
  · simp only [exec, execFrameAbandoned] at h
    split at h <;> obtain rfl := same h
    · exact hs
    · exact k.finish (k.line _ (k.heard octets (k.start hs)))
  · simp only [exec, execZonePeriodicTimer] at h
    split at h <;> obtain rfl := same h
    · exact hline _ (hline _ hs)
    · exact hs
  · simp only [exec, execPlantPeriodicTimer] at h
    split at h <;> obtain rfl := same h
    · exact hline _ (hline _ hs)
    · exact hs
  · simp only [exec, execSummaryTimer] at h
    split at h <;> obtain rfl := same h
    · exact hline _ (hline _ hs)
    · exact hs
  · simp only [exec, execStartBitSeen] at h
    split at h <;> obtain rfl := same h
    · exact hs
    · exact hline _ hs
  · simp only [exec, execFramingError] at h
    split at h <;> obtain rfl := same h
    · exact hs
    · exact k.finish (k.line _ (k.heard octets (k.start hs)))

/-! ## What the resets and the load are made of (R182 to R188) -/

/-- A station that leaves the load, by the defaults or by a good image, keeps its straps and becomes READY (R183,
R184). -/
theorem State.checkImage_cases (image : List Byte) (s : State) :
    ∃ l : Loader, l.straps = s.loader.straps ∧ s.checkImage image = (s.setLoader l).becomeReady := by
  unfold State.checkImage State.loadDefaults State.loadImage
  split
  · exact ⟨_, by dsimp only; split <;> rfl, rfl⟩
  · exact ⟨_, by dsimp only; split <;> rfl, rfl⟩

theorem State.loadDefaults_cases (r : LoadResult) (s : State) :
    ∃ l : Loader, l.straps = s.loader.straps ∧ s.loadDefaults r = (s.setLoader l).becomeReady :=
  ⟨_, by dsimp only; split <;> rfl, rfl⟩

/-- What a reset or a part of the load leaves: every block at reset, or the part unready with a new loader, or READY
entered by a station that was not (R182, R183, R184, R188). -/
inductive LoadOutcome (s t : State) : Prop where
  | unchanged (e : t = s)
  | reset (hl : t.loader.state = .idle) (hp : t.peers = .reset) (hd : t.demand = .reset) (hs : t.share = .reset)
  | unready (hn : s.ready = false) (ht : t.ready = false) (hp : t.peers = s.peers) (hd : t.demand = s.demand)
      (hs : t.share = s.share)
  | ready (hn : s.ready = false) (u : State) (hp : u.peers = s.peers) (hd : u.demand = s.demand)
      (hs : u.share = s.share) (e : t = u.becomeReady)

/-- The load that begins at the latching, by a station that is not READY (R182, R183). -/
theorem State.beginLoad_outcome {s u : State} (hn : s.ready = false) (hp : u.peers = s.peers)
    (hd : u.demand = s.demand) (hs : u.share = s.share) : LoadOutcome s u.beginLoad := by
  unfold State.beginLoad
  split
  · exact .unready hn rfl hp hd hs
  · split
    · exact .unready hn rfl hp hd hs
    · obtain ⟨l, _, e⟩ := u.loadDefaults_cases .noMemory
      exact .ready hn (u.setLoader l) hp hd hs e

/-- The resets and the load, by what they leave. -/
theorem exec_load_outcome {c : Instr} {s t : State}
    (hc : c = .powerOnReset ∨ c = .resetInputAsserted ∨ (∃ k st, c = .resetRelease k st) ∨
      (∃ l, c = .readAttempt l) ∨ c = .readRetryTimer)
    (hl : s.loader.Sound) (h : exec c s = .next t) : LoadOutcome s t := by
  have same : ∀ {u : State}, advance u = .next t → u = t := fun e => by rwa [advance_eq_next] at e
  obtain rfl | rfl | ⟨kind, straps, rfl⟩ | ⟨octets, rfl⟩ | rfl := hc
  · obtain rfl := same h; exact .reset rfl rfl rfl rfl
  · obtain rfl := same h; exact .reset rfl rfl rfl rfl
  · simp only [exec, execResetRelease] at h
    split at h
    next ha =>
      -- a reset that is asserted holds the loader in IDLE
      have hidle : s.loader.state = .idle := hl.idle.2 <| by
        cases kind
        · exact .inl ha
        · exact .inr ha
      have hn : s.ready = false := by simp [State.ready, hidle]
      split at h <;> obtain rfl := same h
      · refine .unready hn ?_ rfl rfl rfl
        cases kind <;> exact hn
      · exact State.beginLoad_outcome hn rfl rfl rfl
    next => obtain rfl := same h; exact .unchanged rfl
  · simp only [exec, execReadAttempt] at h
    split at h
    next hr =>
      have hn : s.ready = false := by
        simp only [Bool.and_eq_true, decide_eq_true_eq] at hr
        simp [State.ready, hr.1]
      split at h <;> obtain rfl := same h
      · unfold State.readFailed
        split
        · exact .unready hn hn rfl rfl rfl
        · obtain ⟨l, _, e⟩ := s.loadDefaults_cases .noAck
          exact .ready hn (s.setLoader l) rfl rfl rfl e
      · obtain ⟨l, _, e⟩ := s.checkImage_cases (octets.take imageLength)
        exact .ready hn (s.setLoader l) rfl rfl rfl e
    next => obtain rfl := same h; exact .unchanged rfl
  · simp only [exec, execReadRetryTimer] at h
    split at h
    next hr =>
      obtain rfl := same h
      have hn : s.ready = false := by
        simp only [Bool.and_eq_true, decide_eq_true_eq] at hr
        simp [State.ready, hr.1]
      exact .unready hn hn rfl rfl rfl
    next => obtain rfl := same h; exact .unchanged rfl

/-! ## The shown plant state (R23, R152) -/

/-- A station that is not READY as a plant shows no plant state. -/
theorem State.ShownSound.of_not_plantReady {s : State} (h : s.plantReady = false) : s.ShownSound :=
  fun hr => by rw [h] at hr; cases hr

/-- The end of a command that can move the plant shows the derived plant state, whatever stood before (R11, R152). -/
theorem State.settlePlant_shownSound (s : State) : s.settlePlant.ShownSound := by
  intro hr
  rw [State.settlePlant_plantState]
  have hr' : s.plantReady = true := (State.plantReady_of_loader s.settlePlant_blocks.1).symm.trans hr
  show s.notePlantState.engine.shown = s.plantState
  unfold State.notePlantState
  split
  next => rfl
  next h =>
    by_contra hne
    exact h (by rw [hr', decide_eq_true (Ne.symm hne)]; rfl)

/-- A shown plant state that stands, with the plant state it shows, stays derived. -/
theorem PromptFrame.shownSound {s t : State} (f : PromptFrame s t) (h : s.ShownSound)
    (hp : s.plantReady = true → t.plantState = s.plantState) : t.ShownSound := by
  intro hr
  have hr' : s.plantReady = true := (State.plantReady_of_loader f.loader).symm.trans hr
  rw [f.shown, h hr', hp hr']

/-- The commands of the other blocks end with the plant state as it was, or with it shown. -/
theorem Concludes.shownSound {s t : State} (h : Concludes s t) (hs : s.ShownSound) : t.ShownSound := by
  cases h with
  | kept f hp => exact f.shownSound hs hp
  | settled u f hp e => subst e; exact f.shownSound hs hp
  | shown u f e => subst e; exact State.settlePlant_shownSound u

theorem State.becomeReady_shownSound (s : State) : s.becomeReady.ShownSound := by
  unfold State.becomeReady
  dsimp only
  split
  next hz => exact .of_not_plantReady (State.not_plantReady_of_role hz)
  next => exact State.settlePlant_shownSound _

theorem LoadOutcome.shownSound {s t : State} (h : LoadOutcome s t) (hs : s.ShownSound) : t.ShownSound := by
  cases h with
  | unchanged e => exact e ▸ hs
  | reset hl _ _ _ => exact .of_not_plantReady (State.not_plantReady_of (by simp [State.ready, hl]))
  | unready _ ht _ _ _ => exact .of_not_plantReady (State.not_plantReady_of ht)
  | ready _ u _ _ _ e => exact e ▸ u.becomeReady_shownSound

/-- While octets are taken nothing is asked of the shown plant state: the end of the command shows it (R152). -/
theorem shownSound_keptByOctets : KeptByOctets State.ShownSound fun _ => True :=
  ⟨fun _ => trivial, fun _ _ => trivial, fun _ _ _ _ => trivial, fun _ => State.settlePlant_shownSound _⟩

/-- Every command leaves the derived plant state shown (R23, R152). -/
theorem exec_shownSound {c : Instr} {s t : State} (hl : s.loader.Sound) (hs : s.ShownSound)
    (h : exec c s = .next t) : t.ShownSound := by
  cases hc : leavesLine c with
  | true => exact (exec_concludes hc h).shownSound hs
  | false =>
    cases c with
    | powerOnReset | resetInputAsserted | resetRelease | readAttempt | readRetryTimer =>
      exact (exec_load_outcome (by simp) hl h).shownSound hs
    | tokenRefillTimer | lineIdle | attemptBegin | attemptComplete | collision | frameReceived | frameAbandoned
    | zonePeriodicTimer | plantPeriodicTimer | summaryTimer | startBitSeen | framingError =>
      exact shownSound_keptByOctets.exec_line (fun _ hu => hu) (by simp) hs h
    | ageTimer | graceTimer | headFrameArrival | headFrameAbandoned | lossTimer | sensorTimer | demandTimer
    | homingStepCompletion | stepCompletion | budgetRefillTimer | rehomeAgeTimer | plantControlTimer
    | offHoldTimer | protectionTimer | listeningTimer | stepDelayExpiry | stepTimeExit | stepTimeLimit
    | emergencyHoldTick | retainedTimer | frostTimer => cases hc

/-- Settles O12: every command ends with the plant state as it was, or shows it. -/
theorem shownPlantStateStaysDerived : Obligations.ShownPlantStateStaysDerived := by
  intro s t hl hs h
  obtain ⟨_, rfl⟩ | ⟨c, rest, _, hx⟩ := step_cases h
  · exact hs
  · exact exec_shownSound (s := s.setPending rest) hl hs hx

end Sys2Proof.Machine
end

