-- ==== Sys2Proof/Proofs/FollowedPlant.lean ====
section
/-! PROOFS. The peer table and the followed plant: what the choice of a plant reads of the table, what a recomputation
reads of the station, and what an evaluation of the followed plant does, said once (R19, R31 to R33, R54, R74 to
R76). -/

namespace Sys2Proof.Machine

/-! ## Looking up entries (R19) -/

/-- No two entries of the table have one address (R19). -/
def Peers.Distinct (p : Peers) : Prop := (p.entries.map PeerEntry.address).Nodup

theorem State.TableSound.distinct {s : State} (h : s.TableSound) : s.peers.Distinct := by
  unfold Peers.Distinct
  rw [h.addresses]
  decide

/-- Two entries with one address are one entry. -/
theorem Peers.Distinct.eq {p : Peers} (h : p.Distinct) {e f : PeerEntry} (he : e ∈ p.entries) (hf : f ∈ p.entries)
    (ha : e.address = f.address) : e = f :=
  List.inj_on_of_nodup_map h he hf ha

/-- An entry is what is stored at its address. -/
theorem Peers.Distinct.entry {p : Peers} (h : p.Distinct) {e : PeerEntry} (he : e ∈ p.entries) :
    p.entry e.address = some e := by
  obtain ⟨f, hf⟩ := Option.isSome_iff_exists.1
    (List.find?_isSome (p := fun f : PeerEntry => decide (f.address = e.address)).2 ⟨e, he, by simp⟩)
  have ha : f.address = e.address := by simpa using List.find?_some hf
  rw [Peers.entry, hf, h.eq (List.mem_of_find?_eq_some hf) he ha]

/-- The table is changed entry by entry, each entry staying at its address. -/
def Peers.Maps (p q : Peers) (f : PeerEntry → PeerEntry) : Prop :=
  q.entries = p.entries.map f ∧ ∀ e ∈ p.entries, (f e).address = e.address

theorem Peers.Maps.addresses {p q : Peers} {f : PeerEntry → PeerEntry} (h : p.Maps q f) :
    q.entries.map PeerEntry.address = p.entries.map PeerEntry.address := by
  rw [h.1, List.map_map]
  exact List.map_congr_left h.2

theorem Peers.Maps.distinct {p q : Peers} {f : PeerEntry → PeerEntry} (h : p.Maps q f) (hd : p.Distinct) :
    q.Distinct := by
  unfold Peers.Distinct
  rw [h.addresses]
  exact hd

theorem Peers.Maps.entry {p q : Peers} {f : PeerEntry → PeerEntry} (h : p.Maps q f) (a : Nat) :
    q.entry a = (p.entry a).map f := by
  unfold Peers.entry
  rw [h.1, List.find?_map]
  refine congrArg _ (List.find?_congr fun e he => ?_)
  simp [h.2 e he]

/-! ## The choice of a plant (R31) -/

/-- The entry is of a present plant not in STANDBY (R31). -/
def PeerEntry.active (e : PeerEntry) : Bool :=
  match e.plant with
  | some r => r.state ≠ .standby
  | none => false

theorem Peers.choose_eq (p : Peers) : p.choose = (p.entries.find? PeerEntry.active).map PeerEntry.address := rfl

theorem PeerEntry.active_iff (e : PeerEntry) :
    e.active = true ↔ ∃ r, e.plant = some r ∧ r.state ≠ .standby := by
  unfold PeerEntry.active
  cases e.plant <;> simp

/-- The chosen plant is present at its address and not in STANDBY (R31). -/
theorem Peers.Distinct.choose {p : Peers} (h : p.Distinct) {a : Nat} (hc : p.choose = some a) :
    ∃ r, p.plantAt a = some r ∧ r.state ≠ .standby := by
  rw [Peers.choose_eq] at hc
  obtain ⟨e, he, rfl⟩ := Option.map_eq_some_iff.1 hc
  obtain ⟨r, hr, hs⟩ := e.active_iff.1 (List.find?_some he)
  refine ⟨r, ?_, hs⟩
  rw [Peers.plantAt, h.entry (List.mem_of_find?_eq_some he)]
  exact hr

/-- With no plant at its choice a table has no choice (R31). -/
theorem Peers.Distinct.choose_eq_none {p : Peers} (h : p.Distinct) (hc : p.choose.bind p.plantAt = none) :
    p.choose = none := by
  cases ha : p.choose with
  | none => rfl
  | some a =>
    obtain ⟨r, hr, _⟩ := h.choose ha
    rw [ha, Option.bind_some, hr] at hc
    cases hc

/-- An entry changes in its state, its age or a zone's contents alone: the same plant stands, or none as before. -/
def Peers.SamePlants (p q : Peers) : Prop := ∃ f, p.Maps q f ∧ ∀ e ∈ p.entries, (f e).plant = e.plant

theorem Peers.SamePlants.choose {p q : Peers} (h : p.SamePlants q) : q.choose = p.choose := by
  obtain ⟨f, ⟨he, ha⟩, hp⟩ := h
  have hfind : p.entries.find? (PeerEntry.active ∘ f) = p.entries.find? PeerEntry.active :=
    List.find?_congr fun e hm => by simp only [Function.comp, PeerEntry.active, hp e hm]
  rw [Peers.choose_eq, Peers.choose_eq, he, List.find?_map, hfind]
  cases hx : p.entries.find? PeerEntry.active with
  | none => rfl
  | some e => exact congrArg some (ha e (List.mem_of_find?_eq_some hx))

theorem Peers.SamePlants.plantAt {p q : Peers} (h : p.SamePlants q) (a : Nat) : q.plantAt a = p.plantAt a := by
  obtain ⟨f, hm, hp⟩ := h
  rw [Peers.plantAt, hm.entry, Peers.plantAt]
  cases hx : p.entry a with
  | none => rfl
  | some e => exact hp e (Peers.entry_mem hx)

/-- Plants may leave the table, and none is new or changed (R26, R28). -/
def Peers.Fewer (p q : Peers) : Prop :=
  ∃ f, p.Maps q f ∧ ∀ e ∈ p.entries, (f e).plant = e.plant ∨ (f e).plant = none

theorem Peers.Fewer.distinct {p q : Peers} (h : p.Fewer q) (hd : p.Distinct) : q.Distinct := by
  obtain ⟨f, hm, _⟩ := h
  exact hm.distinct hd

theorem Peers.SamePlants.fewer {p q : Peers} (h : p.SamePlants q) : p.Fewer q := by
  obtain ⟨f, hm, hp⟩ := h
  exact ⟨f, hm, fun e he => .inl (hp e he)⟩

theorem Peers.Fewer.refl (p : Peers) : p.Fewer p :=
  ⟨id, ⟨(List.map_id _).symm, fun _ _ => rfl⟩, fun _ _ => .inl rfl⟩

theorem Peers.Fewer.trans {p q r : Peers} (h : p.Fewer q) (k : q.Fewer r) : p.Fewer r := by
  obtain ⟨f, ⟨hq, ha⟩, hp⟩ := h
  obtain ⟨g, ⟨hr, hb⟩, hg⟩ := k
  have hmem {e : PeerEntry} (he : e ∈ p.entries) : f e ∈ q.entries := hq ▸ List.mem_map_of_mem he
  refine ⟨g ∘ f, ⟨by rw [hr, hq, List.map_map], fun e he => (hb _ (hmem he)).trans (ha e he)⟩, fun e he => ?_⟩
  obtain hk | hk := hg (f e) (hmem he)
  · rw [Function.comp, hk]; exact hp e he
  · exact .inr hk

/-- An entry that is active after plants have left was active before. -/
theorem PeerEntry.active_of_plant {e f : PeerEntry} (h : f.plant = e.plant ∨ f.plant = none)
    (hf : f.active = true) : e.active = true := by
  obtain ⟨r, hr, hs⟩ := f.active_iff.1 hf
  obtain hp | hp := h
  · exact e.active_iff.2 ⟨r, hp ▸ hr, hs⟩
  · rw [hp] at hr; cases hr

theorem Peers.Fewer.plantAt {p q : Peers} (h : p.Fewer q) (a : Nat) :
    q.plantAt a = p.plantAt a ∨ q.plantAt a = none := by
  obtain ⟨f, hm, hp⟩ := h
  rw [Peers.plantAt, hm.entry, Peers.plantAt]
  cases hx : p.entry a with
  | none => exact .inl rfl
  | some e => exact hp e (Peers.entry_mem hx)

/-- The first element that meets a condition is the first that meets a stronger one, if it meets it. -/
theorem find?_of_imp {α : Type} {P Q : α → Bool} {l : List α} {x : α} (h : l.find? P = some x) (hx : Q x = true)
    (himp : ∀ y ∈ l, Q y = true → P y = true) : l.find? Q = some x := by
  obtain ⟨_, as, bs, hl, hbefore⟩ := List.find?_eq_some_iff_append.1 h
  refine List.find?_eq_some_iff_append.2 ⟨hx, as, bs, hl, fun y hy => ?_⟩
  cases hq : Q y with
  | false => rfl
  | true =>
    have := himp y (by rw [hl]; exact List.mem_append_left _ hy) hq
    have hn := hbefore y hy
    rw [this] at hn
    cases hn

/-- While plants leave the table the choice does not come back: one that stands at the end stood all the while (R31). -/
theorem Peers.Fewer.choose_between {p q r : Peers} (h : p.Fewer q) (k : q.Fewer r) (hd : p.Distinct)
    (hc : r.choose = p.choose) : q.choose = p.choose := by
  obtain ⟨f, ⟨hq, ha⟩, hp⟩ := h
  obtain ⟨g, ⟨hr, hb⟩, hg⟩ := k
  have hmem {e : PeerEntry} (he : e ∈ p.entries) : f e ∈ q.entries := hq ▸ List.mem_map_of_mem he
  rw [Peers.choose_eq, hq, List.find?_map, Peers.choose_eq p]
  cases hx : p.entries.find? PeerEntry.active with
  | none =>
    have hnone : p.entries.find? (PeerEntry.active ∘ f) = none :=
      List.find?_eq_none.2 fun e he hact =>
        List.find?_eq_none.1 hx e he (PeerEntry.active_of_plant (hp e he) hact)
    rw [hnone]
    rfl
  | some e =>
    have he := List.mem_of_find?_eq_some hx
    rw [Peers.choose_eq p, hx, Peers.choose_eq, hr, hq, List.map_map, List.find?_map] at hc
    obtain ⟨_, hmap, haddr⟩ := Option.map_eq_some_iff.1 hc
    obtain ⟨e', hx', rfl⟩ := Option.map_eq_some_iff.1 hmap
    have he' := List.mem_of_find?_eq_some hx'
    obtain rfl : e' = e := hd.eq he' he <| by
      rw [← haddr]; exact ((hb _ (hmem he')).trans (ha e' he')).symm
    have hact : (f e').active = true := PeerEntry.active_of_plant (hg _ (hmem he'))
      (List.find?_some (p := PeerEntry.active ∘ g ∘ f) hx')
    rw [find?_of_imp (Q := PeerEntry.active ∘ f) hx hact fun y hy => PeerEntry.active_of_plant (hp y hy)]
    exact congrArg some (ha e' he')

/-! ## What a recomputation reads (R76 to R83) -/

/-- The relief of a recomputation is formed on the new tier and base (R76, R81, R82). -/
theorem State.placeTier_chooseRelief (s : State) :
    s.placeTier.chooseRelief =
      (s.setShare { s.share with tier := s.chooseTier, base := s.chooseBase s.chooseTier }).chooseRelief := by
  unfold State.placeTier
  dsimp only
  split <;> rfl

/-- A recomputation reads of the line YIELDED alone, and of the demand not the view (R76 to R83). -/
theorem State.recompute_reads (s : State) (l : LineState) (v : Option DemandView)
    (hy : l.yielded = s.line.yielded) :
    ((s.setLine l).setDemand { s.demand with view := v }).recompute.share = s.recompute.share ∧
      ((s.setLine l).setDemand { s.demand with view := v }).recompute.damper = s.recompute.damper := by
  have htier : ((s.setLine l).setDemand { s.demand with view := v }).chooseTier = s.chooseTier := by
    unfold State.chooseTier
    simp only [State.setDemand_line, State.setLine_line, hy]
    rfl
  have hbase : ((s.setLine l).setDemand { s.demand with view := v }).chooseBase s.chooseTier =
      s.chooseBase s.chooseTier := by
    unfold State.chooseBase
    simp only [State.setDemand_line, State.setLine_line, hy]
    rfl
  have hrelief : ((s.setLine l).setDemand { s.demand with view := v }).placeTier.chooseRelief =
      s.placeTier.chooseRelief := by
    rw [State.placeTier_chooseRelief, State.placeTier_chooseRelief, htier, hbase]
    rfl
  constructor
  · rw [State.recompute_share, State.recompute_share, htier, hbase, hrelief]
    rfl
  · rw [State.recompute_damper, State.recompute_damper, htier, hbase, hrelief]
    rfl

/-- A recomputation of a zone in PLANT_LOST gives tier 0, no relief, and the branch fully open unless the damper is
faulted or the station has yielded (R75, R77, R78). -/
theorem State.recompute_lost {s : State} (h : s.peers.plantLost = true) :
    s.recompute.share.tier = 0 ∧ s.recompute.share.relief = 0 ∧
      s.recompute.share.base =
        (if s.damper.state = .faulted then .unknown
        else if s.line.yielded = true then .percent s.zp.omin else .percent 100) := by
  have ht := s.chooseTier_zero (.inr (.inr h))
  rw [State.recompute_share]
  refine ⟨ht, ?_, ?_⟩
  · show s.placeTier.chooseRelief = 0
    rw [State.placeTier_chooseRelief, ht]
    rfl
  · show s.chooseBase _ = _
    rw [State.chooseBase, h]
    rfl

/-- An offer neither faults a drive nor clears a fault (R86, R88, R94). -/
theorem Damper.offer_faulted (d : Damper) (t : Nat) : (d.offer t).state = .faulted ↔ d.state = .faulted := by
  cases hs : d.state with
  | unhomed | homing | moving | faulted => simp [Damper.offer, hs]
  | waitingBudget => by_cases hp : d.position = some t <;> simp [Damper.offer, hs, hp]
  | holding =>
    cases hp : d.position with
    | none => simp [Damper.offer, hs, hp]
    | some p =>
      by_cases ht : offerTaken p t = true
      · by_cases hb : 1 ≤ d.budget <;> simp [Damper.offer, Damper.take, hs, hp, ht, hb]
      · simp [Damper.offer, hs, hp, ht]

theorem State.recompute_faulted (s : State) : s.recompute.damper.state = .faulted ↔ s.damper.state = .faulted := by
  rw [State.recompute_damper]
  split
  · exact Damper.offer_faulted _ _
  · exact Iff.rfl

/-! ## The notices (R32, R54, R74, R75) -/

/-- The Demand Engine's facts of a followed plant (R54). -/
def PlantRecord.demandView (r : PlantRecord) : DemandView := { mode := r.mode, delivering := r.delivering }

/-- The Airflow Share Unit's facts of a followed plant (R74). -/
def PlantRecord.shareView (r : PlantRecord) : ShareView := { mode := r.mode, state := r.state, f := r.f }

/-- A notice moves a view of the old plant's facts to the new one's (R32, R54). -/
theorem DemandView.after_notice (old : Option PlantRecord) (n : PlantRecord) :
    DemandView.after (old.map PlantRecord.demandView) (old.map PlantRecord.facts) n.facts = some n.demandView := by
  cases old with
  | none => rfl
  | some o =>
    by_cases hm : o.mode = n.mode <;> by_cases hd : o.delivering = n.delivering <;>
      simp [DemandView.after, named, PlantRecord.facts, PlantRecord.demandView, hm, hd]

/-- A notice moves a view of the old plant's facts to the new one's (R32, R74). -/
theorem ShareView.after_notice (old : Option PlantRecord) (n : PlantRecord) :
    ShareView.after (old.map PlantRecord.shareView) (old.map PlantRecord.facts) n.facts = some n.shareView := by
  cases old with
  | none => rfl
  | some o =>
    by_cases hm : o.mode = n.mode <;> by_cases hs : o.state = n.state <;> by_cases hf : o.f = n.f <;>
      simp [ShareView.after, named, PlantRecord.facts, PlantRecord.shareView, hm, hs, hf]

/-- A notice recomputes exactly on facts that sharing reads (R75 items 2 and 3). -/
theorem noticeRecomputes_iff (old : Option PlantRecord) (n : PlantRecord) :
    noticeRecomputes (old.map PlantRecord.facts) n.facts = true ↔ ¬sameForSharing old (some n) := by
  cases old with
  | none => simp [noticeRecomputes, named, sameForSharing]
  | some o =>
    by_cases hm : o.mode = n.mode
    · by_cases hd : o.delivering = n.delivering
      · by_cases hf : o.f = n.f
        · by_cases ho : o.state = .defrost <;> by_cases hn : n.state = .defrost <;>
            simp [noticeRecomputes, named, PlantRecord.facts, sameForSharing, hm, hd, hf, ho, hn]
        · simp [noticeRecomputes, named, PlantRecord.facts, sameForSharing, hf]
      · simp [noticeRecomputes, named, PlantRecord.facts, sameForSharing, hd]
    · simp [noticeRecomputes, named, PlantRecord.facts, sameForSharing, hm]

theorem sameForSharing_refl (r : Option PlantRecord) : sameForSharing r r := by
  cases r <;> simp [sameForSharing]

/-- Two plants with the same facts give the views the same facts, and sharing nothing to recompute (R32). -/
theorem same_of_facts {old : Option PlantRecord} {n : PlantRecord}
    (h : old.map PlantRecord.facts = some n.facts) :
    old.map PlantRecord.demandView = some n.demandView ∧ old.map PlantRecord.shareView = some n.shareView ∧
      sameForSharing old (some n) := by
  obtain ⟨o, rfl, ho⟩ := Option.map_eq_some_iff.1 h
  simp only [PlantRecord.facts, Facts.mk.injEq] at ho
  obtain ⟨hm, hs, hd, hf⟩ := ho
  simp [PlantRecord.demandView, PlantRecord.shareView, sameForSharing, hm, hs, hd, hf]

/-- The views of a sound zone are the followed plant's facts (R54, R74). -/
theorem State.FollowSound.views {s : State} (h : s.FollowSound) :
    s.demand.view = s.peers.followedRecord.map PlantRecord.demandView ∧
      s.share.view = s.peers.followedRecord.map PlantRecord.shareView := ⟨h.demandView, h.shareView⟩

/-! ## The evaluation of the followed plant (R31 to R33) -/

/-- A record is followed in a sound zone exactly where an address is. -/
theorem State.FollowSound.record_eq_none {s : State} (h : s.FollowSound) (hz : s.zoneReady = true)
    (hd : s.peers.Distinct) : s.peers.followedRecord = none ↔ s.peers.followed = none := by
  have hf := h.followed
  rw [if_pos hz] at hf
  constructor
  · intro hr
    rw [hf]
    exact hd.choose_eq_none (by rw [← hf]; exact hr)
  · intro hn
    rw [Peers.followedRecord, hn]
    rfl

/-- PLANT_LOST stands in a sound zone exactly while nothing is followed and the grace has expired (R33). -/
theorem State.FollowSound.lost_iff {s : State} (h : s.FollowSound) (hz : s.zoneReady = true) :
    s.peers.plantLost = true ↔ s.peers.followed = none ∧ s.peers.grace = .expired := by
  rw [h.lost]; simp [hz]

/-- The table with the followed plant and PLANT_LOST as it gives them (R31, R33). -/
def Peers.evaluated (p : Peers) : Peers :=
  { p with followed := p.choose, plantLost := decide (p.choose = none ∧ p.grace = .expired) }

/-- A zone whose table has become `p`, once the table is evaluated and both views hold the followed plant's facts,
before any recomputation (R31, R33, R54, R74). -/
def State.follows (s : State) (p : Peers) : State :=
  ((s.setPeers p.evaluated).setDemand
    { s.demand with view := p.evaluated.followedRecord.map PlantRecord.demandView }).setShare
    { s.share with view := p.evaluated.followedRecord.map PlantRecord.shareView }

/-- The zone that has so followed its table recomputes where sharing reads what has changed (R75, R76). -/
structure State.Evaluates (s : State) (p : Peers) (l : LineState) (t : State) : Prop where
  kept : sameForSharing s.peers.followedRecord p.evaluated.followedRecord → t = (s.follows p).setLine l
  moved : ¬sameForSharing s.peers.followedRecord p.evaluated.followedRecord →
    t = ((s.follows p).setLine l).recompute

/-- Where a plant is chosen, its facts are noticed (R32, R54, R74, R75). -/
theorem State.FollowSound.notices {s : State} {p : Peers} {r : PlantRecord} (h : s.FollowSound)
    (hz : s.zoneReady = true) (hs : s.peers.Distinct) (hl : p.plantLost = s.peers.plantLost)
    (hr : p.choose.bind p.plantAt = some r) :
    s.Evaluates p s.line
      ((s.setPeers p).evaluatePlant (s.peers.followedRecord.map PlantRecord.facts)) := by
  have hsome : p.choose ≠ none := fun hn => by rw [hn] at hr; cases hr
  have hev : { p with followed := p.choose, plantLost := false } = p.evaluated := by
    simp [Peers.evaluated, hsome]
  have hnew : p.evaluated.followedRecord = some r := hr
  obtain ⟨hdv, hsv⟩ := h.views
  have hview : DemandView.after s.demand.view (s.peers.followedRecord.map PlantRecord.facts) r.facts =
      some r.demandView := by rw [hdv]; exact DemandView.after_notice _ _
  have hshare : ShareView.after s.share.view (s.peers.followedRecord.map PlantRecord.facts) r.facts =
      some r.shareView := by rw [hsv]; exact ShareView.after_notice _ _
  have hfollows : ((s.setPeers p.evaluated).setDemand { s.demand with view := some r.demandView }).setShare
      { s.share with view := some r.shareView } = s.follows p := by
    simp only [State.follows, hnew, Option.map_some]
  have heq : (s.setPeers p).evaluatePlant (s.peers.followedRecord.map PlantRecord.facts) =
      if decide (s.peers.followedRecord.map PlantRecord.facts = some r.facts) && !s.peers.plantLost then
        s.setPeers p.evaluated
      else
        (if noticeRecomputes (s.peers.followedRecord.map PlantRecord.facts) r.facts || s.peers.plantLost then
          (s.follows p).recompute
        else s.follows p) := by
    simp only [State.evaluatePlant, State.setPeers_peers, hr, hev, hl, State.plantNotice, State.setPeers_demand,
      State.setPeers_share, State.setDemand_share, hview, hshare]
    rw [← hfollows]
    rfl
  have hrec := noticeRecomputes_iff s.peers.followedRecord r
  rw [heq]
  refine ⟨fun hsame => ?_, fun hsame => ?_⟩ <;> rw [hnew] at hsame
  · have hnotLost : s.peers.plantLost = false := by
      by_contra hc
      obtain ⟨hnone, _⟩ := (h.lost_iff hz).1 (by simpa using hc)
      rw [(h.record_eq_none hz hs).2 hnone] at hsame
      exact hsame
    have hno : noticeRecomputes (s.peers.followedRecord.map PlantRecord.facts) r.facts = false := by
      rw [← Bool.not_eq_true, hrec]; exact not_not_intro hsame
    split
    next hc =>
      simp only [Bool.and_eq_true, decide_eq_true_eq] at hc
      obtain ⟨hd1, hs1, _⟩ := same_of_facts hc.1
      rw [← hfollows, ← hd1, ← hs1, ← hdv, ← hsv]
      rfl
    next => rw [hno, hnotLost]; rfl
  · have hchanged : ¬s.peers.followedRecord.map PlantRecord.facts = some r.facts :=
      fun hc => hsame (same_of_facts hc).2.2
    rw [decide_eq_false hchanged, hrec.2 hsame]
    rfl

/-- Where no plant is chosen, the loss of one that was followed is noticed, with a report where PLANT_LOST is new (R32,
R33, R54, R74, R75). -/
theorem State.FollowSound.loses {s : State} {p : Peers} (h : s.FollowSound) (hz : s.zoneReady = true)
    (hs : s.peers.Distinct) (hd : p.Distinct) (hf : p.followed = s.peers.followed)
    (hl : p.plantLost = s.peers.plantLost) (hg : p.grace = s.peers.grace)
    (hr : p.choose.bind p.plantAt = none) :
    ∃ l, s.line.Prompted l ∧ (s.peers.plantLost = false → p.evaluated.plantLost = true → l.main.pending = true) ∧
      s.Evaluates p l
        ((s.setPeers p).evaluatePlant (s.peers.followedRecord.map PlantRecord.facts)) := by
  have hnone : p.choose = none := hd.choose_eq_none hr
  have hnew : p.evaluated.followedRecord = none := hr
  obtain ⟨hdv, hsv⟩ := h.views
  have hlost := h.lost_iff hz
  cases hfol : s.peers.followed with
  | none =>
    -- nothing was followed, and nothing is
    have hold : s.peers.followedRecord = none := (h.record_eq_none hz hs).2 hfol
    have hev : p.evaluated = p := by
      have hp : p.plantLost = decide (p.choose = none ∧ p.grace = .expired) := by
        rw [hl, hg, hnone, Bool.eq_iff_iff, hlost, hfol]; simp
      rw [Peers.evaluated, ← hp, hnone, ← hfol, ← hf]
    have heq : (s.setPeers p).evaluatePlant (s.peers.followedRecord.map PlantRecord.facts) = s.setPeers p := by
      simp [State.evaluatePlant, hr, hf, hfol]
    rw [heq]
    refine ⟨s.line, .refl _, fun h1 h2 => ?_, fun _ => ?_, fun hn => (hn ?_).elim⟩
    · rw [hev, hl, h1] at h2; cases h2
    · rw [hold] at hdv hsv
      rw [State.follows, hnew, ← hdv, ← hsv, hev]
      rfl
    · rw [hold, hnew]; exact trivial
  | some a =>
    have hnotLost : s.peers.plantLost = false := by
      by_contra hc
      rw [(hlost.1 (by simpa using hc)).1] at hfol
      cases hfol
    have hrec : s.peers.followedRecord ≠ none := fun hc => by
      rw [(h.record_eq_none hz hs).1 hc] at hfol; cases hfol
    have hev : { p with followed := none, plantLost := decide (p.grace = .expired) } = p.evaluated := by
      simp [Peers.evaluated, hnone]
    have hmoved : ¬sameForSharing s.peers.followedRecord p.evaluated.followedRecord := by
      rw [hnew]
      obtain ⟨o, ho⟩ := Option.ne_none_iff_exists'.1 hrec
      rw [ho]
      exact id
    have heq : (s.setPeers p).evaluatePlant (s.peers.followedRecord.map PlantRecord.facts) =
        State.lossNotice (if p.grace = .expired then (s.setPeers p.evaluated).prompt
          else s.setPeers p.evaluated) := by
      rw [← hev]
      by_cases hx : p.grace = .expired <;> simp [State.evaluatePlant, hr, hf, hfol, hl, hnotLost, hx]
    have hloss (l : LineState) : ((s.setPeers p.evaluated).setLine l).lossNotice =
        ((s.follows p).setLine l).recompute := by
      rw [State.follows, hnew]
      rfl
    rw [heq]
    split
    next => exact ⟨_, .inr rfl, fun _ _ => rfl, fun hsame => (hmoved hsame).elim, fun _ => hloss _⟩
    next hx =>
      refine ⟨s.line, .refl _, fun _ hp => ?_, fun hsame => (hmoved hsame).elim, fun _ => hloss s.line⟩
      exact absurd (of_decide_eq_true hp : p.choose = none ∧ _).2 hx

/-- An evaluation of a sound zone whose table has become `p` (R31 to R33, R54, R74 to R76). -/
theorem State.FollowSound.evaluates {s : State} {p : Peers} (h : s.FollowSound) (hz : s.zoneReady = true)
    (hs : s.peers.Distinct) (hd : p.Distinct) (hf : p.followed = s.peers.followed)
    (hl : p.plantLost = s.peers.plantLost) (hg : p.grace = s.peers.grace) :
    ∃ l, s.line.Prompted l ∧ (s.peers.plantLost = false → p.evaluated.plantLost = true → l.main.pending = true) ∧
      s.Evaluates p l
        ((s.setPeers p).evaluatePlant (s.peers.followedRecord.map PlantRecord.facts)) := by
  cases hr : p.choose.bind p.plantAt with
  | some r =>
    refine ⟨s.line, .refl _, fun h1 h2 => ?_, h.notices hz hs hl hr⟩
    have hc := (of_decide_eq_true h2 : p.choose = none ∧ _).1
    rw [hc] at hr
    cases hr
  | none => exact h.loses hz hs hd hf hl hg hr

/-- The tables of the recomputed and the evaluated zone are one. -/
theorem State.Evaluates.peers {s t : State} {p : Peers} {l : LineState} (h : s.Evaluates p l t) :
    t.peers = p.evaluated := by
  by_cases hsame : sameForSharing s.peers.followedRecord p.evaluated.followedRecord
  · rw [h.kept hsame]; rfl
  · rw [h.moved hsame, State.recompute_peers]; rfl

/-- Of the demand an evaluation changes the view alone (R54). -/
theorem State.Evaluates.demand {s t : State} {p : Peers} {l : LineState} (h : s.Evaluates p l t) :
    t.demand = { s.demand with view := p.evaluated.followedRecord.map PlantRecord.demandView } := by
  by_cases hsame : sameForSharing s.peers.followedRecord p.evaluated.followedRecord
  · rw [h.kept hsame]; rfl
  · rw [h.moved hsame, State.recompute_demand]; rfl

/-- The Airflow Share Unit's view is the followed plant's facts, and its inputs stand (R71, R74). -/
theorem State.Evaluates.share {s t : State} {p : Peers} {l : LineState} (h : s.Evaluates p l t) :
    t.share.view = p.evaluated.followedRecord.map PlantRecord.shareView ∧ t.share.inputs = s.share.inputs := by
  by_cases hsame : sameForSharing s.peers.followedRecord p.evaluated.followedRecord
  · rw [h.kept hsame]; exact ⟨rfl, rfl⟩
  · rw [h.moved hsame, State.recompute_share]; exact ⟨rfl, rfl⟩

/-- Where sharing reads what has changed, tier, base, relief, target and damper are those of one recomputation on the
new table and views (R75, R76). -/
theorem State.Evaluates.recomputed {s t : State} {p : Peers} {l : LineState} (h : s.Evaluates p l t)
    (hy : l.yielded = s.line.yielded)
    (hmoved : ¬sameForSharing s.peers.followedRecord p.evaluated.followedRecord) :
    t.share = ((s.setPeers t.peers).setShare { s.share with view := t.share.view }).recompute.share ∧
      t.damper = ((s.setPeers t.peers).setShare { s.share with view := t.share.view }).recompute.damper := by
  rw [h.peers, h.share.1, h.moved hmoved]
  exact State.recompute_reads ((s.setPeers p.evaluated).setShare
    { s.share with view := p.evaluated.followedRecord.map PlantRecord.shareView }) l _ hy

/-- A sound zone is sound after an evaluation of its table (R31 to R33, R54, R74). -/
theorem State.FollowSound.evaluated {s t : State} {p : Peers} {l : LineState} (h : s.FollowSound)
    (hz : s.zoneReady = true) (htz : t.zoneReady = true) (hg : p.grace = s.peers.grace) (e : s.Evaluates p l t) :
    t.FollowSound where
  followed := by rw [if_pos htz, e.peers]; rfl
  lost := by
    rw [e.peers, iff_true_intro htz, true_and]
    exact decide_eq_true_iff
  grace := by
    refine iff_of_true htz ?_
    rw [e.peers]
    show p.grace ≠ _
    rw [hg]
    exact h.grace.1 hz
  demandView := by rw [e.demand, e.peers]; rfl
  shareView := by rw [e.share.1, e.peers]; rfl

/-! ## What leaves the followed plant alone -/

/-- The loader, the peer table and the two plant views stand (R31, R54, R74). -/
structure ViewFrame (s t : State) : Prop where
  loader : t.loader = s.loader
  peers : t.peers = s.peers
  demandView : t.demand.view = s.demand.view
  shareView : t.share.view = s.share.view

theorem ViewFrame.refl (s : State) : ViewFrame s s := ⟨rfl, rfl, rfl, rfl⟩

theorem ViewFrame.trans {s t u : State} (h : ViewFrame s t) (k : ViewFrame t u) : ViewFrame s u :=
  ⟨k.loader.trans h.loader, k.peers.trans h.peers, k.demandView.trans h.demandView, k.shareView.trans h.shareView⟩

theorem PlantFrame.viewFrame {s t : State} (h : PlantFrame s t) : ViewFrame s t :=
  ⟨h.loader, h.peers, congrArg Demand.view h.demand, congrArg Share.view h.share⟩

theorem State.recompute_viewFrame (s : State) : ViewFrame s s.recompute :=
  ⟨s.recompute_zone.loader, s.recompute_peers, congrArg Demand.view s.recompute_demand, by rw [State.recompute_share]⟩

theorem State.zoneReady_of_loader {s t : State} (h : t.loader = s.loader) : t.zoneReady = s.zoneReady := by
  unfold State.zoneReady State.ready; rw [h]

theorem ViewFrame.zoneReady {s t : State} (h : ViewFrame s t) : t.zoneReady = s.zoneReady :=
  State.zoneReady_of_loader h.loader

theorem ViewFrame.followSound {s t : State} (f : ViewFrame s t) (h : s.FollowSound) : t.FollowSound where
  followed := by rw [f.peers, f.zoneReady]; exact h.followed
  lost := by rw [f.peers, f.zoneReady]; exact h.lost
  grace := by rw [f.peers, f.zoneReady]; exact h.grace
  demandView := by rw [f.peers, f.demandView]; exact h.demandView
  shareView := by rw [f.peers, f.shareView]; exact h.shareView

/-- A table that keeps its plants keeps the followed plant's soundness (R31). -/
theorem State.FollowSound.samePlants {s : State} {p : Peers} (h : s.FollowSound) (hp : s.peers.SamePlants p)
    (hf : p.followed = s.peers.followed) (hl : p.plantLost = s.peers.plantLost) (hg : p.grace = s.peers.grace) :
    (s.setPeers p).FollowSound := by
  have hrec : p.followedRecord = s.peers.followedRecord := by
    rw [Peers.followedRecord, Peers.followedRecord, hf, funext hp.plantAt]
  exact
    { followed := by
        rw [State.setPeers_peers, State.setPeers_zoneReady, hf, hp.choose]; exact h.followed
      lost := by rw [State.setPeers_peers, State.setPeers_zoneReady, hf, hl, hg]; exact h.lost
      grace := by rw [State.setPeers_peers, State.setPeers_zoneReady, hg]; exact h.grace
      demandView := by rw [State.setPeers_peers, hrec]; exact h.demandView
      shareView := by rw [State.setPeers_peers, hrec]; exact h.shareView }

/-- Outside a READY zone station the table may change: nothing is followed there (R31). -/
theorem State.FollowSound.unread {s : State} {p : Peers} (h : s.FollowSound) (hz : s.zoneReady = false)
    (hf : p.followed = s.peers.followed) (hl : p.plantLost = s.peers.plantLost) (hg : p.grace = s.peers.grace) :
    (s.setPeers p).FollowSound := by
  have hnone : s.peers.followed = none := by have := h.followed; rwa [hz] at this
  have hrec : p.followedRecord = s.peers.followedRecord := by
    rw [Peers.followedRecord, Peers.followedRecord, hf, hnone]; rfl
  exact
    { followed := by
        rw [State.setPeers_peers, State.setPeers_zoneReady, hf, hnone, hz]; rfl
      lost := by rw [State.setPeers_peers, State.setPeers_zoneReady, hf, hl, hg]; exact h.lost
      grace := by rw [State.setPeers_peers, State.setPeers_zoneReady, hg]; exact h.grace
      demandView := by rw [State.setPeers_peers, hrec]; exact h.demandView
      shareView := by rw [State.setPeers_peers, hrec]; exact h.shareView }

end Sys2Proof.Machine
end

