-- ==== Sys2Proof/Proofs/Ageing.lean ====
section
/-! PROOFS. The grace timer and the age timer: what each threshold does to its entry, and what the removal of plants
does to a zone that follows one (R26 to R29, R31 to R33, R75). -/

namespace Sys2Proof.Machine

/-! ## The grace timer (R33) -/

/-- Settles O32: the loss is one recomputation in PLANT_LOST. -/
theorem graceTimerLosesThePlant : Obligations.GraceTimerLosesThePlant := by
  intro s hz hg
  have hrun : (s.zoneReady && decide (s.peers.grace = .running)) = true := by simp [hz, hg]
  refine ⟨fun hf => ?_, fun hf => ?_⟩
  · have hn : ¬s.peers.followed.isNone = true := by simp [Option.isNone_iff_eq_none, Option.isSome_iff_ne_none.1 hf]
    simp only [exec, execGraceTimer, hrun, if_true]
    rw [if_neg hn]
    rfl
  · let u := (s.setPeers { s.peers with grace := .expired, plantLost := true }).prompt
    have hexec : exec .graceTimer s = .next u.recompute.settle := by
      simp only [exec, execGraceTimer, hrun, if_true]
      rw [if_pos (by rw [hf]; rfl)]
      rfl
    obtain ⟨htier, hrelief, hbase⟩ := State.recompute_lost (s := u) rfl
    have hf := u.recompute_zone
    refine ⟨_, hexec, u.recompute_peers, ?_, htier, hrelief, hbase, ?_, ?_, hf.loader, hf.sensors,
      u.recompute_demand, hf.modeSel, hf.capacity, hf.engine, hf.protection, hf.frost, hf.pending⟩
    · exact (congrArg KindState.pending (LineState.settle_main _ _)).trans (State.recompute_pending (.inl rfl))
    · rw [State.settle_share, State.recompute_share]; rfl
    · rw [State.settle_share, State.recompute_share]; rfl

/-! ## The thresholds of one entry (R27, R28) -/

/-- A FRESH entry has reached its class's LATE threshold (R27). -/
def PeerEntry.dueLate (e : PeerEntry) : Bool :=
  match e.held with
  | some h => decide (h.freshness = .fresh ∧ h.contents.lateAge ≤ h.age)
  | none => false

/-- A LATE entry has reached its class's removal threshold (R28). -/
def PeerEntry.dueRemoval (e : PeerEntry) : Bool :=
  match e.held with
  | some h => decide (h.freshness = .late ∧ h.contents.removalAge ≤ h.age)
  | none => false

/-- The plant record among an entry's contents (R20). -/
def Contents.plantRecord (c : Contents) : Option PlantRecord :=
  match c with
  | .plant r => some r
  | .zone _ => none

theorem PeerEntry.plant_eq (e : PeerEntry) : e.plant = e.held.bind fun h => h.contents.plantRecord := by
  obtain ⟨a, _ | ⟨fr, n, _ | r⟩⟩ := e <;> rfl

/-- An entry once its thresholds are applied: removed, LATE, or as it was (R27, R28). -/
def PeerEntry.ripe (e : PeerEntry) : PeerEntry :=
  if e.dueRemoval then { e with held := none }
  else if e.dueLate then { e with held := e.held.map fun h => { h with freshness := .late } }
  else e

@[simp] theorem PeerEntry.ripe_address (e : PeerEntry) : e.ripe.address = e.address := by
  unfold PeerEntry.ripe
  split
  · rfl
  · split <;> rfl

theorem PeerEntry.ripe_plant (e : PeerEntry) : e.ripe.plant = e.plant ∨ e.ripe.plant = none := by
  unfold PeerEntry.ripe
  split
  · exact .inr rfl
  · split
    · rw [PeerEntry.plant_eq, PeerEntry.plant_eq]
      cases e.held <;> exact .inl rfl
    · exact .inl rfl

/-- An age's advance, then the thresholds: what the age timer does to one entry (R26, R27, R28). -/
theorem PeerEntry.older_ripe (e : PeerEntry) :
    e.older.ripe = e.afterAgeTimer ∧ e.older.dueLate = e.turnsLate ∧ e.older.dueRemoval = e.isRemoved := by
  obtain ⟨a, held⟩ := e
  match held with
  | none => exact ⟨rfl, rfl, rfl⟩
  | some ⟨fr, n, c⟩ =>
    have hage : ageUp n 1 = min 65535 (n + 1) := rfl
    have hlate : (PeerEntry.older ⟨a, some ⟨fr, n, c⟩⟩).dueLate = PeerEntry.turnsLate ⟨a, some ⟨fr, n, c⟩⟩ := by
      cases fr <;> cases c <;>
        simp [PeerEntry.dueLate, PeerEntry.older, PeerEntry.turnsLate, Contents.lateAge, hage]
    have hremoved : (PeerEntry.older ⟨a, some ⟨fr, n, c⟩⟩).dueRemoval =
        PeerEntry.isRemoved ⟨a, some ⟨fr, n, c⟩⟩ := by
      cases fr <;> cases c <;>
        simp [PeerEntry.dueRemoval, PeerEntry.older, PeerEntry.isRemoved, Contents.removalAge, hage]
    refine ⟨?_, hlate, hremoved⟩
    rw [PeerEntry.ripe, hlate, hremoved, PeerEntry.afterAgeTimer]
    dsimp only
    split
    · rfl
    · split <;> rfl

/-! ## The thresholds of one entry, in the table (R26) -/

/-- The table once the thresholds are applied to the entry `e`, which stands in it: the entry ripe, and each threshold
reached counted (R27, R28, R29). -/
def Peers.ripen (p : Peers) (e : PeerEntry) : Peers :=
  { p.setHeld e.address e.ripe.held with
    lateEvents := if e.dueLate then p.lateEvents + 1 else p.lateEvents
    peersLost := if e.dueRemoval then p.peersLost + 1 else p.peersLost }

/-- Setting what an entry holds to what it holds changes nothing. -/
theorem Peers.Distinct.setHeld_self {p : Peers} (h : p.Distinct) {e : PeerEntry} (he : e ∈ p.entries) :
    p.setHeld e.address e.held = p := by
  have hmap : (p.entries.map fun f => if f.address = e.address then { f with held := e.held } else f) =
      p.entries.map id := List.map_congr_left fun f hf => by
    split
    next ha => rw [h.eq hf he ha]; rfl
    next => rfl
  rw [Peers.setHeld, hmap, List.map_id]

/-- The thresholds applied at an address other than the own one: the entry there is made ripe, and where a zone so
loses a plant, the followed plant is evaluated (R26 to R28, R31). -/
theorem State.ageEntry_cases {s : State} (hd : s.peers.Distinct) {e : PeerEntry} (he : e ∈ s.peers.entries)
    (hne : e.address ≠ s.address) :
    (s.ageEntry e.address = s.setPeers (s.peers.ripen e) ∧
      (s.loader.straps.role = .zone → e.ripe.plant = e.plant)) ∨
    (s.loader.straps.role = .zone ∧
      s.ageEntry e.address =
        (s.setPeers (s.peers.ripen e)).evaluatePlant (s.peers.followedRecord.map PlantRecord.facts)) := by
  have hage : s.ageEntry e.address = match e.held with
      | some h => s.ageOut e.address h
      | none => s := by
    rw [State.ageEntry, if_neg hne, hd.entry he]
    rfl
  rw [hage]
  cases hh : e.held with
  | none =>
    have hr : e.ripe = e := by simp [PeerEntry.ripe, PeerEntry.dueRemoval, PeerEntry.dueLate, hh]
    have hp : s.peers.ripen e = s.peers := by
      rw [Peers.ripen, hr, hd.setHeld_self he]
      simp [PeerEntry.dueRemoval, PeerEntry.dueLate, hh]
    exact .inl ⟨by rw [hp]; rfl, fun _ => by rw [hr]⟩
  | some h =>
    dsimp only
    unfold State.ageOut
    cases hf : h.freshness with
    | fresh =>
      have hnr : e.dueRemoval = false := by simp [PeerEntry.dueRemoval, hh, hf]
      have hlate : e.dueLate = decide (h.contents.lateAge ≤ h.age) := by simp [PeerEntry.dueLate, hh, hf]
      have hplant : e.ripe.plant = e.plant := by
        rw [PeerEntry.ripe, hnr, PeerEntry.plant_eq, PeerEntry.plant_eq]
        cases e.dueLate <;> simp [hh]
      refine .inl ⟨?_, fun _ => hplant⟩
      dsimp only
      split
      next hl =>
        have hlate' : e.dueLate = true := hlate.trans (decide_eq_true hl)
        have hp : { s.peers.setHeld e.address (some { h with freshness := .late }) with
            lateEvents := s.peers.lateEvents + 1 } = s.peers.ripen e := by
          simp [Peers.ripen, PeerEntry.ripe, hnr, hlate', hh]
          rfl
        rw [hp]
      next hl =>
        have hlate' : e.dueLate = false := hlate.trans (decide_eq_false hl)
        have hr : e.ripe = e := by simp [PeerEntry.ripe, hnr, hlate']
        rw [Peers.ripen, hr, hd.setHeld_self he, hnr, hlate']
        rfl
    | late =>
      have hnl : e.dueLate = false := by simp [PeerEntry.dueLate, hh, hf]
      have hrem : e.dueRemoval = decide (h.contents.removalAge ≤ h.age) := by simp [PeerEntry.dueRemoval, hh, hf]
      dsimp only
      split
      next hl =>
        have hrem' : e.dueRemoval = true := hrem.trans (decide_eq_true hl)
        have hp : { s.peers.setHeld e.address none with peersLost := s.peers.peersLost + 1 } = s.peers.ripen e := by
          simp [Peers.ripen, PeerEntry.ripe, hnl, hrem']
          rfl
        rw [hp]
        cases hrole : s.loader.straps.role with
        | plant => exact .inl ⟨rfl, fun hc => nomatch hc⟩
        | zone =>
          cases hc : h.contents with
          | zone r =>
            exact .inl ⟨rfl, fun _ => by
              simp [PeerEntry.ripe, hrem', PeerEntry.plant_eq, hh, hc, Contents.plantRecord]⟩
          | plant r => exact .inr ⟨rfl, rfl⟩
      next hl =>
        have hrem' : e.dueRemoval = false := hrem.trans (decide_eq_false hl)
        have hr : e.ripe = e := by simp [PeerEntry.ripe, hnl, hrem']
        refine .inl ⟨?_, fun _ => by rw [hr]⟩
        rw [Peers.ripen, hr, hd.setHeld_self he, hnl, hrem']
        rfl

/-- What the thresholds of one entry do to the table (R26 to R28). -/
theorem Peers.Distinct.ripen_maps {p : Peers} (h : p.Distinct) {e : PeerEntry} (he : e ∈ p.entries) :
    p.Maps (p.ripen e) fun f => if f = e then e.ripe else f := by
  refine ⟨List.map_congr_left fun f hf => ?_, fun f _ => ?_⟩
  · by_cases ha : f.address = e.address
    · rw [if_pos ha, if_pos (h.eq hf he ha), ha, ← e.ripe_address]
    · rw [if_neg ha, if_neg fun hc => ha (congrArg _ hc)]
  · dsimp only
    split
    next hfe => rw [hfe]; exact e.ripe_address
    next => rfl

theorem Peers.Distinct.ripen_fewer {p : Peers} (h : p.Distinct) {e : PeerEntry} (he : e ∈ p.entries) :
    p.Fewer (p.ripen e) := by
  refine ⟨_, h.ripen_maps he, fun f _ => ?_⟩
  split
  next hfe => rw [hfe]; exact e.ripe_plant
  next => exact .inl rfl

theorem Peers.Distinct.ripen_samePlants {p : Peers} (h : p.Distinct) {e : PeerEntry} (he : e ∈ p.entries)
    (hp : e.ripe.plant = e.plant) : p.SamePlants (p.ripen e) := by
  refine ⟨_, h.ripen_maps he, fun f _ => ?_⟩
  split
  next hfe => rw [hfe]; exact hp
  next => rfl

/-! ## What ageing does to a zone (R26 to R33) -/

/-- The operation changes of the demand the view alone, hands no new inputs to the Airflow Share Unit, and neither
faults the drive nor clears a fault. -/
structure State.KeepsInputs (s t : State) : Prop where
  demand : t.demand = { s.demand with view := t.demand.view }
  inputs : t.share.inputs = s.share.inputs
  faulted : t.damper.state = .faulted ↔ s.damper.state = .faulted

theorem State.KeepsInputs.trans {s t u : State} (h : s.KeepsInputs t) (k : t.KeepsInputs u) : s.KeepsInputs u :=
  ⟨by rw [k.demand, h.demand], k.inputs.trans h.inputs, k.faulted.trans h.faulted⟩

theorem State.KeepsInputs.recompute {s t : State} (h : s.KeepsInputs t) : s.KeepsInputs t.recompute :=
  h.trans ⟨by rw [State.recompute_demand], by rw [State.recompute_share], t.recompute_faulted⟩

theorem State.evaluatePlant_keepsInputs (old : Option Facts) (s : State) : s.KeepsInputs (s.evaluatePlant old) := by
  unfold State.evaluatePlant State.plantNotice State.lossNotice
  dsimp only
  split
  · split
    · exact ⟨rfl, rfl, Iff.rfl⟩
    · split
      · exact State.KeepsInputs.recompute ⟨rfl, rfl, Iff.rfl⟩
      · exact ⟨rfl, rfl, Iff.rfl⟩
  · split
    · exact ⟨rfl, rfl, Iff.rfl⟩
    · split <;> exact State.KeepsInputs.recompute ⟨rfl, rfl, Iff.rfl⟩

/-- What the end of a followed plant leaves of a zone once the grace has expired: the report raised, tier 0, no relief,
and the branch fully open unless the damper is faulted or the station has yielded (R33, R75, R77, R78). -/
structure State.LostPlant (s t : State) : Prop where
  pending : t.line.main.pending = true
  tier : t.share.tier = 0
  relief : t.share.relief = 0
  base : t.share.base =
    (if s.damper.state = .faulted then .unknown
    else if s.line.yielded = true then .percent s.zp.omin else .percent 100)

/-- What the age timer's operations do to a station: entries may leave the table, the followed plant stands as the table
gives it, the same one leaves demand, sharing and damper alone, and its loss opens the branch (R26 to R33). -/
structure State.Ages (s t : State) : Prop extends State.KeepsInputs s t where
  frame : ZoneFrame (s.setPeers t.peers) t
  line : s.line.Prompted t.line
  grace : t.peers.grace = s.peers.grace
  fewer : s.peers.Fewer t.peers
  sound : s.FollowSound → t.FollowSound
  kept : s.FollowSound → t.peers.followed = s.peers.followed →
    t.demand = s.demand ∧ t.share = s.share ∧ t.damper = s.damper
  lost : s.FollowSound → s.peers.followed ≠ none → t.peers.followed = none → s.peers.grace = .expired →
    s.LostPlant t

theorem State.Ages.loader {s t : State} (h : s.Ages t) : t.loader = s.loader := h.frame.loader

theorem State.Ages.zoneReady {s t : State} (h : s.Ages t) : t.zoneReady = s.zoneReady :=
  State.zoneReady_of_loader h.loader

/-- A table that changes with the followed plant, the grace and the loss as they were, and is sound again. -/
theorem State.Ages.setPeers {s : State} {p : Peers} (hf : p.followed = s.peers.followed)
    (hg : p.grace = s.peers.grace) (hp : s.peers.Fewer p)
    (hsound : s.FollowSound → (s.setPeers p).FollowSound) : s.Ages (s.setPeers p) where
  demand := rfl
  inputs := rfl
  faulted := Iff.rfl
  frame := .rfl' _
  line := .refl _
  grace := hg
  fewer := hp
  sound := hsound
  kept _ _ := ⟨rfl, rfl, rfl⟩
  lost _ hs ht := absurd (hf.symm.trans ht) hs

theorem State.Ages.refl (s : State) : s.Ages s := .setPeers rfl rfl (.refl _) id

/-- A followed plant that stands after two operations stood between them (R31). -/
theorem State.Ages.followed_between {s t u : State} (h : s.Ages t) (k : t.Ages u) (hd : s.peers.Distinct)
    (hs : s.FollowSound) (hc : u.peers.followed = s.peers.followed) :
    t.peers.followed = s.peers.followed := by
  have ht := h.sound hs
  have hst := hs.followed
  have htt := ht.followed
  have hut := (k.sound ht).followed
  rw [h.zoneReady] at htt
  rw [k.zoneReady, h.zoneReady] at hut
  cases hz : s.zoneReady with
  | false => rw [hst, htt, hz]; rfl
  | true =>
    simp only [hz, if_true] at hst htt hut
    rw [hst, htt]
    exact h.fewer.choose_between k.fewer hd (by rw [← hut, hc, hst])

theorem State.Ages.trans {s t u : State} (h : s.Ages t) (k : t.Ages u) (hd : s.peers.Distinct) : s.Ages u where
  toKeepsInputs := h.toKeepsInputs.trans k.toKeepsInputs
  frame := by
    have hf := h.frame
    have kf := k.frame
    exact ⟨kf.loader.trans hf.loader, rfl, rfl, rfl, rfl, kf.sensors.trans hf.sensors,
      kf.modeSel.trans hf.modeSel, kf.capacity.trans hf.capacity, kf.engine.trans hf.engine,
      kf.protection.trans hf.protection, kf.frost.trans hf.frost, kf.pending.trans hf.pending⟩
  line := h.line.trans k.line
  grace := k.grace.trans h.grace
  fewer := h.fewer.trans k.fewer
  sound hs := k.sound (h.sound hs)
  kept hs hc := by
    have hb := h.followed_between k hd hs hc
    obtain ⟨h1, h2, h3⟩ := h.kept hs hb
    obtain ⟨k1, k2, k3⟩ := k.kept (h.sound hs) (hc.trans hb.symm)
    exact ⟨k1.trans h1, k2.trans h2, k3.trans h3⟩
  lost hs hsome hnone hg := by
    cases ht : t.peers.followed with
    | none =>
      -- the plant was lost before, and nothing moves any more
      obtain ⟨hp, h1, h2, h3⟩ := h.lost hs hsome ht hg
      obtain ⟨_, ks, _⟩ := k.kept (h.sound hs) (hnone.trans ht.symm)
      exact ⟨k.line.pending hp, by rw [ks, h1], by rw [ks, h2], by rw [ks, h3]⟩
    | some a =>
      obtain ⟨hp, k1, k2, k3⟩ := k.lost (h.sound hs) (by rw [ht]; exact Option.some_ne_none a) hnone
        (h.grace.trans hg)
      have hzp : t.zp = s.zp := by unfold State.zp; rw [h.loader]
      refine ⟨hp, k1, k2, ?_⟩
      rw [k3, hzp, h.line.yielded]
      simp only [h.faulted]

/-- Ageing that makes a zone evaluate its plant (R28, R31, R33). -/
theorem State.Ages.evaluates {s : State} {p : Peers} (hz : s.zoneReady = true) (hd : s.peers.Distinct)
    (hf : p.followed = s.peers.followed) (hl : p.plantLost = s.peers.plantLost) (hg : p.grace = s.peers.grace)
    (hp : s.peers.Fewer p) :
    s.Ages ((s.setPeers p).evaluatePlant (s.peers.followedRecord.map PlantRecord.facts)) := by
  have hframe := State.evaluatePlant_zone (s.peers.followedRecord.map PlantRecord.facts) (s.setPeers p)
  have hkeep := State.evaluatePlant_keepsInputs (s.peers.followedRecord.map PlantRecord.facts) (s.setPeers p)
  have hline := (State.evaluatePlant_calmFrame (s.peers.followedRecord.map PlantRecord.facts) (s.setPeers p)).line
  have heval (hs : s.FollowSound) := hs.evaluates hz hd (hp.distinct hd) hf hl hg
  generalize (s.setPeers p).evaluatePlant (s.peers.followedRecord.map PlantRecord.facts) = t at *
  have htz : t.zoneReady = true := (State.zoneReady_of_loader hframe.loader).trans hz
  have hsound (hs : s.FollowSound) : t.FollowSound := by
    obtain ⟨l, _, _, e⟩ := heval hs
    exact hs.evaluated hz htz hg e
  have hfewer : s.peers.Fewer t.peers := by
    obtain ⟨f, ⟨he, ha⟩, hpl⟩ := hp
    exact ⟨f, ⟨hframe.entries.trans he, ha⟩, hpl⟩
  refine
    { toKeepsInputs := ⟨hkeep.demand, hkeep.inputs, hkeep.faulted⟩, line := hline
      grace := hframe.grace.trans hg, fewer := hfewer, sound := hsound
      frame := ⟨hframe.loader, rfl, rfl, rfl, rfl, hframe.sensors, hframe.modeSel, hframe.capacity, hframe.engine,
        hframe.protection, hframe.frost, hframe.pending⟩
      kept := fun hs hc => ?_, lost := fun hs hsome hnone hx => ?_ }
  · obtain ⟨l, _, _, e⟩ := heval hs
    have hrec : t.peers.followedRecord = s.peers.followedRecord := by
      cases hfol : s.peers.followed with
      | none =>
        rw [Peers.followedRecord, Peers.followedRecord, hc, hfol]
        rfl
      | some a =>
        have hne : t.peers.followedRecord ≠ none := fun hn => by
          rw [((hsound hs).record_eq_none htz (hfewer.distinct hd)).1 hn, hfol] at hc
          cases hc
        rw [Peers.followedRecord, hc, hfol] at hne
        rw [Peers.followedRecord, Peers.followedRecord, hc, hfol]
        exact (hfewer.plantAt a).resolve_right hne
    have hev : p.evaluated.followedRecord = s.peers.followedRecord := by rw [← e.peers]; exact hrec
    obtain ⟨hdv, hsv⟩ := hs.views
    rw [e.kept (by rw [hev]; exact sameForSharing_refl _), State.follows, hev, ← hdv, ← hsv]
    exact ⟨rfl, rfl, rfl⟩
  · obtain ⟨l, hl1, hl2, e⟩ := heval hs
    have hold : s.peers.followedRecord ≠ none := fun hn => hsome ((hs.record_eq_none hz hd).1 hn)
    have hnew : p.evaluated.followedRecord = none := by
      rw [← e.peers, Peers.followedRecord, hnone]
      rfl
    have hlost : p.evaluated.plantLost = true := by
      rw [← e.peers]
      exact ((hsound hs).lost_iff htz).2 ⟨hnone, (hframe.grace.trans hg).trans hx⟩
    have hmoved : ¬sameForSharing s.peers.followedRecord p.evaluated.followedRecord := by
      obtain ⟨o, ho⟩ := Option.ne_none_iff_exists'.1 hold
      rw [hnew, ho]
      exact id
    have hwas : s.peers.plantLost = false := by
      rw [← Bool.not_eq_true, hs.lost_iff hz]
      exact fun hc => hsome hc.1
    obtain ⟨htier, hrelief, hbase⟩ := State.recompute_lost (s := (s.follows p).setLine l) hlost
    rw [e.moved hmoved]
    refine ⟨State.recompute_pending (.inl (hl2 hwas hlost)), htier, hrelief, hbase.trans ?_⟩
    rw [State.setLine_line, hl1.yielded]
    rfl

/-- The thresholds at one address, as an operation of ageing (R26 to R28). -/
theorem State.ages_entry {s : State} (hr : s.ready = true) (hd : s.peers.Distinct) (a : Nat) :
    s.Ages (s.ageEntry a) := by
  by_cases ha : a = s.address
  · rw [State.ageEntry, if_pos ha]
    exact .refl s
  · cases he : s.peers.entry a with
    | none =>
      rw [State.ageEntry, if_neg ha, he]
      exact .refl s
    | some e =>
      have hmem := Peers.entry_mem he
      obtain rfl : e.address = a := by simpa using List.find?_some he
      obtain ⟨heq, hplant⟩ | ⟨hz, heq⟩ := State.ageEntry_cases hd hmem ha
      · rw [heq]
        refine .setPeers rfl rfl (hd.ripen_fewer hmem) fun hs => ?_
        cases hrole : s.loader.straps.role with
        | zone => exact hs.samePlants (hd.ripen_samePlants hmem (hplant hrole)) rfl rfl rfl
        | plant => exact hs.unread (by simp [State.zoneReady, hrole]) rfl rfl rfl
      · rw [heq]
        exact .evaluates (by simp [State.zoneReady, hr, hz]) hd rfl rfl rfl (hd.ripen_fewer hmem)

/-- The thresholds at every address, one after the other (R26). -/
theorem State.ages_entries (l : List Nat) :
    ∀ {s : State}, s.ready = true → s.peers.Distinct → s.Ages (l.foldl State.ageEntry s) := by
  induction l with
  | nil => exact fun _ _ => .refl _
  | cons a l ih =>
    intro s hr hd
    have h := State.ages_entry hr hd a
    have hr' : (s.ageEntry a).ready = true := by rw [State.ready, h.loader]; exact hr
    exact h.trans (ih hr' (h.fewer.distinct hd)) hd

/-- Ages advance without moving any plant (R26). -/
theorem Peers.older_samePlants (p : Peers) (own : Nat) : p.SamePlants (p.older own) := by
  refine ⟨fun e => if e.address = own then e else e.older, ⟨rfl, fun e _ => ?_⟩, fun e _ => ?_⟩ <;> dsimp only <;> split
  · rfl
  · rfl
  · rfl
  · rw [PeerEntry.plant_eq, PeerEntry.plant_eq]
    cases h : e.held <;> simp [PeerEntry.older, h]

/-- The whole expiry of the age timer, before readiness is settled (R26). -/
def State.afterAges (s : State) : State :=
  let s1 := s.setPeers (s.peers.older s.address)
  (s1.peers.entries.map PeerEntry.address).foldl State.ageEntry s1

theorem exec_ageTimer {s : State} (h : s.ready = true) : exec .ageTimer s = .next s.afterAges.settle := if_pos h

theorem State.ages_afterAges {s : State} (hr : s.ready = true) (hd : s.peers.Distinct) : s.Ages s.afterAges := by
  have hp := s.peers.older_samePlants s.address
  have h1 : s.Ages (s.setPeers (s.peers.older s.address)) :=
    .setPeers rfl rfl hp.fewer fun hs => hs.samePlants hp rfl rfl rfl
  exact h1.trans (State.ages_entries _ hr (hp.fewer.distinct hd)) hd

/-! ## The table after an expiry (R26 to R29) -/

/-- The thresholds applied to an entry other than the own one. -/
def PeerEntry.ripeBut (own : Nat) (e : PeerEntry) : PeerEntry := if e.address = own then e else e.ripe

/-- The entries other than the own one that meet a condition. -/
def countOthers (own : Nat) (c : PeerEntry → Bool) (l : List PeerEntry) : Nat :=
  (l.filter fun e => e.address ≠ own).countP c

theorem countOthers_cons (own : Nat) (c : PeerEntry → Bool) (e : PeerEntry) (l : List PeerEntry) :
    countOthers own c (e :: l) = (if e.address ≠ own ∧ c e = true then 1 else 0) + countOthers own c l := by
  unfold countOthers
  by_cases h : e.address = own <;> by_cases hc : c e = true <;> simp [h, hc, Nat.add_comm]

/-- The thresholds of one entry, in a table where the entries before it have theirs applied (R26 to R29). -/
theorem State.ageEntry_table {s : State} (hd : s.peers.Distinct) {done todo : List PeerEntry} {e : PeerEntry}
    (hl : s.peers.entries = done ++ e :: todo) :
    (s.ageEntry e.address).peers.entries = done ++ e.ripeBut s.address :: todo ∧
      (s.ageEntry e.address).peers.lateEvents =
        s.peers.lateEvents + BitVec.ofNat 16 (countOthers s.address PeerEntry.dueLate [e]) ∧
      (s.ageEntry e.address).peers.peersLost =
        s.peers.peersLost + BitVec.ofNat 16 (countOthers s.address PeerEntry.dueRemoval [e]) := by
  by_cases ha : e.address = s.address
  · rw [State.ageEntry, if_pos ha, hl]
    simp [PeerEntry.ripeBut, countOthers, ha]
  · have hmem : e ∈ s.peers.entries := by rw [hl]; simp
    have htable : (s.ageEntry e.address).peers.entries = (s.peers.ripen e).entries ∧
        (s.ageEntry e.address).peers.lateEvents = (s.peers.ripen e).lateEvents ∧
        (s.ageEntry e.address).peers.peersLost = (s.peers.ripen e).peersLost := by
      obtain ⟨heq, _⟩ | ⟨_, heq⟩ := State.ageEntry_cases hd hmem ha
      · rw [heq]; exact ⟨rfl, rfl, rfl⟩
      · have hz := State.evaluatePlant_zone (s.peers.followedRecord.map PlantRecord.facts)
          (s.setPeers (s.peers.ripen e))
        rw [heq]
        exact ⟨hz.entries, hz.late, hz.lost⟩
    obtain ⟨h1, h2, h3⟩ := htable
    rw [h1, h2, h3, (hd.ripen_maps hmem).1, hl]
    have hsame (l : List PeerEntry) (hn : e ∉ l) : (l.map fun f => if f = e then e.ripe else f) = l :=
      (List.map_congr_left fun f hf => if_neg fun hc : f = e => hn (hc ▸ hf)).trans (List.map_id l)
    have hn : (done ++ e :: todo).Nodup := by rw [← hl]; exact List.Nodup.of_map _ hd
    obtain ⟨_, hnt, hdis⟩ := List.nodup_append.1 hn
    rw [List.map_append, List.map_cons, hsame done fun hc => hdis _ hc _ List.mem_cons_self rfl,
      hsame todo (List.nodup_cons.1 hnt).1]
    refine ⟨by simp [PeerEntry.ripeBut, ha], ?_, ?_⟩
    · cases hdue : e.dueLate <;> simp [Peers.ripen, countOthers, ha, hdue]
    · cases hdue : e.dueRemoval <;> simp [Peers.ripen, countOthers, ha, hdue]

/-- The thresholds of the entries that are still to come, one after the other (R26 to R29). -/
theorem State.ageEntries_table (todo : List PeerEntry) :
    ∀ {s : State} {done : List PeerEntry}, s.ready = true → s.peers.Distinct → s.peers.entries = done ++ todo →
      let t := (todo.map PeerEntry.address).foldl State.ageEntry s
      t.peers.entries = done ++ todo.map (PeerEntry.ripeBut s.address) ∧
        t.peers.lateEvents =
          s.peers.lateEvents + BitVec.ofNat 16 (countOthers s.address PeerEntry.dueLate todo) ∧
        t.peers.peersLost =
          s.peers.peersLost + BitVec.ofNat 16 (countOthers s.address PeerEntry.dueRemoval todo) := by
  induction todo with
  | nil => intro s done _ _ hl; simp [hl, countOthers]
  | cons e todo ih =>
    intro s done hr hd hl
    obtain ⟨h1, h2, h3⟩ := State.ageEntry_table hd hl
    have ha := State.ages_entry hr hd e.address
    have hr' : (s.ageEntry e.address).ready = true := by rw [State.ready, ha.loader]; exact hr
    have haddr : (s.ageEntry e.address).address = s.address := by unfold State.address; rw [ha.loader]
    obtain ⟨k1, k2, k3⟩ := ih (done := done ++ [e.ripeBut s.address]) hr' (ha.fewer.distinct hd) (by rw [h1]; simp)
    have hcount (c : PeerEntry → Bool) :
        countOthers s.address c (e :: todo) = countOthers s.address c [e] + countOthers s.address c todo := by
      rw [countOthers_cons, countOthers_cons]; simp [countOthers]
    rw [haddr] at k1 k2 k3
    refine ⟨k1.trans (by simp), k2.trans ?_, k3.trans ?_⟩
    · rw [h2, hcount, BitVec.ofNat_add, BitVec.add_assoc]
    · rw [h3, hcount, BitVec.ofNat_add, BitVec.add_assoc]

/-- What an expiry of the age timer makes of an entry, the own one left as it is (R26 to R28). -/
theorem PeerEntry.older_ripeBut (own : Nat) (e : PeerEntry) :
    (if e.address = own then e else e.older).ripeBut own = if e.address = own then e else e.afterAgeTimer := by
  by_cases h : e.address = own
  · simp [PeerEntry.ripeBut, h]
  · have ho : e.older.address ≠ own := h
    simp [PeerEntry.ripeBut, h, ho, e.older_ripe.1]

/-- The conditions on the advanced entries, counted on the entries as they stood. -/
theorem countOthers_older (own : Nat) {c d : PeerEntry → Bool} (h : ∀ e : PeerEntry, c e.older = d e)
    (l : List PeerEntry) :
    countOthers own c (l.map fun e => if e.address = own then e else e.older) = countOthers own d l := by
  induction l with
  | nil => rfl
  | cons e l ih =>
    rw [List.map_cons, countOthers_cons, countOthers_cons, ih]
    by_cases ha : e.address = own
    · simp [ha]
    · have ho : e.older.address ≠ own := ha
      simp [ha, ho, h]

/-- The table after an expiry of the age timer (R26 to R29). -/
theorem State.afterAges_table {s : State} (hr : s.ready = true) (hd : s.peers.Distinct) :
    s.afterAges.peers.entries =
        (s.peers.entries.map fun e => if e.address = s.address then e else e.afterAgeTimer) ∧
      s.afterAges.peers.lateEvents =
        s.peers.lateEvents + BitVec.ofNat 16 (s.others.countP PeerEntry.turnsLate) ∧
      s.afterAges.peers.peersLost =
        s.peers.peersLost + BitVec.ofNat 16 (s.others.countP PeerEntry.isRemoved) := by
  have hp := s.peers.older_samePlants s.address
  obtain ⟨h1, h2, h3⟩ := State.ageEntries_table (s.peers.older s.address).entries
    (s := s.setPeers (s.peers.older s.address)) (done := []) hr (hp.fewer.distinct hd) rfl
  refine ⟨h1.trans ?_, h2.trans ?_, h3.trans ?_⟩
  · rw [List.nil_append, Peers.older, List.map_map]
    exact List.map_congr_left fun e _ => e.older_ripeBut s.address
  · exact congrArg (fun n => s.peers.lateEvents + BitVec.ofNat 16 n)
      (countOthers_older s.address (fun e => e.older_ripe.2.1) s.peers.entries)
  · exact congrArg (fun n => s.peers.peersLost + BitVec.ofNat 16 n)
      (countOthers_older s.address (fun e => e.older_ripe.2.2) s.peers.entries)

/-- Settles O31: the table entry by entry, and the zone by what ageing does to it. -/
theorem ageTimerAgesEveryEntry : Obligations.AgeTimerAgesEveryEntry := by
  intro s hr ht
  have hd := ht.distinct
  obtain ⟨h1, h2, h3⟩ := State.afterAges_table hr hd
  have ha := State.ages_afterAges hr hd
  have hset : ViewFrame s.afterAges s.afterAges.settle := ⟨rfl, rfl, rfl, rfl⟩
  have hf := ha.frame
  refine ⟨_, exec_ageTimer hr, h1, h2, h3,
    fun hs => ⟨hset.followSound (ha.sound hs), ha.kept hs, fun hsome hnone hg => ?_⟩, ha.demand, ha.inputs, ha.grace,
    hf.loader, hf.sensors, hf.modeSel, hf.capacity, hf.engine, hf.protection, hf.frost, hf.pending⟩
  obtain ⟨hp, htier, hrelief, hbase⟩ := ha.lost hs (Option.isSome_iff_ne_none.1 hsome) hnone hg
  have hz : s.zoneReady = true := by
    by_contra hc
    rw [hs.followed, if_neg hc] at hsome
    cases hsome
  refine ⟨((ha.sound hs).lost_iff (ha.zoneReady.trans hz)).2 ⟨hnone, ha.grace.trans hg⟩, ?_, htier, hrelief, hbase⟩
  exact (congrArg KindState.pending (LineState.settle_main _ _)).trans hp

end Sys2Proof.Machine
end

