-- ==== Sys2Proof/Proofs/PlantReports.lean ====
section
/-! PROOFS. What a station does with a good report of another address: a SUMMARY frame, a report that can move the
followed plant of a zone, and a second plant (R24, R25, R31 to R35, R75). -/

namespace Sys2Proof.Machine

/-! ## SUMMARY frames (R25) -/

/-- A frame of kind 3 carries no record, and no enumeration to be undefined (R5, R25). -/
theorem summary_octet {a : Nat} (h15 : a ≤ 15) (p : List Byte) :
    decodeContents (octet (3 * 16 + a)) p = none ∧ enumsGood (octet (3 * 16 + a)) p = true := by
  have hk := (header_octet (kind := 3) (a := a) (by decide) h15).1
  have hd : decodeContents (octet (3 * 16 + a)) p = none := by
    rw [decodeContents, hk, if_neg (by decide), if_neg (by decide)]
  refine ⟨hd, ?_⟩
  simp [enumsGood, hd, hk, summaryKind]

/-- Settles O28: the frame is counted, and carries nothing to the table. -/
theorem summaryFrameLeavesTheTable : Obligations.SummaryFrameLeavesTheTable := by
  intro s a payload hr hp hi ha hx h1 h15 hne hlen
  obtain ⟨hdec, henum⟩ := summary_octet h15 payload
  have hev : s.afterOctets.frameEvent (.good (octet (3 * 16 + a)) payload) = s.counted := by
    show s.counted.acceptFrame _ _ = _
    rw [State.acceptFrame, hdec]
  refine ⟨_, exec_builtFrame hr hp hi ha hx h1 h15 (.inr (.inr ⟨rfl, hlen⟩)), ?_⟩
  rw [if_pos henum, hev, s.counted.settlePlant_blocks.2.1, s.counted.settlePlant_line]
  exact ⟨rfl, rfl, rfl, rfl⟩

/-! ## Reports to a zone (R24, R31 to R33) -/

/-- A report changes its entry alone, and leaves it at its address (R24). -/
theorem Peers.take_maps (p : Peers) (a : Nat) (c : Contents) :
    p.Maps (p.take a c) fun e =>
      if e.address = a then { e with held := some { freshness := .fresh, age := 0, contents := c } } else e := by
  refine ⟨rfl, fun e _ => ?_⟩
  dsimp only
  split <;> rfl

/-- A ZONE report that stands where no plant stood leaves the plants as they were (R24, R31). -/
theorem Peers.Distinct.take_samePlants {p : Peers} (h : p.Distinct) {a : Nat} (r : ZoneRecord)
    (hn : p.plantAt a = none) : p.SamePlants (p.take a (.zone r)) := by
  refine ⟨_, p.take_maps a _, fun e he => ?_⟩
  split
  next ha =>
    rw [← ha, Peers.plantAt, h.entry he] at hn
    rw [PeerEntry.plant_eq]
    exact hn.symm
  next => rfl

/-- A sound zone whose plants stand has nothing to evaluate (R31, R33). -/
theorem State.FollowSound.evaluates_samePlants {s : State} {p : Peers} (h : s.FollowSound)
    (hz : s.zoneReady = true) (hp : s.peers.SamePlants p) (hf : p.followed = s.peers.followed)
    (hl : p.plantLost = s.peers.plantLost) (hg : p.grace = s.peers.grace) :
    s.Evaluates p s.line (s.setPeers p) := by
  have hchoose : p.choose = p.followed := by
    have hfol := h.followed
    rw [if_pos hz] at hfol
    rw [hp.choose, hf, hfol]
  have hev : p.evaluated = p := by
    have hlost : p.plantLost = decide (p.choose = none ∧ p.grace = .expired) := by
      rw [Bool.eq_iff_iff, decide_eq_true_iff, hchoose, hl, hf, hg]
      exact h.lost_iff hz
    rw [Peers.evaluated, ← hlost, hchoose]
  have hrec : p.evaluated.followedRecord = s.peers.followedRecord := by
    rw [hev, Peers.followedRecord, Peers.followedRecord, hf, funext hp.plantAt]
  obtain ⟨hdv, hsv⟩ := h.views
  refine ⟨fun _ => ?_, fun hn => (hn (hrec ▸ sameForSharing_refl _)).elim⟩
  rw [State.follows, hrec, ← hdv, ← hsv, hev]
  rfl

/-- A report to a sound zone: its entry is filled, and the followed plant evaluated (R24, R31 to R33, R54, R74, R75). -/
theorem State.FollowSound.takesReport {s : State} (h : s.FollowSound) (hz : s.zoneReady = true)
    (hd : s.peers.Distinct) (a : Nat) (c : Contents) :
    ∃ l, s.line.Prompted l ∧
      (s.peers.plantLost = false → (s.peers.take a c).evaluated.plantLost = true → l.main.pending = true) ∧
      s.Evaluates (s.peers.take a c) l (s.takeReport a c) := by
  have hrole : s.loader.straps.role = .zone := by
    simp only [State.zoneReady, Bool.and_eq_true, decide_eq_true_eq] at hz
    exact hz.2
  have heval := h.evaluates (p := s.peers.take a c) hz hd ((s.peers.take_maps a c).distinct hd) rfl rfl rfl
  unfold State.takeReport
  rw [hrole]
  cases c with
  | plant r => exact heval
  | zone r =>
    cases hp : s.peers.plantAt a with
    | some q => exact heval
    | none =>
      have hsame := h.evaluates_samePlants hz (hd.take_samePlants r hp) rfl rfl rfl
      refine ⟨s.line, .refl _, fun hn hl => ?_, hsame⟩
      rw [← hsame.peers] at hl
      exact absurd (hn.symm.trans hl) (by decide)

/-- What an evaluation reads and leaves is the same on another line. -/
theorem State.Evaluates.ofLine {s t : State} {p : Peers} {x l : LineState} (h : (s.setLine x).Evaluates p l t) :
    s.Evaluates p l t := ⟨h.kept, h.moved⟩

theorem State.Evaluates.line {s t : State} {p : Peers} {l : LineState} (h : s.Evaluates p l t) :
    l.Prompted t.line := by
  by_cases hsame : sameForSharing s.peers.followedRecord p.evaluated.followedRecord
  · rw [h.kept hsame]; exact .refl _
  · rw [h.moved hsame]; exact (State.recompute_calmFrame _).line

theorem State.Evaluates.frame {s t : State} {p : Peers} {l : LineState} (h : s.Evaluates p l t) :
    ZoneFrame (s.setPeers p) t := by
  have hf : ZoneFrame (s.setPeers p) ((s.follows p).setLine l) := by constructor <;> rfl
  by_cases hsame : sameForSharing s.peers.followedRecord p.evaluated.followedRecord
  · rw [h.kept hsame]; exact hf
  · rw [h.moved hsame]; exact hf.trans (State.recompute_zone _)

theorem LineState.Prompted.good {l l' : LineState} (h : l.Prompted l') : l'.good = l.good := by
  obtain rfl | rfl := h <;> rfl

/-- A zone has no plant state to note at the end of a line event (R152). -/
theorem State.settlePlant_zone {s : State} (h : s.zoneReady = true) : s.settlePlant = s.settle := by
  simp only [State.zoneReady, Bool.and_eq_true, decide_eq_true_eq] at h
  exact State.settlePlant_of_shown (.of_not_plantReady (State.not_plantReady_of_role h.2))

/-- A good ZONE or PLANT report from another address is counted and goes to the table (R6, R24). -/
theorem exec_otherReport {s : State} {a : Nat} {tag : Tag} {frame : List Byte} {c : Contents} (hr : s.ready = true)
    (hp : s.loader.powerAsserted = false) (hi : s.loader.inputAsserted = false) (ha : s.line.attempt = none)
    (hx : s.line.rx = .hunt) (h1 : 1 ≤ a) (h15 : a ≤ 15) (hne : a ≠ s.address)
    (hf : (∃ r, r.InRange ∧ c = .plant r ∧ frame = buildFrame 2 a (encodePlant tag r)) ∨
      ∃ r, r.InRange ∧ c = .zone r ∧ frame = buildFrame 1 a (encodeZone tag r)) :
    exec (.frameReceived frame) s = .next (s.counted.takeReport a c).settlePlant := by
  obtain ⟨r, hir, rfl, rfl⟩ | ⟨r, hir, rfl, rfl⟩ := hf
  · rw [exec_goodReport hr hp hi ha hx h1 h15 (.inr (.inl ⟨rfl, encodePlant_length tag r⟩))
      (decodeContents_plant h15 tag hir), if_neg hne]
  · rw [exec_goodReport hr hp hi ha hx h1 h15 (.inl ⟨rfl, encodeZone_length tag r⟩)
      (decodeContents_zone h15 tag hir), if_neg hne]

/-- Settles O27: the report's evaluation, by what it keeps and what it recomputes. -/
theorem reportMovesTheFollowedPlant : Obligations.ReportMovesTheFollowedPlant := by
  intro s a tag frame c hz hp hi ha hx h1 h15 hne ht hs hf
  have hr : s.ready = true := (Bool.and_eq_true_iff.1 hz).1
  have hcounted : s.counted.FollowSound := (⟨rfl, rfl, rfl, rfl⟩ : ViewFrame s s.counted).followSound hs
  obtain ⟨l, hl, hrep, e⟩ := hcounted.takesReport hz ht.distinct a c
  have hexec := exec_otherReport hr hp hi ha hx h1 h15 hne hf
  generalize s.counted.takeReport a c = u at hexec e
  have hframe := e.frame
  have huz : u.zoneReady = true := (State.zoneReady_of_loader hframe.loader).trans hz
  have hsettle : u.settlePlant = u.settle := State.settlePlant_zone huz
  have hview : ViewFrame u u.settle := ⟨rfl, rfl, rfl, rfl⟩
  have hprompted : s.counted.line.Prompted u.line := hl.trans e.line
  have hline : u.settle.line = _ := u.line.settle_eq u.ready
  have e : s.Evaluates (s.peers.take a c) l u := e.ofLine
  have hpeers := e.peers
  have hgrace : (s.peers.take a c).grace = s.peers.grace := rfl
  have hgood : u.settle.line.good = s.line.good + 1 := by rw [hline]; exact hprompted.good
  have hconflicts : u.settle.line.conflicts = s.line.conflicts := by rw [hline]; exact hprompted.conflicts
  refine ⟨_, hexec, ?_⟩
  rw [hsettle]
  refine ⟨?_, hview.followSound (hs.evaluated hz huz hgrace e), ?_, ?_, ?_, fun hn hlost => ?_, fun hsame => ?_,
    fun hmoved => ?_, hgood, hconflicts, ?_, hframe.loader, hframe.sensors, hframe.modeSel, hframe.capacity,
    hframe.engine, hframe.protection, hframe.frost, hframe.pending⟩
  · rw [State.settle_peers, hpeers]
    exact List.map_congr_left fun e _ => rfl
  · rw [State.settle_peers, hpeers]; rfl
  · rw [State.settle_peers, hpeers]; rfl
  · rw [State.settle_peers, hpeers]; rfl
  · rw [State.settle_peers, hpeers] at hlost
    rw [hline]
    exact e.line.pending (hrep hn hlost)
  · rw [State.settle_peers, hpeers] at hsame
    rw [State.settle_share, State.settle_damper, e.kept hsame]
    exact ⟨rfl, rfl⟩
  · rw [State.settle_peers, hpeers] at hmoved
    rw [State.settle_share, State.settle_damper, State.settle_peers]
    exact e.recomputed (hl.yielded) hmoved
  · rw [State.settle_demand, e.demand]

/-! ## A second plant (R34, R35) -/

/-- A PLANT report to a plant station fills its entry, and the other plant is detected (R24, R34). -/
theorem State.takeReport_plant {s : State} (hrole : s.loader.straps.role = .plant) (a : Nat) (r : PlantRecord) :
    s.takeReport a (.plant r) =
      (s.setPeers (s.peers.take a (.plant r))).detectPlant a r (s.peers.activePlant a) := by
  unfold State.takeReport
  rw [hrole]

/-- A plant station that enters STANDBY, once its entry shows it (R35). -/
def State.inStandby (s : State) : State := s.setEngine { s.engine with standby := true }

theorem State.enterStandby_eq {s : State} (h : s.engine.standby = false) : s.enterStandby = s.inStandby.dropPlant := by
  rw [State.enterStandby, h]
  rfl

/-- What a plant takes on entry to STANDBY (R35, R153, R162). -/
theorem State.PlantSound.enterStandby_dropped {s : State} (h : s.PlantSound) (hs : s.engine.standby = false) :
    s.Dropped s.enterStandby ∧ PlantFrame s.inStandby s.enterStandby := by
  have hd : s.inStandby.Dropped s.inStandby.dropPlant :=
    State.dropPlant_dropped (by simp [State.aside, State.inStandby]) fun hn => (h.idle hn).state
  rw [State.enterStandby_eq hs]
  exact ⟨{ hd with }, State.dropPlant_plant _⟩

/-- A lower active plant sends a plant station to STANDBY (R34). -/
theorem State.detectPlant_lower {s : State} {a : Nat} {r : PlantRecord} (b : Bool) (ha : a < s.address)
    (hr : r.state ≠ .standby) : s.detectPlant a r b = s.enterStandby := by
  rw [State.detectPlant, if_neg hr, if_pos ha]

/-- Any other report to a plant station counts at most a conflict: where the plant is higher, active, and was not active
at its address before (R34). -/
theorem State.detectPlant_other {s : State} {a : Nat} {r : PlantRecord} {b : Bool} (hne : a ≠ s.address)
    (h : s.address < a ∨ r.state = .standby ∨ s.engine.standby = true) :
    s.detectPlant a r b =
      if s.address < a ∧ r.state ≠ .standby ∧ b = false then s.countConflict else s := by
  unfold State.detectPlant
  by_cases hr : r.state = .standby
  · rw [if_pos hr, if_neg fun ⟨_, hn, _⟩ => hn hr]
  rw [if_neg hr]
  by_cases ha : a < s.address
  · have hs : s.engine.standby = true := (h.resolve_left (by omega)).resolve_left hr
    rw [if_pos ha, if_neg fun ⟨hlt, _⟩ => by omega, State.enterStandby, if_pos hs]
  · have hlt : s.address < a := by omega
    rw [if_neg ha]
    cases b <;> simp [hlt, hr]

/-- An entry is an active plant where it holds a plant in a state other than STANDBY (R34). -/
theorem Peers.activePlant_iff (p : Peers) (a : Nat) :
    p.activePlant a = true ↔ ∃ q, p.plantAt a = some q ∧ q.state ≠ .standby := by
  unfold Peers.activePlant
  cases p.plantAt a <;> simp

/-- A plant in STANDBY shows the plant state STANDBY and an own entry with mode OFF and no opening (R35, R152). -/
theorem State.standby_shows {s : State} (h : s.engine.standby = true) :
    s.plantState = .standby ∧ s.ownPlant.mode = .off ∧ s.ownPlant.f = 0 := by
  simp [State.plantState, plantStateOf, State.ownPlant, h]

/-- A lower active plant is heard: STANDBY is entered (R34, R35, R153, R162). -/
theorem lowerPlantSendsToStandby {s : State} {a : Nat} {tag : Tag} {r : PlantRecord} (hpr : s.plantReady = true)
    (hp : s.loader.powerAsserted = false) (hi : s.loader.inputAsserted = false) (ha : s.line.attempt = none)
    (hx : s.line.rx = .hunt) (h1 : 1 ≤ a) (hlt : a < s.address) (h15 : s.address ≤ 15) (hir : r.InRange)
    (hact : r.state ≠ .standby) (hs : s.engine.standby = false) (hsound : s.PlantSound) :
    ∃ u, exec (.frameReceived (buildFrame 2 a (encodePlant tag r))) s = .next u.settlePlant ∧
      s.Dropped u ∧ PlantFrame (s.counted.setPeers (s.peers.take a (.plant r))).inStandby u := by
  obtain ⟨hr, hrole⟩ : s.ready = true ∧ s.loader.straps.role = .plant := by
    simpa [State.plantReady] using hpr
  have hexec := exec_otherReport (tag := tag) hr hp hi ha hx h1 (by omega) (Nat.ne_of_lt hlt)
    (.inl ⟨r, hir, rfl, rfl⟩)
  have hv : (s.counted.setPeers (s.peers.take a (.plant r))).PlantSound :=
    hsound.of rfl rfl rfl rfl rfl rfl rfl rfl rfl
  obtain ⟨hd, hf⟩ := hv.enterStandby_dropped hs
  refine ⟨_, hexec, ?_⟩
  rw [State.takeReport_plant (s := s.counted) hrole, State.detectPlant_lower (s := s.counted.setPeers _) _ hlt hact]
  exact ⟨{ hd with }, hf⟩

/-- Any other PLANT report fills its entry and counts at most a conflict (R24, R34). -/
theorem otherPlantAtMostCounts {s : State} {a : Nat} {tag : Tag} {r : PlantRecord} (hpr : s.plantReady = true)
    (hp : s.loader.powerAsserted = false) (hi : s.loader.inputAsserted = false) (ha : s.line.attempt = none)
    (hx : s.line.rx = .hunt) (h1 : 1 ≤ a) (h15 : a ≤ 15) (hne : a ≠ s.address) (hir : r.InRange)
    (hshown : s.ShownSound) (hcase : s.address < a ∨ r.state = .standby ∨ s.engine.standby = true) :
    ∃ l : LineState, exec (.frameReceived (buildFrame 2 a (encodePlant tag r))) s =
        .next ((s.setPeers (s.peers.take a (.plant r))).setLine l) ∧
      l.conflicts = if s.address < a ∧ r.state ≠ .standby ∧ s.peers.activePlant a = false
        then s.line.conflicts + 1 else s.line.conflicts := by
  obtain ⟨hr, hrole⟩ : s.ready = true ∧ s.loader.straps.role = .plant := by
    simpa [State.plantReady] using hpr
  have hexec := exec_otherReport (tag := tag) hr hp hi ha hx h1 h15 hne (.inl ⟨r, hir, rfl, rfl⟩)
  rw [State.takeReport_plant (s := s.counted) hrole, State.detectPlant_other (s := s.counted.setPeers _) hne hcase]
    at hexec
  have hs : (s.setPeers (s.peers.take a (.plant r))).ShownSound := hshown
  have hend (l : LineState) : ((s.setPeers (s.peers.take a (.plant r))).setLine l).settlePlant =
      (s.setPeers (s.peers.take a (.plant r))).setLine (l.settle s.ready) := State.settlePlant_setLine hs l
  split at hexec
  next hc =>
    refine ⟨_, hexec.trans (congrArg _ (hend s.counted.countConflict.line)), ?_⟩
    rw [LineState.settle_eq]
    exact (if_pos hc).symm
  next hc =>
    refine ⟨_, hexec.trans (congrArg _ (hend s.counted.line)), ?_⟩
    rw [LineState.settle_eq]
    exact (if_neg hc).symm

/-- Settles O30: entry to STANDBY, or a report that at most counts a conflict. -/
theorem secondPlantIsDetected : Obligations.SecondPlantIsDetected := by
  refine ⟨fun s a tag r hpr hp hi ha hx h1 hlt h15 hir hact hs hsound => ?_,
    fun s a tag r hpr hp hi ha hx h1 h15 hne hir hshown hcase => ?_⟩
  · obtain ⟨u, hexec, hd, hf⟩ := lowerPlantSendsToStandby (tag := tag) hpr hp hi ha hx h1 hlt h15 hir hact hs hsound
    obtain ⟨b1, _, b3, b4, b5, b6, _, b8, b9, b10, b11⟩ := u.settlePlant_blocks
    have he := u.settlePlant_engine
    have hstandby : u.settlePlant.engine.standby = true := by rw [he]; exact hf.standby
    obtain ⟨s1, s2, s3⟩ := State.standby_shows hstandby
    have hvalve : u.settlePlant.valveEnergised = false := by
      rw [State.valveEnergised, b1, hf.loader, he]
      exact decide_eq_false (hd.valve ▸ deEnergised_ne _)
    refine ⟨_, hexec, hstandby, ?_⟩
    rw [s1, s2, s3, hvalve, b1, b3, b4, b5, b6, b8, b9, b10, b11, he]
    exact ⟨hd.run, hd.running, hd.state, hd.speed, hd.blower, rfl, rfl, hd.requests, hd.waiting, hd.index, hd.aborted,
      fun hrun => ⟨hd.openRun, hd.closed hrun⟩, rfl, rfl, hf.loader, hf.sensors, hf.demand, hf.share, hf.damper,
      hf.pending⟩
  · obtain ⟨l, hexec, hl⟩ := otherPlantAtMostCounts (tag := tag) hpr hp hi ha hx h1 h15 hne hir hshown hcase
    refine ⟨_, hexec, rfl, fun hlt hact => ⟨fun hwas => ?_, fun hnot => ?_⟩, fun hlow => ?_, rfl⟩
    · have hb := (s.peers.activePlant_iff a).2 hwas
      exact hl.trans (if_neg fun ⟨_, _, hn⟩ => by rw [hb] at hn; cases hn)
    · have hb : s.peers.activePlant a = false :=
        Bool.eq_false_iff.2 fun hb =>
          have ⟨q, hq, hn⟩ := (s.peers.activePlant_iff a).1 hb
          hn (hnot q hq)
      exact hl.trans (if_pos ⟨hlt, hact, hb⟩)
    · exact hl.trans (if_neg fun ⟨hlt, hact, _⟩ => hlow.elim (fun h => by omega) hact)

end Sys2Proof.Machine
end

