-- ==== Sys2Proof/Proofs/PeerTable.lean ====
section
/-! PROOFS. The peer table, the followed plant, PLANT_LOST and the views over every command: what leaves them alone,
what reports, ages and the grace do to them, and how the load begins them (R19, R23, R31 to R33, R54, R74, R187). -/

namespace Sys2Proof.Machine

/-! ## The invariant -/

/-- The table is sound, and with `F` so are the followed plant, PLANT_LOST and the views. -/
structure State.PeerSound (F : Prop) (s : State) : Prop where
  table : s.TableSound
  follow : F → s.FollowSound

theorem ViewFrame.tableSound {s t : State} (f : ViewFrame s t) (h : s.TableSound) : t.TableSound where
  addresses := by rw [f.peers]; exact h.addresses
  empty := by
    have hr : t.ready = s.ready := by unfold State.ready; rw [f.loader]
    rw [f.peers, hr]
    exact h.empty
  own := by
    have ha : t.address = s.address := by unfold State.address; rw [f.loader]
    rw [f.peers, ha]
    exact h.own

theorem ViewFrame.peerSound {F : Prop} {s t : State} (f : ViewFrame s t) (h : s.PeerSound F) : t.PeerSound F :=
  ⟨f.tableSound h.table, fun hF => f.followSound (h.follow hF)⟩

theorem ViewFrame.after {s t u : State} (k : ViewFrame t u) (h : ViewFrame s t) : ViewFrame s u := h.trans k

theorem State.settle_viewFrame (s : State) : ViewFrame s s.settle := ⟨rfl, rfl, rfl, rfl⟩

/-! ## The commands that leave the table and the views alone -/

theorem State.zoneSensors_viewFrame (s : State) : ViewFrame s s.zoneSensors := by
  unfold State.zoneSensors
  dsimp only
  split <;> exact ⟨rfl, rfl, rfl, rfl⟩

theorem State.headOctets_viewFrame (octets : List Byte) :
    ∀ s : State, ViewFrame s (octets.foldl State.headOctet s) := by
  induction octets with
  | nil => exact ViewFrame.refl
  | cons o l ih =>
    intro s
    refine ViewFrame.trans ?_ (ih _)
    unfold State.headOctet State.headEvent
    dsimp only
    split <;> exact ⟨rfl, rfl, rfl, rfl⟩

theorem State.handsOver_viewFrame (s : State) : ViewFrame s s.handsOver := by
  rw [s.handsOver_eq.1]
  exact ⟨rfl, rfl, Demand.expiry_view _ _ _ _ _, rfl⟩

theorem State.modeExpiry_viewFrame (s : State) : ViewFrame s s.modeExpiry :=
  s.modeExpiry_frames.1.viewFrame.after ⟨rfl, rfl, rfl, rfl⟩

/-- A trip that sets its count and may then raise a request (R128, R131, R133). -/
theorem PlantFrame.counted (s : State) (c : Capacity) (b : Prop) [Decidable b] (p : Proc) :
    PlantFrame s (if b then (s.setCapacity c).request p else s.setCapacity c) := by
  split
  · exact (State.setCapacity_plant s c).trans (State.request_plant p _)
  · exact State.setCapacity_plant s c

/-- A trip that may raise a request (R129, R130, R132). -/
theorem PlantFrame.raised (s : State) (b : Prop) [Decidable b] (p : Proc) :
    PlantFrame s (if b then s.request p else s) := by
  split
  · exact State.request_plant p _
  · exact .rfl' s

/-- The six stages of a protection timer expiry are operations of the plant (R128 to R133). -/
theorem State.protectionStages_plant (s : State) : PlantFrame s s.protectionStages := by
  have h1 : PlantFrame s s.staticTrip := .counted _ _ _ _
  have h2 : PlantFrame _ s.staticTrip.inverterTrip := .raised _ _ _
  have h3 : PlantFrame _ s.staticTrip.inverterTrip.condensateStop := .raised _ _ _
  have h4 : PlantFrame _ s.staticTrip.inverterTrip.condensateStop.freezeStop := .counted _ _ _ _
  have h5 : PlantFrame _ s.staticTrip.inverterTrip.condensateStop.freezeStop.supplyStop := .raised _ _ _
  have h6 : PlantFrame _ s.protectionStages := .counted _ _ _ _
  exact ((((h1.trans h2).trans h3).trans h4).trans h5).trans h6

/-- A procedure's step, and the end of its command, leave the table and the views alone. -/
theorem ViewFrame.runs {s u : State} (h : ViewFrame s u) (t : Todo) : ViewFrame s (u.run t).settlePlant :=
  (h.trans (State.run_plant t u).viewFrame).trans (State.settlePlant_plant _).viewFrame

theorem PlantFrame.shows {s u : State} (h : PlantFrame s u) : ViewFrame s u.settlePlant :=
  h.viewFrame.trans (State.settlePlant_plant _).viewFrame

/-- Of the commands that leave the line, all but the age timer and the grace timer leave the table, PLANT_LOST and the
views alone. -/
theorem exec_viewFrame {c : Instr} {s t : State} (hc : leavesLine c = true) (ha : c ≠ .ageTimer)
    (hg : c ≠ .graceTimer) (h : exec c s = .next t) : ViewFrame s t := by
  have same : ∀ {u : State}, advance u = .next t → u = t := fun e => by rwa [advance_eq_next] at e
  cases c with
  | powerOnReset | resetInputAsserted | resetRelease | readAttempt | readRetryTimer | tokenRefillTimer | lineIdle
  | attemptBegin | attemptComplete | collision | frameReceived | frameAbandoned | zonePeriodicTimer
  | plantPeriodicTimer | summaryTimer | startBitSeen | framingError => cases hc
  | ageTimer => exact absurd rfl ha
  | graceTimer => exact absurd rfl hg
  | headFrameArrival octets =>
    simp only [exec, execHeadFrameArrival] at h
    split at h <;> obtain rfl := same h
    · exact State.headOctets_viewFrame octets s
    · exact .refl s
  | headFrameAbandoned octets =>
    simp only [exec, execHeadFrameAbandoned] at h
    split at h <;> obtain rfl := same h
    · exact (State.headOctets_viewFrame octets s).trans ⟨rfl, rfl, rfl, rfl⟩
    · exact .refl s
  | lossTimer =>
    simp only [exec, execLossTimer] at h
    split at h <;> obtain rfl := same h <;> exact ⟨rfl, rfl, rfl, rfl⟩
  | sensorTimer pins first =>
    simp only [exec, execSensorTimer] at h
    split at h
    · split at h <;> obtain rfl := same h
      · exact s.zoneSensors_viewFrame.trans (State.settle_viewFrame _)
      · exact (State.plantSensorExpiry_plant pins first s).shows.after ⟨rfl, rfl, rfl, rfl⟩
    · obtain rfl := same h; exact .refl s
  | demandTimer =>
    by_cases hz : s.zoneReady = true
    · rw [exec_demandTimer hz] at h
      obtain rfl := same h
      exact (s.handsOver_viewFrame.trans (State.recompute_viewFrame _)).trans (State.settle_viewFrame _)
    · simp only [exec, execDemandTimer, if_neg hz] at h
      obtain rfl := same h; exact .refl s
  | homingStepCompletion stall =>
    simp only [exec, execHomingStepCompletion] at h
    split at h <;> obtain rfl := same h <;> exact ⟨rfl, rfl, rfl, rfl⟩
  | stepCompletion stall =>
    simp only [exec, execStepCompletion] at h
    split at h
    · split at h <;> obtain rfl := same h
      · exact (State.settle_viewFrame _).after ((State.recompute_viewFrame _).after ⟨rfl, rfl, rfl, rfl⟩)
      · exact ⟨rfl, rfl, rfl, rfl⟩
    · obtain rfl := same h; exact .refl s
  | budgetRefillTimer =>
    simp only [exec, execBudgetRefillTimer] at h
    split at h <;> obtain rfl := same h <;> exact ⟨rfl, rfl, rfl, rfl⟩
  | rehomeAgeTimer =>
    simp only [exec, execRehomeAgeTimer] at h
    split at h <;> obtain rfl := same h <;> exact ⟨rfl, rfl, rfl, rfl⟩
  | plantControlTimer =>
    simp only [exec, execPlantControlTimer] at h
    split at h <;> obtain rfl := same h
    · exact (State.capacityPeriod_plant _).shows.after s.modeExpiry_viewFrame
    · exact .refl s
  | offHoldTimer =>
    simp only [exec, execOffHoldTimer] at h
    split at h <;> obtain rfl := same h
    · exact (State.noteLockoutEnd_plant _ _).shows.after ⟨rfl, rfl, rfl, rfl⟩
    · exact .refl s
  | protectionTimer =>
    simp only [exec, execProtectionTimer] at h
    split at h <;> obtain rfl := same h
    · exact s.protectionStages_plant.shows
    · exact .refl s
  | listeningTimer =>
    simp only [exec, execListeningTimer] at h
    split at h <;> obtain rfl := same h <;> exact ⟨rfl, rfl, rfl, rfl⟩
  | stepDelayExpiry =>
    simp only [exec, execStepDelayExpiry] at h
    split at h <;> obtain rfl := same h
    · exact (ViewFrame.refl s).runs _
    · exact .refl s
  | stepTimeExit =>
    simp only [exec, execStepTimeExit] at h
    split at h
    · split at h <;> obtain rfl := same h
      · refine ViewFrame.runs ?_ _
        exact ⟨rfl, rfl, rfl, rfl⟩
      · exact .refl s
    · obtain rfl := same h; exact .refl s
  | stepTimeLimit =>
    simp only [exec, execStepTimeLimit] at h
    split at h
    · split at h <;> obtain rfl := same h
      · refine ViewFrame.runs ?_ _
        exact ⟨rfl, rfl, rfl, rfl⟩
      · exact .refl s
    · obtain rfl := same h; exact .refl s
  | emergencyHoldTick =>
    simp only [exec, execEmergencyHoldTick] at h
    split at h
    · split at h <;> obtain rfl := same h
      · refine ViewFrame.runs ?_ _
        exact ⟨rfl, rfl, rfl, rfl⟩
      · exact ⟨rfl, rfl, rfl, rfl⟩
    · obtain rfl := same h; exact .refl s
  | retainedTimer =>
    simp only [exec, execRetainedTimer] at h
    split at h
    · obtain rfl := same h; exact .refl s
    · split at h <;> obtain rfl := same h
      · exact (s.retainedAdvance_plant.trans (State.examineRequest_plant _)).shows
      · exact s.retainedAdvance_plant.viewFrame
  | frostTimer =>
    simp only [exec, execFrostTimer] at h
    split at h
    · split at h <;> obtain rfl := same h
      · exact (State.request_plant _ s.frostAdvance).shows.after ⟨rfl, rfl, rfl, rfl⟩
      · exact ⟨rfl, rfl, rfl, rfl⟩
    · obtain rfl := same h; exact .refl s

/-! ## Entries that change (R19, R23) -/

/-- A READY station's table stays sound while its entries stay at their addresses and the own one stays as it was. -/
theorem State.TableSound.maps {s t : State} {f : PeerEntry → PeerEntry} (h : s.TableSound) (hr : s.ready = true)
    (hl : t.loader = s.loader) (hm : s.peers.Maps t.peers f) (ho : ∀ e, e.address = s.address → f e = e) :
    t.TableSound where
  addresses := hm.addresses.trans h.addresses
  empty hn := by
    have hr' : t.ready = s.ready := by unfold State.ready; rw [hl]
    rw [hr', hr] at hn
    cases hn
  own e he ha := by
    rw [hm.1] at he
    obtain ⟨e₀, he₀, rfl⟩ := List.mem_map.1 he
    have ha₀ : e₀.address = s.address := by
      rw [← hm.2 e₀ he₀, ha, State.address, State.address, hl]
    rw [ho e₀ ha₀]
    exact h.own e₀ he₀ ha₀

/-- A report of another address leaves the table sound (R23, R24). -/
theorem State.TableSound.take {s t : State} (h : s.TableSound) (hr : s.ready = true) {a : Nat} (ha : a ≠ s.address)
    {c : Contents} (hl : t.loader = s.loader) (he : t.peers.entries = (s.peers.take a c).entries) : t.TableSound := by
  refine h.maps hr hl ⟨he.trans (s.peers.take_maps a c).1, (s.peers.take_maps a c).2⟩ fun e ho => ?_
  exact if_neg fun hc => ha (hc.symm.trans ho)

/-! ## What the octets of a frame do -/

theorem State.yieldDemand_viewFrame (s : State) : ViewFrame s s.yieldDemand := by
  unfold State.yieldDemand
  dsimp only
  split <;> exact ⟨rfl, rfl, rfl, rfl⟩

/-- Entry to YIELDED leaves the table, PLANT_LOST and the views alone (R17). -/
theorem State.enterYielded_viewFrame (s : State) : ViewFrame s s.enterYielded := by
  have hy : ViewFrame s (s.setLine s.line.yield) := ⟨rfl, rfl, rfl, rfl⟩
  unfold State.enterYielded
  split
  · exact .refl s
  · dsimp only
    split
    · exact (hy.trans (State.yieldDemand_viewFrame _)).trans (State.recompute_viewFrame _)
    · exact hy.trans (State.dropPlant_plant _).viewFrame

theorem State.compareTag_viewFrame (tag : Tag) (s : State) : ViewFrame s (s.compareTag tag) := by
  have hc : ViewFrame s s.countConflict := ⟨rfl, rfl, rfl, rfl⟩
  rw [State.compareTag_eq]
  split
  · exact hc.trans (State.enterYielded_viewFrame _)
  · exact hc

/-- The detection of a second plant leaves the table, PLANT_LOST and the views alone (R34, R35). -/
theorem State.detectPlant_viewFrame (a : Nat) (r : PlantRecord) (b : Bool) (s : State) :
    ViewFrame s (s.detectPlant a r b) := by
  have he : ViewFrame s s.enterStandby :=
    (State.enterStandby_plant s).viewFrame.after ⟨rfl, rfl, rfl, rfl⟩
  unfold State.detectPlant
  split
  · exact .refl s
  · split
    · exact he
    · split
      · exact .refl s
      · exact ⟨rfl, rfl, rfl, rfl⟩

/-- In a plant a report fills its entry, and moves of the table and the views nothing else (R24, R34). -/
theorem State.takeReport_viewFrame {s : State} (hrole : s.loader.straps.role = .plant) (a : Nat) (c : Contents) :
    ViewFrame (s.setPeers (s.peers.take a c)) (s.takeReport a c) := by
  cases c with
  | plant r =>
    rw [State.takeReport_plant hrole]
    exact State.detectPlant_viewFrame _ _ _ _
  | zone r =>
    rw [State.takeReport_zone r fun hz => by rw [hrole] at hz; cases hz]
    exact .refl _

/-- A report changes of the table's entries the reporting station's alone (R24). -/
theorem State.takeReport_entries (s : State) (a : Nat) (c : Contents) :
    (s.takeReport a c).loader = s.loader ∧ (s.takeReport a c).peers.entries = (s.peers.take a c).entries := by
  cases hrole : s.loader.straps.role with
  | plant =>
    have hv := State.takeReport_viewFrame hrole a c
    exact ⟨hv.loader, by rw [hv.peers]; rfl⟩
  | zone =>
    have he := State.evaluatePlant_zone (s.peers.followedRecord.map PlantRecord.facts)
      (s.setPeers (s.peers.take a c))
    unfold State.takeReport
    rw [hrole]
    cases c with
    | plant r => exact ⟨he.loader, he.entries⟩
    | zone r =>
      dsimp only
      split
      · exact ⟨he.loader, he.entries⟩
      · exact ⟨rfl, rfl⟩

/-- A good report of another address keeps the table and the followed plant sound (R24, R31). -/
theorem State.PeerSound.takeReport {F : Prop} {s : State} (h : s.PeerSound F) (hr : s.ready = true) {a : Nat}
    (ha : a ≠ s.address) (c : Contents) : (s.takeReport a c).PeerSound F := by
  obtain ⟨hl, he⟩ := s.takeReport_entries a c
  refine ⟨h.table.take hr ha hl he, fun hF => ?_⟩
  have hs := h.follow hF
  cases hrole : s.loader.straps.role with
  | plant =>
    exact (State.takeReport_viewFrame hrole a c).followSound
      (hs.unread (by simp [State.zoneReady, hrole]) rfl rfl rfl)
  | zone =>
    have hz : s.zoneReady = true := by simp [State.zoneReady, hr, hrole]
    obtain ⟨l, _, _, e⟩ := hs.takesReport hz h.table.distinct a c
    exact hs.evaluated (p := s.peers.take a c) hz ((State.zoneReady_of_loader hl).trans hz) rfl e

/-- What a READY station does with octets keeps the table and the followed plant sound (R6, R16, R24). -/
theorem State.PeerSound.keptByOctets (F : Prop) : KeptByOctets (State.PeerSound F) (State.PeerSound F) where
  start h := h
  line {u} l h := ViewFrame.peerSound (s := u) ⟨rfl, rfl, rfl, rfl⟩ h
  accept {u} x p hr h := by
    unfold State.acceptFrame
    split
    · exact h
    · split
      · exact (State.compareTag_viewFrame _ u).peerSound h
      next ha => exact h.takeReport hr ha _
  finish h := (State.settlePlant_plant _).viewFrame.peerSound h

/-! ## The age timer and the grace timer (R26 to R28, R33) -/

theorem State.PeerSound.ageTimer {F : Prop} {s t : State} (h : s.PeerSound F) (hx : exec .ageTimer s = .next t) :
    t.PeerSound F := by
  by_cases hr : s.ready = true
  · rw [exec_ageTimer hr] at hx
    obtain rfl := (advance_eq_next _ _).mp hx
    have ha := State.ages_afterAges hr h.table.distinct
    refine (State.settle_viewFrame _).peerSound ⟨?_, fun hF => ha.sound (h.follow hF)⟩
    refine h.table.maps hr ha.loader (f := fun e => if e.address = s.address then e else e.afterAgeTimer)
      ⟨(State.afterAges_table hr h.table.distinct).1, fun e _ => ?_⟩ fun e ho => if_pos ho
    dsimp only
    split
    · rfl
    · rw [← e.older_ripe.1, PeerEntry.ripe_address]; rfl
  · simp only [exec, execAgeTimer, if_neg hr] at hx
    obtain rfl := (advance_eq_next _ _).mp hx
    exact h

/-- The grace's expiry is PLANT_LOST where nothing is followed (R33). -/
theorem State.FollowSound.graceExpires {s : State} (h : s.FollowSound) (hz : s.zoneReady = true) :
    (s.setPeers { s.peers with grace := .expired, plantLost := s.peers.followed.isNone }).FollowSound where
  followed := h.followed
  lost := by
    show s.peers.followed.isNone = true ↔ s.zoneReady = true ∧ s.peers.followed = none ∧ _
    simp [hz, Option.isNone_iff_eq_none]
  grace := iff_of_true hz nofun
  demandView := h.demandView
  shareView := h.shareView

theorem State.PeerSound.graceTimer {F : Prop} {s t : State} (h : s.PeerSound F)
    (hx : exec .graceTimer s = .next t) : t.PeerSound F := by
  simp only [exec, execGraceTimer] at hx
  split at hx
  next hc =>
    obtain ⟨hz, hg⟩ : s.zoneReady = true ∧ s.peers.grace = .running := by simpa using hc
    have hu : (s.setPeers { s.peers with grace := .expired, plantLost := s.peers.followed.isNone }).PeerSound F :=
      ⟨⟨h.table.addresses, h.table.empty, h.table.own⟩, fun hF => (h.follow hF).graceExpires hz⟩
    split at hx
    next hn =>
      obtain rfl := (advance_eq_next _ _).mp hx
      rw [hn] at hu
      refine ViewFrame.peerSound ?_ hu
      exact (State.settle_viewFrame _).after ((State.recompute_viewFrame _).after ⟨rfl, rfl, rfl, rfl⟩)
    next hn =>
      obtain rfl := (advance_eq_next _ _).mp hx
      have hlost : F → s.peers.plantLost = s.peers.followed.isNone := fun hF => by
        have hs := (h.follow hF).lost
        rw [Bool.not_eq_true] at hn
        rw [hn, ← Bool.not_eq_true, hs, hg]
        simp
      refine ⟨⟨h.table.addresses, h.table.empty, h.table.own⟩, fun hF => ?_⟩
      have := hu.follow hF
      rw [← hlost hF] at this
      exact this
  next => obtain rfl := (advance_eq_next _ _).mp hx; exact h

/-! ## Resets and the load (R187, R188) -/

/-- An EMPTY table at the fifteen addresses is sound at any station. -/
theorem State.TableSound.ofEmpty {s : State}
    (ha : s.peers.entries.map PeerEntry.address = [1, 2, 3, 4, 5, 6, 7, 8, 9, 10, 11, 12, 13, 14, 15])
    (he : ∀ e ∈ s.peers.entries, e.held = none) : s.TableSound :=
  ⟨ha, fun _ => he, fun e h _ => he e h⟩

/-- No plant is chosen from an EMPTY table (R31). -/
theorem Peers.choose_of_empty {p : Peers} (h : ∀ e ∈ p.entries, e.held = none) : p.choose = none := by
  have hn : p.entries.find? PeerEntry.active = none :=
    List.find?_eq_none.2 fun e he => by simp [PeerEntry.active, PeerEntry.plant, h e he]
  rw [Peers.choose_eq, hn]
  rfl

/-- Outside a READY zone station nothing is followed or lost, no grace runs and no view stands (R31, R33, R188). -/
structure State.FollowsNone (s : State) : Prop where
  followed : s.peers.followed = none
  lost : s.peers.plantLost = false
  grace : s.peers.grace = .stopped
  demandView : s.demand.view = none
  shareView : s.share.view = none

theorem State.followSound_iff_followsNone {s : State} (hz : s.zoneReady = false) : s.FollowSound ↔ s.FollowsNone := by
  have hz' : ¬s.zoneReady = true := by simp [hz]
  constructor
  · intro h
    have hf : s.peers.followed = none := h.followed.trans (if_neg hz')
    have hrec : s.peers.followedRecord = none := by rw [Peers.followedRecord, hf]; rfl
    refine ⟨hf, Bool.eq_false_iff.2 fun hl => hz' (h.lost.1 hl).1, not_not.1 fun hg => hz' (h.grace.2 hg), ?_, ?_⟩
    · rw [h.demandView, hrec]; rfl
    · rw [h.shareView, hrec]; rfl
  · intro h
    have hrec : s.peers.followedRecord = none := by rw [Peers.followedRecord, h.followed]; rfl
    exact
      { followed := h.followed.trans (if_neg hz').symm
        lost := by simp [h.lost, hz]
        grace := by simp [h.grace, hz]
        demandView := by rw [h.demandView, hrec]; rfl
        shareView := by rw [h.shareView, hrec]; rfl }

/-- What READY leaves of the table and the views: in a zone the grace begins (R33, R187). -/
structure State.BeginsTable (s t : State) : Prop where
  straps : t.loader.straps = s.loader.straps
  ready : t.ready = true
  peers : t.peers = { s.peers with grace := if s.loader.straps.role = .zone then .running else s.peers.grace }
  demandView : t.demand.view = s.demand.view
  shareView : t.share.view = s.share.view

theorem State.BeginsTable.after {s t u : State} (b : s.BeginsTable t) (v : ViewFrame t u) : s.BeginsTable u where
  straps := (congrArg Loader.straps v.loader).trans b.straps
  ready := by rw [State.ready, v.loader]; exact b.ready
  peers := v.peers.trans b.peers
  demandView := v.demandView.trans b.demandView
  shareView := v.shareView.trans b.shareView

theorem State.becomeReady_beginsTable (s : State) : s.BeginsTable s.becomeReady := by
  unfold State.becomeReady
  dsimp only
  split
  next hz =>
    have hz : s.loader.straps.role = .zone := hz
    exact ⟨rfl, rfl, by rw [if_pos hz]; rfl, rfl, rfl⟩
  next hp =>
    have hr : ¬s.loader.straps.role = .zone := fun hz => nomatch hz.symm.trans hp
    refine State.BeginsTable.after ?_ (State.settlePlant_plant _).viewFrame
    exact ⟨rfl, rfl, by rw [if_neg hr]; rfl, rfl, rfl⟩

/-- A station that follows nothing and whose table is EMPTY begins READY with the followed plant sound (R31, R33). -/
theorem State.BeginsTable.followSound {s t : State} (b : s.BeginsTable t) (h : s.FollowsNone)
    (he : ∀ e ∈ s.peers.entries, e.held = none) : t.FollowSound := by
  have hrole : t.zoneReady = decide (s.loader.straps.role = .zone) := by
    rw [State.zoneReady, b.ready, b.straps, Bool.true_and]
  by_cases hz : s.loader.straps.role = .zone
  · have hz' : t.zoneReady = true := by rw [hrole, decide_eq_true hz]
    have hp := b.peers
    rw [if_pos hz] at hp
    have hfol : t.peers.followed = none := by rw [hp]; exact h.followed
    have hrec : t.peers.followedRecord = none := by rw [Peers.followedRecord, hfol]; rfl
    exact
      { followed := by
          rw [if_pos hz', hfol, Peers.choose_of_empty]
          rw [hp]
          exact he
        lost := by rw [hp]; simp [h.lost]
        grace := iff_of_true hz' (by rw [hp]; exact nofun)
        demandView := by rw [b.demandView, h.demandView, hrec]; rfl
        shareView := by rw [b.shareView, h.shareView, hrec]; rfl }
  · have hp := b.peers
    rw [if_neg hz] at hp
    have hp : t.peers = s.peers := hp
    refine (State.followSound_iff_followsNone (by rw [hrole, decide_eq_false hz])).2
      ⟨?_, ?_, ?_, b.demandView.trans h.demandView, b.shareView.trans h.shareView⟩ <;> rw [hp]
    · exact h.followed
    · exact h.lost
    · exact h.grace

theorem State.FollowsNone.of {s t : State} (h : s.FollowsNone) (hp : t.peers = s.peers) (hd : t.demand = s.demand)
    (hs : t.share = s.share) : t.FollowsNone :=
  ⟨by rw [hp]; exact h.followed, by rw [hp]; exact h.lost, by rw [hp]; exact h.grace,
    by rw [hd]; exact h.demandView, by rw [hs]; exact h.shareView⟩

theorem State.not_zoneReady {s : State} (h : s.ready = false) : s.zoneReady = false := by
  rw [State.zoneReady, h]; rfl

/-- The resets and the load leave the table and the followed plant sound (R183, R184, R187, R188). -/
theorem LoadOutcome.peerSound {F : Prop} {s t : State} (o : LoadOutcome s t) (h : s.PeerSound F) : t.PeerSound F := by
  cases o with
  | unchanged e => exact e ▸ h
  | reset hl hp hd hs =>
    have hn : t.zoneReady = false := State.not_zoneReady (by simp [State.ready, hl])
    refine ⟨.ofEmpty (by rw [hp]; rfl) fun e he => ?_, fun _ => (State.followSound_iff_followsNone hn).2
      ⟨by rw [hp]; rfl, by rw [hp]; rfl, by rw [hp]; rfl, by rw [hd]; rfl, by rw [hs]; rfl⟩⟩
    rw [hp] at he
    obtain ⟨a, _, rfl⟩ := List.mem_map.1 he
    rfl
  | unready hn ht hp hd hs =>
    refine ⟨.ofEmpty (by rw [hp]; exact h.table.addresses) (by rw [hp]; exact h.table.empty hn), fun hF => ?_⟩
    have hf := (State.followSound_iff_followsNone (State.not_zoneReady hn)).1 (h.follow hF)
    exact (State.followSound_iff_followsNone (State.not_zoneReady ht)).2 (hf.of hp hd hs)
  | ready hn u hp hd hs e =>
    subst e
    have hempty : ∀ e ∈ u.peers.entries, e.held = none := by rw [hp]; exact h.table.empty hn
    have b := u.becomeReady_beginsTable
    refine ⟨.ofEmpty ?_ ?_, fun hF => ?_⟩
    · rw [b.peers]
      exact (congrArg (fun p => p.entries.map PeerEntry.address) hp).trans h.table.addresses
    · rw [b.peers]; exact hempty
    · have hf := (State.followSound_iff_followsNone (State.not_zoneReady hn)).1 (h.follow hF)
      exact b.followSound (hf.of hp hd hs) hempty

/-! ## Every step -/

/-- Every command keeps the table and the followed plant sound. -/
theorem exec_peerSound {F : Prop} {c : Instr} {s t : State} (hl : s.loader.Sound) (hs : s.PeerSound F)
    (h : exec c s = .next t) : t.PeerSound F := by
  cases hc : leavesLine c with
  | true =>
    by_cases ha : c = .ageTimer
    · exact hs.ageTimer (ha ▸ h)
    · by_cases hg : c = .graceTimer
      · exact hs.graceTimer (hg ▸ h)
      · exact (exec_viewFrame hc ha hg h).peerSound hs
  | false =>
    cases c with
    | powerOnReset | resetInputAsserted | resetRelease | readAttempt | readRetryTimer =>
      exact (exec_load_outcome (by simp) hl h).peerSound hs
    | tokenRefillTimer | lineIdle | attemptBegin | attemptComplete | collision | frameReceived | frameAbandoned
    | zonePeriodicTimer | plantPeriodicTimer | summaryTimer | startBitSeen | framingError =>
      exact (State.PeerSound.keptByOctets F).exec_line (State.PeerSound.keptByOctets F).line (by simp) hs h
    | ageTimer | graceTimer | headFrameArrival | headFrameAbandoned | lossTimer | sensorTimer | demandTimer
    | homingStepCompletion | stepCompletion | budgetRefillTimer | rehomeAgeTimer | plantControlTimer
    | offHoldTimer | protectionTimer | listeningTimer | stepDelayExpiry | stepTimeExit | stepTimeLimit
    | emergencyHoldTick | retainedTimer | frostTimer => cases hc

/-- Settles O7: every command keeps the table sound, and the followed plant with it. -/
theorem peerTableStaysSound : Obligations.PeerTableStaysSound := by
  intro s t hl ht h
  have hs : s.PeerSound s.FollowSound := ⟨ht, id⟩
  have hend : t.PeerSound s.FollowSound := by
    obtain ⟨_, rfl⟩ | ⟨c, rest, _, hx⟩ := step_cases h
    · exact hs
    · exact exec_peerSound (s := s.setPending rest) hl (ViewFrame.peerSound (s := s) ⟨rfl, rfl, rfl, rfl⟩ hs) hx
  exact ⟨hend.table, hend.follow⟩

end Sys2Proof.Machine
end

