-- ==== Sys2Proof/Proofs/CapacityRequest.lean ====
section
/-! PROOFS. What a plant control timer expiry forms out of its zone entries: the admitted weights, the capacity request,
Fmax, the published opening and the effective airflow (R30, R98, R99, R115, R121). -/

namespace Sys2Proof.Machine

/-! ## Rounding and the terms of the sums -/

/-- nearest(n / d) of naturals, ties up: strictly less than half a unit above is left over (section 4.2). -/
theorem nearest_natCast (n : Nat) {d : Nat} (hd : 0 < d) :
    2 * d * (nearest n d).toNat ≤ 2 * n + d ∧ 2 * n < 2 * d * (nearest n d).toNat + d := by
  have h : (nearest n d).toNat = (2 * n + d) / (2 * d) := by
    rw [nearest, if_pos (Int.natCast_nonneg n), Int.toNat_natCast, Int.toNat_natCast]
  have hlow := Nat.mul_div_le (2 * n + d) (2 * d)
  have hhigh := Nat.lt_mul_div_succ (2 * n + d) (b := 2 * d) (by omega)
  rw [h]
  rw [Nat.mul_add] at hhigh
  omega

/-- A weight of at most 1000 times all weight has a mean of at most 1000 (R115). -/
theorem nearest_mean_le {n w : Nat} (hw : 0 < w) (h : n ≤ 1000 * w) : (nearest n w).toNat ≤ 1000 := by
  have := nearest_le n 1000 w hw (by exact_mod_cast h)
  omega

theorem SystemSwitch.admitsCooling_iff (x : SystemSwitch) : x.admitsCooling = true ↔ x = .cool ∨ x = .auto := by
  cases x <;> decide

theorem SystemSwitch.admitsHeating_iff (x : SystemSwitch) : x.admitsHeating = true ↔ x = .heat ∨ x = .auto := by
  cases x <;> decide

/-- A FRESH zone of tier 1 or 2 opens fully; any other opens its base and relief (R30, R121). -/
theorem fmaxTerm_eq (e : Freshness × ZoneRecord) :
    fmaxTerm e =
      if e.1 = .fresh ∧ 1 ≤ e.2.tier then e.2.weight * 100
      else if e.2.base = .unknown then 0 else e.2.weight * (e.2.base.orZero + e.2.relief) := by
  have hc : countedTier e = 0 ↔ ¬(e.1 = .fresh ∧ 1 ≤ e.2.tier) := by
    unfold countedTier
    cases e.1 <;> simp
  unfold fmaxTerm
  by_cases h : e.1 = .fresh ∧ 1 ≤ e.2.tier
  · rw [if_neg fun h0 => hc.1 h0 h, if_pos h]
  · rw [if_pos (hc.2 h), if_neg h]
    cases e.2.base <;> simp [Opening.orZero]

/-- The needed opening exceeds Fmax where the airflow's share does, to the tenth (R121). -/
theorem lt_needed_iff (a w fmax : Nat) : fmax < needed a w ↔ 10 * fmax < a * w := by
  unfold needed upDiv; omega

/-! ## What a capacity period forms (R115, R120, R121) -/

/-- The capacity request, Fmax and the effective running airflow are those of the zone entries, the weights and the mode
that stand (R115, R120, R121). -/
structure State.RequestFormed (s : State) : Prop where
  c : s.capacity.c = s.capacityRequest
  fmax : s.capacity.fmax = if s.totalWeight = 0 then 0 else fmaxOf s.zoneEntries
  running : s.capacity.effectiveRunning =
    carried (runningAirflow s.modeSel.mode s.capacity.c) s.totalWeight s.capacity.fmax

/-- With them the published opening, the effective airflow and AIRFLOW_LIMITED are those of the required airflow
(R121). -/
structure State.AirflowFormed (s : State) : Prop extends s.RequestFormed where
  f : s.capacity.f = published s.capacity.airflow s.totalWeight s.capacity.fmax
  effective : s.capacity.effective = carried s.capacity.airflow s.totalWeight s.capacity.fmax
  limited : s.capacity.airflowLimited = limitsAirflow s.capacity.airflow s.totalWeight s.capacity.fmax

/-- The operation leaves what forms the capacity request and the opening: the loader, the table, the mode and
the weights. -/
structure State.KeepsRequest (s t : State) : Prop where
  loader : t.loader = s.loader
  peers : t.peers = s.peers
  mode : t.modeSel.mode = s.modeSel.mode
  weights : t.modeSel.wc = s.modeSel.wc ∧ t.modeSel.wh = s.modeSel.wh ∧ t.modeSel.wd = s.modeSel.wd

theorem PlantFrame.keepsRequest {s t : State} (f : PlantFrame s t) : s.KeepsRequest t :=
  ⟨f.loader, f.peers, by rw [← f.modeSel], by rw [← f.modeSel], by rw [← f.modeSel], by rw [← f.modeSel]⟩

theorem State.KeepsRequest.zones {s t : State} (k : s.KeepsRequest t) (hr : s.loader.straps.role = .plant) :
    t.zoneEntries = s.zoneEntries ∧ t.totalWeight = s.totalWeight :=
  ⟨State.zoneEntries_of k.loader k.peers hr, State.totalWeight_of k.loader k.peers hr⟩

theorem State.KeepsRequest.request {s t : State} (k : s.KeepsRequest t) (hr : s.loader.straps.role = .plant) :
    t.capacityRequest = s.capacityRequest := by
  obtain ⟨hc, hh, hd⟩ := k.weights
  unfold State.capacityRequest
  rw [(k.zones hr).2, k.mode, hc, hh, hd]

/-- What an operation of the engine leaves formed (R114). -/
theorem State.RequestFormed.kept {s t : State} (h : s.RequestFormed) (hr : s.loader.straps.role = .plant)
    (k : s.KeepsRequest t)
    (hc : t.capacity.c = s.capacity.c ∧ t.capacity.fmax = s.capacity.fmax ∧
      t.capacity.effectiveRunning = s.capacity.effectiveRunning) : t.RequestFormed := by
  obtain ⟨h1, h2, h3⟩ := hc
  obtain ⟨hz, hw⟩ := k.zones hr
  exact ⟨by rw [h1, k.request hr, h.c], by rw [h2, hz, hw, h.fmax], by rw [h3, h1, h2, k.mode, hw, h.running]⟩

theorem State.AirflowFormed.kept {s t : State} (h : s.AirflowFormed) (hr : s.loader.straps.role = .plant)
    (k : s.KeepsRequest t)
    (hc : t.capacity.c = s.capacity.c ∧ t.capacity.fmax = s.capacity.fmax ∧
      t.capacity.effectiveRunning = s.capacity.effectiveRunning)
    (ha : t.capacity.airflow = s.capacity.airflow ∧ t.capacity.f = s.capacity.f ∧
      t.capacity.effective = s.capacity.effective ∧ t.capacity.airflowLimited = s.capacity.airflowLimited) :
    t.AirflowFormed := by
  obtain ⟨h1, h2, h3, h4⟩ := ha
  have hw := (k.zones hr).2
  have ⟨_, hm, _⟩ := hc
  exact
    { h.toRequestFormed.kept hr k hc with
      f := by rw [h1, h2, hm, hw, h.f]
      effective := by rw [h1, h3, hm, hw, h.effective]
      limited := by rw [h1, h4, hm, hw, h.limited] }

/-- The engine's operations leave formed what the controller has formed. -/
theorem EngineFrame.requestFormed {s t : State} (e : EngineFrame s t) (f : PlantFrame s t)
    (hr : s.loader.straps.role = .plant) (h : s.RequestFormed) : t.RequestFormed := by
  have hx := e.capacity
  exact h.kept hr f.keepsRequest ⟨by rw [hx], by rw [hx], by rw [hx]⟩

theorem EngineFrame.airflowFormed {s t : State} (e : EngineFrame s t) (f : PlantFrame s t)
    (hr : s.loader.straps.role = .plant) (h : s.AirflowFormed) : t.AirflowFormed := by
  have hx := e.capacity
  exact h.kept hr f.keepsRequest ⟨by rw [hx], by rw [hx], by rw [hx]⟩ ⟨by rw [hx], by rw [hx], by rw [hx], by rw [hx]⟩

/-- Stages 2 to 5 form the capacity request, Fmax and the effective running airflow (R115 to R121, R124, R125). -/
theorem State.beforeAirflow_formed {s : State} (hr : s.loader.straps.role = .plant) :
    s.beforeAirflow.RequestFormed ∧ PlantFrame s s.beforeAirflow := by
  have fC := s.formC_plant
  have fCaps : PlantFrame s s.formC.adjustCaps := fC.trans (State.setCapacity_plant _ _)
  have hc : s.formC.adjustCaps.capacity.c = s.capacityRequest := by
    have e := State.handOffC_engineFrame (s.setCapacity { s.capacity with c := s.capacityRequest })
    exact (congrArg Capacity.c e.capacity).trans rfl
  have fRun : PlantFrame s s.formC.adjustCaps.formRunning := fCaps.trans (State.setCapacity_plant _ _)
  have kRun : s.formC.adjustCaps.KeepsRequest s.formC.adjustCaps.formRunning :=
    (State.setCapacity_plant _ _).keepsRequest
  have rCaps : s.formC.adjustCaps.loader.straps.role = .plant := by rw [fCaps.loader]; exact hr
  obtain ⟨hz, hw⟩ := kRun.zones rCaps
  have hRun : s.formC.adjustCaps.formRunning.RequestFormed :=
    { c := hc.trans (fRun.keepsRequest.request hr).symm
      fmax := by rw [hz, hw]; rfl
      running := by rw [hw]; rfl }
  have rRun : s.formC.adjustCaps.formRunning.loader.straps.role = .plant := by rw [fRun.loader]; exact hr
  have fCounts : PlantFrame s.formC.adjustCaps.formRunning s.formC.adjustCaps.formRunning.formCounts :=
    State.setCapacity_plant _ _
  have hCounts := hRun.kept rRun fCounts.keepsRequest ⟨rfl, rfl, rfl⟩
  have fStart := State.raiseStart_plant s.formC.adjustCaps.formRunning.formCounts
  have hStart := (State.raiseStart_engineFrame _).requestFormed fStart rRun hCounts
  have rStart : s.formC.adjustCaps.formRunning.formCounts.raiseStart.loader.straps.role = .plant := by
    rw [fStart.loader]; exact rRun
  have fStop := State.raiseStop_plant s.formC.adjustCaps.formRunning.formCounts.raiseStart
  exact ⟨(State.raiseStop_engineFrame _).requestFormed fStop rStart hStart,
    ((fRun.trans fCounts).trans fStart).trans fStop⟩

/-- Stage 6 forms the opening, the effective airflow and AIRFLOW_LIMITED (R121). -/
theorem State.RequestFormed.formAirflow {s : State} (h : s.RequestFormed) (hr : s.loader.straps.role = .plant) :
    s.formAirflow.AirflowFormed := by
  have k := s.formAirflow_plant.keepsRequest
  have hw := (k.zones hr).2
  have hcap : s.formAirflow.capacity = { s.capacity with
      airflow := s.requiredAirflow, f := published s.requiredAirflow s.totalWeight s.capacity.fmax
      effective := carried s.requiredAirflow s.totalWeight s.capacity.fmax
      airflowLimited := limitsAirflow s.requiredAirflow s.totalWeight s.capacity.fmax } := by
    unfold State.formAirflow
    dsimp only
    split <;> rfl
  exact
    { h.kept hr k (by rw [hcap]; exact ⟨rfl, rfl, rfl⟩) with
      f := by rw [hcap, hw]
      effective := by rw [hcap, hw]
      limited := by rw [hcap, hw] }

/-- The blower and the ramp leave the opening and the airflow (R119, R122, R123). -/
theorem State.AirflowFormed.finish {s : State} (h : s.AirflowFormed) (hr : s.loader.straps.role = .plant) :
    s.formBlower.formSpeed.AirflowFormed := by
  have hBlower : s.formBlower.AirflowFormed := by
    have hSet := h.kept hr (State.setCapacity_plant s { s.capacity with
      blowerLimit := s.nextBlowerLimit, pressureLimiting := s.nextPressureLimiting
      loopBlower := min s.capacity.effective s.nextBlowerLimit }).keepsRequest ⟨rfl, rfl, rfl⟩ ⟨rfl, rfl, rfl, rfl⟩
    exact (State.driveOutputs_engineFrame _).airflowFormed (State.driveOutputs_plant _) hr hSet
  have hSpeed : ∃ v c f, s.formBlower.formSpeed.capacity =
      { s.formBlower.capacity with loopSpeed := v, speedCommand := c, speedFollows := f } := by
    unfold State.formSpeed
    dsimp only
    split <;> exact ⟨_, _, _, rfl⟩
  obtain ⟨v, c, f, hcap⟩ := hSpeed
  have rBlower : s.formBlower.loader.straps.role = .plant := by rw [s.formBlower_plant.loader]; exact hr
  refine hBlower.kept rBlower s.formBlower.formSpeed_plant.keepsRequest ?_ ?_ <;> rw [hcap]
  · exact ⟨rfl, rfl, rfl⟩
  · exact ⟨rfl, rfl, rfl, rfl⟩

/-- A capacity period forms the capacity request, Fmax, the opening and the effective airflow (R114 to R121). -/
theorem State.capacityPeriod_formed {s : State} (hr : s.loader.straps.role = .plant) :
    s.capacityPeriod.AirflowFormed := by
  obtain ⟨h, f⟩ := State.beforeAirflow_formed hr
  have hrole : s.beforeAirflow.loader.straps.role = .plant := by rw [f.loader]; exact hr
  have fAir := State.formAirflow_plant s.beforeAirflow
  exact (h.formAirflow hrole).finish (by rw [fAir.loader]; exact hrole)

/-! ## What the formed items say -/

/-- The request's rounding, in a mode whose weight is `n` (R115). -/
theorem State.capacityRequest_mean {s : State} (hw : 0 < s.totalWeight) :
    (s.modeSel.mode = .off ∨ s.modeSel.mode = .fan → s.capacityRequest = 0) ∧
      (s.modeSel.mode = .cool → s.capacityRequest = (nearest s.modeSel.wc s.totalWeight).toNat) ∧
      (s.modeSel.mode = .heat → s.capacityRequest = (nearest s.modeSel.wh s.totalWeight).toNat) ∧
      (s.modeSel.mode = .dry → s.capacityRequest = min 600 (nearest s.modeSel.wd s.totalWeight).toNat) := by
  have hne : s.totalWeight ≠ 0 := Nat.ne_of_gt hw
  unfold State.capacityRequest
  dsimp only
  rw [if_neg hne]
  refine ⟨?_, fun h => by rw [h], fun h => by rw [h], fun h => by rw [h]⟩
  rintro (h | h) <;> rw [h]

/-- A request is at most 1000 where no weight is more than 1000 times all weight (R115). -/
theorem State.capacityRequest_le_of_weights {s : State} (hc : s.modeSel.wc ≤ 1000 * s.totalWeight)
    (hh : s.modeSel.wh ≤ 1000 * s.totalWeight) : s.capacityRequest ≤ 1000 := by
  by_cases hw : s.totalWeight = 0
  · simp [State.capacityRequest, hw]
  · have hpos := Nat.pos_of_ne_zero hw
    obtain ⟨hNone, hCool, hHeat, hDry⟩ := State.capacityRequest_mean hpos
    cases hm : s.modeSel.mode with
    | off => rw [hNone (.inl hm)]; exact Nat.zero_le _
    | fan => rw [hNone (.inr hm)]; exact Nat.zero_le _
    | cool => rw [hCool hm]; exact nearest_mean_le hpos hc
    | heat => rw [hHeat hm]; exact nearest_mean_le hpos hh
    | dry => rw [hDry hm]; omega

/-- With no zone nothing is asked, opened or carried, and any airflow is limited (R121). -/
theorem State.AirflowFormed.noZones {s : State} (h : s.AirflowFormed) (hw : s.totalWeight = 0) :
    s.capacity.c = 0 ∧ s.capacity.f = 0 ∧ s.capacity.fmax = 0 ∧ s.capacity.effective = 0 ∧
      s.capacity.effectiveRunning = 0 ∧ (s.capacity.airflowLimited = true ↔ 0 < s.capacity.airflow) := by
  rw [h.f, h.effective, h.running, h.limited, h.fmax, h.c]
  simp [State.capacityRequest, published, carried, limitsAirflow, hw]

/-- With zones the opening is what the airflow needs, or Fmax where that is less (R121). -/
theorem State.AirflowFormed.opening {s : State} (h : s.AirflowFormed) (hw : 0 < s.totalWeight) :
    (s.capacity.airflowLimited = true ↔ 10 * s.capacity.fmax < s.capacity.airflow * s.totalWeight) ∧
      (s.capacity.airflowLimited = false →
        s.capacity.f = (s.capacity.airflow * s.totalWeight + 9) / 10 ∧
          s.capacity.effective = s.capacity.airflow) ∧
      (s.capacity.airflowLimited = true →
        s.capacity.f = s.capacity.fmax ∧ s.capacity.effective = s.capacity.fmax * 10 / s.totalWeight) := by
  have hne : s.totalWeight ≠ 0 := Nat.ne_of_gt hw
  have hlim : s.capacity.airflowLimited = true ↔ s.capacity.fmax < needed s.capacity.airflow s.totalWeight := by
    rw [h.limited, limitsAirflow, if_neg hne, decide_eq_true_iff]
  have hf : s.capacity.f = min (needed s.capacity.airflow s.totalWeight) s.capacity.fmax := by
    rw [h.f, published, if_neg hne]
  have he := h.effective
  rw [carried, if_neg hne] at he
  refine ⟨hlim.trans (lt_needed_iff _ _ _), fun hl => ?_, fun hl => ?_⟩
  · have hle : needed s.capacity.airflow s.totalWeight ≤ s.capacity.fmax := by
      rw [← Bool.not_eq_true, hlim] at hl
      omega
    rw [if_pos hle] at he
    exact ⟨hf.trans (Nat.min_eq_left hle), he⟩
  · have hlt := hlim.1 hl
    rw [if_neg (Nat.not_le.2 hlt)] at he
    exact ⟨hf.trans (Nat.min_eq_right hlt.le), he⟩

/-! ## The expiry -/

/-- An expiry weighs the calls, and of the other blocks it leaves what the plant's operations leave (R97, R114). -/
theorem exec_plantControlTimer {s : State} (hr : s.plantReady = true) (ha : s.aside = false) :
    ∃ t, exec .plantControlTimer s = .next t ∧ t.AirflowFormed ∧ PlantFrame s.selectMode t := by
  have hrole : s.loader.straps.role = .plant := by
    simp only [State.plantReady, Bool.and_eq_true, decide_eq_true_eq] at hr
    exact hr.2
  have hexec : exec .plantControlTimer s = .next s.modeExpiry.capacityPeriod.settlePlant :=
    if_pos (by simp [hr, ha])
  have fMode := s.modeExpiry_frames.1
  have rMode : s.modeExpiry.loader.straps.role = .plant := by rw [fMode.loader]; exact hrole
  have fPeriod := State.capacityPeriod_plant s.modeExpiry
  have fEnd := State.settlePlant_plant s.modeExpiry.capacityPeriod
  have hcap : s.modeExpiry.capacityPeriod.settlePlant.capacity = s.modeExpiry.capacityPeriod.capacity := by
    obtain ⟨_, _, _, _, _, _, _, hcap, _⟩ := s.modeExpiry.capacityPeriod.settlePlant_blocks
    exact hcap
  refine ⟨_, hexec, ?_, (fMode.trans fPeriod).trans fEnd⟩
  refine (State.capacityPeriod_formed rMode).kept ?_ fEnd.keepsRequest ?_ ?_
  · rw [fPeriod.loader]; exact rMode
  · rw [hcap]; exact ⟨rfl, rfl, rfl⟩
  · rw [hcap]; exact ⟨rfl, rfl, rfl, rfl⟩

/-- The mode's decision leaves the weights that the calls were given (R98, R99). -/
theorem State.selectMode_weights (s : State) :
    s.selectMode.modeSel.wc =
        (if s.sensors.systemSwitch = .cool ∨ s.sensors.systemSwitch = .auto then
          callWeight .cool ZoneRecord.ds s.zoneEntries else 0) ∧
      s.selectMode.modeSel.wh =
        (if s.sensors.systemSwitch = .heat ∨ s.sensors.systemSwitch = .auto then
          callWeight .heat ZoneRecord.ds s.zoneEntries else 0) ∧
      s.selectMode.modeSel.wd =
        (if s.sensors.systemSwitch = .cool ∨ s.sensors.systemSwitch = .auto then
          callWeight .dry ZoneRecord.dl s.zoneEntries else 0) := by
  obtain ⟨hc, hh, hd⟩ := (s.weigh.modeSel.advance s.sensors.systemSwitch).decide_weights
    s.sensors.systemSwitch (s.engine.state = .idle)
  refine ⟨hc.trans ?_, hh.trans ?_, hd.trans ?_⟩ <;>
    simp only [ModeSelector.advance, State.weigh, State.setModeSel_modeSel, SystemSwitch.admitsCooling_iff,
      SystemSwitch.admitsHeating_iff]

/-- A weight that the switch admits, or 0, is at most 1000 times all weight (R98, R99). -/
theorem admitted_le (b : Prop) [Decidable b] (c : Call) {l : List (Freshness × ZoneRecord)}
    (h : ∀ e ∈ l, e.2.ds ≤ 1000) :
    (if b then callWeight c ZoneRecord.ds l else 0) ≤ 1000 * (l.map fun e => e.2.weight).sum := by
  split
  · exact callWeight_le c _ l h
  · exact Nat.zero_le _

/-- Settles O47: the items a period forms, read by the weights and the zone entries that stand. -/
theorem capacityIsTheWeightedMean : Obligations.CapacityIsTheWeightedMean := by
  intro s w hr ha hw hd
  have hrole : s.loader.straps.role = .plant := by
    simp only [State.plantReady, Bool.and_eq_true, decide_eq_true_eq] at hr
    exact hr.2
  obtain ⟨t, hexec, hformed, hframe⟩ := exec_plantControlTimer hr ha
  obtain ⟨hwc, hwh, hwd⟩ := s.selectMode_weights
  obtain ⟨kc, kh, kd⟩ := hframe.keepsRequest.weights
  have hzones : t.zoneEntries = s.zoneEntries := State.zoneEntries_of hframe.loader hframe.peers hrole
  have htotal : t.totalWeight = w := by rw [State.totalWeight, hzones, hw]
  have hle : t.capacity.c ≤ 1000 := by
    have hds : ∀ e ∈ s.zoneEntries, e.2.ds ≤ 1000 := fun e he => (hd e he).1
    rw [hformed.c]
    refine State.capacityRequest_le_of_weights ?_ ?_ <;> rw [htotal, hw]
    · rw [kc, hwc]; exact admitted_le _ _ hds
    · rw [kh, hwh]; exact admitted_le _ _ hds
  refine ⟨t, hexec, kc.trans hwc, kh.trans hwh, kd.trans hwd, hle, fun h0 => hformed.noZones (htotal.trans h0),
    fun hpos => ?_, hframe.loader, hframe.peers, hframe.sensors, hframe.demand, hframe.share, hframe.damper,
    hframe.pending⟩
  have hpos' : 0 < t.totalWeight := by rw [htotal]; exact hpos
  obtain ⟨hNone, hCool, hHeat, hDry⟩ := State.capacityRequest_mean hpos'
  have hopening := hformed.opening hpos'
  rw [← hformed.c, htotal] at hCool hHeat hDry
  rw [← hformed.c] at hNone
  rw [htotal] at hopening
  refine ⟨hNone, fun hm => ?_, fun hm => ?_, fun hm => ?_, ?_, hopening⟩
  · rw [hCool hm]; exact nearest_natCast _ hpos
  · rw [hHeat hm]; exact nearest_natCast _ hpos
  · obtain ⟨h1, h2⟩ := nearest_natCast t.modeSel.wd hpos
    rw [hDry hm]
    have hmin : min 600 (nearest t.modeSel.wd w).toNat ≤ (nearest t.modeSel.wd w).toNat := Nat.min_le_right _ _
    refine ⟨Nat.min_le_left _ _, (Nat.mul_le_mul_left _ hmin).trans h1, fun hlt => ?_⟩
    rw [Nat.min_eq_right (by omega)]
    exact h2
  · rw [hformed.fmax, if_neg (Nat.ne_of_gt hpos'), hzones, fmaxOf]
    exact congrArg List.sum (List.map_congr_left fun e _ => fmaxTerm_eq e)

end Sys2Proof.Machine
end

