-- ==== Sys2Proof/Proofs/PlantInputs.lean ====
section
/-! PROOFS. A plant's sensor timer expiry: its five measured inputs and two contacts (R41 to R47), and the seeding of
the frost index by a first outdoor reading (R50, R178). -/

namespace Sys2Proof.Machine

/-! ## One input and one contact (R41 to R47) -/

/-- A plant's input is measured at every expiry: GOOD in its range, bad outside it (R43). -/
theorem Input.measure_measures (i : Input) (d : Nat) (low high raw : Int) :
    i.Measures (i.measure d low high raw) d low high raw := by
  refine ⟨Input.take_raw _ _ _ _, fun h => ?_, fun h => ?_⟩
  · have g := ({ i with raw := some raw } : Input).good_takesGood d raw
    rw [Input.measure, classifyRange_in h]
    exact ⟨g.seeded, g.moved, g.recovering, g.recovered⟩
  · have b := ({ i with raw := some raw } : Input).bad_takesBad
    rw [Input.measure, classifyRange_out h]
    exact ⟨b.kept, b.tracking, b.counting, b.faulted⟩

/-- A contact takes the level that two samples in a row show (R44). -/
theorem Contact.sample_eq (c : Contact) (level : Bool) :
    c.sample level = { asserted := if c.last = some level then level else c.asserted, last := some level } := by
  unfold Contact.sample
  by_cases hc : level = c.asserted <;> simp [hc]

/-! ## The expiry -/

theorem State.plantReady_iff (s : State) :
    s.plantReady = true ↔ s.ready = true ∧ s.loader.straps.role = .plant := by
  simp [State.plantReady]

theorem exec_sensorTimer_plant {s : State} (h : s.plantReady = true) (pins : PinSample) (first : Bool) :
    exec (.sensorTimer pins first) s = .next (s.plantSensorExpiry pins first).settlePlant := by
  obtain ⟨hr, hrole⟩ := s.plantReady_iff.1 h
  simp [exec, execSensorTimer, hr, hrole]

/-- Settles O35: each input measures, each contact samples, and the rest of the expiry is the plant's operations. -/
theorem plantInputsAndContacts : Obligations.PlantInputsAndContacts := by
  intro s pins first hr
  have hf := (s.plantSensorExpiry_plant pins first).trans (State.settlePlant_plant _)
  have hx : (s.plantSensorExpiry pins first).settlePlant.sensors = s.sensors.plantExpiry pins := hf.sensors
  refine ⟨_, exec_sensorTimer_plant hr pins first, ?_⟩
  rw [hx]
  exact ⟨Input.measure_measures _ _ _ _ _, Input.measure_measures _ _ _ _ _, Input.measure_measures _ _ _ _ _,
    Input.measure_measures _ _ _ _ _, Input.measure_measures _ _ _ _ _, Contact.sample_eq _ _, Contact.sample_eq _ _,
    rfl, rfl, hf.loader, hf.peers, hf.demand, hf.share, hf.damper, hf.pending⟩

/-! ## What follows the inputs (R140, R178) -/

/-- The hand-off of a seeding value (R178, R180). -/
theorem State.seedFrost_eq (raw : Int) (s : State) :
    s.seedFrost raw = s.setFrost
      { s.frost with
        index :=
          if s.loader.latest = .power ∧ raw < 500 ∧ s.aside = false then max 6000 s.frost.index
          else s.frost.index } := by
  unfold State.seedFrost
  by_cases h : s.loader.latest = .power ∧ raw < 500 ∧ s.aside = false
  · simp [h]
  · rw [if_neg (by simpa [and_assoc] using h), if_neg h]; rfl

/-- The inputs move, and of the other blocks the frost index alone may (R50, R178). -/
theorem State.plantSensors_eq (p : PinSample) (s : State) :
    s.plantSensors p = (s.setSensors (s.sensors.plantExpiry p)).setFrost
      { s.frost with
        index :=
          if seeded s.sensors.outdoorAir (s.sensors.plantExpiry p).outdoorAir = true ∧
              s.loader.latest = .power ∧ p.outdoorAir < 500 ∧ s.aside = false then max 6000 s.frost.index
          else s.frost.index } := by
  unfold State.plantSensors
  dsimp only
  split
  next h => rw [State.seedFrost_eq]; simp only [h, true_and]; rfl
  next h => rw [if_neg fun hc => h hc.1]; rfl

/-- A station that does not take requests yet drops them (R134). -/
theorem State.request_deaf {s : State} (h : s.engine.listening ≠ .expired) (p : Proc) : s.request p = s :=
  if_neg (by simp [h])

theorem State.contactRequests_deaf {s : State} (h : s.engine.listening ≠ .expired) (i c : Bool) :
    s.contactRequests i c = s := by
  simp [State.contactRequests, State.request_deaf h]

/-- A step without a sensor exit is not ended by an expiry (R140). -/
theorem State.examineSensorExit_eq {s : State} (h5 : s.engine.step ≠ some .d5) (h10 : s.engine.step ≠ some .d10) :
    s.examineSensorExit = s := by
  unfold State.examineSensorExit
  split
  next st hst =>
    have hx : s.sensorExit st = false := by
      cases st
      case d5 => exact absurd hst h5
      case d10 => exact absurd hst h10
      all_goals rfl
    simp [hx]
  next => rfl

/-- Settles O36: a station that still listens, with no step to end, does nothing at an expiry but move its inputs and
seed the index. -/
theorem firstOutdoorReadingSeedsTheIndex : Obligations.FirstOutdoorReadingSeedsTheIndex := by
  intro s pins first hr ha hl hstep hs hn hlow hhigh
  have heq := State.plantSensors_eq pins s
  have hdeaf : (s.plantSensors pins).engine.listening ≠ .expired := by rw [heq]; exact hl
  have hrest : (s.plantSensors pins).engine.step = none := by rw [heq]; exact hstep
  have hx : s.plantSensorExpiry pins first = s.plantSensors pins := by
    have he : (s.plantSensors pins).examineSensorExit = s.plantSensors pins :=
      State.examineSensorExit_eq (by simp [hrest]) (by simp [hrest])
    unfold State.plantSensorExpiry
    dsimp only
    rw [he, State.contactRequests_deaf hdeaf, he, ite_self]
  have hair : (s.sensors.plantExpiry pins).outdoorAir =
      { s.sensors.outdoorAir with
        raw := some pins.outdoorAir, state := .tracking, filtered := some pins.outdoorAir, hold := 0 } := by
    simp [Sensors.plantExpiry, Input.measure, classifyRange_in ⟨hlow, hhigh⟩, Input.take, Input.good, hs]
  have hseeded : seeded s.sensors.outdoorAir (s.sensors.plantExpiry pins).outdoorAir = true := by
    rw [hair]; simp [seeded, hn]
  obtain ⟨_, _, hsensors, _, _, _, hmode, hcapacity, hprotection, hfrost, _⟩ :=
    (s.plantSensors pins).settlePlant_blocks
  refine ⟨_, exec_sensorTimer_plant hr pins first, ?_⟩
  rw [hx, hsensors, hfrost, hcapacity, hprotection, hmode, heq]
  refine ⟨congrArg Input.filtered hair, congrArg Input.state hair, ?_, rfl, rfl, rfl⟩
  simp [hseeded, ha]

end Sys2Proof.Machine
end

