-- ==== Sys2Proof/Proofs/HeadLink.lean ====
section
/-! PROOFS. The head link: a head frame octet by octet, what its last octet brings, and the loss of the link (R37 to
R40, R110, R196). -/

namespace Sys2Proof.Machine

/-! ## The head receiver (R37) -/

/-- The station with its head receiver at another place. -/
def State.atHead (s : State) (r : HeadReceiver) : State := s.setSensors { s.sensors with headRx := r }

theorem State.atHead_self {s : State} {r : HeadReceiver} (h : s.sensors.headRx = r) : s.atHead r = s := by
  subst h; rfl

/-- An octet moves the receiver, and then its event acts. -/
theorem State.headOctet_atHead (s : State) (r : HeadReceiver) (o : Byte) :
    (s.atHead r).headOctet o =
      (s.atHead (r.octet s.loader.straps.role o).1).headEvent (r.octet s.loader.straps.role o).2 := rfl

/-- The sync octet and a head-kind octet open a frame's body. -/
theorem State.headOctets_open {kind : Byte} (hk : kind = 1#8 ∨ kind = 2#8) (s : State) :
    [0xA5#8, kind].foldl State.headOctet (s.atHead .hunt) = s.atHead (.body kind []) := by
  simp [State.headOctet_atHead, HeadReceiver.octet, hk, State.headEvent]

/-- Another head-kind octet sends the receiver hunting (R37). -/
theorem State.headOctets_otherKind {kind : Byte} (h1 : kind ≠ 1#8) (h2 : kind ≠ 2#8) (s : State) :
    [0xA5#8, kind].foldl State.headOctet (s.atHead .hunt) = s.atHead .hunt := by
  simp [State.headOctet_atHead, HeadReceiver.octet, h1, h2, State.headEvent]

/-- The octets of a body that is not yet full are kept. -/
theorem State.headOctets_body (kind : Byte) (s : State) (l : List Byte) :
    ∀ sofar : List Byte, sofar.length + l.length < headBodyLength kind →
      l.foldl State.headOctet (s.atHead (.body kind sofar)) = s.atHead (.body kind (sofar ++ l)) := by
  induction l with
  | nil => intro sofar _; rw [List.append_nil]; rfl
  | cons o l ih =>
    intro sofar h
    rw [List.length_cons] at h
    have hone : (s.atHead (.body kind sofar)).headOctet o = s.atHead (.body kind (sofar ++ [o])) := by
      have hne : sofar.length + 1 ≠ headBodyLength kind := by omega
      simp [State.headOctet_atHead, HeadReceiver.octet, hne, State.headEvent]
    rw [List.foldl_cons, hone, ih (sofar ++ [o]) (by rw [List.length_append, List.length_singleton]; omega),
      List.append_assoc, List.singleton_append]

/-- The octet that fills the body brings the frame's event and leaves the receiver hunting. -/
theorem State.headOctets_full {kind : Byte} {body : List Byte} (h : body.length = headBodyLength kind) (s : State) :
    body.foldl State.headOctet (s.atHead (.body kind [])) =
      (s.atHead .hunt).headEvent (headFrameEnd s.loader.straps.role kind body) := by
  have hpos : 0 < headBodyLength kind := by unfold headBodyLength; split <;> decide
  obtain ⟨l, o, rfl⟩ : ∃ l o, body = l ++ [o] :=
    ⟨_, _, (List.dropLast_append_getLast (List.ne_nil_of_length_pos (h ▸ hpos))).symm⟩
  have hl : l.length + 1 = headBodyLength kind := by simpa using h
  rw [List.foldl_append, State.headOctets_body kind s l [] (by simp; omega)]
  simp [State.headOctet_atHead, HeadReceiver.octet, hl]

/-! ## A whole head frame (R37) -/

/-- What the readings of a checked frame bring to a station of a role. -/
def headReadings (role : Role) (kind : Byte) (readings : List Byte) : HeadEvent :=
  if kind ≠ headKind role then .none
  else
    match role with
    | .zone => wallReadings readings
    | .plant => plantReadings readings

theorem headFrameEnd_append (role : Role) (kind : Byte) (readings : List Byte) {check : List Byte}
    (h : check.length = 2) :
    headFrameEnd role kind (readings ++ check) =
      if crcOctets (kind :: readings) ≠ check then .none else headReadings role kind readings := by
  have hlen : (readings ++ check).length - 2 = readings.length := by rw [List.length_append, h]; omega
  unfold headFrameEnd
  rw [hlen, List.take_left, List.drop_left]
  rfl

/-- A head frame acts at its last octet. -/
theorem exec_headFrame {s : State} {kind : Byte} {readings check : List Byte} (hr : s.ready = true)
    (hx : s.sensors.headRx = .hunt) (hk : (kind = 1#8 ∧ readings.length = 7) ∨ (kind = 2#8 ∧ readings.length = 2))
    (hc : check.length = 2) :
    exec (.headFrameArrival ([0xA5#8, kind] ++ readings ++ check)) s = .next
      (s.headEvent
        (if crcOctets (kind :: readings) ≠ check then .none
        else headReadings s.loader.straps.role kind readings)) := by
  have hkind : kind = 1#8 ∨ kind = 2#8 := hk.imp And.left And.left
  have hlen : (readings ++ check).length = headBodyLength kind := by
    obtain ⟨rfl, hl⟩ | ⟨rfl, hl⟩ := hk <;> rw [List.length_append, hl, hc] <;> rfl
  have hfold : ([0xA5#8, kind] ++ readings ++ check).foldl State.headOctet s =
      s.headEvent (headFrameEnd s.loader.straps.role kind (readings ++ check)) := by
    rw [List.append_assoc, List.foldl_append]
    conv_lhs => rw [← State.atHead_self hx, State.headOctets_open hkind, State.headOctets_full hlen,
      State.atHead_self hx]
  simp only [exec, execHeadFrameArrival, hr, if_true, hfold, headFrameEnd_append _ _ _ hc]
  rfl

/-- A frame with its own check value brings its readings. -/
theorem exec_checkedHeadFrame {s : State} {kind : Byte} {readings : List Byte} (hr : s.ready = true)
    (hx : s.sensors.headRx = .hunt)
    (hk : (kind = 1#8 ∧ readings.length = 7) ∨ (kind = 2#8 ∧ readings.length = 2)) :
    exec (.headFrameArrival ([0xA5#8, kind] ++ readings ++ crcOctets (kind :: readings))) s = .next
      (s.headEvent (headReadings s.loader.straps.role kind readings)) := by
  rw [exec_headFrame hr hx hk rfl, if_neg (not_not.2 rfl)]

/-! ## The readings (R39, R40, R196) -/

/-- A wall sensor head's readings come back from their octets. -/
theorem wallReadings_put {temp target : Int} {rh : Nat} (ht : -32768 ≤ temp ∧ temp < 32768)
    (hg : -32768 ≤ target ∧ target < 32768) (hrh : rh < 65536) (zoneOn : Bool) :
    wallReadings (putTemp temp ++ put16 rh ++ putTemp target ++ [if zoneOn then 1#8 else 0#8]) =
      .wall temp rh target zoneOn := by
  cases zoneOn <;>
    simp only [wallReadings, putTemp, put16, List.cons_append, List.nil_append, getTemp, get16, octetAt_cons_succ,
      octetAt_cons_zero, octet_toNat, getTemp_putTemp ht, getTemp_putTemp hg, get16_put16 hrh]
  · rfl
  · rfl

theorem SystemSwitch.ofCode_eq (n : Nat) :
    SystemSwitch.ofCode n = [SystemSwitch.off, .fan, .cool, .heat, .auto][n]? := by
  match n with
  | 0 | 1 | 2 | 3 | 4 => rfl
  | _ + 5 => rfl

/-- A plant head's readings come back from their octets. -/
theorem plantReadings_codes {code : Nat} {switch : SystemSwitch} (h : SystemSwitch.ofCode code = some switch)
    (fan : Bool) : plantReadings [octet code, if fan then 1#8 else 0#8] = .plant switch fan := by
  have hlt : code < 5 := by
    rw [SystemSwitch.ofCode_eq] at h
    exact (List.getElem?_eq_some_iff.1 h).1
  have hmod : code % 256 = code := by omega
  cases fan <;> simp [plantReadings, hmod, h]

/-- Readings of the other head kind, or with an undefined code, bring nothing (R37). -/
theorem headReadings_none {role : Role} {kind : Byte} {readings : List Byte}
    (h : (role = .zone ∧ kind = 2#8) ∨ (role = .plant ∧ kind = 1#8) ∨
      (kind = 1#8 ∧ 2 ≤ octetAt readings 6) ∨ (kind = 2#8 ∧ (5 ≤ octetAt readings 0 ∨ 2 ≤ octetAt readings 1))) :
    headReadings role kind readings = .none := by
  have hwall (h2 : 2 ≤ octetAt readings 6) : wallReadings readings = .none := by
    unfold wallReadings
    split
    next h => omega
    next h => omega
    next => rfl
  have hplant (h2 : 5 ≤ octetAt readings 0 ∨ 2 ≤ octetAt readings 1) : plantReadings readings = .none := by
    have hcode (h5 : 5 ≤ octetAt readings 0) : SystemSwitch.ofCode (octetAt readings 0) = none := by
      rw [SystemSwitch.ofCode_eq]
      exact List.getElem?_eq_none h5
    unfold plantReadings
    split
    next hc hf =>
      obtain h5 | h5 := h2
      · rw [hcode h5] at hc; cases hc
      · omega
    next hc hf =>
      obtain h5 | h5 := h2
      · rw [hcode h5] at hc; cases hc
      · omega
    next => rfl
  unfold headReadings headKind
  obtain ⟨rfl, rfl⟩ | ⟨rfl, rfl⟩ | ⟨rfl, h2⟩ | ⟨rfl, h2⟩ := h
  · rfl
  · rfl
  · cases role
    · exact hwall h2
    · rfl
  · cases role
    · rfl
    · exact hplant h2

/-! ## What a head frame moves (R40, R110, R112) -/

/-- The head link's octets move the Sensor Inputs and the off-hold timer alone. -/
def State.HeadFrame (s t : State) : Prop :=
  t = (s.setSensors t.sensors).setModeSel { s.modeSel with offHold := t.modeSel.offHold }

theorem State.HeadFrame.trans {s t u : State} (h : s.HeadFrame t) (k : t.HeadFrame u) : s.HeadFrame u := by
  unfold State.HeadFrame at *
  rw [k, h]
  rfl

theorem State.headOctet_headFrame (s : State) (o : Byte) : s.HeadFrame (s.headOctet o) := by
  unfold State.HeadFrame State.headOctet State.headEvent
  dsimp only
  split <;> rfl

theorem State.headOctets_headFrame (octets : List Byte) :
    ∀ s : State, s.HeadFrame (octets.foldl State.headOctet s) := by
  induction octets with
  | nil => exact fun s => rfl
  | cons o l ih => exact fun s => (s.headOctet_headFrame o).trans (ih _)

/-- The off-hold timer at a plant head's arrival (R110). -/
theorem offHoldAfter_cases (x : Sensors) (switch : SystemSwitch) (running : Bool) :
    (switch = .off → x.systemSwitch ≠ .off ∨ x.headSeen = false → offHoldAfter x switch running = true) ∧
    (switch ≠ .off → switch ≠ x.systemSwitch → offHoldAfter x switch running = false) ∧
    (switch = x.systemSwitch → x.headSeen = true → offHoldAfter x switch running = running) := by
  unfold offHoldAfter
  refine ⟨fun h hs => ?_, fun h hs => ?_, fun h hs => ?_⟩
  · obtain hs | hs := hs <;> simp [h, hs]
  · simp [h, hs]
  · by_cases hoff : x.systemSwitch = .off <;> simp [h, hoff, hs]

/-! ## The head link's commands -/

/-- A wall sensor head's frame acts on the Sensor Inputs at once (R37 to R39). -/
theorem exec_wallFrame {s : State} {temp target : Int} {rh : Nat} (zoneOn : Bool) (hz : s.zoneReady = true)
    (hx : s.sensors.headRx = .hunt) (ht : -32768 ≤ temp ∧ temp < 32768) (hg : -32768 ≤ target ∧ target < 32768)
    (hrh : rh < 65536) :
    exec (.headFrameArrival
      ([0xA5#8, 1#8] ++ (putTemp temp ++ put16 rh ++ putTemp target ++ [if zoneOn then 1#8 else 0#8]) ++
        crcOctets (1#8 :: (putTemp temp ++ put16 rh ++ putTemp target ++ [if zoneOn then 1#8 else 0#8])))) s =
      .next (s.setSensors (s.sensors.wallArrival temp rh target zoneOn)) := by
  obtain ⟨hr, hrole⟩ : s.ready = true ∧ s.loader.straps.role = .zone := by
    simpa [State.zoneReady] using hz
  have hread : headReadings s.loader.straps.role 1#8
      (putTemp temp ++ put16 rh ++ putTemp target ++ [if zoneOn then 1#8 else 0#8]) = .wall temp rh target zoneOn := by
    rw [hrole]; exact wallReadings_put ht hg hrh zoneOn
  rw [exec_checkedHeadFrame hr hx (.inl ⟨rfl, rfl⟩), hread]
  rfl

/-- A plant head's frame acts on the link and the selections, and in a station that attends on the off-hold timer
(R37, R40, R110, R112). -/
theorem exec_plantFrame {s : State} {code : Nat} {switch : SystemSwitch} (fan : Bool) (hp : s.plantReady = true)
    (hx : s.sensors.headRx = .hunt) (hc : SystemSwitch.ofCode code = some switch) :
    exec (.headFrameArrival
      ([0xA5#8, 2#8, octet code, if fan then 1#8 else 0#8] ++
        crcOctets [2#8, octet code, if fan then 1#8 else 0#8])) s =
      .next (s.headEvent (.plant switch fan)) := by
  obtain ⟨hr, hrole⟩ := s.plantReady_iff.1 hp
  have hread : headReadings s.loader.straps.role 2#8 [octet code, if fan then 1#8 else 0#8] = .plant switch fan := by
    rw [hrole]; exact plantReadings_codes hc fan
  exact (exec_checkedHeadFrame hr hx (.inr ⟨rfl, rfl⟩)).trans (by rw [hread])

theorem exec_headFrameAbandoned {s : State} (hr : s.ready = true) (octets : List Byte) :
    exec (.headFrameAbandoned octets) s = .next ((octets.foldl State.headOctet s).atHead .hunt) := by
  simp only [exec, execHeadFrameAbandoned, hr, if_true]
  rfl

/-- Settles O33: frames that are taken by either head, the loss, a broken frame, and frames that are discarded. -/
theorem headLinkArrivalsLossAndAbandon : Obligations.HeadLinkArrivalsLossAndAbandon := by
  refine ⟨?_, ?_, ?_, ?_, ?_, ?_, ?_⟩
  · intro s temp target rh zoneOn hz hx ht1 ht2 hg1 hg2 hrh
    exact exec_wallFrame zoneOn hz hx ⟨ht1, by omega⟩ ⟨hg1, by omega⟩ (by omega)
  · intro s code switch fan hp hx hc
    obtain ⟨hoff, hother, hsame⟩ := offHoldAfter_cases s.sensors switch s.modeSel.offHold
    refine ⟨_, exec_plantFrame fan hp hx hc, rfl, fun ha => ⟨fun h1 h2 => ?_, fun h1 h2 => ?_⟩,
      fun h1 h2 => ?_, rfl⟩
    · simpa [State.headEvent, ha] using hoff h1 h2
    · simpa [State.headEvent, ha] using hother h1 h2
    · simp [State.headEvent, hsame h1 h2]
  · intro s hr hl
    simp [exec, execLossTimer, hr, hl]
  · exact fun s hr => exec_headFrameAbandoned hr []
  · intro s octets hr
    exact ⟨_, exec_headFrameAbandoned hr octets, rfl, (s.headOctets_headFrame octets).trans rfl⟩
  · intro s kind readings hr hx hk
    refine ⟨fun high low hne => ?_, fun hno => ?_⟩
    · rw [exec_headFrame hr hx hk rfl, if_pos hne.symm]; rfl
    · rw [exec_checkedHeadFrame hr hx hk, headReadings_none hno]; rfl
  · intro s kind hr hx h1 h2
    have hfold := State.headOctets_otherKind h1 h2 s
    rw [State.atHead_self hx] at hfold
    simp only [exec, execHeadFrameArrival, hr, if_true, hfold]
    rfl

end Sys2Proof.Machine
end

