-- ==== Sys2Proof/Proofs/EngineStops.lean ====
section
/-! PROOFS. The steps that stop the compressor, T1 of a STOP and E1 of an EMERGENCY, followed through the engine's moves
to the step that waits behind them (R136, R140 to R143, R147, R149). -/

namespace Sys2Proof.Machine

/-! ## The engine's moves, one at a time (R140, R141) -/

theorem State.drive_rest (n : Nat) (s : State) : s.drive n .rest = s := by cases n <;> rfl

theorem State.drive_succ (n : Nat) (t : Todo) (s : State) : s.drive (n + 1) t = (s.move t).2.drive n (s.move t).1 := by
  cases t
  case rest => exact (State.drive_rest n s).symm
  all_goals rfl

/-- A step without a delay stands RUNNING before its action is applied (R140). -/
def State.atAction (st : StepId) (s : State) : State :=
  (s.current st).setEngine { (s.current st).engine with state := .running, delaying := false, stepTime := 0 }

/-- Its action is applied, with the outputs that follow and its mark (R140). -/
def State.enter (st : StepId) (s : State) : State := (((s.atAction st).act st).driveOutputs).mark st

/-- A step with no delay, no withdrawal test and no spacing report: a guard alone can hold its action back (R140, R145,
R146, R150). -/
def StepId.plain (st : StepId) : Prop := st ≠ .s3 ∧ st ≠ .x2 ∧ st.delay = none

/-- The steps of an EMERGENCY and the first two of a STOP are plain (R143, R147). -/
theorem StepId.plain_of_mem {st : StepId} (h : st ∈ [StepId.e1, .e2, .t1, .t2]) : st.plain := by
  simp only [List.mem_cons, List.not_mem_nil, or_false] at h
  obtain rfl | rfl | rfl | rfl := h <;> simp [StepId.plain, StepId.delay]

/-- A plain step without a guard is entered, and ends at once where its exit holds (R140). -/
theorem State.drive_take {s : State} {st : StepId} (n : Nat) (hst : st.plain) (hg : (s.current st).guardOf st = none) :
    s.drive (n + 2) (.take st) =
      (s.enter st).drive n (if (s.enter st).exitHolds st then .boundary false else .rest) := by
  obtain ⟨hs3, hx2, hd⟩ := hst
  have htake : s.takeStep st = (.apply, s.current st) := by
    have hw : (s.current st).withdrawnAtS3 st = false := by simp [State.withdrawnAtS3, hs3]
    have hdelay : (s.current st).engine.delaying = false := congrArg Option.isSome hd
    simp [State.takeStep, hw, hg, hdelay]
  have happly : (s.current st).applyStep =
      (if (s.enter st).exitHolds st then .boundary false else .rest, s.enter st) := by
    unfold State.applyStep
    rw [show (s.current st).engine.step = some st from rfl]
    dsimp only
    rw [if_neg hx2, ← State.atAction, ← State.enter]
    split <;> rfl
  rw [State.drive_succ, State.move, htake, State.drive_succ, State.move, happly]

/-- A boundary that nothing displaces goes on to the next link (R141). -/
theorem State.drive_boundary {s : State} {st next : StepId} (n : Nat) (b : Bool) (hst : s.engine.step = some st)
    (hnext : st.next = some next) (ho : s.engine.outranked = false) :
    s.drive (n + 1) (.boundary b) = (s.writeBoundary st b).drive n (.take next) := by
  have ho' : (s.writeBoundary st b).engine.outranked = false := by
    rw [← ho]; unfold State.writeBoundary; dsimp only; split <;> rfl
  rw [State.drive_succ, State.move, State.boundary, hst]
  simp [hnext, ho']

/-- A pending request is at most of a STOP's priority (R135). -/
theorem Requests.top_priority_le {r : Requests} {p : Proc} (h : r.top = some p) : p.priority ≤ 5 := by
  unfold Requests.top at h
  (repeat' split at h) <;> cases h <;> simp [Proc.priority]

/-- No pending request displaces a STOP or an EMERGENCY at a boundary (R135, R141). -/
theorem Engine.not_outranked {e : Engine} {p : Proc} (hp : e.running = some p) (h5 : 5 ≤ p.priority) :
    e.outranked = false := by
  unfold Engine.outranked
  rw [hp]
  split
  next q _ hq hrunning =>
    obtain rfl := Option.some.inj hrunning
    exact decide_eq_false (Nat.not_lt.2 ((Requests.top_priority_le hq).trans h5))
  next => rfl

/-! ## The compressor stops (R143, R147, R156, R162) -/

/-- The open run, if any, has been closed with a cause, and the request that waits stands (R162). -/
structure Protection.Closes (p q : Protection) (c : StopCause) : Prop where
  run : q.run = none
  waiting : q.waiting = p.waiting
  record : p.run.isSome = true → ∃ rec, q.history.getLast? = some rec ∧ rec.cause = c

theorem State.closeRun_waiting (c : StopCause) (s : State) :
    (s.closeRun c).protection.waiting = s.protection.waiting := by
  unfold State.closeRun State.beginLockout
  dsimp only
  (repeat' split) <;> rfl

theorem State.runOff_protection (s : State) :
    s.runOff.protection.run = s.protection.run ∧ s.runOff.protection.waiting = s.protection.waiting := by
  unfold State.runOff; split <;> exact ⟨rfl, rfl⟩

/-- T1, X1 and E1 alike: the run output falls and the open run is closed. -/
theorem State.runOff_closeRun (c : StopCause) (s : State) :
    (∃ r n, (s.runOff.closeRun c).engine = { s.engine with run := false, requests := r, refused := n }) ∧
      s.protection.Closes (s.runOff.closeRun c).protection c := by
  obtain ⟨r, n, he⟩ := State.closeRun_engine c s.runOff
  obtain ⟨hrun, _, hrecord⟩ := State.closeRun_record c s.runOff
  obtain ⟨hopen, hwaiting⟩ := s.runOff_protection
  exact ⟨⟨r, n, by rw [he, State.runOff_engine]⟩, hrun, (State.closeRun_waiting c s.runOff).trans hwaiting,
    fun h => hrecord (hopen ▸ h)⟩

/-- E1 entered by an EMERGENCY: everything off, the run closed, and the hold loaded (R147). -/
theorem State.enter_e1 {s : State} {c : EmergencyCause} (h : s.engine.running = some (.emergency c)) :
    (∃ r n, (s.enter .e1).engine =
      { s.engine with
        state := .running, step := some .e1, delaying := false, stepTime := 0, exitTime := none
        timeLimit := none, run := false, requests := r, refused := n, speedHold := some 0
        blowerHold := some 0, emergencyHold := c.hold, marks := s.engine.marks + 1 }) ∧
    s.protection.Closes (s.enter .e1).protection c.cause := by
  have hcause : (s.atAction .e1).engine.stopCause = c.cause := by
    simp [Engine.stopCause, State.atAction, State.current, h]
  have hhold : (s.atAction .e1).engine.requestHold = c.hold := by
    simp [Engine.requestHold, State.atAction, State.current, h]
  obtain ⟨⟨r, n, he⟩, hclosed⟩ := (s.atAction .e1).runOff_closeRun c.cause
  refine ⟨⟨r, n, ?_⟩, ?_⟩
  · simp only [State.enter, State.act, State.mark, StepId.marked, State.driveOutputs, State.holdSpeed,
      State.holdBlower, hcause, hhold, if_true, State.setEngine_engine, State.setCapacity_engine,
      State.prompt_engine, he]
    rfl
  · simp only [State.enter, State.act, State.mark, StepId.marked, State.driveOutputs, State.holdSpeed,
      State.holdBlower, hcause, if_true, State.prompt_protection, State.setEngine_protection,
      State.setCapacity_protection]
    exact hclosed

/-- T1 entered by a STOP: the compressor off and the run closed with the STOP's cause (R143). -/
theorem State.enter_t1 {s : State} {r : StopReason} (h : s.engine.running = some (.stop r)) :
    (∃ q n, (s.enter .t1).engine =
      { s.engine with
        state := .running, step := some .t1, delaying := false, stepTime := 0, exitTime := none
        timeLimit := none, run := false, requests := q, refused := n, speedHold := some 0
        marks := s.engine.marks + 1 }) ∧
    s.protection.Closes (s.enter .t1).protection r.cause := by
  have hcause : (s.atAction .t1).engine.stopCause = r.cause := by
    simp [Engine.stopCause, State.atAction, State.current, h]
  obtain ⟨⟨q, n, he⟩, hclosed⟩ := (s.atAction .t1).runOff_closeRun r.cause
  refine ⟨⟨q, n, ?_⟩, ?_⟩
  · simp only [State.enter, State.act, State.mark, StepId.marked, State.driveOutputs, State.holdSpeed, hcause,
      if_true, State.setEngine_engine, State.setCapacity_engine, State.prompt_engine, he]
    rfl
  · simp only [State.enter, State.act, State.mark, StepId.marked, State.driveOutputs, State.holdSpeed, hcause,
      if_true, State.prompt_protection, State.setEngine_protection, State.setCapacity_protection]
    exact hclosed

theorem State.enter_plant (st : StepId) (s : State) : PlantFrame s (s.enter st) :=
  (PlantFrame.trans (by constructor <;> rfl) (State.act_plant st _)).trans
    ((State.driveOutputs_plant _).trans (State.mark_plant st _))

/-- The outputs after an action follow the run output and the values that the step holds (R118, R123). -/
theorem State.enter_outputs (st : StepId) (s : State) :
    ((s.enter st).engine.run = false → (s.enter st).capacity.speedCommand = 0) ∧
      (∀ v, (s.enter st).engine.blowerHold = some v →
        (s.enter st).capacity.blowerCommand = if s.aside = true then 0 else v) := by
  have haside : ((s.atAction st).act st).aside = s.aside :=
    (PlantFrame.trans (by constructor <;> rfl) (State.act_plant st _)).aside
  have hmark (u : State) : (u.mark st).capacity = u.capacity ∧ (u.mark st).engine.run = u.engine.run ∧
      (u.mark st).engine.blowerHold = u.engine.blowerHold := by
    unfold State.mark; split <;> exact ⟨rfl, rfl, rfl⟩
  obtain ⟨hcap, hrun, hhold⟩ := hmark ((s.atAction st).act st).driveOutputs
  rw [State.enter, hcap, hrun, hhold, ← haside]
  refine ⟨fun h => ?_, fun v h => ?_⟩
  · have h' : ((s.atAction st).act st).engine.run = false := h
    simp [State.driveOutputs, h']
  · have h' : ((s.atAction st).act st).engine.blowerHold = some v := h
    simp [State.driveOutputs, h']

/-! ## From the step that stops to the step behind it (R141, R143, R147) -/

/-- The mode is not changed by the plant's operations. -/
theorem PlantFrame.mode {s t : State} (h : PlantFrame s t) : t.modeSel.mode = s.modeSel.mode :=
  (congrArg ModeSelector.mode h.modeSel :)

/-- A step entered and left again at once (R140, R141). -/
def State.pass (st : StepId) (s : State) : State := (s.enter st).writeBoundary st false

theorem State.pass_plant (st : StepId) (s : State) : PlantFrame s (s.pass st) :=
  (s.enter_plant st).trans (State.writeBoundary_plant st false _)

/-- What a boundary writes, but for D5 (R141). -/
theorem State.pass_blocks {st : StepId} (h : st ≠ .d5) (s : State) :
    (s.pass st).engine =
      { (s.enter st).engine with
        status := { (s.enter st).engine.status with proc := (s.enter st).engine.running, step := some st }
        stepsLoaded := (s.enter st).engine.stepsLoaded + 1 } ∧
    (s.pass st).protection = (s.enter st).protection := by
  unfold State.pass State.writeBoundary
  dsimp only
  rw [if_neg h]
  exact ⟨by simp, rfl⟩

/-- The engine passes a step whose exit holds as its action is applied. -/
theorem State.drive_pass {s : State} {st next : StepId} (n : Nat) (hst : st.plain)
    (hg : (s.current st).guardOf st = none) (hx : (s.enter st).exitHolds st = true)
    (hstep : (s.enter st).engine.step = some st) (hnext : st.next = some next)
    (ho : (s.enter st).engine.outranked = false) :
    s.drive (n + 3) (.take st) = (s.pass st).drive n (.take next) := by
  rw [State.drive_take (n + 1) hst hg, hx]
  exact State.drive_boundary n false hstep hnext ho

/-- The engine stands at a step whose exit does not hold yet. -/
theorem State.drive_stand {s : State} {st : StepId} (n : Nat) (hst : st.plain)
    (hg : (s.current st).guardOf st = none) (hx : (s.enter st).exitHolds st = false) :
    s.drive (n + 2) (.take st) = s.enter st := by
  rw [State.drive_take n hst hg, hx]
  exact State.drive_rest n _

/-- E2 entered: it waits for the hold, and nothing else moves (R147). -/
theorem State.enter_e2 (s : State) :
    (s.enter .e2).engine =
      { s.engine with
        state := .running, step := some .e2, delaying := false, stepTime := 0, exitTime := none
        timeLimit := none } ∧
    (s.enter .e2).protection = s.protection := ⟨rfl, rfl⟩

/-- T2 entered: the fan airflow, for a time by the mode (R143). -/
theorem State.enter_t2 (s : State) :
    (s.enter .t2).engine =
      { s.engine with
        state := .running, step := some .t2, delaying := false, stepTime := 0
        exitTime := some (if s.modeSel.mode = .heat then 90 else 60), timeLimit := none
        blowerHold := some s.pp.fanAirflow } ∧
    (s.enter .t2).protection = s.protection := ⟨rfl, rfl⟩

/-- An EMERGENCY stops the plant at E1 and stands at E2 with its hold (R147). -/
theorem State.drive_e1 {s : State} {c : EmergencyCause} (n : Nat) (h : s.engine.running = some (.emergency c)) :
    ∃ t, s.drive (n + 5) (.take .e1) = t ∧
      (∃ r k, t.engine =
        { s.engine with
          state := .running, step := some .e2, delaying := false, stepTime := 0, exitTime := none
          timeLimit := none, run := false, requests := r, refused := k, speedHold := some 0
          blowerHold := some 0, emergencyHold := c.hold, marks := s.engine.marks + 1
          stepsLoaded := s.engine.stepsLoaded + 1
          status := { s.engine.status with proc := some (.emergency c), step := some .e1 } }) ∧
      s.protection.Closes t.protection c.cause ∧ t.capacity.speedCommand = 0 ∧ t.capacity.blowerCommand = 0 := by
  obtain ⟨⟨r, k, he⟩, hclosed⟩ := State.enter_e1 h
  obtain ⟨hpe, hpp⟩ := State.pass_blocks (st := .e1) (by simp) s
  obtain ⟨he2, hp2⟩ := (s.pass .e1).enter_e2
  obtain ⟨hspeed, hblower⟩ := (s.pass .e1).enter_outputs .e2
  rw [he] at hpe
  rw [hpe] at he2
  have hstand : ((s.pass .e1).enter .e2).exitHolds .e2 = false := by
    have hhold : ((s.pass .e1).enter .e2).engine.emergencyHold = c.hold := by rw [he2]
    have hpos : c.hold ≠ 0 := by cases c <;> simp [EmergencyCause.hold]
    simp [State.exitHolds, hhold, hpos]
  refine ⟨(s.pass .e1).enter .e2, ?_, ⟨r, k, ?_⟩, ?_, hspeed (by rw [he2]), ?_⟩
  · rw [State.drive_pass (n + 2) (StepId.plain_of_mem (by simp)) rfl rfl (by rw [he]) rfl
      (Engine.not_outranked (p := .emergency c) (by rw [he]; exact h) (by simp [Proc.priority]))]
    exact State.drive_stand n (StepId.plain_of_mem (by simp)) rfl hstand
  · rw [he2, h]
  · rw [hp2, hpp]; exact hclosed
  · rw [hblower 0 (by rw [he2])]; exact ite_self 0

/-- A STOP whose T1 is not guarded stops the plant there and stands at T2 (R143). -/
theorem State.drive_t1 {s : State} {r : StopReason} (n : Nat) (h : s.engine.running = some (.stop r))
    (hg : (s.current .t1).guardOf .t1 = none) :
    ∃ t, s.drive (n + 5) (.take .t1) = t ∧
      (∃ q k, t.engine =
        { s.engine with
          state := .running, step := some .t2, delaying := false, stepTime := 0
          exitTime := some (if s.modeSel.mode = .heat then 90 else 60)
          timeLimit := none, run := false, requests := q, refused := k, speedHold := some 0
          blowerHold := some s.pp.fanAirflow, marks := s.engine.marks + 1
          stepsLoaded := s.engine.stepsLoaded + 1
          status := { s.engine.status with proc := some (.stop r), step := some .t1 } }) ∧
      s.protection.Closes t.protection r.cause ∧ t.capacity.speedCommand = 0 ∧
      t.capacity.blowerCommand = if s.aside = true then 0 else s.pp.fanAirflow := by
  obtain ⟨⟨q, k, he⟩, hclosed⟩ := State.enter_t1 h
  obtain ⟨hpe, hpp⟩ := State.pass_blocks (st := .t1) (by simp) s
  obtain ⟨he2, hp2⟩ := (s.pass .t1).enter_t2
  obtain ⟨hspeed, hblower⟩ := (s.pass .t1).enter_outputs .t2
  have hf := s.pass_plant .t1
  rw [he] at hpe
  rw [hpe, hf.mode, hf.pp] at he2
  refine ⟨(s.pass .t1).enter .t2, ?_, ⟨q, k, ?_⟩, ?_, hspeed (by rw [he2]), ?_⟩
  · rw [State.drive_pass (n + 2) (StepId.plain_of_mem (by simp)) hg rfl (by rw [he]) rfl
      (Engine.not_outranked (p := .stop r) (by rw [he]; exact h) (by simp [Proc.priority]))]
    exact State.drive_stand n (StepId.plain_of_mem (by simp)) rfl rfl
  · rw [he2, h]
  · rw [hp2, hpp]; exact hclosed
  · rw [hblower s.pp.fanAirflow (by rw [he2]), hf.aside]

/-! ## Requests that stop the plant (R136, R147, R149) -/

/-- An EMERGENCY starts at once, over whatever runs, which it aborts (R136, R149). -/
theorem State.startEmergency_atE2 {s : State} (c : EmergencyCause)
    (hw : s.engine.running = none → s.protection.waiting = none) :
    s.EmergencyAtE2 (s.startEmergency c) c c.hold := by
  obtain ⟨u, hu, hv, ha, hp⟩ : ∃ u : State,
      s.startEmergency c = (u.startProc (.emergency c)).run (.take .e1) ∧ u.engine.valve = s.engine.valve ∧
      u.engine.aborted = (if s.engine.running.isSome = true then s.engine.aborted + 1 else s.engine.aborted) ∧
      u.protection = { s.protection with waiting := none } := by
    unfold State.startEmergency
    dsimp only
    split
    next => obtain ⟨he, hp, _⟩ := s.endProc_aborted; exact ⟨_, rfl, by rw [he], by rw [he], hp⟩
    next h => exact ⟨s, rfl, rfl, rfl, by rw [← hw (by simpa using h)]⟩
  obtain ⟨t, ht, ⟨r, k, he⟩, ⟨hrun, hwait, hrec⟩, hspeed, hblower⟩ :=
    State.drive_e1 (s := u.startProc (.emergency c)) 59 rfl
  have hup : (u.startProc (.emergency c)).protection = { s.protection with waiting := none } := hp
  rw [hup] at hwait hrec
  rw [hu, State.run, ht]
  exact
    { running := by rw [he]; rfl, step := by rw [he]; exact ⟨rfl, rfl⟩, hold := by rw [he]
      off := ⟨by rw [he], hspeed, hblower⟩, valve := by rw [he]; exact hv, closed := ⟨hrun, hwait⟩
      record := hrec, aborted := by rw [he]; exact ha }

/-- A request reaches the engine of a station that attends its plant (R134). -/
theorem State.request_emergency {s : State} {c : EmergencyCause} (hl : s.engine.listening = .expired)
    (ha : s.aside = false) (hn : s.engine.inEmergency = false) :
    s.request (.emergency c) = s.startEmergency c := by
  simp [State.request, hl, ha, hn]

/-- The station attends its plant and takes requests, with the engine between procedures and nothing pending or
waiting. -/
structure State.AtRest (s : State) : Prop where
  listening : s.engine.listening = .expired
  aside : s.aside = false
  state : s.engine.state = .idle
  running : s.engine.running = none
  requests : s.engine.requests = .empty
  waiting : s.protection.waiting = none

/-- An engine at rest starts a STOP at once (R136, R138). -/
theorem State.AtRest.request_stop {s : State} (h : s.AtRest) (r : StopReason) :
    s.request (.stop r) = (s.startProc (.stop r)).drive 63 (.take .t1) := by
  obtain ⟨hl, ha, hs, hr, hq, _⟩ := h
  have hstop : s.engine.stopping = false := by rw [Engine.stopping, hr]
  have hq' : s.engine.requests.stop = none := by rw [hq]; rfl
  have hentered : s.request (.stop r) =
      (s.setRequests { s.engine.requests with stop := some r, start := false }).run .startNext := by
    simp [State.request, hl, ha, State.takeStop, hstop, hq', State.entered, State.setRequests, hs]
  have hstart : (s.setRequests { s.engine.requests with stop := some r, start := false }).startNext =
      (.take .t1, s.startProc (.stop r)) := by
    have hback : ({ s.engine.requests with stop := some r, start := false } : Requests).without (.stop r) =
        s.engine.requests := by rw [hq]; rfl
    simp [State.startNext, Requests.top, hback, State.sensible, State.setRequests, State.startProc, Proc.first]
  rw [hentered, State.run, State.drive_succ, State.move, hstart]

/-- A protective STOP of an engine at rest stops the compressor and stands at T2 (R138, R143). -/
theorem State.AtRest.stoppedAtT2 {s : State} (h : s.AtRest) {r : StopReason} (hr : r ≠ .demand) :
    s.StoppedAtT2 (s.request (.stop r)) r := by
  obtain ⟨t, ht, ⟨q, k, he⟩, ⟨hrun, hwait, hrec⟩, hspeed, hblower⟩ :=
    State.drive_t1 (s := s.startProc (.stop r)) 58 rfl (by simp [State.guardOf, State.current, State.startProc, hr])
  have ha : (s.startProc (.stop r)).aside = false := h.aside
  rw [h.request_stop r, ht]
  exact
    { running := by rw [he]; rfl, step := by rw [he]; exact ⟨rfl, rfl⟩, time := by rw [he]; rfl
      off := ⟨by rw [he], hspeed, by rw [hblower, ha]; rfl⟩
      closed := ⟨hrun, hwait.trans h.waiting⟩, record := hrec }

end Sys2Proof.Machine
end

