-- ==== Sys2Proof/Proofs/ProtectiveRequests.lean ====
section
/-! PROOFS. The protective requests of a plant: the stages of a protection timer expiry one after the other, and the
contacts of a sensor timer expiry (R44, R127 to R133). -/

namespace Sys2Proof.Machine

/-! ## What leaves the equipment as it stands -/

/-- The equipment stands: of the engine the shown plant state alone may differ, of the controller the three protection
counts. -/
structure State.KeepsEquipment (s t : State) : Prop where
  engine : t.engine = { s.engine with shown := t.engine.shown }
  protection : t.protection = s.protection
  capacity : t.capacity =
    { s.capacity with
      staticCount := t.capacity.staticCount, freezeCount := t.capacity.freezeCount
      airflowCount := t.capacity.airflowCount }

theorem State.KeepsEquipment.refl (s : State) : s.KeepsEquipment s := ⟨rfl, rfl, rfl⟩

theorem State.KeepsEquipment.trans {s t u : State} (h : s.KeepsEquipment t) (k : t.KeepsEquipment u) :
    s.KeepsEquipment u where
  engine := by rw [k.engine, h.engine]
  protection := k.protection.trans h.protection
  capacity := by rw [k.capacity, h.capacity]

theorem State.settlePlant_keepsEquipment (s : State) : s.KeepsEquipment s.settlePlant := by
  obtain ⟨_, _, _, _, _, _, _, hcapacity, hprotection, _⟩ := s.settlePlant_blocks
  exact ⟨s.settlePlant_engine, hprotection, by rw [hcapacity]⟩

theorem State.EmergencyAtE2.kept {s t u : State} {c : EmergencyCause} {n : Nat} (h : s.EmergencyAtE2 t c n)
    (k : t.KeepsEquipment u) : s.EmergencyAtE2 u c n where
  running := by rw [k.engine]; exact h.running
  step := by rw [k.engine]; exact h.step
  hold := by rw [k.engine]; exact h.hold
  off := by rw [k.engine, k.capacity]; exact h.off
  valve := by rw [k.engine]; exact h.valve
  closed := by rw [k.protection]; exact h.closed
  record := by rw [k.protection]; exact h.record
  aborted := by rw [k.engine]; exact h.aborted

theorem State.EmergencyAtE2.since {s t u : State} {c : EmergencyCause} {n : Nat} (h : t.EmergencyAtE2 u c n)
    (k : s.KeepsEquipment t) : s.EmergencyAtE2 u c n where
  running := h.running
  step := h.step
  hold := h.hold
  off := h.off
  valve := by rw [h.valve, k.engine]
  closed := h.closed
  record := by rw [← k.protection]; exact h.record
  aborted := by rw [h.aborted, k.engine]

theorem State.StoppedAtT2.kept {s t u : State} {r : StopReason} (h : s.StoppedAtT2 t r) (k : t.KeepsEquipment u) :
    s.StoppedAtT2 u r where
  running := by rw [k.engine]; exact h.running
  step := by rw [k.engine]; exact h.step
  time := by rw [k.engine]; exact h.time
  off := by rw [k.engine, k.capacity]; exact h.off
  closed := by rw [k.protection]; exact h.closed
  record := by rw [k.protection]; exact h.record

theorem State.StoppedAtT2.since {s t u : State} {r : StopReason} (h : t.StoppedAtT2 u r) (k : s.KeepsEquipment t)
    (hm : t.modeSel = s.modeSel) (hl : t.loader = s.loader) : s.StoppedAtT2 u r where
  running := h.running
  step := h.step
  time := by rw [h.time, hm]
  off := by rw [← State.pp_of_loader hl]; exact h.off
  closed := h.closed
  record := by rw [← k.protection]; exact h.record

theorem State.AtRest.kept {s t : State} (h : s.AtRest) (k : s.KeepsEquipment t) (ha : t.aside = s.aside) :
    t.AtRest where
  listening := by rw [k.engine]; exact h.listening
  aside := ha.trans h.aside
  state := by rw [k.engine]; exact h.state
  running := by rw [k.engine]; exact h.running
  requests := by rw [k.engine]; exact h.requests
  waiting := by rw [k.protection]; exact h.waiting

/-! ## The stages of a protection timer expiry (R127 to R133) -/

/-- A stage's new value of its count. -/
theorem State.counts_keepsEquipment (s : State) (static freeze airflow : Nat) :
    s.KeepsEquipment (s.setCapacity
      { s.capacity with staticCount := static, freezeCount := freeze, airflowCount := airflow }) :=
  ⟨rfl, rfl, rfl⟩

theorem State.request_counts (p : Proc) (s : State) :
    (s.request p).capacity.freezeCount = s.capacity.freezeCount ∧
      (s.request p).capacity.airflowCount = s.capacity.airflowCount := by
  rw [(State.request_engineFrame p s).capacity]
  exact ⟨rfl, rfl⟩

/-- The freeze count of an expiry (R131). -/
def State.nextFreeze (s : State) : Nat :=
  persist (s.coolingOn && s.sensors.indoorCoil.valid && decide (s.sensors.indoorCoil.value < -200)) 120
    s.capacity.freezeCount

/-- The airflow count of an expiry (R133). -/
def State.nextAirflow (s : State) : Nat :=
  persist (s.engine.run && !s.engine.defrosting &&
    (decide (s.capacity.blowerCommand < 300) || decide (s.capacity.effective < 300))) 60 s.capacity.airflowCount

theorem State.coolingOn_iff (s : State) :
    s.coolingOn = true ↔ (s.modeSel.mode = .cool ∨ s.modeSel.mode = .dry) ∧ s.engine.run = true := by
  unfold State.coolingOn
  cases s.modeSel.mode <;> simp [Mode.group]

/-- With fewer than nine seconds counted no static trip comes (R128). -/
theorem State.staticTrip_eq {s : State} (h : s.capacity.staticCount < 9) :
    ∃ n, s.staticTrip = s.setCapacity { s.capacity with staticCount := n } := by
  have hn (b : Bool) : persist b 10 s.capacity.staticCount ≠ 10 := by
    unfold persist; split <;> omega
  exact ⟨_, if_neg (by simp [hn])⟩

theorem State.freezeStop_eq (s : State) :
    (s.nextFreeze = 120 →
      s.freezeStop = (s.setCapacity { s.capacity with freezeCount := 120 }).request (.stop .freeze)) ∧
    (s.nextFreeze ≠ 120 → s.freezeStop = s.setCapacity { s.capacity with freezeCount := s.nextFreeze }) :=
  ⟨fun h => by rw [← h]; exact if_pos h, fun h => if_neg h⟩

theorem State.airflowStop_eq (s : State) :
    (s.nextAirflow = 60 →
      s.airflowStop = (s.setCapacity { s.capacity with airflowCount := 60 }).request (.stop .airflow)) ∧
    (s.nextAirflow ≠ 60 → s.airflowStop = s.setCapacity { s.capacity with airflowCount := s.nextAirflow }) :=
  ⟨fun h => by rw [← h]; exact if_pos h, fun h => if_neg h⟩

/-! ### Their counts -/

theorem State.freezeStop_count (s : State) : s.freezeStop.capacity.freezeCount = s.nextFreeze := by
  by_cases h : s.nextFreeze = 120
  · rw [s.freezeStop_eq.1 h, (State.request_counts _ _).1, h]; rfl
  · rw [s.freezeStop_eq.2 h]; rfl

theorem State.supplyStop_freezeCount (s : State) : s.supplyStop.capacity.freezeCount = s.capacity.freezeCount := by
  unfold State.supplyStop
  dsimp only
  split
  · exact (State.request_counts _ _).1
  · rfl

theorem State.airflowStop_counts (s : State) :
    s.airflowStop.capacity.freezeCount = s.capacity.freezeCount ∧
      s.airflowStop.capacity.airflowCount = s.nextAirflow := by
  by_cases h : s.nextAirflow = 60
  · rw [s.airflowStop_eq.1 h, (State.request_counts _ _).1, (State.request_counts _ _).2, h]; exact ⟨rfl, rfl⟩
  · rw [s.airflowStop_eq.2 h]; exact ⟨rfl, rfl⟩

/-! ### With the compressor off every stage only counts -/

theorem State.airflowStop_off {s : State} (h : s.engine.run = false) : s.KeepsEquipment s.airflowStop := by
  rw [s.airflowStop_eq.2 (by simp [State.nextAirflow, persist, h])]
  exact s.counts_keepsEquipment _ _ _

theorem State.supplyStop_off {s : State} (h : s.engine.run = false) : s.KeepsEquipment s.supplyStop.airflowStop := by
  have hs : s.supplyStop = s := if_neg (by simp [h])
  rw [hs]
  exact State.airflowStop_off h

theorem State.freezeStop_off {s : State} (h : s.engine.run = false) :
    s.KeepsEquipment s.freezeStop.supplyStop.airflowStop := by
  have hs : s.nextFreeze ≠ 120 := by simp [State.nextFreeze, State.coolingOn, persist, h]
  rw [s.freezeStop_eq.2 hs]
  exact (s.counts_keepsEquipment _ _ _).trans (State.supplyStop_off h)

theorem State.condensateStop_off {s : State} (h : s.engine.run = false) :
    s.KeepsEquipment s.condensateStop.freezeStop.supplyStop.airflowStop := by
  have hs : s.condensateStop = s := if_neg (by simp [State.coolingOn, h])
  rw [hs]
  exact State.freezeStop_off h

/-! ### A stage that finds its fault stops the compressor, and the stages behind it only count -/

theorem State.AtRest.inverterTrips {s : State} (h : s.AtRest) (hrun : s.engine.run = true)
    (hi : s.sensors.inverter.asserted = true) :
    s.EmergencyAtE2 s.inverterTrip.condensateStop.freezeStop.supplyStop.airflowStop .inverter 180 := by
  have hne : s.engine.inEmergency = false := by rw [Engine.inEmergency, h.running]
  have htrip : s.EmergencyAtE2 s.inverterTrip .inverter 180 := by
    have heq : s.inverterTrip = s.request (.emergency .inverter) := if_pos (by simp [hi, hrun])
    rw [heq, State.request_emergency h.listening h.aside hne]
    exact State.startEmergency_atE2 .inverter fun _ => h.waiting
  exact htrip.kept (State.condensateStop_off htrip.off.1)

theorem State.AtRest.condensateStops {s : State} (h : s.AtRest) (hf : s.sensors.condensate.asserted = true)
    (hc : s.coolingOn = true) :
    s.StoppedAtT2 s.condensateStop.freezeStop.supplyStop.airflowStop .condensate := by
  have hstop : s.StoppedAtT2 s.condensateStop .condensate := by
    have heq : s.condensateStop = s.request (.stop .condensate) := if_pos (by simp [hf, hc])
    rw [heq]
    exact h.stoppedAtT2 (by simp)
  exact hstop.kept (State.freezeStop_off hstop.off.1)

theorem State.AtRest.freezeStops {s : State} (h : s.AtRest) (hf : s.nextFreeze = 120) :
    s.StoppedAtT2 s.freezeStop.supplyStop.airflowStop .freeze := by
  have k := s.counts_keepsEquipment s.capacity.staticCount 120 s.capacity.airflowCount
  have hstop : s.StoppedAtT2 s.freezeStop .freeze := by
    rw [s.freezeStop_eq.1 hf]
    exact ((h.kept k rfl).stoppedAtT2 (by simp)).since k rfl rfl
  exact hstop.kept (State.supplyStop_off hstop.off.1)

theorem State.AtRest.supplyStops {s : State} (h : s.AtRest) (hrun : s.engine.run = true)
    (hm : s.modeSel.mode = .heat) (hv : s.sensors.supplyAir.valid = true) (ha : 6500 ≤ s.sensors.supplyAir.value) :
    s.StoppedAtT2 s.supplyStop.airflowStop .supply := by
  have hstop : s.StoppedAtT2 s.supplyStop .supply := by
    have heq : s.supplyStop = s.request (.stop .supply) := if_pos (by simp [hm, hrun, hv, ha])
    rw [heq]
    exact h.stoppedAtT2 (by simp)
  exact hstop.kept (State.airflowStop_off hstop.off.1)

theorem State.AtRest.airflowStops {s : State} (h : s.AtRest) (ha : s.nextAirflow = 60) :
    s.StoppedAtT2 s.airflowStop .airflow := by
  have k := s.counts_keepsEquipment s.capacity.staticCount s.capacity.freezeCount 60
  rw [s.airflowStop_eq.1 ha]
  exact ((h.kept k rfl).stoppedAtT2 (by simp)).since k rfl rfl

/-! ## The expiry of the protection timer -/

theorem exec_protectionTimer {s : State} (hr : s.plantReady = true) (ha : s.aside = false) :
    exec .protectionTimer s = .next s.protectionStages.settlePlant := by
  simp [exec, execProtectionTimer, hr, ha, State.protectionStages]

/-- The freeze count by its conditions, with the compressor on (R131). -/
theorem State.nextFreeze_eq {s : State} (hrun : s.engine.run = true) {cooling : Bool}
    (hc : cooling = decide (s.modeSel.mode = .cool ∨ s.modeSel.mode = .dry)) :
    s.nextFreeze =
      if cooling = true ∧ s.sensors.indoorCoil.valid = true ∧ s.sensors.indoorCoil.value < -200 then
        min 120 (s.capacity.freezeCount + 1) else 0 := by
  have hon : s.coolingOn = cooling := by
    rw [Bool.eq_iff_iff, s.coolingOn_iff, hc]; simp [hrun]
  simp [State.nextFreeze, persist, hon, and_assoc]

/-- The airflow count by its conditions, with the compressor on and no DEFROST (R133). -/
theorem State.nextAirflow_eq {s : State} (hrun : s.engine.run = true) (hn : s.engine.running = none) :
    s.nextAirflow =
      if s.capacity.blowerCommand < 300 ∨ s.capacity.effective < 300 then
        min 60 (s.capacity.airflowCount + 1) else 0 := by
  simp [State.nextAirflow, persist, hrun, Engine.defrosting, hn]

/-- The stages from the freeze stop on, in a plant whose contacts ask for nothing (R131 to R133). -/
theorem State.AtRest.lastStages {s t : State} (h : s.AtRest) (hrun : s.engine.run = true)
    (ht : t = s.freezeStop.supplyStop.airflowStop) :
    t.capacity.freezeCount = s.nextFreeze ∧ (s.nextFreeze = 120 → s.StoppedAtT2 t .freeze) ∧
    (s.nextFreeze ≠ 120 →
      (s.modeSel.mode = .heat → s.sensors.supplyAir.valid = true → 6500 ≤ s.sensors.supplyAir.value →
        s.StoppedAtT2 t .supply) ∧
      (s.modeSel.mode ≠ .heat ∨ s.sensors.supplyAir.valid = false ∨ s.sensors.supplyAir.value < 6500 →
        t.capacity.airflowCount = s.nextAirflow ∧ (s.nextAirflow = 60 → s.StoppedAtT2 t .airflow) ∧
        (s.nextAirflow ≠ 60 → s.KeepsEquipment t))) := by
  subst ht
  refine ⟨?_, h.freezeStops, fun hf => ?_⟩
  · rw [(State.airflowStop_counts _).1, State.supplyStop_freezeCount, State.freezeStop_count]
  rw [s.freezeStop_eq.2 hf]
  have k := s.counts_keepsEquipment s.capacity.staticCount s.nextFreeze s.capacity.airflowCount
  have hrest := h.kept k rfl
  refine ⟨fun hm hv ha => (hrest.supplyStops hrun hm hv ha).since k rfl rfl, fun hno => ?_⟩
  have hs : (s.setCapacity { s.capacity with freezeCount := s.nextFreeze }).supplyStop =
      s.setCapacity { s.capacity with freezeCount := s.nextFreeze } := by
    refine if_neg fun hc => ?_
    simp only [Bool.and_eq_true, decide_eq_true_eq] at hc
    obtain ⟨⟨⟨hm, _⟩, hv⟩, ha⟩ := hc
    obtain hn | hn | hn := hno
    · exact hn hm
    · exact Bool.false_ne_true (hn.symm.trans hv)
    · exact absurd ha (Int.not_le.2 hn)
  rw [hs]
  refine ⟨(State.airflowStop_counts _).2, fun ha => (hrest.airflowStops ha).since k rfl rfl, fun ha => ?_⟩
  have hq := (State.airflowStop_eq (s.setCapacity { s.capacity with freezeCount := s.nextFreeze })).2 ha
  rw [hq]
  exact k.trans (State.counts_keepsEquipment _ _ _ _)

/-- The first fault of an expiry that holds, in a plant at rest with its compressor on and no static trip (R129 to
R133). -/
theorem State.AtRest.firstFaultStops {s : State} {cooling : Bool} {freeze air : Nat} (h : s.AtRest)
    (hrun : s.engine.run = true) (hstatic : s.capacity.staticCount < 9)
    (hcool : cooling = decide (s.modeSel.mode = .cool ∨ s.modeSel.mode = .dry))
    (hfreeze : freeze = s.nextFreeze) (hair : air = s.nextAirflow) :
    (s.sensors.inverter.asserted = true → s.EmergencyAtE2 s.protectionStages .inverter 180) ∧
    (s.sensors.inverter.asserted = false →
      (s.sensors.condensate.asserted = true → cooling = true → s.StoppedAtT2 s.protectionStages .condensate) ∧
      (s.sensors.condensate.asserted = false ∨ cooling = false →
        s.protectionStages.capacity.freezeCount = freeze ∧
        (freeze = 120 → s.StoppedAtT2 s.protectionStages .freeze) ∧
        (freeze ≠ 120 →
          (s.modeSel.mode = .heat → s.sensors.supplyAir.valid = true → 6500 ≤ s.sensors.supplyAir.value →
            s.StoppedAtT2 s.protectionStages .supply) ∧
          (s.modeSel.mode ≠ .heat ∨ s.sensors.supplyAir.valid = false ∨ s.sensors.supplyAir.value < 6500 →
            s.protectionStages.capacity.airflowCount = air ∧
              (air = 60 → s.StoppedAtT2 s.protectionStages .airflow) ∧
              (air ≠ 60 → s.KeepsEquipment s.protectionStages))))) := by
  obtain ⟨n, hn⟩ := State.staticTrip_eq hstatic
  have k := s.counts_keepsEquipment n s.capacity.freezeCount s.capacity.airflowCount
  have hrest := h.kept k rfl
  subst hfreeze hair
  unfold State.protectionStages
  rw [hn]
  generalize ha : s.setCapacity { s.capacity with staticCount := n } = a at k hrest
  have hon : a.coolingOn = cooling := by
    rw [Bool.eq_iff_iff, ← ha, State.coolingOn_iff, hcool]; simp [hrun]
  refine ⟨fun hi => ?_, fun hi => ?_⟩
  · exact (hrest.inverterTrips (ha ▸ hrun) (ha ▸ hi)).since k
  have hskip : a.inverterTrip = a := if_neg (by rw [← ha]; simp [hi])
  rw [hskip]
  refine ⟨fun hf hc => ?_, fun hno => ?_⟩
  · exact (hrest.condensateStops (ha ▸ hf) (hon.trans hc)).since k (by rw [← ha]; rfl) (by rw [← ha]; rfl)
  have hpass : a.condensateStop = a := by
    refine if_neg ?_
    rw [hon, ← ha]
    obtain hno | hno := hno <;> simp [hno]
  rw [hpass]
  obtain ⟨hcount, hfreezes, hlater⟩ := hrest.lastStages (ha ▸ hrun) rfl
  have hsame : a.nextFreeze = s.nextFreeze ∧ a.nextAirflow = s.nextAirflow ∧ a.modeSel = s.modeSel ∧
      a.loader = s.loader ∧ a.sensors = s.sensors := by rw [← ha]; exact ⟨rfl, rfl, rfl, rfl, rfl⟩
  obtain ⟨hfr, hai, hm, hl, hx⟩ := hsame
  rw [hfr] at hcount hfreezes hlater
  rw [hai, hm, hx] at hlater
  refine ⟨hcount, fun hf => (hfreezes hf).since k hm hl, fun hf => ?_⟩
  obtain ⟨hsupply, hairflow⟩ := hlater hf
  refine ⟨fun h1 h2 h3 => (hsupply h1 h2 h3).since k hm hl, fun hns => ?_⟩
  obtain ⟨hac, has, hak⟩ := hairflow hns
  exact ⟨hac, fun h60 => (has h60).since k hm hl, fun h60 => k.trans (hak h60)⟩

/-! ## The contacts at a sensor timer expiry (R44, R129, R130) -/

/-- No step ends in the expiry: the contacts' requests are all that follows the inputs (R140). -/
theorem State.plantSensorExpiry_eq {s u : State} {pins : PinSample} (first : Bool) (h5 : s.engine.step ≠ some .d5)
    (h10 : s.engine.step ≠ some .d10)
    (hu : (s.plantSensors pins).contactRequests
      (!s.sensors.inverter.asserted && (s.sensors.plantExpiry pins).inverter.asserted)
      (!s.sensors.condensate.asserted && (s.sensors.plantExpiry pins).condensate.asserted) = u)
    (hu5 : u.engine.step ≠ some .d5) (hu10 : u.engine.step ≠ some .d10) : s.plantSensorExpiry pins first = u := by
  have hx : (s.plantSensors pins).sensors = s.sensors.plantExpiry pins := by rw [State.plantSensors_eq]; rfl
  have he : (s.plantSensors pins).engine = s.engine := by rw [State.plantSensors_eq]; rfl
  have hstay : (s.plantSensors pins).examineSensorExit = s.plantSensors pins :=
    State.examineSensorExit_eq (by rw [he]; exact h5) (by rw [he]; exact h10)
  unfold State.plantSensorExpiry
  dsimp only
  rw [hx, hstay, hu, State.examineSensorExit_eq hu5 hu10, ite_self]

theorem State.plantSensors_keepsEquipment (pins : PinSample) (s : State) :
    s.KeepsEquipment (s.plantSensors pins) := by
  rw [State.plantSensors_eq]; exact ⟨rfl, rfl, rfl⟩

/-- A contact becomes asserted at the second sample in a row that shows it (R44). -/
theorem Contact.sample_asserts {c : Contact} (h : c.asserted = false) (hl : c.last = some true) :
    (c.sample true).asserted = true := by
  simp [Contact.sample, h, hl]

/-- The inverter fault brings its EMERGENCY whatever the compressor does, and the float then asks for nothing (R129). -/
theorem State.inverterFault_atE2 {s : State} {pins : PinSample} (first : Bool) (ha : s.aside = false)
    (hl : s.engine.listening = .expired) (h5 : s.engine.step ≠ some .d5) (h10 : s.engine.step ≠ some .d10)
    (hw : s.engine.running = none → s.protection.waiting = none) (hi : s.sensors.inverter.asserted = false)
    (hlast : s.sensors.inverter.last = some true) (hp : pins.inverterFault = true)
    (hne : s.engine.inEmergency = false) :
    s.EmergencyAtE2 (s.plantSensorExpiry pins first) .inverter 180 := by
  have k := s.plantSensors_keepsEquipment pins
  have hon : (s.sensors.plantExpiry pins).inverter.asserted = true :=
    (congrArg (fun b => (s.sensors.inverter.sample b).asserted) hp).trans (Contact.sample_asserts hi hlast)
  have hreq : (s.plantSensors pins).request (.emergency .inverter) =
      (s.plantSensors pins).startEmergency .inverter := by
    rw [State.plantSensors_eq]
    exact State.request_emergency hl ha hne
  have htrip : s.EmergencyAtE2 ((s.plantSensors pins).startEmergency .inverter) .inverter 180 :=
    (State.startEmergency_atE2 .inverter (by rw [k.engine, k.protection]; exact hw)).since k
  have hcontacts (c : Bool) : (s.plantSensors pins).contactRequests true c =
      (s.plantSensors pins).startEmergency .inverter := by
    unfold State.contactRequests
    rw [if_pos rfl, hreq]
    exact if_neg (by simp [State.coolingRuns, htrip.off.1])
  have hu : (s.plantSensors pins).contactRequests
      (!s.sensors.inverter.asserted && (s.sensors.plantExpiry pins).inverter.asserted)
      (!s.sensors.condensate.asserted && (s.sensors.plantExpiry pins).condensate.asserted) =
        (s.plantSensors pins).startEmergency .inverter := by
    rw [hi, hon]; exact hcontacts _
  rw [State.plantSensorExpiry_eq first h5 h10 hu (by simp [htrip.step.1])
    (by simp [htrip.step.1])]
  exact htrip

/-- The condensate float stops a compressor that cools (R130). -/
theorem State.AtRest.float_atT2 {s : State} {pins : PinSample} (h : s.AtRest) (first : Bool)
    (h5 : s.engine.step ≠ some .d5) (h10 : s.engine.step ≠ some .d10)
    (hf : s.sensors.condensate.asserted = false) (hlast : s.sensors.condensate.last = some true)
    (hp : pins.condensateFloat = true) (hi : pins.inverterFault = false)
    (hm : s.modeSel.mode = .cool ∨ s.modeSel.mode = .dry) (hrun : s.engine.run = true) :
    s.StoppedAtT2 (s.plantSensorExpiry pins first) .condensate := by
  have k := s.plantSensors_keepsEquipment pins
  have hon : (s.sensors.plantExpiry pins).condensate.asserted = true :=
    (congrArg (fun b => (s.sensors.condensate.sample b).asserted) hp).trans (Contact.sample_asserts hf hlast)
  have hoff : (!s.sensors.inverter.asserted && (s.sensors.plantExpiry pins).inverter.asserted) = false := by
    show (!s.sensors.inverter.asserted && (s.sensors.inverter.sample pins.inverterFault).asserted) = false
    rw [Contact.sample_eq, hi]
    cases s.sensors.inverter.asserted <;> simp
  have hcools : (s.plantSensors pins).coolingRuns = true := by
    rw [State.plantSensors_eq]
    exact s.coolingOn_iff.2 ⟨hm, hrun⟩
  have hsame : (s.plantSensors pins).modeSel = s.modeSel ∧ (s.plantSensors pins).loader = s.loader ∧
      (s.plantSensors pins).aside = s.aside := by rw [State.plantSensors_eq]; exact ⟨rfl, rfl, rfl⟩
  have hstop : s.StoppedAtT2 ((s.plantSensors pins).request (.stop .condensate)) .condensate :=
    ((h.kept k hsame.2.2).stoppedAtT2 (by simp)).since k hsame.1 hsame.2.1
  have hu : (s.plantSensors pins).contactRequests
      (!s.sensors.inverter.asserted && (s.sensors.plantExpiry pins).inverter.asserted)
      (!s.sensors.condensate.asserted && (s.sensors.plantExpiry pins).condensate.asserted) =
        (s.plantSensors pins).request (.stop .condensate) := by
    rw [hoff, hf, hon]; simp [State.contactRequests, hcools]
  rw [State.plantSensorExpiry_eq first h5 h10 hu (by simp [hstop.step.1])
    (by simp [hstop.step.1])]
  exact hstop

/-- Settles O54: the stages of the protection timer one after the other, and the contacts at the sensor timer. -/
theorem protectiveRequestsStopTheCompressor : Obligations.ProtectiveRequestsStopTheCompressor := by
  refine ⟨?_, ?_⟩
  · intro s cooling freeze air hr ha hl hs hn hrun hq hw hstatic hcool hfreeze hair
    have hrest : s.AtRest := ⟨hl, ha, hs, hn, hq, hw⟩
    obtain ⟨hinverter, hlater⟩ := hrest.firstFaultStops hrun hstatic hcool
      (hfreeze.trans (State.nextFreeze_eq hrun hcool).symm) (hair.trans (State.nextAirflow_eq hrun hn).symm)
    have k := s.protectionStages.settlePlant_keepsEquipment
    have hcap : s.protectionStages.settlePlant.capacity = s.protectionStages.capacity := by
      obtain ⟨_, _, _, _, _, _, _, hcap, _⟩ := s.protectionStages.settlePlant_blocks
      exact hcap
    refine ⟨_, exec_protectionTimer hr ha, fun hi => (hinverter hi).kept k, fun hi => ?_⟩
    obtain ⟨hfloat, hrest⟩ := hlater hi
    refine ⟨fun hf hc => (hfloat hf hc).kept k, fun hno => ?_⟩
    obtain ⟨hcount, hfreezes, hrest⟩ := hrest hno
    refine ⟨by rw [hcap]; exact hcount, fun hf => (hfreezes hf).kept k, fun hf => ?_⟩
    obtain ⟨hsupply, hrest⟩ := hrest hf
    refine ⟨fun h1 h2 h3 => (hsupply h1 h2 h3).kept k, fun hns => ?_⟩
    obtain ⟨hac, has, hak⟩ := hrest hns
    exact ⟨by rw [hcap]; exact hac, fun h60 => (has h60).kept k, fun h60 =>
      ⟨((hak h60).trans k).engine, ((hak h60).trans k).protection⟩⟩
  · intro s pins first hr ha hl h5 h10 hw
    have k := (s.plantSensorExpiry pins first).settlePlant_keepsEquipment
    exact ⟨_, exec_sensorTimer_plant hr pins first,
      fun hi hlast hp hne => (State.inverterFault_atE2 first ha hl h5 h10 hw hi hlast hp hne).kept k,
      fun hf hlast hp hi hm hrun hs hn hq =>
        (State.AtRest.float_atT2 ⟨hl, ha, hs, hn, hq, hw hn⟩ first h5 h10 hf hlast hp hi hm hrun).kept k⟩

end Sys2Proof.Machine
end

