-- ==== Sys2Proof/Proofs/DemandExpiry.lean ====
section
/-! PROOFS. What an expiry of the demand timer makes of the Demand Engine: the errors it forms, the call it takes, and
the sensible and latent demand of that call (R53 to R70). -/

namespace Sys2Proof.Machine

/-! ## The errors (R53, R55, R56) -/

/-- Both temperature errors are formed from a valid room temperature, and from no other (R53, R55). -/
theorem State.errors_of_valid {s : State} (h : s.sensors.roomTemp.valid = true) :
    s.errors.cooling = some (s.sensors.roomTemp.value - (s.sensors.target + s.zp.halfBand)) ∧
      s.errors.heating = some ((s.sensors.target - s.zp.halfBand) - s.sensors.roomTemp.value) ∧
      s.errors.nearCooling = decide (s.sensors.target + s.zp.halfBand - 150 ≤ s.sensors.roomTemp.value) ∧
      s.errors.tempFault = false := by
  simp [State.errors, h]

theorem State.errors_tempFault (s : State) : s.errors.tempFault = !s.sensors.roomTemp.valid := rfl

theorem State.errors_humidity (s : State) :
    s.errors.humidity =
      if s.sensors.roomRh.valid then some (s.sensors.roomRh.value - s.zp.rhTarget) else none := rfl

/-- The humidity error is formed from a valid RH (R55). -/
theorem State.humidity_some (s : State) (P : Int → Prop) :
    (∃ r, s.errors.humidity = some r ∧ P r) ↔
      s.sensors.roomRh.valid = true ∧ P (s.sensors.roomRh.value - s.zp.rhTarget) := by
  rw [s.errors_humidity]
  split <;> simp [*]

theorem State.humidity_none (s : State) : s.errors.humidity = none ↔ s.sensors.roomRh.valid = false := by
  rw [s.errors_humidity]
  split <;> simp [*]

theorem atLeast_iff (e : Option Int) (n : Int) : atLeast e n = true ↔ ∃ x, e = some x ∧ n ≤ x := by
  cases e <;> simp [atLeast]

theorem atMost_iff (e : Option Int) (n : Int) : atMost e n = true ↔ ∃ x, e = some x ∧ x ≤ n := by
  cases e <;> simp [atMost]

/-! ## The call (R58 to R62, R72) -/

theorem nextCall_yielded (zoneOn : Bool) (e : Errors) (c : Call) (ds : Nat) : nextCall true zoneOn e c ds = .idle := rfl

theorem nextCall_switchOff (e : Errors) (c : Call) (ds : Nat) : nextCall false false e c ds = .off := rfl

theorem nextCall_wasOff (e : Errors) (ds : Nat) : nextCall false true e .off ds = .idle := rfl

/-- Under a room temperature fault a call stays or becomes IDLE (R59). -/
theorem nextCall_tempFault {e : Errors} (h : e.tempFault = true) (c : Call) (ds : Nat) :
    nextCall false true e c ds = .idle := by
  cases c <;> simp [nextCall, h]

/-- No expiry ends in COOL or HEAT under a room temperature fault (R59). -/
theorem nextCall_sensible {yielded zoneOn : Bool} {e : Errors} {c : Call} {ds : Nat}
    (h : nextCall yielded zoneOn e c ds = .cool ∨ nextCall yielded zoneOn e c ds = .heat) : e.tempFault = false := by
  rw [← Bool.not_eq_true]
  intro hf
  cases yielded with
  | true => simp [nextCall_yielded] at h
  | false =>
    cases zoneOn with
    | false => simp [nextCall_switchOff] at h
    | true => simp [nextCall_tempFault hf] at h

section
variable {e : Errors} {cooling heating : Int} (hf : e.tempFault = false) (hc : e.cooling = some cooling)
  (hh : e.heating = some heating) (ds : Nat)
include hf

include hc hh in
/-- The tests of IDLE, in their order (R60). -/
theorem nextCall_idle :
    nextCall false true e .idle ds =
      if 30 ≤ cooling then .cool
      else if 30 ≤ heating then .heat
      else if (∃ r, e.humidity = some r ∧ 50 ≤ r) ∧ e.nearCooling = true ∧ heating ≤ -1 then .dry
      else .idle := by
  simp [nextCall, hf, hc, hh, atLeast_iff, atMost_iff, and_assoc]

include hc in
/-- COOL ends where the previous demand was 0 and the error is not above 0 (R61). -/
theorem nextCall_cool :
    nextCall false true e .cool ds = if ds = 0 ∧ cooling ≤ 0 then .idle else .cool := by
  simp [nextCall, hf, hc, atMost_iff]

include hh in
/-- HEAT ends where the previous demand was 0 and the error is not above 0 (R61). -/
theorem nextCall_heat :
    nextCall false true e .heat ds = if ds = 0 ∧ heating ≤ 0 then .idle else .heat := by
  simp [nextCall, hf, hh, atMost_iff]

include hc in
/-- The tests of DRY, in their order (R62). -/
theorem nextCall_dry :
    nextCall false true e .dry ds =
      if 30 ≤ cooling then .cool
      else if e.humidity = none ∨ (∃ r, e.humidity = some r ∧ r ≤ 0) ∨ e.nearCooling = false then .idle
      else .dry := by
  have hany : (atMost e.humidity 0 || !e.nearCooling || e.humidity.isNone) = true ↔
      e.humidity = none ∨ (∃ r, e.humidity = some r ∧ r ≤ 0) ∨ e.nearCooling = false := by
    simp only [Bool.or_eq_true, atMost_iff, Bool.not_eq_true', Option.isNone_iff_eq_none]
    exact or_comm
  simp only [nextCall, hf, hc, atLeast_iff, hany]
  simp

end

/-! ## The demand after an expiry (R52, R63, R69) -/

theorem Demand.enter_call (d : Demand) (c : Call) : (d.enter c).call = c := by
  unfold Demand.enter
  split <;> rfl

theorem Demand.sensible_call (d : Demand) (p : ZoneParams) (e : Errors) : (d.sensible p e).call = d.call := rfl

/-- The call after an expiry is the one stage 2 takes (R57). -/
theorem Demand.expiry_call (d : Demand) (y z : Bool) (p : ZoneParams) (e : Errors) :
    (d.expiry y z p e).call = nextCall y z e d.call d.ds := by
  unfold Demand.expiry
  dsimp only
  split
  · exact d.enter_call _
  · exact d.enter_call _

/-- The latent demand follows the call after stage 2 (R70). -/
theorem Demand.expiry_dl (d : Demand) (y z : Bool) (p : ZoneParams) (e : Errors) :
    (d.expiry y z p e).dl = latent p e (d.expiry y z p e).call := rfl

/-- An expiry that ends in OFF, IDLE or DRY does not compute the sensible stages (R69). -/
theorem Demand.expiry_resting {d : Demand} {y z : Bool} {p : ZoneParams} {e : Errors}
    (hc : nextCall y z e d.call d.ds ≠ .cool) (hh : nextCall y z e d.call d.ds ≠ .heat) :
    d.expiry y z p e =
      { d.rest with
        call := nextCall y z e d.call d.ds, dl := latent p e (nextCall y z e d.call d.ds) } := by
  have henter : d.enter (nextCall y z e d.call d.ds) = { d with call := nextCall y z e d.call d.ds } := by
    simp [Demand.enter, hc, hh]
  unfold Demand.expiry
  simp only [henter, hc, hh, or_self, if_false]
  rfl

/-- An expiry that ends in COOL or HEAT forms the sensible demand of that call (R64 to R68). -/
theorem Demand.expiry_sensible {d : Demand} {y z : Bool} {p : ZoneParams} {e : Errors} {c : Call}
    (hc : nextCall y z e d.call d.ds = c) (hs : c = .cool ∨ c = .heat) :
    d.expiry y z p e = { (d.enter c).sensible p e with dl := latent p e c } := by
  unfold Demand.expiry
  simp only [hc, d.enter_call, Demand.sensible_call, hs, if_true]

/-- Entry into COOL or HEAT starts from a cleared integral and raw sum; staying there keeps both (R63). -/
theorem Demand.enter_sensible (d : Demand) {c : Call} (hs : c = .cool ∨ c = .heat) :
    d.enter c =
      { d with
        call := c, integral := if d.call = c then d.integral else 0
        rawSum := if d.call = c then d.rawSum else 0 } := by
  by_cases h : d.call = c <;> simp [Demand.enter, h, hs]

theorem Demand.integrates_iff (d : Demand) (hg : d.call.group ≠ .none) :
    d.integrates = true ↔ ∃ v, d.view = some v ∧ v.mode.group = d.call.group ∧ v.delivering = true := by
  unfold Demand.integrates
  cases d.view <;> simp [hg]

/-- The integral moves unless the sum stands above its top and the error pushes up, or below 0 and the error pushes
down (R67). -/
theorem integralStep_eq (i u e : Int) (ki : Nat) :
    integralStep i u e ki =
      if ¬(1000 < u ∧ 0 < e) ∧ ¬(u < 0 ∧ e < 0) then max 0 (min 100000 (i + e * ki)) else i := by
  unfold integralStep clamp
  simp only [← not_or, ite_not]

/-- The integral after the sensible stages moves only while the followed plant delivers in the call's group (R66,
R67). -/
theorem Demand.sensible_integral {d : Demand} {p : ZoneParams} {e : Errors} {raw : Int}
    (hraw : workingError e d.call = raw) (hg : d.call.group ≠ .none) :
    (d.sensible p e).integral =
      if (∃ v, d.view = some v ∧ v.mode.group = d.call.group ∧ v.delivering = true) ∧
          ¬(1000 < d.rawSum ∧ 0 < clamp (-500) 500 raw) ∧ ¬(d.rawSum < 0 ∧ clamp (-500) 500 raw < 0)
      then max 0 (min 100000 (d.integral + clamp (-500) 500 raw * p.ki)) else d.integral := by
  simp only [Demand.sensible, hraw, d.integrates_iff hg, integralStep_eq]
  split <;> simp [*]

/-- The raw sum, the demand clamped from it, and the two marks (R64, R65, R68). -/
theorem Demand.sensible_sum {d : Demand} {p : ZoneParams} {e : Errors} {raw : Int}
    (hraw : workingError e d.call = raw) :
    (d.sensible p e).rawSum =
        nearest (clamp (-500) 500 raw * p.kp) 100 + nearest (d.sensible p e).integral 100 ∧
      ((d.sensible p e).ds : Int) = clamp 0 1000 (d.sensible p e).rawSum ∧
      ((d.sensible p e).saturated = true ↔ 1000 < (d.sensible p e).rawSum) ∧
      ((d.sensible p e).errorClamped = true ↔ raw < -500 ∨ 500 < raw) := by
  subst hraw
  refine ⟨rfl, ?_, decide_eq_true_iff, decide_eq_true_iff⟩
  exact Int.toNat_of_nonneg (clamp_bounds 0 1000 _ (by norm_num)).1

/-- The latent demand of a call with a valid RH (R70). -/
theorem latent_of_error {e : Errors} {r : Int} (h : e.humidity = some r) (p : ZoneParams) (c : Call) :
    (latent p e c : Int) = if c ≠ .off ∧ 0 < r then clamp 0 1000 (nearest (r * p.kl) 10) else 0 := by
  simp only [latent, h]
  split
  · exact Int.toNat_of_nonneg (clamp_bounds 0 1000 _ (by norm_num)).1
  · rfl

theorem latent_of_no_error {e : Errors} (h : e.humidity = none) (p : ZoneParams) (c : Call) : latent p e c = 0 := by
  simp only [latent, h]

/-! ## The demand timer -/

/-- The demand that stands after the whole expiry (R52, R71). -/
theorem State.handsOver_demand (s : State) : s.handsOver.recompute.settle.demand = s.nextDemand := by
  rw [State.settle_demand, State.recompute_demand, s.handsOver_eq.1]
  rfl

theorem State.nextDemand_call (s : State) :
    s.nextDemand.call =
      nextCall s.line.yielded s.sensors.zoneSwitch s.errors s.demand.call s.demand.ds := Demand.expiry_call _ _ _ _ _

/-- An expiry that ends in OFF, IDLE or DRY clears what COOL and HEAT form, and keeps the integral (R69). -/
theorem State.nextDemand_resting {s : State} (hc : s.nextDemand.call ≠ .cool) (hh : s.nextDemand.call ≠ .heat) :
    s.nextDemand.ds = 0 ∧ s.nextDemand.rawSum = 0 ∧ s.nextDemand.saturated = false ∧
      s.nextDemand.errorClamped = false ∧ s.nextDemand.integral = s.demand.integral := by
  rw [s.nextDemand_call] at hc hh
  rw [State.nextDemand, Demand.expiry_resting hc hh]
  exact ⟨rfl, rfl, rfl, rfl, rfl⟩

/-- Settles O37: the switch, the fault, then the tests of the call that stands. -/
theorem callAtEachExpiry : Obligations.CallAtEachExpiry := by
  intro s hz
  refine ⟨_, exec_demandTimer hz, ?_⟩
  rw [s.handsOver_demand]
  have hcall := s.nextDemand_call
  refine ⟨fun hy => ?_, fun hy => ⟨fun hoff => ?_, fun hon hc => ?_, fun hon hv => ?_, ?_⟩⟩
  · rw [hcall, hy, nextCall_yielded]
  · rw [hcall, hy, hoff, nextCall_switchOff]
  · rw [hcall, hy, hon, hc, nextCall_wasOff]
  · have hidle : s.nextDemand.call = .idle := by
      rw [hcall, hy, hon, nextCall_tempFault (by rw [s.errors_tempFault, hv]; rfl)]
    obtain ⟨hds, _, _, _, hi⟩ := s.nextDemand_resting (by simp [hidle]) (by simp [hidle])
    exact ⟨hidle, hds, hi⟩
  · rintro temp spc sph rh hon hv rfl rfl rfl rfl
    obtain ⟨hcool, hheat, hnear, hf⟩ := s.errors_of_valid hv
    rw [hcall, hy, hon]
    refine ⟨fun hc => ?_, fun hc => ?_, fun hc => ?_, fun hc => ?_⟩ <;> rw [hc]
    · rw [nextCall_idle hf hcool hheat]
      refine if_congr (by omega) rfl (if_congr (by omega) rfl (if_congr ?_ rfl rfl))
      rw [s.humidity_some, hnear, decide_eq_true_eq, and_assoc]
      exact and_congr Iff.rfl (by omega)
    · rw [nextCall_cool hf hcool]
      exact if_congr (by omega) rfl rfl
    · rw [nextCall_heat hf hheat]
      exact if_congr (by omega) rfl rfl
    · rw [nextCall_dry hf hcool]
      refine if_congr (by omega) rfl (if_congr ?_ rfl rfl)
      rw [s.humidity_none, s.humidity_some, hnear, decide_eq_false_iff_not]
      cases s.sensors.roomRh.valid with
      | false => simp
      | true => simp only [Bool.true_eq_false, true_and, false_or]; omega

/-- Settles O38: the error of the call, then the integral, the sum and its marks. -/
theorem sensibleDemandInCoolAndHeat : Obligations.SensibleDemandInCoolAndHeat := by
  intro s temp hz ht
  refine ⟨_, exec_demandTimer hz, fun raw hraw => ?_⟩
  rw [s.handsOver_demand] at hraw ⊢
  have hs : s.nextDemand.call = .cool ∨ s.nextDemand.call = .heat := hraw.imp And.left And.left
  have hg : s.nextDemand.call.group ≠ .none := by obtain h | h := hs <;> rw [h] <;> nofun
  have hcall := s.nextDemand_call.symm
  obtain ⟨hcool, hheat, _, _⟩ := s.errors_of_valid (by
    have := nextCall_sensible (hcall ▸ hs)
    rwa [s.errors_tempFault, Bool.not_eq_false'] at this)
  have hwork : workingError s.errors s.nextDemand.call = raw := by
    have hvalue : s.sensors.roomTemp.value = temp := by rw [Input.value, ht]; rfl
    obtain ⟨h, hr⟩ | ⟨h, hr⟩ := hraw <;> rw [h, hr, ← hvalue]
    · exact congrArg (Option.getD · 0) hcool
    · exact congrArg (Option.getD · 0) hheat
  have hnext : s.nextDemand = _ := Demand.expiry_sensible hcall hs
  generalize s.nextDemand.call = c at *
  have hentered : workingError s.errors (s.demand.enter c).call = raw := by rwa [Demand.enter_call]
  have hintegral := Demand.sensible_integral (p := s.zp) hentered (by rwa [Demand.enter_call])
  obtain ⟨hsum, hds, hsaturated, hclamped⟩ := Demand.sensible_sum (p := s.zp) hentered
  rw [Demand.enter_sensible _ hs] at hnext hintegral hsum hds hsaturated hclamped
  rw [hnext]
  exact ⟨_, _, _, rfl, rfl, rfl, hintegral, hsum, hds, hsaturated, hclamped⟩

/-- Settles O39: the resting values, and the humidity error where it is formed. -/
theorem restingAndLatentDemand : Obligations.RestingAndLatentDemand := by
  intro s hz
  refine ⟨_, exec_demandTimer hz, ?_⟩
  rw [s.handsOver_demand]
  have hdl : s.nextDemand.dl = latent s.zp s.errors s.nextDemand.call := Demand.expiry_dl _ _ _ _ _
  refine ⟨fun hc => s.nextDemand_resting ?_ ?_, fun hv => ?_, fun rh hrh => ?_⟩
  · intro h; simp [h] at hc
  · intro h; simp [h] at hc
  · rw [hdl, latent_of_no_error (s.humidity_none.2 hv)]
  · have hvalue : s.sensors.roomRh.value = rh := by rw [Input.value, hrh]; rfl
    cases hv : s.sensors.roomRh.valid with
    | false =>
      rw [hdl, latent_of_no_error (s.humidity_none.2 hv), if_neg (by simp)]
      rfl
    | true =>
      rw [hdl, latent_of_error (by rw [s.errors_humidity, hv, hvalue]; rfl)]
      exact if_congr (by simp) rfl rfl

end Sys2Proof.Machine
end

