-- ==== Sys2Proof/Proofs/ZoneBlocks.lean ====
section
/-! PROOFS. The zone's blocks over every command: what leaves them alone, what moves them in a READY zone station, and
what the resets and the load make of them (R51, R73, R84, R87, R182 to R188). -/

namespace Sys2Proof.Machine

/-! ## The invariant -/

/-- The zone's blocks stand at their reset values (R182, R187). -/
def State.ZoneAtReset (s : State) : Prop := s.demand = .reset ∧ s.share = .reset ∧ s.damper = .reset

/-- The zone's blocks are in range, and at their reset values outside a READY zone station. -/
structure State.ZoneKept (s : State) : Prop where
  sound : s.ZoneSound
  held : s.ZoneHeld

theorem State.ZoneKept.atReset {s : State} (hl : s.loader.Sound) (h : s.ZoneAtReset) : s.ZoneKept := by
  obtain ⟨hd, hs, hm⟩ := h
  refine ⟨⟨hl, ?_, ?_, ?_⟩, fun _ => ⟨hd, hs, hm⟩⟩
  · rw [hd]; exact Demand.reset_sound
  · rw [hs]; exact Share.reset_sound
  · rw [hm]; exact Damper.reset_sound

/-- In a READY zone station an operation on the zone's blocks has only their ranges to keep. -/
theorem State.ZoneKept.moved {s t : State} (hz : s.zoneReady = true) (hl : t.loader = s.loader) (h : t.ZoneSound) :
    t.ZoneKept :=
  ⟨h, fun hn => by rw [State.zoneReady_of_loader hl, hz] at hn; cases hn⟩

theorem State.zoneReady_of_role {s : State} (hr : s.ready = true) (hz : s.loader.straps.role = .zone) :
    s.zoneReady = true := by
  simp [State.zoneReady, hr, hz]

/-- A station that is not READY has the zone's blocks at their reset values. -/
theorem State.ZoneKept.of_not_ready {s : State} (h : s.ZoneKept) (hn : s.ready = false) : s.ZoneAtReset :=
  h.held (State.not_zoneReady hn)

/-! ## What leaves the zone's blocks alone -/

/-- The loader and the zone's blocks stand. -/
structure ZoneStill (s t : State) : Prop where
  loader : t.loader = s.loader
  demand : t.demand = s.demand
  share : t.share = s.share
  damper : t.damper = s.damper

theorem ZoneStill.refl (s : State) : ZoneStill s s := ⟨rfl, rfl, rfl, rfl⟩

theorem ZoneStill.trans {s t u : State} (h : ZoneStill s t) (k : ZoneStill t u) : ZoneStill s u :=
  ⟨k.loader.trans h.loader, k.demand.trans h.demand, k.share.trans h.share, k.damper.trans h.damper⟩

theorem ZoneStill.after {s t u : State} (k : ZoneStill t u) (h : ZoneStill s t) : ZoneStill s u := h.trans k

theorem PlantFrame.zoneStill {s t : State} (h : PlantFrame s t) : ZoneStill s t :=
  ⟨h.loader, h.demand, h.share, h.damper⟩

theorem ZoneStill.sound {s t : State} (f : ZoneStill s t) (h : s.ZoneSound) : t.ZoneSound :=
  h.of f.loader (f.demand ▸ h.demand) (f.share ▸ h.share) f.damper

theorem ZoneStill.kept {s t : State} (f : ZoneStill s t) (h : s.ZoneKept) : t.ZoneKept := by
  refine ⟨f.sound h.sound, fun hn => ?_⟩
  rw [State.zoneReady_of_loader f.loader] at hn
  obtain ⟨hd, hs, hm⟩ := h.held hn
  exact ⟨f.demand.trans hd, f.share.trans hs, f.damper.trans hm⟩

theorem State.ZoneKept.setLine {s : State} (h : s.ZoneKept) (l : LineState) : (s.setLine l).ZoneKept :=
  ZoneStill.kept (s := s) ⟨rfl, rfl, rfl, rfl⟩ h

/-! ## The commands that leave the zone's blocks alone -/

/-- A guarded command has a property that both of its outcomes have. -/
theorem next_of_ite {P : State → Prop} {g : Prop} [Decidable g] {o o' : Host.Outcome State Fault Refusal} {t : State}
    (h : (if g then o else o') = .next t) (ho : g → o = .next t → P t) (ho' : o' = .next t → P t) : P t := by
  split at h
  next hg => exact ho hg h
  next => exact ho' h

/-- The end of a command's work: the state it leaves. -/
theorem next_of_advance {P : State → Prop} {u t : State} (hu : P u) (h : advance u = .next t) : P t := by
  rw [advance_eq_next] at h
  exact h ▸ hu

theorem ZoneStill.shows {s u : State} (h : ZoneStill s u) : ZoneStill s u.settlePlant :=
  h.trans (State.settlePlant_plant _).zoneStill

/-- A procedure's step, and the end of its command, leave the zone's blocks alone. -/
theorem ZoneStill.runs {s u : State} (h : ZoneStill s u) (t : Todo) : ZoneStill s (u.run t).settlePlant :=
  (h.trans (State.run_plant t u).zoneStill).shows

theorem State.headOctets_zoneStill (octets : List Byte) :
    ∀ s : State, ZoneStill s (octets.foldl State.headOctet s) := by
  induction octets with
  | nil => exact ZoneStill.refl
  | cons o l ih =>
    intro s
    refine ZoneStill.trans ?_ (ih _)
    unfold State.headOctet State.headEvent
    dsimp only
    split <;> exact ⟨rfl, rfl, rfl, rfl⟩

/-- The head link and the sensors leave the zone's blocks alone (R36 to R47). -/
theorem exec_sensing_zoneStill {c : Instr} {s t : State}
    (hc : (∃ l, c = .headFrameArrival l) ∨ (∃ l, c = .headFrameAbandoned l) ∨ c = .lossTimer ∨
      ∃ p b, c = .sensorTimer p b)
    (h : exec c s = .next t) : ZoneStill s t := by
  have still : advance s = .next t → ZoneStill s t := next_of_advance (.refl s)
  obtain ⟨l, rfl⟩ | ⟨l, rfl⟩ | rfl | ⟨pins, first, rfl⟩ := hc
  · exact next_of_ite h (fun _ => next_of_advance (State.headOctets_zoneStill l s)) still
  · refine next_of_ite h (fun _ => next_of_advance ((State.headOctets_zoneStill l s).trans ?_)) still
    exact ⟨rfl, rfl, rfl, rfl⟩
  · exact next_of_ite h (fun _ => next_of_advance ⟨rfl, rfl, rfl, rfl⟩) still
  · refine next_of_ite h (fun _ h => ?_) still
    split at h
    · refine next_of_advance (ZoneStill.trans ?_ ⟨rfl, rfl, rfl, rfl⟩) h
      unfold State.zoneSensors
      dsimp only
      split <;> exact ⟨rfl, rfl, rfl, rfl⟩
    · refine next_of_advance (ZoneStill.shows ?_) h
      exact (State.plantSensorExpiry_plant pins first s).zoneStill.after ⟨rfl, rfl, rfl, rfl⟩

/-- The plant's timers leave the zone's blocks alone. -/
theorem exec_plant_zoneStill {c : Instr} {s t : State}
    (hc : c = .plantControlTimer ∨ c = .offHoldTimer ∨ c = .protectionTimer ∨ c = .listeningTimer ∨
      c = .stepDelayExpiry ∨ c = .stepTimeExit ∨ c = .stepTimeLimit ∨ c = .emergencyHoldTick ∨
      c = .retainedTimer ∨ c = .frostTimer)
    (h : exec c s = .next t) : ZoneStill s t := by
  have still : advance s = .next t → ZoneStill s t := next_of_advance (.refl s)
  obtain rfl | rfl | rfl | rfl | rfl | rfl | rfl | rfl | rfl | rfl := hc
  · have hmode : ZoneStill s s.modeExpiry := s.modeExpiry_frames.1.zoneStill.after ⟨rfl, rfl, rfl, rfl⟩
    exact next_of_ite h (fun _ => next_of_advance (hmode.trans (State.capacityPeriod_plant _).zoneStill).shows) still
  · refine next_of_ite h (fun _ => next_of_advance (ZoneStill.shows ?_)) still
    exact (State.noteLockoutEnd_plant _ _).zoneStill.after ⟨rfl, rfl, rfl, rfl⟩
  · exact next_of_ite h (fun _ => next_of_advance s.protectionStages_plant.zoneStill.shows) still
  · exact next_of_ite h (fun _ => next_of_advance ⟨rfl, rfl, rfl, rfl⟩) still
  · exact next_of_ite h (fun _ => next_of_advance ((ZoneStill.refl s).runs _)) still
  · simp only [exec, execStepTimeExit] at h
    split at h
    · refine next_of_ite h (fun _ => next_of_advance (ZoneStill.runs ?_ _)) still
      exact ⟨rfl, rfl, rfl, rfl⟩
    · exact still h
  · simp only [exec, execStepTimeLimit] at h
    split at h
    · refine next_of_ite h (fun _ => next_of_advance (ZoneStill.runs ?_ _)) still
      exact ⟨rfl, rfl, rfl, rfl⟩
    · exact still h
  · refine next_of_ite h (fun _ h => ?_) still
    refine next_of_ite h (fun _ => next_of_advance (ZoneStill.runs ?_ _)) (next_of_advance ?_)
    · exact ⟨rfl, rfl, rfl, rfl⟩
    · exact ⟨rfl, rfl, rfl, rfl⟩
  · refine next_of_ite h (fun _ => still) fun h => next_of_ite h (fun _ => next_of_advance ?_) (next_of_advance ?_)
    · exact (s.retainedAdvance_plant.trans (State.examineRequest_plant _)).zoneStill.shows
    · exact s.retainedAdvance_plant.zoneStill
  · refine next_of_ite h (fun _ h => ?_) still
    refine next_of_ite h (fun _ => next_of_advance (ZoneStill.shows ?_)) (next_of_advance ?_)
    · exact (State.request_plant _ s.frostAdvance).zoneStill.after ⟨rfl, rfl, rfl, rfl⟩
    · exact ⟨rfl, rfl, rfl, rfl⟩

/-! ## What the octets of a frame do (R6, R16, R17, R24) -/

theorem Demand.Sound.yield {d : Demand} (h : d.Sound) : d.yield.Sound :=
  { h with ds := Nat.zero_le _, rawSum := by simp [Demand.yield] }

theorem State.ZoneSound.yieldDemand {s : State} (h : s.ZoneSound) : s.yieldDemand.ZoneSound := by
  have hd : (s.setDemand s.demand.yield).ZoneSound := h.of rfl h.demand.yield h.share rfl
  unfold State.yieldDemand
  dsimp only
  split
  · exact hd.of rfl hd.demand hd.share rfl
  · exact hd

/-- Entry to YIELDED keeps the zone's blocks: a zone takes the call IDLE and recomputes (R17, R72). -/
theorem State.ZoneKept.enterYielded {s : State} (h : s.ZoneKept) (hr : s.ready = true) : s.enterYielded.ZoneKept := by
  have hy := h.setLine s.line.yield
  unfold State.enterYielded
  split
  · exact h
  · dsimp only
    split
    next hz =>
      refine .moved (State.zoneReady_of_role hr hz) ?_ hy.sound.yieldDemand.recompute
      exact ((State.yieldDemand_zone _).trans (State.recompute_zone _)).loader
    next => exact (State.dropPlant_plant _).zoneStill.kept hy

theorem State.ZoneKept.compareTag {s : State} (h : s.ZoneKept) (hr : s.ready = true) (tag : Tag) :
    (s.compareTag tag).ZoneKept := by
  have hc : s.countConflict.ZoneKept := h.setLine _
  rw [State.compareTag_eq]
  split
  · exact hc.enterYielded hr
  · exact hc

/-- The detection of a second plant leaves the zone's blocks alone (R34, R35). -/
theorem State.detectPlant_zoneStill (a : Nat) (r : PlantRecord) (b : Bool) (s : State) :
    ZoneStill s (s.detectPlant a r b) := by
  unfold State.detectPlant
  split
  · exact .refl s
  · split
    · exact s.enterStandby_plant.zoneStill.after ⟨rfl, rfl, rfl, rfl⟩
    · split
      · exact .refl s
      · exact ⟨rfl, rfl, rfl, rfl⟩

theorem State.ZoneKept.setPeers {s : State} (h : s.ZoneKept) (p : Peers) : (s.setPeers p).ZoneKept :=
  ZoneStill.kept (s := s) ⟨rfl, rfl, rfl, rfl⟩ h

/-- What a READY zone makes of a new table keeps the zone's blocks (R31, R32). -/
theorem State.ZoneKept.evaluatePlant {s : State} (h : s.ZoneKept) (hz : s.zoneReady = true) (old : Option Facts) :
    (s.evaluatePlant old).ZoneKept :=
  .moved hz (State.evaluatePlant_zone old s).loader (h.sound.evaluatePlant old)

/-- A good report of another address keeps the zone's blocks (R24, R31). -/
theorem State.ZoneKept.takeReport {s : State} (h : s.ZoneKept) (hr : s.ready = true) (a : Nat) (c : Contents) :
    (s.takeReport a c).ZoneKept := by
  have ht := h.setPeers (s.peers.take a c)
  have hev (hz : s.loader.straps.role = .zone) (old : Option Facts) :
      ((s.setPeers (s.peers.take a c)).evaluatePlant old).ZoneKept :=
    ht.evaluatePlant (State.zoneReady_of_role hr hz) old
  unfold State.takeReport
  dsimp only
  split
  next => exact (State.detectPlant_zoneStill _ _ _ _).kept ht
  next => exact ht
  next hz => exact hev hz _
  next hz =>
    split
    · exact hev hz _
    · exact ht

/-- What a READY station does with octets keeps the zone's blocks. -/
theorem State.ZoneKept.keptByOctets : KeptByOctets State.ZoneKept State.ZoneKept where
  start h := h
  line l h := h.setLine l
  accept {u} x p hr h := by
    unfold State.acceptFrame
    split
    · exact h
    · split
      · exact h.compareTag hr _
      · exact h.takeReport hr _ _
  finish h := (State.settlePlant_plant _).zoneStill.kept h

/-! ## The timers of the table and of the zone -/

/-- The thresholds of one entry keep the zone's blocks (R26 to R28, R31). -/
theorem State.ZoneKept.ageEntry {s : State} (h : s.ZoneKept) (hr : s.ready = true) (a : Nat) :
    (s.ageEntry a).ZoneKept := by
  unfold State.ageEntry
  split
  · exact h
  · split
    · unfold State.ageOut
      split
      · split
        · exact h.setPeers _
        · exact h
      · split
        · dsimp only
          split
          next hz _ =>
            refine (h.setPeers _).evaluatePlant ?_ _
            exact State.zoneReady_of_role hr hz
          next => exact h.setPeers _
          next => exact h.setPeers _
        · exact h
    · exact h

theorem State.ZoneKept.ageEntries (l : List Nat) :
    ∀ {s : State}, s.ZoneKept → s.ready = true → (l.foldl State.ageEntry s).ZoneKept := by
  induction l with
  | nil => exact fun h _ => h
  | cons a l ih =>
    intro s h hr
    exact ih (h.ageEntry hr a) (by rw [State.ready, (State.ageEntry_calmFrame a s).loader]; exact hr)

/-- A recomputation in a READY zone station, with readiness settled, keeps the zone's blocks (R76). -/
theorem State.ZoneKept.recomputed {s u : State} (hz : s.zoneReady = true) (hl : u.loader = s.loader)
    (h : u.ZoneSound) : u.recompute.settle.ZoneKept :=
  .setLine (.moved hz (u.recompute_zone.loader.trans hl) h.recompute) _

/-- The drive of a READY zone station moves within its ranges (R84 to R92). -/
theorem State.ZoneKept.setDamper {s : State} (h : s.ZoneKept) (hz : s.zoneReady = true) {x : Damper} (hx : x.Sound) :
    (s.setDamper x).ZoneKept :=
  .moved hz rfl ⟨h.sound.loader, h.sound.demand, h.sound.share, hx⟩

/-- The hand-off of a new demand keeps the ranges (R51, R71). -/
theorem State.ZoneSound.handsOver {s : State} (h : s.ZoneSound) : s.handsOver.ZoneSound := by
  have hd : s.nextDemand.Sound := h.demand.expiry _ _ (State.zp_inRange h.loader) _
  rw [s.handsOver_eq.1]
  exact h.of rfl hd { h.share with inputs := ⟨hd.ds, hd.dl⟩ } rfl

/-- The timers of the table and of the zone keep the zone's blocks. -/
theorem exec_zone_zoneKept {c : Instr} {s t : State}
    (hc : c = .ageTimer ∨ c = .graceTimer ∨ c = .demandTimer ∨ (∃ b, c = .homingStepCompletion b) ∨
      (∃ b, c = .stepCompletion b) ∨ c = .budgetRefillTimer ∨ c = .rehomeAgeTimer)
    (hs : s.ZoneKept) (h : exec c s = .next t) : t.ZoneKept := by
  have still : advance s = .next t → t.ZoneKept := next_of_advance hs
  have hdamper := hs.sound.damper
  obtain rfl | rfl | rfl | ⟨stall, rfl⟩ | ⟨stall, rfl⟩ | rfl | rfl := hc
  · have hp := hs.setPeers (s.peers.older s.address)
    exact next_of_ite h (fun hr => next_of_advance ((State.ZoneKept.ageEntries _ hp hr).setLine _)) still
  · have hg := hs.setPeers { s.peers with grace := .expired }
    refine next_of_ite h (fun hr h => next_of_ite h (fun _ => next_of_advance ?_) (next_of_advance hg)) still
    simp only [Bool.and_eq_true] at hr
    refine .recomputed hr.1 rfl ?_
    exact ((hg.setPeers _).setLine _).sound
  · by_cases hz : s.zoneReady = true
    · rw [exec_demandTimer hz] at h
      exact next_of_advance (.recomputed hz (by rw [s.handsOver_eq.1]; rfl) hs.sound.handsOver) h
    · exact still ((if_neg hz).symm.trans h)
  · refine next_of_ite h (fun hr => next_of_advance ?_) still
    simp only [Bool.and_eq_true, decide_eq_true_eq] at hr
    exact hs.setDamper hr.1 (hdamper.homingStep hr.2 stall)
  · refine next_of_ite h (fun hr h => ?_) still
    simp only [Bool.and_eq_true, decide_eq_true_eq] at hr
    have hm := hs.setDamper hr.1 (hdamper.moveStep hr.2 stall)
    exact next_of_ite h (fun _ => next_of_advance (.recomputed hr.1 rfl (hm.setLine _).sound)) (next_of_advance hm)
  · exact next_of_ite h (fun hz => next_of_advance (hs.setDamper hz hdamper.refill)) still
  · refine next_of_ite h (fun hz => next_of_advance (hs.setDamper hz { hdamper with age := ?_ })) still
    intro a ha
    obtain ⟨b, _, rfl⟩ := Option.map_eq_some_iff.1 ha
    exact ageUp_le b 1

/-! ## READY (R187) -/

/-- The share unit that READY hands the configured Omin to (R73). -/
theorem Share.begun_sound {omin : Nat} (h : omin ≤ 100) :
    ({ Share.reset with base := .percent omin, target := .percent omin } : Share).Sound :=
  { Share.reset_sound with sum := h, target := rfl }

/-- What READY makes of the zone's blocks in the zone role: Omin as base and target, offered to a drive that homes
(R73, R84, R85). -/
theorem State.becomeReady_zone {s : State} (h : s.loader.straps.role = .zone) :
    s.becomeReady.demand = s.demand ∧
      s.becomeReady.share = { s.share with base := .percent s.zp.omin, target := .percent s.zp.omin } ∧
      s.becomeReady.damper = (s.damper.offer (s.zp.omin * 12)).home := by
  unfold State.becomeReady
  dsimp only
  split
  next => exact ⟨rfl, rfl, rfl⟩
  next hp => exact absurd (h.symm.trans hp) nofun

/-- In the plant role READY leaves the zone's blocks alone. -/
theorem State.becomeReady_plant {s : State} (h : s.loader.straps.role = .plant) :
    s.becomeReady.demand = s.demand ∧ s.becomeReady.share = s.share ∧ s.becomeReady.damper = s.damper := by
  unfold State.becomeReady
  dsimp only
  split
  next hz => exact absurd (h.symm.trans hz) nofun
  next =>
    have f (u : State) : ZoneStill u u.settlePlant := (ZoneStill.refl u).shows
    exact ⟨(f _).demand, (f _).share, (f _).damper⟩

/-- READY begins the zone's blocks from their reset values, and leaves a plant's at them (R187). -/
theorem State.ZoneAtReset.becomeReady {s : State} (h : s.ZoneAtReset)
    (hl : ({ s.loader with state := .ready, retryWait := false } : Loader).Sound) : s.becomeReady.ZoneKept := by
  obtain ⟨hd, hs, hm⟩ := h
  have hloader : s.becomeReady.loader.Sound := by rw [s.becomeReady_frame.1]; exact hl
  cases hrole : s.loader.straps.role with
  | zone =>
    have hready : s.becomeReady.zoneReady = true := by
      simp [State.zoneReady, State.ready, s.becomeReady_frame.1, hrole]
    have homin : s.zp.omin ≤ 100 := (State.zp_inRange (s := s.setLoader _) hl).omin
    obtain ⟨bd, bs, bm⟩ := State.becomeReady_zone hrole
    refine .moved hready rfl ⟨hloader, ?_, ?_, ?_⟩
    · rw [bd, hd]; exact Demand.reset_sound
    · rw [bs, hs]; exact Share.begun_sound homin
    · rw [bm, hm]; exact (Damper.reset_sound.offer (by omega)).home
  | plant =>
    obtain ⟨bd, bs, bm⟩ := State.becomeReady_plant hrole
    exact .atReset hloader ⟨bd.trans hd, bs.trans hs, bm.trans hm⟩

/-! ## The load (R182 to R185) -/

/-- A loader that holds no set while no reset is asserted (R183, R185, R188). -/
structure Loader.Unloaded (l : Loader) : Prop where
  zone : l.zone = none
  plant : l.plant = none
  released : ¬(l.powerAsserted = true ∨ l.inputAsserted = true)
  attempts : l.attempts ≤ 4
  retry : l.retryWait = true → l.attempts ≤ 3

/-- No set is held outside READY (R185). -/
theorem Loader.Sound.no_set {l : Loader} (h : l.Sound) (hn : l.state ≠ .ready) : l.zone = none ∧ l.plant = none := by
  have hset := h.holds
  unfold Loader.holdsItsSet at hset
  split at hset
  next e _ => exact absurd e hn
  next e _ => exact absurd e hn
  all_goals exact hset

theorem Loader.Sound.unloaded {l : Loader} (h : l.Sound) (hs : l.state = .reading) : l.Unloaded := by
  obtain ⟨hz, hp⟩ := h.no_set (by rw [hs]; nofun)
  exact ⟨hz, hp, fun ha => (nomatch hs.symm.trans (h.idle.2 ha)), h.attempts, h.retry⟩

/-- A reset that is asserted holds the loader in IDLE (R188). -/
theorem Loader.Sound.idle_of_asserted {l : Loader} (h : l.Sound) {kind : ResetKind} (ha : l.asserted kind = true) :
    l.state = .idle := by
  refine h.idle.2 ?_
  cases kind with
  | power => exact .inl ha
  | input => exact .inr ha

/-- A release while the other reset stands leaves the loader sound; the last one leaves it without a set (R188). -/
theorem Loader.Sound.release {l : Loader} (h : l.Sound) (hi : l.state = .idle) (kind : ResetKind) :
    ((l.release kind).powerAsserted = true ∨ (l.release kind).inputAsserted = true → (l.release kind).Sound) ∧
      (¬((l.release kind).powerAsserted = true ∨ (l.release kind).inputAsserted = true) →
        (l.release kind).Unloaded) := by
  obtain ⟨hz, hp⟩ := h.no_set (by rw [hi]; nofun)
  cases kind <;>
    exact ⟨fun ha => { h with idle := iff_of_true hi ha, holds := h.holds },
      fun hr => ⟨hz, hp, hr, h.attempts, h.retry⟩⟩

/-- A load that goes on, or stops in CONFIG_HALT, leaves the loader sound (R183). -/
theorem Loader.Unloaded.sound {l : Loader} (h : l.Unloaded) (hs : l.state = .configHalt ∨ l.state = .reading) :
    l.Sound where
  zone p hp := by rw [h.zone] at hp; cases hp
  plant p hp := by rw [h.plant] at hp; cases hp
  holds := by
    unfold Loader.holdsItsSet
    obtain e | e := hs <;> rw [e] <;> exact ⟨h.zone, h.plant⟩
  idle := iff_of_false (by obtain e | e := hs <;> rw [e] <;> nofun) h.released
  attempts := h.attempts
  retry := h.retry

/-- A READY zone's loader with a set in range is sound (R185). -/
theorem Loader.Unloaded.withZone {l : Loader} (h : l.Unloaded) (hr : l.straps.role = .zone) {p : ZoneParams}
    (hp : p.InRange) (tag : Tag) (defaulted clamped : Bool) (result : LoadResult) :
    Loader.Sound
      { l with
        state := .ready, retryWait := false, zone := some p, tag := tag, defaulted := defaulted
        clamped := clamped, result := result } where
  zone q hq := Option.some.inj hq ▸ hp
  plant q hq := by simp [h.plant] at hq
  holds := by simp [Loader.holdsItsSet, hr, h.plant]
  idle := iff_of_false nofun h.released
  attempts := h.attempts
  retry := nofun

/-- A READY plant's loader with a set in range is sound (R185). -/
theorem Loader.Unloaded.withPlant {l : Loader} (h : l.Unloaded) (hr : l.straps.role = .plant) {p : PlantParams}
    (hp : p.InRange) (tag : Tag) (defaulted clamped : Bool) (result : LoadResult) :
    Loader.Sound
      { l with
        state := .ready, retryWait := false, plant := some p, tag := tag, defaulted := defaulted
        clamped := clamped, result := result } where
  zone q hq := by simp [h.zone] at hq
  plant q hq := Option.some.inj hq ▸ hp
  holds := by simp [Loader.holdsItsSet, hr, h.zone]
  idle := iff_of_false nofun h.released
  attempts := h.attempts
  retry := nofun

section
variable {s : State} (h : s.ZoneAtReset) (hl : s.loader.Unloaded)
include h hl

/-- The defaults are in range for either role (R183). -/
theorem State.ZoneAtReset.loadDefaults (r : LoadResult) : (s.loadDefaults r).ZoneKept := by
  unfold State.loadDefaults
  dsimp only
  cases hr : s.loader.straps.role with
  | zone => exact State.ZoneAtReset.becomeReady h (hl.withZone hr zoneDefaults_inRange _ _ _ _)
  | plant => exact State.ZoneAtReset.becomeReady h (hl.withPlant hr plantDefaults_inRange _ _ _ _)

/-- Any image is clamped into the ranges of either role (R184, R185). -/
theorem State.ZoneAtReset.loadImage (image : List Byte) : (s.loadImage image).ZoneKept := by
  unfold State.loadImage
  dsimp only
  cases hr : s.loader.straps.role with
  | zone => exact State.ZoneAtReset.becomeReady h (hl.withZone hr (zoneOfImage_inRange _) _ _ _ _)
  | plant => exact State.ZoneAtReset.becomeReady h (hl.withPlant hr (plantOfImage_inRange _) _ _ _ _)

theorem State.ZoneAtReset.checkImage (image : List Byte) : (s.checkImage image).ZoneKept := by
  unfold State.checkImage
  split
  · exact h.loadDefaults hl _
  · exact h.loadImage hl _

/-- A failed read waits for the next attempt, or takes the defaults (R183). -/
theorem State.ZoneAtReset.readFailed (hs : s.loader.state = .reading) : s.readFailed.ZoneKept := by
  unfold State.readFailed
  split
  · refine .atReset (Loader.Unloaded.sound ?_ (.inr hs)) h
    exact { hl with retry := fun _ => Nat.le_of_lt_succ ‹_› }
  · exact h.loadDefaults hl _

/-- The load that begins at the latching (R183). -/
theorem State.ZoneAtReset.beginLoad : s.beginLoad.ZoneKept := by
  unfold State.beginLoad
  split
  · exact .atReset (Loader.Unloaded.sound { hl with } (.inl rfl)) h
  · split
    · exact .atReset (Loader.Unloaded.sound { hl with attempts := by simp, retry := by simp } (.inr rfl)) h
    · exact h.loadDefaults hl _

end

/-- The resets and the load keep the zone's blocks. -/
theorem exec_load_zoneKept {c : Instr} {s t : State}
    (hc : c = .powerOnReset ∨ c = .resetInputAsserted ∨ (∃ k st, c = .resetRelease k st) ∨
      (∃ l, c = .readAttempt l) ∨ c = .readRetryTimer)
    (hs : s.ZoneKept) (h : exec c s = .next t) : t.ZoneKept := by
  have still : advance s = .next t → t.ZoneKept := next_of_advance hs
  have hl := hs.sound.loader
  have hheld (e : s.loader.state = .reading) : s.ZoneAtReset := hs.of_not_ready (by simp [State.ready, e])
  obtain rfl | rfl | ⟨kind, straps, rfl⟩ | ⟨octets, rfl⟩ | rfl := hc
  · exact next_of_advance (.atReset (Loader.reset_sound _ _ _ _ (.inl rfl)) ⟨rfl, rfl, rfl⟩) h
  · exact next_of_advance (.atReset (Loader.reset_sound _ _ _ _ (.inr rfl)) ⟨rfl, rfl, rfl⟩) h
  · refine next_of_ite h (fun ha h => ?_) still
    have hi := hl.idle_of_asserted ha
    have hreset := hs.of_not_ready (by simp [State.ready, hi])
    obtain ⟨hsound, hunloaded⟩ := hl.release hi kind
    split at h
    next hr =>
      refine next_of_advance ?_ h
      exact .atReset (hsound (by simpa [State.inReset] using hr)) hreset
    next hr =>
      have hu := hunloaded (by simpa [State.inReset] using hr)
      have hlatched : (State.latch straps (s.setLoader (s.loader.release kind))).ZoneAtReset := hreset
      exact next_of_advance (hlatched.beginLoad { hu with }) h
  · refine next_of_ite h (fun hr h => ?_) still
    simp only [Bool.and_eq_true, decide_eq_true_eq] at hr
    have hu := hl.unloaded hr.1
    exact next_of_ite h (fun _ => next_of_advance ((hheld hr.1).readFailed hu hr.1))
      (next_of_advance ((hheld hr.1).checkImage hu _))
  · refine next_of_ite h (fun hr => next_of_advance ?_) still
    simp only [Bool.and_eq_true, decide_eq_true_eq] at hr
    refine .atReset (Loader.Unloaded.sound ?_ (.inr hr.1)) (hheld hr.1)
    exact { hl.unloaded hr.1 with attempts := Nat.succ_le_succ (hl.retry hr.2), retry := nofun }

/-! ## Every step -/

/-- Every command keeps the zone's blocks. -/
theorem exec_zoneKept {c : Instr} {s t : State} (hs : s.ZoneKept) (h : exec c s = .next t) : t.ZoneKept := by
  cases c with
  | powerOnReset | resetInputAsserted | resetRelease | readAttempt | readRetryTimer =>
    exact exec_load_zoneKept (by simp) hs h
  | tokenRefillTimer | lineIdle | attemptBegin | attemptComplete | collision | frameReceived | frameAbandoned
  | zonePeriodicTimer | plantPeriodicTimer | summaryTimer | startBitSeen | framingError =>
    exact State.ZoneKept.keptByOctets.exec_line (fun l hu => hu.setLine l) (by simp) hs h
  | ageTimer | graceTimer | demandTimer | homingStepCompletion | stepCompletion | budgetRefillTimer | rehomeAgeTimer =>
    exact exec_zone_zoneKept (by simp) hs h
  | headFrameArrival | headFrameAbandoned | lossTimer | sensorTimer =>
    exact (exec_sensing_zoneStill (by simp) h).kept hs
  | plantControlTimer | offHoldTimer | protectionTimer | listeningTimer | stepDelayExpiry | stepTimeExit
  | stepTimeLimit | emergencyHoldTick | retainedTimer | frostTimer =>
    exact (exec_plant_zoneStill (by simp) h).kept hs

/-- Settles O6: every command keeps the zone's blocks, and the queue is no part of them. -/
theorem zoneBlocksStaySound : Obligations.ZoneBlocksStaySound := by
  intro s t hsound hheld h
  have hs : s.ZoneKept := ⟨hsound, hheld⟩
  have ht : t.ZoneKept := by
    obtain ⟨_, rfl⟩ | ⟨c, rest, _, hx⟩ := step_cases h
    · exact hs
    · exact exec_zoneKept (s := s.setPending rest) (ZoneStill.kept (s := s) ⟨rfl, rfl, rfl, rfl⟩ hs) hx
  exact ⟨ht.sound, ht.held⟩

end Sys2Proof.Machine
end

