-- ==== Sys2Proof/Proofs/DamperDrive.lean ====
section
/-! PROOFS. The Damper Drive: what it does with an offered target, its homing and its moves, the refill of its budget,
and its fault (R83 to R94). -/

namespace Sys2Proof.Machine

/-! ## An offered target, by the drive's state (R86, R88, R89) -/

theorem offerTaken_iff (p t : Nat) :
    offerTaken p t = true ↔ (p + 24 ≤ t ∨ t + 24 ≤ p ∨ t = 0 ∨ t = 1200) ∧ t ≠ p := by
  simp only [offerTaken, Bool.and_eq_true, Bool.or_eq_true, decide_eq_true_eq]
  omega

theorem Damper.offer_of_stores {d : Damper} (h : d.state = .unhomed ∨ d.state = .homing) (t : Nat) :
    d.offer t = { d with stored := some t } := by
  unfold Damper.offer
  obtain h | h := h <;> rw [h]

theorem Damper.offer_of_faulted {d : Damper} (h : d.state = .faulted) (t : Nat) : d.offer t = d := by
  unfold Damper.offer
  rw [h]

theorem Damper.offer_of_holding {d : Damper} {p : Nat} (h : d.state = .holding) (hp : d.position = some p) (t : Nat) :
    d.offer t = if offerTaken p t = true then d.take p t else d := by
  unfold Damper.offer
  rw [h, hp]

theorem Damper.offer_of_moving {d : Damper} (h : d.state = .moving) (t : Nat) :
    d.offer t = { d with taken := some t } := by
  unfold Damper.offer
  rw [h]

theorem Damper.offer_of_waiting {d : Damper} (h : d.state = .waitingBudget) (t : Nat) :
    d.offer t =
      { d with taken := some t, state := if d.position = some t then .holding else .waitingBudget } := by
  simp only [Damper.offer, h]
  by_cases ht : d.position = some t
  · simp only [if_pos ht]
  · simp only [if_neg ht]

/-- A taken target starts a move where the budget holds a unit, and waits where it holds none (R88). -/
theorem Damper.take_eq (d : Damper) (p t : Nat) :
    d.take p t =
      { d with
        taken := some t
        state := if d.budget = 0 then .waitingBudget else .moving
        step := if d.budget = 0 then d.step else some (towards p t) } := by
  unfold Damper.take
  obtain hb | hb := Nat.eq_zero_or_pos d.budget
  · rw [if_neg (by omega), if_pos hb, if_pos hb]
  · rw [if_pos (Nat.succ_le_of_lt hb), if_neg hb.ne', if_neg hb.ne']

/-- Settles O44: the offer's case for each drive state, and the offer of a recomputation. -/
theorem offersAreTakenByTheDriveState : Obligations.OffersAreTakenByTheDriveState := by
  refine ⟨fun d t => ⟨fun h => d.offer_of_stores h t, fun h => d.offer_of_faulted h t, fun h p hp => ?_,
    fun h => d.offer_of_moving h t, fun h => d.offer_of_waiting h t⟩, fun s => ?_⟩
  · rw [Damper.offer_of_holding h hp]
    refine ⟨fun hfar hne => ?_, fun hlow hhigh h0 h1200 => ?_, fun heq => ?_⟩
    · rw [if_pos ((offerTaken_iff p t).2 ⟨hfar, hne⟩), Damper.take_eq]
      rfl
    · exact if_neg fun ht => by
        have hfar := ((offerTaken_iff p t).1 ht).1
        omega
    · exact if_neg fun ht => ((offerTaken_iff p t).1 ht).2 heq
  · rw [State.recompute_share, State.recompute_damper]
    dsimp only
    exact ⟨fun n hn => by rw [hn], fun hn => by rw [hn]⟩

/-! ## Homing (R85) -/

/-- Homing over with no stored target: the drive holds at 0 with no budget (R85, R87). -/
theorem Damper.homed_of_none {d : Damper} (h : d.stored = none) :
    d.homed = { d with state := .holding, position := some 0, budget := 0, step := none } := by
  unfold Damper.homed
  rw [h]

/-- Homing over with a stored target, which is offered at position 0 with no budget (R85, R88). -/
theorem Damper.homed_of_some {d : Damper} {t : Nat} (h : d.stored = some t) :
    d.homed =
      { d with
        state := if 24 ≤ t then .waitingBudget else .holding
        position := some 0, budget := 0, step := none, stored := none
        taken := if 24 ≤ t then some t else d.taken } := by
  have htaken : offerTaken 0 t = true ↔ 24 ≤ t := by
    rw [offerTaken_iff]
    omega
  unfold Damper.homed
  rw [h]
  refine (Damper.offer_of_holding rfl rfl t).trans ?_
  by_cases ht : 24 ≤ t
  · rw [if_pos (htaken.2 ht), Damper.take_eq, if_pos ht, if_pos ht]
    rfl
  · rw [if_neg (mt htaken.1 ht), if_neg ht, if_neg ht]

theorem exec_homingStepCompletion {s : State} (hz : s.zoneReady = true) (h : s.damper.state = .homing) (stall : Bool) :
    exec (.homingStepCompletion stall) s = .next (s.setDamper (s.damper.homingStep stall)) := by
  refine if_pos ?_
  rw [hz, h]
  rfl

/-- A homing step counts, and goes on where neither a stall nor the travel limit ends the homing (R85). -/
theorem Damper.homingStep_goesOn (d : Damper) (h : d.homingSteps + 1 < 1320) :
    d.homingStep false = { d with homingSteps := d.homingSteps + 1 } :=
  if_neg (by simpa using Nat.lt_of_succ_lt_succ h)

/-- A stall or the travel limit ends the homing (R85). -/
theorem Damper.homingStep_ends (d : Damper) {stall : Bool} (h : stall = true ∨ 1320 ≤ d.homingSteps + 1) :
    d.homingStep stall = { d with homingSteps := d.homingSteps + 1 }.homed :=
  if_pos (by simpa using h)

/-! ## The budget's refill (R87, R90) -/

theorem Damper.refill_of_not_waiting {d : Damper} (h : d.state ≠ .waitingBudget) :
    d.refill = { d with budget := if d.budget < 2400 then d.budget + 1 else d.budget } := by
  unfold Damper.refill
  dsimp only
  split
  next hs _ _ => exact absurd hs h
  next => split <;> rfl

theorem Damper.refill_of_waiting {d : Damper} {p t : Nat} (h : d.state = .waitingBudget) (hp : d.position = some p)
    (ht : d.taken = some t) (hb : d.budget < 2400) :
    d.refill =
      { d with
        budget := d.budget + 1
        state := if d.budget + 1 = 50 then .moving else .waitingBudget
        step := if d.budget + 1 = 50 then some (towards p t) else d.step } := by
  unfold Damper.refill
  rw [if_pos hb, h, hp, ht]
  dsimp only
  by_cases hf : d.budget + 1 = 50
  · rw [if_pos hf, if_pos hf, if_pos hf]
  · rw [if_neg hf, if_neg hf, if_neg hf]

/-- Settles O43: homing by whether the step ends it, then the refill by the drive's state, and the age. -/
theorem homingStepsAndDamperTimers : Obligations.HomingStepsAndDamperTimers := by
  refine ⟨fun s stall hz hs => ⟨fun hstall hsteps => ?_, fun hend => ?_⟩, fun s hz => ⟨fun hs => ?_, ?_, ?_⟩⟩
  · rw [exec_homingStepCompletion hz hs, hstall, Damper.homingStep_goesOn _ hsteps]
  · have hhomed := Damper.homingStep_ends s.damper hend
    rw [exec_homingStepCompletion hz hs]
    exact ⟨fun hnone => by rw [hhomed.trans (Damper.homed_of_none hnone)],
      fun t ht => by rw [hhomed.trans (Damper.homed_of_some ht)]⟩
  · exact (if_pos hz).trans (by rw [Damper.refill_of_not_waiting hs]; rfl)
  · intro p t hs hp ht hb
    exact (if_pos hz).trans (by rw [Damper.refill_of_waiting hs hp ht hb]; rfl)
  · exact if_pos hz

/-! ## A move (R90, R92, R94) -/

theorem stepped_eq (p : Nat) (dir : Direction) : stepped p dir = if dir = .opening then p + 1 else p - 1 := by
  cases dir <;> rfl

theorem exec_stepCompletion {s : State} (hz : s.zoneReady = true) (h : s.damper.state = .moving) (stall : Bool) :
    exec (.stepCompletion stall) s =
      if (s.damper.moveStep stall).state = .faulted then
        .next (s.setDamper (s.damper.moveStep stall)).prompt.recompute.settle
      else .next (s.setDamper (s.damper.moveStep stall)) := by
  refine if_pos ?_
  rw [hz, h]
  rfl

section
variable {d : Damper} {p t : Nat} {dir : Direction}

/-- A step without a stall ends the move at the target or with the budget, or begins the next step (R90). -/
theorem Damper.moveStep_free (hs : d.state = .moving) (hp : d.position = some p) (ht : d.taken = some t)
    (hd : d.step = some dir) :
    d.moveStep false =
      { d with
        position := some (stepped p dir), budget := d.budget - 1
        state :=
          if t = stepped p dir then .holding else if d.budget - 1 = 0 then .waitingBudget else .moving
        step :=
          if t = stepped p dir then none
          else if d.budget - 1 = 0 then none else some (towards (stepped p dir) t) } := by
  unfold Damper.moveStep Damper.afterStep
  rw [hp, hd]
  simp only [ht, Option.some.injEq, Option.getD_some, Bool.false_eq_true, if_false]
  by_cases hat : t = stepped p dir
  · simp only [if_pos hat]
  · by_cases hb : d.budget - 1 = 0
    · simp only [if_neg hat, if_pos hb]
    · simp only [if_neg hat, if_neg hb, hs]

theorem Damper.moveStep_stalls (hp : d.position = some p) (hd : d.step = some dir) :
    d.moveStep true = { d with position := some (stepped p dir), budget := d.budget - 1 }.rehome := by
  unfold Damper.moveStep
  rw [hp, hd]
  rfl

end

/-- A re-home with none in the last 600 s homes with the taken target stored (R92). -/
theorem Damper.rehome_homes {d : Damper} (h : ∀ age, d.rehomeAge = some age → 600 ≤ age) :
    d.rehome =
      { d with
        state := .homing, position := none, taken := none, stored := d.taken, homingSteps := 0
        rehomeAge := some 0, step := some .closing, rehomes := d.rehomes + 1 } := by
  unfold Damper.rehome
  cases ha : d.rehomeAge with
  | none => rfl
  | some age => exact if_neg (h age ha).not_gt

/-- A second re-home within 600 s is a fault (R92, R94). -/
theorem Damper.rehome_faults {d : Damper} {age : Nat} (ha : d.rehomeAge = some age) (h : age < 600) :
    d.rehome =
      { d with
        state := .faulted, position := none, taken := none, stored := none, step := none
        rehomes := d.rehomes + 1 } := by
  unfold Damper.rehome
  rw [ha]
  exact if_pos h

/-- A recomputation of a zone whose drive is FAULTED closes its branch out: tier 0, an unknown base and target, no
relief, and nothing offered (R77, R78, R81, R83). -/
theorem State.recompute_of_faulted {s : State} (h : s.damper.state = .faulted) :
    s.recompute.share = { s.share with tier := 0, base := .unknown, relief := 0, target := .unknown } ∧
      s.recompute.damper = s.damper := by
  have ht := s.chooseTier_zero (.inl h)
  have hbase : s.chooseBase s.chooseTier = .unknown := if_pos h
  have hrelief : s.placeTier.chooseRelief = 0 := by
    rw [State.placeTier_chooseRelief, ht]
    rfl
  rw [State.recompute_share, State.recompute_damper, ht, hrelief, ← ht, hbase, ht]
  exact ⟨rfl, rfl⟩

/-- Settles O45: the step without a stall, the stall that re-homes, and the stall that faults and recomputes. -/
theorem moveStepsTowardItsTarget : Obligations.MoveStepsTowardItsTarget := by
  intro s p t dir hz hs hp ht hd next hnext
  obtain rfl : next = stepped p dir := hnext.trans (stepped_eq p dir).symm
  have hstall := Damper.moveStep_stalls hp hd
  refine ⟨?_, fun hage => ?_, fun age hage hyoung => ?_⟩
  · have hmove := Damper.moveStep_free hs hp ht hd
    have hstate : (s.damper.moveStep false).state ≠ .faulted := by
      rw [hmove]
      dsimp only
      (repeat' split) <;> simp
    rw [exec_stepCompletion hz hs, if_neg hstate, hmove]
    rfl
  · have hmove := hstall.trans (Damper.rehome_homes hage)
    rw [exec_stepCompletion hz hs, hmove, if_neg (by simp), ht]
  · have hmove := hstall.trans (Damper.rehome_faults hage hyoung)
    have hfault : (s.damper.moveStep true).state = .faulted := congrArg Damper.state hmove
    have hzone := (State.recompute_zone (s.setDamper (s.damper.moveStep true)).prompt).trans (State.settle_zone _)
    obtain ⟨hshare, hkeep⟩ := State.recompute_of_faulted (s := (s.setDamper (s.damper.moveStep true)).prompt) hfault
    refine ⟨_, (exec_stepCompletion hz hs true).trans (if_pos hfault), hkeep.trans hmove, ?_, ?_, ?_, ?_, ?_,
      hzone.loader, State.recompute_peers _, hzone.sensors, State.recompute_demand _, hzone.pending⟩
    iterate 4 rw [State.settle_share, hshare]
    exact (congrArg KindState.pending (LineState.settle_main _ _)).trans (State.recompute_pending (.inl rfl))

end Sys2Proof.Machine
end

