-- ==== Sys2Proof/Proofs/AirflowShares.lean ====
section
/-! PROOFS. A recomputation's tier, base and relief (R77 to R82), and what the relief shares of a tier add up to. -/

namespace Sys2Proof.Machine

/-! ## The rows of the tier table (R77) -/

theorem Call.group_eq_none_iff (c : Call) : c.group = .none ↔ c = .idle ∨ c = .off := by
  cases c <;> decide

theorem Call.group_opposes_iff (c : Call) (m : Mode) :
    c.group ≠ .none ∧ c.group = m.group.other ↔
      (c = .heat ∧ (m = .cool ∨ m = .dry)) ∨ ((c = .cool ∨ c = .dry) ∧ m = .heat) := by
  cases c <;> cases m <;> decide

theorem Call.group_matches_iff (c : Call) (m : Mode) :
    c.group ≠ .none ∧ c.group = m.group ↔
      ((c = .cool ∨ c = .dry) ∧ (m = .cool ∨ m = .dry)) ∨ (c = .heat ∧ m = .heat) := by
  cases c <;> cases m <;> decide

theorem opposite_iff (c : Call) (x : Share) :
    opposite c x.viewMode = true ↔ ∃ v, x.view = some v ∧
      ((c = .heat ∧ (v.mode = .cool ∨ v.mode = .dry)) ∨ ((c = .cool ∨ c = .dry) ∧ v.mode = .heat)) := by
  unfold Share.viewMode
  cases x.view with
  | none => simp [opposite]
  | some v => simpa [opposite] using c.group_opposes_iff v.mode

theorem sameGroup_iff (c : Call) (x : Share) :
    sameGroup c x.viewMode = true ↔ ∃ v, x.view = some v ∧
      (((c = .cool ∨ c = .dry) ∧ (v.mode = .cool ∨ v.mode = .dry)) ∨ (c = .heat ∧ v.mode = .heat)) := by
  unfold Share.viewMode
  cases x.view with
  | none => simp [sameGroup]
  | some v => simpa [sameGroup] using c.group_matches_iff v.mode

theorem resting_iff (c : Call) (fault : Bool) :
    (decide (c.group = .none) || fault) = true ↔ c = .idle ∨ c = .off ∨ fault = true := by
  rw [Bool.or_eq_true, decide_eq_true_eq, c.group_eq_none_iff, or_assoc]

theorem Share.frozen_iff (x : Share) : x.frozen = true ↔ ∃ v, x.view = some v ∧ v.state = .defrost := by
  unfold Share.frozen
  cases x.view <;> simp

/-! ## The rows of the base table (R78) -/

theorem baseFor_eq (omin demand : Nat) :
    baseFor omin demand = omin + (2 * ((100 - omin) * demand) + 1000) / 2000 := by
  unfold baseFor nearest
  rw [if_pos (Int.natCast_nonneg _), Int.toNat_natCast, Int.toNat_natCast]

/-- Rows 6 to 8: the demand opens the branch in tier 1 alone (R78). -/
theorem demandBase_eq (tier omin ds dl : Nat) (c : Call) :
    (if tier = 1 then
      match c with
      | .cool | .heat => Opening.percent (baseFor omin ds)
      | .dry => .percent (baseFor omin dl)
      | .off | .idle => .percent omin
    else .percent omin) =
      if tier = 1 ∧ (c = .cool ∨ c = .heat) then .percent (omin + (2 * ((100 - omin) * ds) + 1000) / 2000)
      else if tier = 1 ∧ c = .dry then .percent (omin + (2 * ((100 - omin) * dl) + 1000) / 2000)
      else .percent omin := by
  by_cases ht : tier = 1
  · cases c <;> simp [ht, baseFor_eq]
  · simp [ht]

/-- Settles O41: row by row of the two tables. -/
theorem tierAndBaseAreTheFirstRowsThatHold : Obligations.TierAndBaseAreTheFirstRowsThatHold := by
  refine ⟨fun s => ?_, fun s _ => ?_⟩ <;> rw [State.recompute_share]
  · exact if_congr .rfl rfl <| if_congr .rfl rfl <| if_congr .rfl rfl <| if_congr .rfl rfl <|
      if_congr (opposite_iff _ _) rfl <| if_congr (resting_iff _ _) rfl <| if_congr (sameGroup_iff _ _) rfl <|
      if_congr Option.map_eq_some_iff rfl rfl
  · exact if_congr .rfl rfl <| if_congr .rfl rfl <| if_congr .rfl rfl <| if_congr s.share.frozen_iff rfl <|
      if_congr .rfl rfl <| demandBase_eq _ _ _ _ _

/-! ## What a recomputation weighs of the zone entries (R80) -/

/-- What the sharing weighs of a zone entry: its freshness, tier, base and weight (R30, R80). -/
def weighedPart (e : Freshness × ZoneRecord) : Freshness × Nat × Opening × Nat := (e.1, e.2.tier, e.2.base, e.2.weight)

theorem countedTier_eq_iff {tier : Nat} (h : tier ≠ 0) (e : Freshness × ZoneRecord) :
    countedTier e = tier ↔ e.1 = .fresh ∧ e.2.tier = tier := by
  unfold countedTier
  cases e.1 <;> simp [h.symm]

theorem weightedBase_congr {l l' : List (Freshness × ZoneRecord)} (h : l.map weighedPart = l'.map weighedPart) :
    weightedBase l = weightedBase l' := by
  have hparts := congrArg (fun ps => (ps.map fun p => p.2.2.2 * p.2.2.1.orZero).sum) h
  rw [List.map_map, List.map_map] at hparts
  exact hparts

theorem headroom_eq {tier : Nat} (h : tier ≠ 0) (l : List (Freshness × ZoneRecord)) :
    headroom tier l =
      ((l.filter fun e => e.1 = .fresh ∧ e.2.tier = tier).map fun e => e.2.weight * (100 - e.2.base.orZero)).sum := by
  unfold headroom
  simp only [countedTier_eq_iff h]

theorem headroom_congr {tier : Nat} (h : tier ≠ 0) {l l' : List (Freshness × ZoneRecord)}
    (hl : l.map weighedPart = l'.map weighedPart) : headroom tier l = headroom tier l' := by
  have hparts := congrArg (fun ps => ((ps.filter fun p => p.1 = .fresh ∧ p.2.1 = tier).map
    fun p => p.2.2.2 * (100 - p.2.2.1.orZero)).sum) hl
  rw [headroom_eq h, headroom_eq h]
  simp only [List.filter_map, List.map_map] at hparts
  exact hparts

/-- The parts come from the loader, the table, and the own tier and base alone (R19, R23). -/
theorem State.zoneEntries_parts {s t : State} (hl : t.loader = s.loader) (hp : t.peers = s.peers)
    (ht : t.share.tier = s.share.tier) (hb : t.share.base = s.share.base) :
    t.zoneEntries.map weighedPart = s.zoneEntries.map weighedPart := by
  unfold State.zoneEntries
  rw [List.map_filterMap, List.map_filterMap, hp]
  congr 1
  funext e
  have haddr : t.address = s.address := by unfold State.address; rw [hl]
  have hready : t.ready = s.ready := by unfold State.ready; rw [hl]
  have hown : weighedPart (.fresh, t.ownZone) = weighedPart (.fresh, s.ownZone) := by
    simp only [weighedPart, State.ownZone, State.zp, hl, ht, hb]
  unfold State.presence State.ownContents
  rw [haddr, hready, hl]
  by_cases ha : e.address = s.address
  · rw [if_pos ha, if_pos ha]
    cases s.ready with
    | false => rfl
    | true =>
      cases s.loader.straps.role with
      | zone => exact congrArg some hown
      | plant => rfl
  · rw [if_neg ha, if_neg ha]

/-- The relief of a recomputation, read from the state that it leaves (R79 to R82). -/
theorem State.recompute_relief (s : State) :
    s.recompute.share.relief =
      if s.recompute.share.tier = 0 then 0
      else if s.share.frozen then s.share.relief
      else if s.recompute.share.tier = 1 then
        reliefShare s.recompute.share.base.orZero
          (s.share.publishedF - weightedBase s.recompute.zoneEntries) (headroom 1 s.recompute.zoneEntries)
      else
        reliefShare s.recompute.share.base.orZero
          (s.share.publishedF - weightedBase s.recompute.zoneEntries - headroom 1 s.recompute.zoneEntries)
          (headroom 2 s.recompute.zoneEntries) := by
  have hparts : s.recompute.zoneEntries.map weighedPart =
      (s.setShare { s.share with tier := s.chooseTier, base := s.chooseBase s.chooseTier }).zoneEntries.map
        weighedPart :=
    State.zoneEntries_parts s.recompute_zone.loader s.recompute_peers
      (by rw [State.recompute_share, State.setShare_share]) (by rw [State.recompute_share, State.setShare_share])
  rw [weightedBase_congr hparts, headroom_congr one_ne_zero hparts, headroom_congr two_ne_zero hparts,
    State.recompute_share, State.placeTier_chooseRelief]
  rfl

/-! ## What the shares of a tier add up to (R81, R82) -/

/-- A share covers its part of the shortfall, and exceeds it by less than one percent (R81). -/
theorem reliefShare_covers (base shortfall : Nat) {room : Nat} (h : 0 < room) :
    (100 - base) * min shortfall room ≤ room * reliefShare base shortfall room ∧
      room * reliefShare base shortfall room + 1 ≤ (100 - base) * min shortfall room + room := by
  unfold reliefShare upDiv
  rw [if_neg h.ne']
  generalize (100 - base) * min shortfall room = n
  have hlow := Nat.div_mul_le_self (n + (room - 1)) room
  have hhigh := Nat.lt_div_mul_add (a := n + (room - 1)) h
  rw [mul_comm room]
  omega

/-- The shares of a list of zones cover the zones' part of the shortfall, each to within its weight. -/
theorem reliefShares_cover (zones : List (Nat × Nat)) (shortfall : Nat) {room : Nat} (h : 0 < room) :
    (zones.map fun z => z.1 * (100 - z.2)).sum * min shortfall room ≤
        room * (zones.map fun z => z.1 * reliefShare z.2 shortfall room).sum ∧
      room * (zones.map fun z => z.1 * reliefShare z.2 shortfall room).sum + (zones.map Prod.fst).sum ≤
        (zones.map fun z => z.1 * (100 - z.2)).sum * min shortfall room + room * (zones.map Prod.fst).sum := by
  induction zones with
  | nil => simp
  | cons z zones ih =>
    obtain ⟨hlow, hhigh⟩ := reliefShare_covers z.2 shortfall h
    have hlow := Nat.mul_le_mul_left z.1 hlow
    have hhigh := Nat.mul_le_mul_left z.1 hhigh
    simp only [List.map_cons, List.sum_cons]
    constructor <;> nlinarith [ih.1, ih.2]

/-- Where the tier's headroom is the list's own, the shares make up the shortfall and less than one percent of the
weights more (R81, R82). -/
theorem reliefShares_total {zones : List (Nat × Nat)} (shortfall : Nat) {room : Nat}
    (hw : ∀ z ∈ zones, 1 ≤ z.1) (hroom : room = (zones.map fun z => z.1 * (100 - z.2)).sum) (h : 0 < room) :
    min shortfall room ≤ (zones.map fun z => z.1 * reliefShare z.2 shortfall room).sum ∧
      (zones.map fun z => z.1 * reliefShare z.2 shortfall room).sum <
        min shortfall room + (zones.map Prod.fst).sum := by
  have hpos : 0 < (zones.map Prod.fst).sum := by
    cases zones with
    | nil => simp [hroom] at h
    | cons z zones => exact Nat.add_pos_left (hw z List.mem_cons_self) _
  obtain ⟨hlow, hhigh⟩ := reliefShares_cover zones shortfall h
  rw [← hroom] at hlow hhigh
  refine ⟨Nat.le_of_mul_le_mul_left hlow h, Nat.lt_of_mul_lt_mul_left (a := room) ?_⟩
  rw [Nat.mul_add]
  omega

/-- Settles O42: the relief from the state that the recomputation leaves, and the shares' sum. -/
theorem reliefSharesCoverTheShortfall : Obligations.ReliefSharesCoverTheShortfall := by
  refine ⟨?_, fun zones shortfall room hz hroom h => ?_⟩
  · intro s u f S H1 H2 base hu hbase hf hS hH1 hH2
    have hpub : f = s.share.publishedF := hf
    have hrelief := s.recompute_relief
    rw [← hu, ← hbase, ← hpub, headroom_eq one_ne_zero, headroom_eq two_ne_zero, ← hH1, ← hH2,
      show f - weightedBase u.zoneEntries = S from hS.symm] at hrelief
    refine ⟨fun ht => hrelief.trans (if_pos ht), fun ht hfreeze => ?_, fun ht hfree => ?_⟩
    · rw [if_neg ht, if_pos (s.share.frozen_iff.2 hfreeze)] at hrelief
      exact hrelief
    · have hnot : ¬s.share.frozen = true := fun hfz => by
        obtain ⟨v, hv, hstate⟩ := s.share.frozen_iff.1 hfz
        exact hfree v hv hstate
      rw [if_neg ht, if_neg hnot] at hrelief
      refine ⟨fun h1 => hrelief.trans (if_pos h1), fun h2 => hrelief.trans (if_neg ?_)⟩
      rw [h2]
      decide
  · obtain ⟨hlow, hhigh⟩ := reliefShares_total shortfall (fun z hm => (hz z hm).1) hroom h
    refine ⟨hlow, hhigh, fun z hm => ?_⟩
    have hfit := reliefShare_le z.2 shortfall room
    have hbase := (hz z hm).2
    omega

end Sys2Proof.Machine
end

