-- ==== Sys2Proof/Proofs/EngineStarts.lean ====
section
/-! PROOFS. What an engine between procedures makes of a STOP or a CHANGEOVER: the procedure goes on, step by step, to one
that waits or takes time, and is the running one when the engine rests (R136 to R145). -/

namespace Sys2Proof.Machine

/-! ## An empty pending set displaces nothing (R141, R148) -/

theorem Engine.not_outranked_of_empty {e : Engine} (h : e.requests = .empty) : e.outranked = false := by
  rw [Engine.outranked, h]; rfl

/-- The beginning of a LOCKOUT leaves an empty pending set empty (R137). -/
theorem State.beginLockout_requests {s : State} (h : s.engine.requests = .empty) :
    s.beginLockout.engine.requests = .empty := by
  unfold State.beginLockout
  dsimp only
  split <;> simp [h, Requests.empty]

theorem State.closeRun_requests (c : StopCause) {s : State} (h : s.engine.requests = .empty) :
    (s.closeRun c).engine.requests = .empty := by
  unfold State.closeRun
  split
  · exact h
  · dsimp only
    split
    · exact State.beginLockout_requests h
    · exact h

/-- No action of a step asks for a procedure (R142 to R147). -/
theorem State.act_requests (st : StepId) {s : State} (h : s.engine.requests = .empty) :
    (s.act st).engine.requests = .empty := by
  have hoff : s.runOff.engine.requests = .empty := (congrArg Engine.requests s.runOff_engine).trans h
  have hvalve (v : Valve) : (s.driveValve v).engine.requests = .empty :=
    (congrArg Engine.requests (State.driveValve_engine v s)).trans h
  have hmode : s.driveModeValve.engine.requests = .empty := by
    unfold State.driveModeValve
    split
    · exact hvalve _
    · exact h
  cases st with
  | s2 | x3 => exact hmode
  | d3 | d8 => exact hvalve _
  | t1 | x1 | e1 => exact State.closeRun_requests _ hoff
  | d1 | d6 => exact hoff
  | s1 | s3 | s4 | t2 | t3 | x2 | d2 | d4 | d5 | d7 | d9 | d10 | e2 => exact h

/-- An applied step leaves the running procedure, the step and an empty pending set as they stand (R140). -/
theorem State.applied_procedure (st : StepId) (s : State) :
    (((s.act st).driveOutputs).mark st).engine.running = s.engine.running ∧
      (((s.act st).driveOutputs).mark st).engine.step = s.engine.step ∧
      (s.engine.requests = .empty → (((s.act st).driveOutputs).mark st).engine.requests = .empty) := by
  have hmark (u : State) : (u.mark st).engine.running = u.engine.running ∧
      (u.mark st).engine.step = u.engine.step ∧ (u.mark st).engine.requests = u.engine.requests := by
    unfold State.mark; split <;> exact ⟨rfl, rfl, rfl⟩
  obtain ⟨hr, hs, hq⟩ := hmark (s.act st).driveOutputs
  obtain ⟨_, _, _, _, _, _, he⟩ := State.act_effect st s
  exact ⟨hr.trans (congrArg Engine.running he :), hs.trans (congrArg Engine.step he :),
    fun h => hq.trans (State.act_requests st h)⟩

/-! ## A procedure goes on to the step that waits or takes time (R140, R141) -/

/-- Steps without S3's withdrawal test, each of which leads to another of them or rests with its action applied. -/
def StepsToRest (l : List StepId) : Prop :=
  ∀ st ∈ l, st ≠ .s3 ∧ ((∃ n ∈ l, st.next = some n) ∨ (st ≠ .x2 ∧ ∀ s : State, s.exitHolds st = false))

/-- A STOP takes time at T2 (R143). -/
theorem stepsToRest_stop : StepsToRest [.t1, .t2] := by
  simp [StepsToRest, StepId.next, State.exitHolds]

/-- A CHANGEOVER takes time at the latest at S1 (R142, R145). -/
theorem stepsToRest_changeover : StepsToRest [.x1, .x2, .x3, .s1] := by
  simp [StepsToRest, StepId.next, State.exitHolds]

/-- The engine's next move keeps to the steps `l`. -/
def Todo.StaysIn (l : List StepId) (t : Todo) (e : Engine) : Prop :=
  match t with
  | .take st => st ∈ l
  | .apply => ∃ st ∈ l, e.step = some st
  | .boundary _ => ∃ st, e.step = some st ∧ ∃ n ∈ l, st.next = some n
  | .startNext => False
  | .rest => True

/-- A procedure runs through the steps `l` with nothing pending. -/
structure State.Proceeds (p : Proc) (l : List StepId) (t : Todo) (s : State) : Prop where
  running : s.engine.running = some p
  alone : s.engine.requests = .empty
  stays : t.StaysIn l s.engine

/-- A step taken waits for its answer, for its delay, or is applied: neither S3's test nor a pending request ends the
procedure (R140, R148, R150). -/
theorem State.Proceeds.takeStep {p : Proc} {l : List StepId} {st : StepId} {s : State} (hl : StepsToRest l)
    (h : s.Proceeds p l (.take st)) : (s.takeStep st).2.Proceeds p l (s.takeStep st).1 := by
  obtain ⟨hr, hq, hst⟩ := h
  obtain ⟨hs3, _⟩ := hl st hst
  have hw : ¬(s.current st).withdrawnAtS3 st = true := by simp [State.withdrawnAtS3, hs3]
  unfold State.takeStep
  dsimp only
  rw [if_neg hw]
  split
  next =>
    split
    next ho => exact absurd ho (Bool.eq_false_iff.1 (Engine.not_outranked_of_empty hq))
    next =>
      split
      · exact ⟨hr, hq, st, hst, rfl⟩
      · exact ⟨hr, hq, trivial⟩
  next =>
    split
    · exact ⟨hr, hq, trivial⟩
    · exact ⟨hr, hq, st, hst, rfl⟩

/-- A step applied rests, or reaches the boundary to the next of the steps (R140). -/
theorem State.Proceeds.applyStep {p : Proc} {l : List StepId} {s : State} (hl : StepsToRest l)
    (h : s.Proceeds p l .apply) : s.applyStep.2.Proceeds p l s.applyStep.1 := by
  obtain ⟨hr, hq, st, hst, hstep⟩ := h
  obtain ⟨_, hnext⟩ := hl st hst
  unfold State.applyStep
  rw [hstep]
  dsimp only
  obtain ⟨hrun, hat, hempty⟩ := State.applied_procedure st
    (s.setEngine { s.engine with state := .running, delaying := false, stepTime := 0 })
  generalize (((s.setEngine { s.engine with state := .running, delaying := false, stepTime := 0 }).act
    st).driveOutputs).mark st = u at hrun hat hempty ⊢
  have hu : u.engine.running = some p ∧ u.engine.requests = .empty ∧ u.engine.step = some st :=
    ⟨hrun.trans hr, hempty hq, hat.trans hstep⟩
  obtain ⟨hrun, hempty, hat⟩ := hu
  split
  next hx2 =>
    have hon : ∃ n ∈ l, st.next = some n := hnext.resolve_right fun hno => hno.1 hx2
    unfold State.askSpacing
    split
    · exact ⟨hrun, hempty, st, hat, hon⟩
    · exact ⟨hrun, hempty, trivial⟩
  next =>
    split
    next hx =>
      have hon : ∃ n ∈ l, st.next = some n := hnext.resolve_right fun hno => by simp [hno.2 u] at hx
      exact ⟨hrun, hempty, st, hat, hon⟩
    next => exact ⟨hrun, hempty, trivial⟩

/-- A boundary that nothing pending displaces leads to the next link (R141). -/
theorem State.Proceeds.boundary {p : Proc} {l : List StepId} {b : Bool} {s : State}
    (h : s.Proceeds p l (.boundary b)) : (s.boundary b).2.Proceeds p l (s.boundary b).1 := by
  obtain ⟨hr, hq, st, hstep, n, hn, hnext⟩ := h
  have hw : (s.writeBoundary st b).engine.running = s.engine.running ∧
      (s.writeBoundary st b).engine.requests = s.engine.requests := by
    unfold State.writeBoundary; dsimp only; split <;> exact ⟨rfl, rfl⟩
  obtain ⟨hwr, hwq⟩ := hw
  unfold State.boundary
  rw [hstep]
  dsimp only
  rw [hnext]
  dsimp only
  rw [if_neg (Bool.eq_false_iff.1 (Engine.not_outranked_of_empty (hwq.trans hq)))]
  exact ⟨hwr.trans hr, hwq.trans hq, hn⟩

theorem State.Proceeds.move {p : Proc} {l : List StepId} {t : Todo} {s : State} (hl : StepsToRest l)
    (h : s.Proceeds p l t) : (s.move t).2.Proceeds p l (s.move t).1 := by
  cases t with
  | take st => exact h.takeStep hl
  | apply => exact h.applyStep hl
  | boundary b => exact h.boundary
  | startNext => exact h.stays.elim
  | rest => exact h

/-- The engine rests with the procedure still running. -/
theorem State.Proceeds.drive {p : Proc} {l : List StepId} {t : Todo} {s : State} (hl : StepsToRest l) (n : Nat)
    (h : s.Proceeds p l t) : (s.drive n t).engine.running = some p := by
  obtain ⟨_, hu⟩ := State.drive_keeps (P := fun t u => u.Proceeds p l t) (fun _ _ hu => hu.move hl) n t s h
  exact hu.running

/-! ## Requests that an engine between procedures starts (R136, R138) -/

/-- The engine takes requests, stands between procedures and has nothing pending. -/
structure State.TakesNext (s : State) : Prop where
  listening : s.engine.listening = .expired
  aside : s.aside = false
  state : s.engine.state = .idle
  running : s.engine.running = none
  requests : s.engine.requests = .empty

/-- A STOP or a CHANGEOVER, which make sense in every state, starts from its place in an otherwise empty pending set
(R138). -/
theorem State.run_startNext_running {s : State} {p : Proc} {l : List StepId} (hl : StepsToRest l) (hp : p.first ∈ l)
    (htop : s.engine.requests.top = some p) (hrest : s.engine.requests.without p = .empty)
    (hsense : ∀ u : State, u.sensible p = true) : (s.run .startNext).engine.running = some p := by
  have hstart : s.startNext = (.take p.first, (s.setRequests .empty).startProc p) := by
    unfold State.startNext
    rw [htop]
    dsimp only
    rw [if_pos (hsense _), hrest]
    rfl
  rw [State.run, State.drive_succ, State.move, hstart]
  exact State.Proceeds.drive hl 63 ⟨rfl, rfl, hp⟩

theorem State.TakesNext.request_stop_running {s : State} (h : s.TakesNext) (r : StopReason) :
    (s.request (.stop r)).engine.running = some (.stop r) := by
  obtain ⟨hlisten, haside, hstate, hrunning, hq⟩ := h
  have hrequest : s.request (.stop r) = (s.setRequests { Requests.empty with stop := some r }).run .startNext := by
    simp [State.request, hlisten, haside, State.takeStop, Engine.stopping, hrunning, hq, Requests.empty,
      State.entered, State.setRequests, hstate]
  rw [hrequest]
  exact State.run_startNext_running stepsToRest_stop (by simp [Proc.first]) rfl rfl fun _ => rfl

theorem State.TakesNext.request_changeover_running {s : State} (h : s.TakesNext) :
    (s.request .changeover).engine.running = some .changeover := by
  obtain ⟨hlisten, haside, hstate, hrunning, hq⟩ := h
  have hrequest : s.request .changeover =
      (s.setRequests { Requests.empty with changeover := true }).run .startNext := by
    simp [State.request, hlisten, haside, State.takeChangeover, hrunning, hq, Requests.empty,
      State.entered, State.setRequests, hstate]
  rw [hrequest]
  exact State.run_startNext_running stepsToRest_changeover (by simp [Proc.first]) rfl rfl fun _ => rfl

/-- A STOP that meets another procedure's running step joins the pending set and withdraws a pending START (R136,
R137). -/
theorem State.request_stop_joins {s : State} (hl : s.engine.listening = .expired) (ha : s.aside = false)
    (hs : s.engine.state = .running) (hn : s.engine.stopping = false) (hq : s.engine.requests.stop = none)
    (r : StopReason) :
    s.request (.stop r) = s.setRequests { s.engine.requests with stop := some r, start := false } := by
  simp [State.request, hl, ha, State.takeStop, hn, hq, State.entered, State.setRequests, hs]

end Sys2Proof.Machine
end

