-- ==== Sys2Proof/Proofs/ModeSelector.lean ====
section
/-! PROOFS. The Mode Selector's decision: the group that is wanted, the group that is taken and the shift inside cooling,
with the ages and timers that they move (R100 to R108). -/

namespace Sys2Proof.Machine

/-! ## Groups and their modes (R96, R102, R103) -/

theorem Mode.group_eq_heating {m : Mode} : m.group = .heating ↔ m = .heat := by cases m <;> decide

theorem Group.other_ne_none {g : Group} (h : g ≠ .none) : g.other ≠ .none := by cases g <;> simp_all [Group.other]

theorem Group.other_ne_self {g : Group} (h : g ≠ .none) : g.other ≠ g := by cases g <;> simp_all [Group.other]

/-- Cooling's mode is DRY or COOL (R103). -/
@[simp] theorem ModeSelector.coolingMode_group (m : ModeSelector) : m.coolingMode.group = .cooling := by
  unfold ModeSelector.coolingMode; split <;> rfl

theorem ModeSelector.modeOf_group (m : ModeSelector) {g : Group} (h : g ≠ .none) : (m.modeOf g).group = g := by
  cases g with
  | none => exact absurd rfl h
  | cooling => exact m.coolingMode_group
  | heating => rfl

/-! ## The shift inside the cooling group (R104) -/

theorem ModeSelector.shift_of_not_cooling {m : ModeSelector} (h : m.mode.group ≠ .cooling) : m.shift = m :=
  if_neg fun hc => h hc.1

/-- In the cooling group the mode and the shift age move together, once the shift age is 120 (R104). -/
theorem ModeSelector.shift_of_cooling {m : ModeSelector} (h : m.mode.group = .cooling) :
    m.shift.mode = (if 120 ≤ m.shiftAge then m.coolingMode else m.mode) ∧
      m.shift.shiftAge = if m.coolingMode ≠ m.mode ∧ 120 ≤ m.shiftAge then 0 else m.shiftAge := by
  unfold ModeSelector.shift
  by_cases hm : m.coolingMode = m.mode
  · simp [hm]
  · by_cases ha : 120 ≤ m.shiftAge <;> simp [h, hm, ha]

/-- A shift moves neither the group nor the mode age (R104). -/
theorem ModeSelector.shift_keeps (m : ModeSelector) :
    m.shift.mode.group = m.mode.group ∧ m.shift.modeAge = m.modeAge := by
  unfold ModeSelector.shift
  split
  next h => exact ⟨m.coolingMode_group.trans h.1.symm, rfl⟩
  next => exact ⟨rfl, rfl⟩

/-! ## The group that is wanted (R105 to R108) -/

/-- COOL allows the cooling group alone (R108). -/
theorem ModeSelector.wants_cool (m : ModeSelector) :
    m.wants .cool = if m.mode.group = .cooling then none else some .cooling := by
  unfold ModeSelector.wants; cases m.mode.group <;> rfl

/-- HEAT allows the heating group alone (R108). -/
theorem ModeSelector.wants_heat (m : ModeSelector) :
    m.wants .heat = if m.mode.group = .heating then none else some .heating := by
  unfold ModeSelector.wants; cases m.mode.group <;> rfl

/-- From no group AUTO wants the heavier one, cooling in a tie (R107). -/
theorem ModeSelector.wants_auto_of_none {m : ModeSelector} (h : m.mode.group = .none) :
    m.wants .auto = some (if m.wc + m.wd < m.wh then .heating else .cooling) := by
  unfold ModeSelector.wants; rw [h]; rfl

/-- From a group AUTO wants the other one by its two timers (R106). -/
theorem ModeSelector.wants_auto_of_group {m : ModeSelector} (h : m.mode.group ≠ .none) :
    m.wants .auto =
      if 300 ≤ m.quiet ∨ (600 ≤ m.dominance ∧ 1200 ≤ m.modeAge) then some m.mode.group.other else none := by
  unfold ModeSelector.wants
  cases hg : m.mode.group with
  | none => exact absurd hg h
  | cooling | heating => rfl

/-- A group that is wanted is another one than the mode's (R106, R107, R108). -/
theorem ModeSelector.wants_ne {m : ModeSelector} {sw : SystemSwitch} {g : Group} (h : m.wants sw = some g) :
    g ≠ .none ∧ g ≠ m.mode.group := by
  cases sw with
  | off | fan => cases h
  | cool =>
    rw [m.wants_cool] at h
    split at h <;> cases h
    next hne => exact ⟨by decide, Ne.symm hne⟩
  | heat =>
    rw [m.wants_heat] at h
    split at h <;> cases h
    next hne => exact ⟨by decide, Ne.symm hne⟩
  | auto =>
    by_cases hg : m.mode.group = .none
    · rw [ModeSelector.wants_auto_of_none hg] at h
      rw [hg]
      split at h <;> cases h <;> exact ⟨by decide, by decide⟩
    · rw [ModeSelector.wants_auto_of_group hg] at h
      split at h <;> cases h
      exact ⟨Group.other_ne_none hg, Group.other_ne_self hg⟩

/-- AUTO's two routes out of the mode's group, whose timers an expiry advances first: its calls have been quiet for
300 s, or the other group has outweighed them twice over for 600 s, with a mode age of 1200 s (R105, R106). -/
def ModeSelector.RouteOpen (m : ModeSelector) (current other : Nat) : Prop :=
  0 < other ∧
    ((current = 0 ∧ 300 ≤ min 65535 (m.quiet + 10)) ∨
      (2 * current ≤ other ∧ 600 ≤ min 65535 (m.dominance + 10) ∧ 1200 ≤ min 65535 (m.modeAge + 10)))

/-- After the advance AUTO wants the other group where a route is open, and else none (R105, R106). -/
theorem ModeSelector.advance_wants_auto {m : ModeSelector} (h : m.mode.group ≠ .none) :
    (m.RouteOpen (m.groupWeight m.mode.group) (m.groupWeight m.mode.group.other) →
      (m.advance .auto).wants .auto = some m.mode.group.other) ∧
    (¬m.RouteOpen (m.groupWeight m.mode.group) (m.groupWeight m.mode.group.other) →
      (m.advance .auto).wants .auto = none) := by
  have hroute : m.RouteOpen (m.groupWeight m.mode.group) (m.groupWeight m.mode.group.other) ↔
      300 ≤ (m.advance .auto).quiet ∨ (600 ≤ (m.advance .auto).dominance ∧ 1200 ≤ (m.advance .auto).modeAge) := by
    simp only [ModeSelector.RouteOpen, ModeSelector.advance, ageUp, satAdd]
    by_cases ho : 0 < m.groupWeight m.mode.group.other
    · by_cases hq : m.groupWeight m.mode.group = 0 <;>
        by_cases hd : 2 * m.groupWeight m.mode.group ≤ m.groupWeight m.mode.group.other <;> simp [ho, hq, hd, h]
    · simp [ho]
  have hwants := ModeSelector.wants_auto_of_group (m := m.advance .auto) h
  exact ⟨fun hr => hwants.trans (if_pos (hroute.1 hr)), fun hr => hwants.trans (if_neg fun hw => hr (hroute.2 hw))⟩

/-! ## The decision (R101 to R108) -/

/-- The switch asks for conditioning: neither OFF nor FAN. -/
def SystemSwitch.Conditions (sw : SystemSwitch) : Prop := sw ≠ .off ∧ sw ≠ .fan

theorem SystemSwitch.conditions_cool : SystemSwitch.cool.Conditions := ⟨nofun, nofun⟩

theorem SystemSwitch.conditions_heat : SystemSwitch.heat.Conditions := ⟨nofun, nofun⟩

theorem SystemSwitch.conditions_auto : SystemSwitch.auto.Conditions := ⟨nofun, nofun⟩

/-- Where a conditioning switch wants no group the cooling group may shift (R104). -/
theorem ModeSelector.decide_of_none {m : ModeSelector} {sw : SystemSwitch} (h : sw.Conditions) (hw : m.wants sw = none)
    (idle : Bool) : m.decide sw idle = m.shift := by
  cases sw with
  | off => exact absurd rfl h.1
  | fan => exact absurd rfl h.2
  | cool | heat | auto => simp only [ModeSelector.decide, hw]

/-- A group that is wanted is taken on an IDLE engine and deferred on any other (R102). -/
theorem ModeSelector.decide_of_some {m : ModeSelector} {sw : SystemSwitch} {g : Group} (h : sw.Conditions)
    (hw : m.wants sw = some g) : m.decide sw true = m.takeGroup g ∧ m.decide sw false = m := by
  cases sw with
  | off => exact absurd rfl h.1
  | fan => exact absurd rfl h.2
  | cool | heat | auto =>
    simp only [ModeSelector.decide, hw]
    exact ⟨rfl, rfl⟩

/-- The mode's group after the decision is the one taken, or the one that stood (R102). -/
theorem ModeSelector.decide_group {m : ModeSelector} {sw : SystemSwitch} (h : sw.Conditions) (idle : Bool) :
    (m.decide sw idle).mode.group = (m.taken sw idle).getD m.mode.group := by
  cases hw : m.wants sw with
  | none =>
    rw [m.decide_of_none h hw, ModeSelector.taken, hw, ite_self]
    exact m.shift_keeps.1
  | some g =>
    obtain ⟨htake, hdefer⟩ := m.decide_of_some h hw
    cases idle with
    | true =>
      rw [htake, ModeSelector.taken, if_pos rfl, hw]
      exact m.modeOf_group (m.wants_ne hw).1
    | false => rw [hdefer]; rfl

theorem ModeSelector.taken_of_wants_none {m : ModeSelector} {sw : SystemSwitch} (h : m.wants sw = none) (idle : Bool) :
    m.taken sw idle = none := by rw [ModeSelector.taken, h, ite_self]

/-- Under OFF and FAN the mode has no group, and none is taken (R101). -/
theorem ModeSelector.decide_off_fan {m : ModeSelector} {sw : SystemSwitch} (h : ¬sw.Conditions) (idle : Bool) :
    m.decide sw idle = m.leave (if sw = .off then .off else .fan) ∧ (m.decide sw idle).mode.group = .none ∧
      m.taken sw idle = none := by
  cases sw with
  | off | fan => exact ⟨rfl, rfl, m.taken_of_wants_none rfl idle⟩
  | cool => exact absurd SystemSwitch.conditions_cool h
  | heat => exact absurd SystemSwitch.conditions_heat h
  | auto => exact absurd SystemSwitch.conditions_auto h

/-- The group taken can be read off the decision: it is the mode's new group (R102). -/
theorem ModeSelector.taken_eq (m : ModeSelector) (sw : SystemSwitch) (idle : Bool) :
    m.taken sw idle =
      if (m.decide sw idle).mode.group = .none ∨ (m.decide sw idle).mode.group = m.mode.group then none
      else some (m.decide sw idle).mode.group := by
  by_cases h : sw.Conditions
  · rw [m.decide_group h]
    cases ht : m.taken sw idle with
    | none => simp
    | some g =>
      have hw : m.wants sw = some g := by
        unfold ModeSelector.taken at ht
        split at ht
        · exact ht
        · cases ht
      simp [m.wants_ne hw]
  · obtain ⟨_, hgroup, ht⟩ := m.decide_off_fan h idle
    rw [ht, if_pos (.inl hgroup)]

/-- The mode age of a group that stands goes on, and a group taken starts it and both timers from 0 (R100, R102). -/
theorem ModeSelector.decide_ages {m : ModeSelector} {sw : SystemSwitch} {idle : Bool}
    (h : (m.decide sw idle).mode.group ≠ .none) :
    ((m.decide sw idle).mode.group = m.mode.group → (m.decide sw idle).modeAge = m.modeAge) ∧
      ((m.decide sw idle).mode.group ≠ m.mode.group →
        (m.decide sw idle).modeAge = 0 ∧ (m.decide sw idle).quiet = 0 ∧ (m.decide sw idle).dominance = 0) := by
  have hsw : sw.Conditions := by
    by_contra hno
    exact h (m.decide_off_fan hno idle).2.1
  cases hw : m.wants sw with
  | none =>
    rw [m.decide_of_none hsw hw]
    exact ⟨fun _ => m.shift_keeps.2, fun hne => absurd m.shift_keeps.1 hne⟩
  | some g =>
    obtain ⟨htake, hdefer⟩ := m.decide_of_some hsw hw
    cases idle with
    | true =>
      rw [htake]
      have hg : (m.takeGroup g).mode.group ≠ m.mode.group := by
        rw [show (m.takeGroup g).mode.group = g from m.modeOf_group (m.wants_ne hw).1]
        exact (m.wants_ne hw).2
      exact ⟨fun he => absurd he hg, fun _ => ⟨rfl, rfl, rfl⟩⟩
    | false =>
      rw [hdefer]
      exact ⟨fun _ => rfl, fun hne => absurd rfl hne⟩

/-! ## The decision of an expiry, by the switch (R100 to R108) -/

/-- COOL takes the cooling group on an IDLE engine (R103, R108). -/
theorem ModeSelector.decide_cool {m : ModeSelector} (h : m.mode.group ≠ .cooling) :
    (m.decide .cool true).mode = m.coolingMode := by
  obtain ⟨htake, _⟩ := m.decide_of_some SystemSwitch.conditions_cool (m.wants_cool.trans (if_neg h))
  rw [htake]; rfl

/-- HEAT takes the heating group on an IDLE engine, or has it (R103, R108). -/
theorem ModeSelector.decide_heat (m : ModeSelector) : (m.decide .heat true).mode = .heat := by
  by_cases h : m.mode.group = .heating
  · rw [m.decide_of_none SystemSwitch.conditions_heat (m.wants_heat.trans (if_pos h)),
      ModeSelector.shift_of_not_cooling (by simp [h])]
    exact Mode.group_eq_heating.1 h
  · obtain ⟨htake, _⟩ := m.decide_of_some SystemSwitch.conditions_heat (m.wants_heat.trans (if_neg h))
    rw [htake]; rfl

/-- AUTO takes the heavier group from none on an IDLE engine (R103, R107). -/
theorem ModeSelector.decide_auto_of_none {m : ModeSelector} (h : m.mode.group = .none) :
    (m.decide .auto true).mode = if m.wc + m.wd < m.wh then .heat else m.coolingMode := by
  obtain ⟨htake, _⟩ := m.decide_of_some SystemSwitch.conditions_auto (ModeSelector.wants_auto_of_none h)
  rw [htake]
  show m.modeOf _ = _
  split <;> rfl

/-- AUTO takes the other group on an IDLE engine exactly where a route is open, and keeps the mode's group elsewhere
(R105, R106). -/
theorem ModeSelector.decide_auto_of_group {m : ModeSelector} (h : m.mode.group ≠ .none) :
    (((m.advance .auto).decide .auto true).mode.group = m.mode.group.other ↔
      m.RouteOpen (m.groupWeight m.mode.group) (m.groupWeight m.mode.group.other)) ∧
    (((m.advance .auto).decide .auto true).mode.group = m.mode.group ∨
      ((m.advance .auto).decide .auto true).mode.group = m.mode.group.other) := by
  obtain ⟨hopen, hshut⟩ := ModeSelector.advance_wants_auto h
  have hgroup : ((m.advance .auto).decide .auto true).mode.group =
      ((m.advance .auto).wants .auto).getD m.mode.group := ModeSelector.decide_group SystemSwitch.conditions_auto true
  by_cases hr : m.RouteOpen (m.groupWeight m.mode.group) (m.groupWeight m.mode.group.other)
  · rw [hgroup, hopen hr]
    exact ⟨⟨fun _ => hr, fun _ => rfl⟩, .inr rfl⟩
  · rw [hgroup, hshut hr]
    exact ⟨⟨fun he => absurd he.symm (Group.other_ne_self h), fun ho => absurd ho hr⟩, .inl rfl⟩

/-- The cooling group is to be left: HEAT wants heating, or AUTO has a route open (R105, R106, R108). -/
def ModeSelector.LeavesCooling (m : ModeSelector) (sw : SystemSwitch) : Prop :=
  sw = .heat ∨ (sw = .auto ∧ m.RouteOpen (m.wc + m.wd) m.wh)

/-- In the cooling group an expiry wants heating where the group is to be left, and nothing elsewhere. -/
theorem ModeSelector.wants_of_cooling {m : ModeSelector} {sw : SystemSwitch} (h : m.mode.group = .cooling) :
    (m.LeavesCooling sw → (m.advance sw).wants sw = some .heating) ∧
      (¬m.LeavesCooling sw → (m.advance sw).wants sw = none) := by
  have hadvance (x : SystemSwitch) : (m.advance x).mode.group = .cooling := h
  obtain ⟨hopen, hshut⟩ := ModeSelector.advance_wants_auto (m := m) (by rw [h]; decide)
  rw [h] at hopen hshut
  cases sw with
  | off | fan => exact ⟨fun hl => by simp [ModeSelector.LeavesCooling] at hl, fun _ => rfl⟩
  | cool =>
    exact ⟨fun hl => by simp [ModeSelector.LeavesCooling] at hl,
      fun _ => (ModeSelector.wants_cool _).trans (if_pos (hadvance _))⟩
  | heat =>
    exact ⟨fun _ => (ModeSelector.wants_heat _).trans (if_neg (by rw [hadvance]; decide)),
      fun hl => absurd (.inl rfl) hl⟩
  | auto =>
    refine ⟨fun hl => hopen ?_, fun hl => hshut fun hr => hl (.inr ⟨rfl, hr⟩)⟩
    obtain hl | ⟨_, hr⟩ := hl
    · cases hl
    · exact hr

/-- What an expiry makes of the cooling group under a conditioning switch: heating, a deferral that makes no shift
(notes/assumptions/15.md), or the shift (R102, R104). -/
theorem ModeSelector.decide_of_cooling {m : ModeSelector} {sw : SystemSwitch} (hsw : sw.Conditions)
    (h : m.mode.group = .cooling) (idle : Bool) :
    (m.LeavesCooling sw →
      ((m.advance sw).decide sw idle).shiftAge = ageUp m.shiftAge 10 ∧
        ((m.advance sw).decide sw idle).mode = if idle = true then .heat else m.mode) ∧
    (¬m.LeavesCooling sw →
      ((m.advance sw).decide sw idle).mode = (if 120 ≤ ageUp m.shiftAge 10 then m.coolingMode else m.mode) ∧
        ((m.advance sw).decide sw idle).shiftAge =
          if m.coolingMode ≠ m.mode ∧ 120 ≤ ageUp m.shiftAge 10 then 0 else ageUp m.shiftAge 10) := by
  obtain ⟨hleave, hstay⟩ := ModeSelector.wants_of_cooling (sw := sw) h
  refine ⟨fun hl => ?_, fun hl => ?_⟩
  · obtain ⟨htake, hdefer⟩ := ModeSelector.decide_of_some hsw (hleave hl)
    cases idle with
    | true => rw [htake]; exact ⟨rfl, rfl⟩
    | false => rw [hdefer]; exact ⟨rfl, rfl⟩
  · rw [ModeSelector.decide_of_none hsw (hstay hl)]
    exact ModeSelector.shift_of_cooling (m := m.advance sw) h

/-- Outside the cooling group no decision moves the shift age (R104). -/
theorem ModeSelector.decide_shiftAge {m : ModeSelector} (h : m.mode.group ≠ .cooling) (sw : SystemSwitch)
    (idle : Bool) : (m.decide sw idle).shiftAge = m.shiftAge := by
  obtain e | e | ⟨_, e⟩ | ⟨_, e⟩ := m.decide_cases sw idle <;> rw [e]
  · rw [ModeSelector.shift_of_not_cooling h]
  · rfl
  · rfl

end Sys2Proof.Machine
end

