-- ==== Sys2Proof/Proofs/ModeExpiry.lean ====
section
/-! PROOFS. The Mode Selector's part of a plant control timer expiry: the mode that the switch, the engine's state and the
admitted weights give, and the request that it raises (R97 to R109). -/

namespace Sys2Proof.Machine

/-! ## What the stages before the decision leave (R98 to R100) -/

/-- Under COOL and AUTO the cooling group's calls are admitted (R98, R99). -/
theorem State.weigh_cooling {s : State} (h : s.sensors.systemSwitch = .cool ∨ s.sensors.systemSwitch = .auto) :
    s.weigh.modeSel.wc = callWeight .cool ZoneRecord.ds s.zoneEntries ∧
      s.weigh.modeSel.wd = callWeight .dry ZoneRecord.dl s.zoneEntries := by
  have ha := s.sensors.systemSwitch.admitsCooling_iff.2 h
  exact ⟨if_pos ha, if_pos ha⟩

/-- Under HEAT and AUTO the heating calls are admitted (R98, R99). -/
theorem State.weigh_heating {s : State} (h : s.sensors.systemSwitch = .heat ∨ s.sensors.systemSwitch = .auto) :
    s.weigh.modeSel.wh = callWeight .heat ZoneRecord.ds s.zoneEntries :=
  if_pos (s.sensors.systemSwitch.admitsHeating_iff.2 h)

/-- With no group admitted every weight is 0 (R99). -/
theorem State.weigh_none {s : State} (h : ¬s.sensors.systemSwitch.Conditions) :
    s.weigh.modeSel.wc = 0 ∧ s.weigh.modeSel.wh = 0 ∧ s.weigh.modeSel.wd = 0 := by
  unfold State.weigh
  cases hsw : s.sensors.systemSwitch with
  | off | fan => exact ⟨rfl, rfl, rfl⟩
  | cool | heat | auto => exact absurd ⟨by simp [hsw], by simp [hsw]⟩ h

/-- The selector of an expiry before its decision: weighed, with its ages and timers advanced (R97). -/
def State.advanced (s : State) : ModeSelector := s.weigh.modeSel.advance s.sensors.systemSwitch

/-- The decision of an expiry, and the group that it takes (R97, R102). -/
theorem State.selectMode_eq (s : State) :
    s.selectMode.modeSel = s.advanced.decide s.sensors.systemSwitch (decide (s.engine.state = .idle)) ∧
      s.groupTaken = s.advanced.taken s.sensors.systemSwitch (decide (s.engine.state = .idle)) := ⟨rfl, rfl⟩

/-- The plant's operations leave the Mode Selector as it is but for the off-hold timer. -/
theorem PlantFrame.modeSel_eq {s t : State} (f : PlantFrame s t) :
    t.modeSel = { s.modeSel with offHold := t.modeSel.offHold } := by rw [← f.modeSel]

/-! ## The requests of the mode (R101, R102) -/

/-- The requests are raised in the state that the decision and its prompt leave, whose engine has not moved (R109). -/
theorem State.modeExpiry_eq (s : State) : ∃ u : State, s.modeExpiry = u.requestForMode s.groupTaken ∧
    u.engine = s.engine ∧ u.aside = s.aside ∧ u.modeSel = s.selectMode.modeSel := by
  unfold State.modeExpiry
  dsimp only
  split <;> exact ⟨_, rfl, rfl, rfl, rfl⟩

/-- A group taken with the compressor on asks for CHANGEOVER where its weight is above 0, and for an ordinary STOP where
it is 0 (R102). -/
theorem State.requestForMode_taken {s : State} {g : Group} (hrun : s.engine.run = true) :
    s.requestForMode (some g) =
      s.request (if 0 < s.modeSel.groupWeight g then .changeover else .stop .demand) := by
  simp only [State.requestForMode, if_pos hrun]
  split <;> rfl

/-- With the compressor off and no procedure running nothing is asked (R101, R102). -/
theorem State.requestForMode_off {s : State} (taken : Option Group) (hrun : s.engine.run = false)
    (hn : s.engine.startsOrDefrosts = false) : s.requestForMode taken = s := by
  cases taken <;> simp [State.requestForMode, hrun, hn]

theorem State.requestForMode_group {s : State} (hg : s.modeSel.mode.group ≠ .none) : s.requestForMode none = s := by
  simp [State.requestForMode, hg]

/-- A mode OFF or FAN asks for an ordinary STOP of a compressor that is on and of what could bring it on (R101). -/
theorem State.requestForMode_none {s : State} (hg : s.modeSel.mode.group = .none)
    (hon : s.engine.run = true ∨ s.engine.startsOrDefrosts = true) :
    s.requestForMode none = s.request (.stop .demand) := by
  obtain hon | hon := hon <;> simp [State.requestForMode, hg, hon]

/-- The decision's group and weights stand through the requests. -/
theorem State.modeExpiry_modeSel (s : State) :
    s.modeExpiry.modeSel = { s.selectMode.modeSel with offHold := s.modeExpiry.modeSel.offHold } :=
  s.modeExpiry_frames.1.modeSel_eq

/-- What an IDLE engine with nothing pending makes of a new mode (R101, R102). -/
theorem State.modeExpiry_idle {s t : State} (h : s.TakesNext) (ht : t = s.modeExpiry) :
    (s.engine.run = false → t.engine = s.engine) ∧
      (s.engine.run = true →
        (t.modeSel.mode.group ≠ .none → t.modeSel.mode.group ≠ s.modeSel.mode.group →
          t.engine.running =
            some (if 0 < t.modeSel.groupWeight t.modeSel.mode.group then .changeover else .stop .demand)) ∧
        (t.modeSel.mode.group ≠ .none → t.modeSel.mode.group = s.modeSel.mode.group → t.engine = s.engine) ∧
        (t.modeSel.mode.group = .none → t.engine.running = some (.stop .demand))) := by
  obtain ⟨u, hu, he, ha, hm⟩ := s.modeExpiry_eq
  have hnext : u.TakesNext := by
    obtain ⟨h1, h2, h3, h4, h5⟩ := h
    exact ⟨by rw [he, h1], ha.trans h2, by rw [he, h3], by rw [he, h4], by rw [he, h5]⟩
  have htaken : s.groupTaken =
      if u.modeSel.mode.group = .none ∨ u.modeSel.mode.group = s.modeSel.mode.group then none
      else some u.modeSel.mode.group := by
    rw [hm]
    exact s.advanced.taken_eq _ _
  have hsel : t.modeSel = { u.modeSel with offHold := t.modeSel.offHold } := by rw [ht, hm]; exact s.modeExpiry_modeSel
  have hgroup : t.modeSel.mode.group = u.modeSel.mode.group := by rw [hsel]
  have hweight (g : Group) : t.modeSel.groupWeight g = u.modeSel.groupWeight g := by rw [hsel]; cases g <;> rfl
  rw [hgroup, hweight, ht, hu, ← he]
  refine ⟨fun hrun => ?_, fun hrun => ⟨fun hg hne => ?_, fun hg heq => ?_, fun hg => ?_⟩⟩
  · rw [State.requestForMode_off _ hrun (by simp [Engine.startsOrDefrosts, hnext.running])]
  · rw [htaken, if_neg (by simp [hg, hne]), State.requestForMode_taken hrun]
    split
    · exact hnext.request_changeover_running
    · exact hnext.request_stop_running _
  · rw [htaken, if_pos (.inr heq), State.requestForMode_group hg]
  · rw [htaken, if_pos (.inl hg), State.requestForMode_none hg (.inl hrun)]
    exact hnext.request_stop_running _

/-- A mode OFF or FAN asks a running START, CHANGEOVER or DEFROST for an ordinary STOP, which joins the pending set
(R101, R136). -/
theorem State.modeExpiry_running {s t : State} (hl : s.engine.listening = .expired) (ha : s.aside = false)
    (ht : t = s.modeExpiry) (hs : s.engine.state = .running)
    (hp : s.engine.running = some .start ∨ s.engine.running = some .changeover ∨ s.engine.running = some .defrost)
    (hg : t.modeSel.mode.group = .none) (hq : s.engine.requests.stop = none) :
    t.engine.requests.stop = some .demand ∧ t.engine.requests.start = false := by
  obtain ⟨u, hu, he, hau, hm⟩ := s.modeExpiry_eq
  have hgroup : u.modeSel.mode.group = .none := by
    rw [hm, ← hg, ht, s.modeExpiry_modeSel]
  have htaken : s.groupTaken = none := by
    rw [s.selectMode_eq.2, decide_eq_false (by rw [hs]; decide)]
    rfl
  have hstarts : u.engine.startsOrDefrosts = true ∧ u.engine.stopping = false := by
    rw [he]
    obtain hp | hp | hp := hp <;> simp [Engine.startsOrDefrosts, Engine.stopping, hp]
  obtain ⟨hon, hno⟩ := hstarts
  rw [ht, hu, htaken, State.requestForMode_none hgroup (.inr hon),
    State.request_stop_joins (by rw [he, hl]) (hau.trans ha) (by rw [he, hs]) hno (by rw [he, hq])]
  exact ⟨rfl, rfl⟩

/-! ## The mode after an expiry (R98 to R108) -/

theorem SystemSwitch.not_conditions_iff {sw : SystemSwitch} : ¬sw.Conditions ↔ sw = .off ∨ sw = .fan := by
  unfold SystemSwitch.Conditions; tauto

/-- OFF and FAN set their mode, with no age, no timer and no weight (R99, R101). -/
theorem State.selectMode_off_fan {s : State} (h : s.sensors.systemSwitch = .off ∨ s.sensors.systemSwitch = .fan) :
    s.selectMode.modeSel.mode = (if s.sensors.systemSwitch = .off then .off else .fan) ∧
      s.selectMode.modeSel.modeAge = 0 ∧ s.selectMode.modeSel.quiet = 0 ∧ s.selectMode.modeSel.dominance = 0 ∧
      s.selectMode.modeSel.wc = 0 ∧ s.selectMode.modeSel.wh = 0 ∧ s.selectMode.modeSel.wd = 0 := by
  have hsw := SystemSwitch.not_conditions_iff.2 h
  rw [s.selectMode_eq.1, (s.advanced.decide_off_fan hsw _).1]
  exact ⟨rfl, rfl, rfl, rfl, State.weigh_none hsw⟩

/-- An engine that is not IDLE keeps the group (R102). -/
theorem State.selectMode_busy {s : State} (hsw : s.sensors.systemSwitch.Conditions) (hi : s.engine.state ≠ .idle) :
    s.selectMode.modeSel.mode.group = s.modeSel.mode.group := by
  rw [s.selectMode_eq.1, s.advanced.decide_group hsw, decide_eq_false hi]
  rfl

/-- The mode of the cooling group by the calls, under a switch that admits them (R99, R103). -/
theorem State.weigh_coolingMode {s : State} (h : s.sensors.systemSwitch = .cool ∨ s.sensors.systemSwitch = .auto) :
    s.weigh.modeSel.coolingMode =
      if 0 < callWeight .dry ZoneRecord.dl s.zoneEntries ∧
          callWeight .cool ZoneRecord.ds s.zoneEntries ≤ callWeight .dry ZoneRecord.dl s.zoneEntries then .dry
      else .cool := by
  obtain ⟨hc, hd⟩ := State.weigh_cooling h
  rw [ModeSelector.coolingMode, hc, hd]

theorem State.selectMode_cool {s : State} (hi : s.engine.state = .idle) (h : s.sensors.systemSwitch = .cool)
    (hg : s.modeSel.mode.group ≠ .cooling) : s.selectMode.modeSel.mode = s.weigh.modeSel.coolingMode := by
  rw [s.selectMode_eq.1, decide_eq_true hi, h]
  exact s.advanced.decide_cool hg

theorem State.selectMode_heat {s : State} (hi : s.engine.state = .idle) (h : s.sensors.systemSwitch = .heat) :
    s.selectMode.modeSel.mode = .heat := by
  rw [s.selectMode_eq.1, decide_eq_true hi, h]
  exact s.advanced.decide_heat

theorem State.selectMode_auto_of_none {s : State} (hi : s.engine.state = .idle) (h : s.sensors.systemSwitch = .auto)
    (hg : s.modeSel.mode.group = .none) :
    s.selectMode.modeSel.mode =
      if s.weigh.modeSel.wc + s.weigh.modeSel.wd < s.weigh.modeSel.wh then .heat
      else s.weigh.modeSel.coolingMode := by
  rw [s.selectMode_eq.1, decide_eq_true hi, h]
  exact ModeSelector.decide_auto_of_none (m := s.advanced) hg

/-- AUTO weighs the mode's group against the other one (R105). -/
theorem ModeSelector.groupWeights {m : ModeSelector} (h : m.mode.group ≠ .none) :
    m.groupWeight m.mode.group = (if m.mode = .heat then m.wh else m.wc + m.wd) ∧
      m.groupWeight m.mode.group.other = (if m.mode = .heat then m.wc + m.wd else m.wh) := by
  cases hm : m.mode with
  | off | fan => exact absurd (by rw [hm]; rfl) h
  | cool | dry | heat => exact ⟨rfl, rfl⟩

theorem State.selectMode_auto_of_group {s : State} {current other : Nat} (hi : s.engine.state = .idle)
    (h : s.sensors.systemSwitch = .auto) (hg : s.modeSel.mode.group ≠ .none)
    (hc : current = if s.modeSel.mode = .heat then s.weigh.modeSel.wh else s.weigh.modeSel.wc + s.weigh.modeSel.wd)
    (ho : other = if s.modeSel.mode = .heat then s.weigh.modeSel.wc + s.weigh.modeSel.wd else s.weigh.modeSel.wh) :
    (s.selectMode.modeSel.mode.group = s.modeSel.mode.group.other ↔ s.modeSel.RouteOpen current other) ∧
      (s.selectMode.modeSel.mode.group = s.modeSel.mode.group ∨
        s.selectMode.modeSel.mode.group = s.modeSel.mode.group.other) := by
  obtain ⟨hcurrent, hother⟩ := ModeSelector.groupWeights (m := s.weigh.modeSel) hg
  have hauto := ModeSelector.decide_auto_of_group (m := s.weigh.modeSel) hg
  rw [hcurrent, hother] at hauto
  rw [s.selectMode_eq.1, State.advanced, decide_eq_true hi, h, hc, ho]
  exact hauto

/-- The mode age goes on with the group, and a group taken starts it and both timers from 0 (R100, R102). -/
theorem State.selectMode_ages {s : State} (hg : s.selectMode.modeSel.mode.group ≠ .none) :
    (s.selectMode.modeSel.mode.group = s.modeSel.mode.group →
      s.selectMode.modeSel.modeAge = min 65535 (s.modeSel.modeAge + 10)) ∧
    (s.selectMode.modeSel.mode.group ≠ s.modeSel.mode.group →
      s.selectMode.modeSel.modeAge = 0 ∧ s.selectMode.modeSel.quiet = 0 ∧ s.selectMode.modeSel.dominance = 0) := by
  obtain ⟨hkept, htaken⟩ := ModeSelector.decide_ages (m := s.advanced) hg
  refine ⟨fun he => (hkept he).trans ?_, htaken⟩
  have hs : s.weigh.modeSel.mode.group ≠ .none := by
    show s.modeSel.mode.group ≠ .none
    rw [← he]
    exact hg
  simp only [State.advanced, ModeSelector.advance, if_neg hs]
  rfl

theorem State.selectMode_shiftAge {s : State} (hg : s.modeSel.mode.group ≠ .cooling) :
    s.selectMode.modeSel.shiftAge = min 65535 (s.modeSel.shiftAge + 10) :=
  ModeSelector.decide_shiftAge (m := s.advanced) hg _ _

/-- OFF and FAN make no shift (R101). -/
theorem State.selectMode_shiftAge_off_fan {s : State}
    (h : s.sensors.systemSwitch = .off ∨ s.sensors.systemSwitch = .fan) :
    s.selectMode.modeSel.shiftAge = min 65535 (s.modeSel.shiftAge + 10) := by
  rw [s.selectMode_eq.1, (s.advanced.decide_off_fan (SystemSwitch.not_conditions_iff.2 h) _).1]
  rfl

/-- Whether the cooling group is to be left, by the calls themselves: AUTO admits them all (R99, R105). -/
theorem State.weigh_leavesCooling (s : State) :
    s.weigh.modeSel.LeavesCooling s.sensors.systemSwitch ↔
      s.sensors.systemSwitch = .heat ∨ (s.sensors.systemSwitch = .auto ∧
        s.modeSel.RouteOpen
          (callWeight .cool ZoneRecord.ds s.zoneEntries + callWeight .dry ZoneRecord.dl s.zoneEntries)
          (callWeight .heat ZoneRecord.ds s.zoneEntries)) := by
  unfold ModeSelector.LeavesCooling
  refine or_congr_right (and_congr_right fun h => ?_)
  obtain ⟨hc, hd⟩ := State.weigh_cooling (.inr h)
  rw [hc, hd, State.weigh_heating (.inr h)]
  rfl

/-- The cooling group that is not being left is under COOL or AUTO, where its calls are admitted (R99). -/
theorem State.admits_of_not_leaves {s : State} (hsw : s.sensors.systemSwitch.Conditions)
    (h : ¬s.weigh.modeSel.LeavesCooling s.sensors.systemSwitch) :
    s.sensors.systemSwitch = .cool ∨ s.sensors.systemSwitch = .auto := by
  cases hs : s.sensors.systemSwitch with
  | off => exact absurd hs hsw.1
  | fan => exact absurd hs hsw.2
  | cool => exact .inl rfl
  | heat => exact absurd (.inl hs) h
  | auto => exact .inr rfl

/-- Under COOL, HEAT and AUTO the cooling group is left, or the shift applies to it (R102, R104). -/
theorem State.selectMode_cooling {s : State} (hsw : s.sensors.systemSwitch.Conditions)
    (hg : s.modeSel.mode.group = .cooling) :
    (s.weigh.modeSel.LeavesCooling s.sensors.systemSwitch →
      s.selectMode.modeSel.shiftAge = min 65535 (s.modeSel.shiftAge + 10) ∧
        s.selectMode.modeSel.mode = if s.engine.state = .idle then .heat else s.modeSel.mode) ∧
    (¬s.weigh.modeSel.LeavesCooling s.sensors.systemSwitch →
      s.selectMode.modeSel.mode =
          (if 120 ≤ min 65535 (s.modeSel.shiftAge + 10) then s.weigh.modeSel.coolingMode else s.modeSel.mode) ∧
        s.selectMode.modeSel.shiftAge =
          if s.weigh.modeSel.coolingMode ≠ s.modeSel.mode ∧ 120 ≤ min 65535 (s.modeSel.shiftAge + 10) then 0
          else min 65535 (s.modeSel.shiftAge + 10)) := by
  obtain ⟨hleave, hstay⟩ :=
    ModeSelector.decide_of_cooling (m := s.weigh.modeSel) hsw hg (decide (s.engine.state = .idle))
  simp only [decide_eq_true_eq] at hleave
  exact ⟨hleave, hstay⟩

/-- Settles O46: the expiry's selector is that of its decision, whose clauses are the rules of the switch; the engine's
part follows the group that the decision shows as taken. -/
theorem modeFollowsSwitchAndWeights : Obligations.ModeFollowsSwitchAndWeights := by
  refine ⟨?_, fun s t hl ha ht =>
    ⟨fun hs hr hq => State.modeExpiry_idle ⟨hl, ha, hs, hr, hq⟩ ht,
      fun hs hp hg hq => State.modeExpiry_running hl ha ht hs hp hg hq⟩⟩
  rintro s wc wh wd hr ha rfl rfl rfl
  obtain ⟨t, hexec, _, hframe⟩ := exec_plantControlTimer hr ha
  refine ⟨t, hexec, ?_⟩
  rw [hframe.modeSel_eq]
  refine ⟨State.selectMode_off_fan, fun ho hf hi => State.selectMode_busy ⟨ho, hf⟩ hi, fun hi => ⟨fun h hg => ?_,
    State.selectMode_heat hi, fun h => ⟨fun hg => ?_, fun current other hg hc ho => ?_⟩⟩, State.selectMode_ages,
    State.selectMode_shiftAge, fun age asked leaves hg hage hasked hleaves => ⟨fun h => ?_, fun ho hf => ?_⟩⟩
  · exact (State.selectMode_cool hi h hg).trans (State.weigh_coolingMode (.inl h))
  · obtain ⟨hc, hd⟩ := State.weigh_cooling (.inr h)
    have hmode := State.selectMode_auto_of_none hi h hg
    rw [State.weigh_coolingMode (.inr h), hc, hd, State.weigh_heating (.inr h)] at hmode
    exact hmode
  · obtain ⟨hcool, hdry⟩ := State.weigh_cooling (.inr h)
    have hheat := State.weigh_heating (.inr h)
    rw [← hcool, ← hdry, ← hheat] at hc ho
    exact State.selectMode_auto_of_group hi h hg hc ho
  · exact (State.selectMode_shiftAge_off_fan h).trans hage.symm
  · obtain ⟨hleave, hstay⟩ := State.selectMode_cooling ⟨ho, hf⟩ hg
    have hl : s.weigh.modeSel.LeavesCooling s.sensors.systemSwitch ↔ leaves := s.weigh_leavesCooling.trans hleaves.symm
    rw [← hage] at hleave hstay
    refine ⟨fun h => hleave (hl.2 h), fun h => ?_⟩
    have hno := fun hx => h (hl.1 hx)
    rw [State.weigh_coolingMode (State.admits_of_not_leaves ⟨ho, hf⟩ hno), ← hasked] at hstay
    exact hstay hno

end Sys2Proof.Machine
end

