-- ==== Sys2Proof/Proofs/PlantOneShots.lean ====
section
/-! PROOFS. The plant's two timers that run out once: the off-hold timer, which ends a LOCKOUT, and the listening timer,
before whose expiry no request is taken (R111, R134, R165). -/

namespace Sys2Proof.Machine

/-! ## The off-hold timer (R111, R165) -/

/-- The timer stops and LOCKOUT ends, before any report of it (R111). -/
def State.endOffHold (s : State) : State :=
  (s.setModeSel { s.modeSel with offHold := false }).setProtection { s.protection with lockout := none }

theorem exec_offHoldTimer {s : State} (hr : s.plantReady = true) (ha : s.aside = false)
    (ho : s.modeSel.offHold = true) :
    exec .offHoldTimer s = .next (s.endOffHold.noteLockoutEnd s.protection.lockout).settlePlant :=
  if_pos (by simp [hr, ha, ho])

/-- The end of a LOCKOUT moves the line alone (R165). -/
theorem State.noteLockoutEnd_eq (before : Option Nat) (s : State) :
    ∃ l, s.noteLockoutEnd before = s.setLine l := by
  obtain ⟨_, _, _, h⟩ | h := State.noteLockoutEnd_cases before s
  · exact ⟨_, h⟩
  · exact ⟨s.line, h⟩

/-- A LOCKOUT that ends in a READY plant raises the report (R165). -/
theorem State.noteLockoutEnd_pending {before : Option Nat} {s : State} (hr : s.plantReady = true)
    (hb : before.isSome = true) (hl : s.protection.lockout = none) :
    (s.noteLockoutEnd before).line.main.pending = true := by
  rw [State.noteLockoutEnd, if_pos (by simp [hr, hb, hl])]
  rfl

/-- Only a LOCKOUT shows as one (R152). -/
theorem State.plantState_ne_lockout {s : State} (h : s.protection.lockout = none) : s.plantState ≠ .lockout := by
  intro hs
  simp only [State.plantState, plantStateOf, h, Option.isSome_none, Bool.false_eq_true, if_false] at hs
  (repeat' split at hs) <;> cases hs

/-- Settles O49: the expiry ends LOCKOUT and the timer, and its end shows the plant state that follows; a request before
the listening timer's expiry reaches nothing. -/
theorem plantOneShotTimersExpire : Obligations.PlantOneShotTimersExpire := by
  refine ⟨fun s hr ha ho _ => ?_, fun s hr hl => ?_, fun s p hl => State.request_deaf hl p⟩
  · obtain ⟨l, hu⟩ := State.noteLockoutEnd_eq s.protection.lockout s.endOffHold
    have hpending := State.noteLockoutEnd_pending (before := s.protection.lockout) (s := s.endOffHold) hr
    refine ⟨_, exec_offHoldTimer hr ha ho, ?_⟩
    rw [hu] at hpending ⊢
    have hshown := (s.endOffHold.setLine l).settlePlant_shownSound
    have hengine := (s.endOffHold.setLine l).settlePlant_engine
    obtain ⟨hload, hpeers, hsensors, hdemand, hshare, hdamper, hmode, hcapacity, hprotection, hfrost, hqueue⟩ :=
      (s.endOffHold.setLine l).settlePlant_blocks
    rw [hshown ((State.plantReady_of_loader hload).trans hr)] at hengine
    exact ⟨hmode, hprotection, hengine, State.plantState_ne_lockout (by rw [hprotection]; rfl),
      fun h => State.settlePlant_pending (hpending h rfl), hload, hpeers, hsensors, hcapacity, hfrost, hdemand,
      hshare, hdamper, hqueue⟩
  · exact if_pos (by simp [hr, hl])

end Sys2Proof.Machine
end

