-- ==== Sys2Proof/Proofs/PlantOutputs.lean ====
section
/-! PROOFS. The compressor, speed, blower and valve outputs over every command: what leaves them alone, what moves them
in a plant that attends, and what the line, the resets and the load make of them (R35, R118, R123, R153, R187). -/

namespace Sys2Proof.Machine

/-! ## The invariant -/

/-- The outputs are sound; and they are safe where no plant is attended, if they were so to begin with, which is
`given`. -/
structure State.OutputsKept (given : Prop) (s : State) : Prop where
  sound : s.PlantSound
  safe : given → s.EquipmentSafe

/-- Of a READY plant that does not stand aside no safe outputs are asked. -/
theorem State.OutputsKept.attending {given : Prop} {s : State} (h : s.PlantSound) (hr : s.plantReady = true)
    (ha : s.aside = false) : s.OutputsKept given :=
  ⟨h, fun _ hc => by simp [hr, ha] at hc⟩

/-- An engine that is not between procedures belongs to a station that attends its plant (R35, R153). -/
theorem State.PlantSound.attends_of_state {s : State} (h : s.PlantSound) (hs : s.engine.state ≠ .idle) :
    s.aside = false := by
  by_contra ha
  exact hs (h.idle (h.aside (by simpa using ha)).2).state

theorem State.PlantSound.step_of_aside {s : State} (h : s.PlantSound) (ha : s.aside = true) :
    s.engine.step = none :=
  (h.idle (h.aside ha).2).step

/-! ## What leaves the outputs alone -/

/-- The loader, the controller and YIELDED stand, and of the engine the listening timer and the shown plant state alone
may move. -/
structure OutputsStill (s t : State) : Prop where
  loader : t.loader = s.loader
  yielded : t.line.yielded = s.line.yielded
  capacity : t.capacity = s.capacity
  engine : t.engine = { s.engine with listening := t.engine.listening, shown := t.engine.shown }

theorem OutputsStill.refl (s : State) : OutputsStill s s := ⟨rfl, rfl, rfl, rfl⟩

theorem OutputsStill.trans {s t u : State} (h : OutputsStill s t) (k : OutputsStill t u) : OutputsStill s u :=
  ⟨k.loader.trans h.loader, k.yielded.trans h.yielded, k.capacity.trans h.capacity, by rw [k.engine, h.engine]⟩

theorem OutputsStill.after {s t u : State} (k : OutputsStill t u) (h : OutputsStill s t) : OutputsStill s u := h.trans k

theorem OutputsStill.ofCalm {s t : State} (f : CalmFrame s t) (hc : t.capacity = s.capacity) : OutputsStill s t :=
  ⟨f.loader, f.line.yielded, hc, by rw [f.engine]⟩

theorem OutputsStill.ofLine {s : State} {l : LineState} (hy : l.yielded = s.line.yielded) :
    OutputsStill s (s.setLine l) := ⟨rfl, hy, rfl, rfl⟩

theorem OutputsStill.aside {s t : State} (f : OutputsStill s t) : t.aside = s.aside := by
  rw [State.aside_eq, State.aside_eq, f.engine, f.yielded]

theorem OutputsStill.plantReady {s t : State} (f : OutputsStill s t) : t.plantReady = s.plantReady :=
  State.plantReady_of_loader f.loader

theorem OutputsStill.sound {s t : State} (f : OutputsStill s t) (h : s.PlantSound) : t.PlantSound := by
  have he := f.engine
  refine h.of f.loader f.capacity f.aside ?_ ?_ ?_ ?_ ?_ ?_ <;> rw [he]

theorem OutputsStill.safe {s t : State} (f : OutputsStill s t) (h : s.EquipmentSafe) : t.EquipmentSafe := by
  unfold State.EquipmentSafe State.valveEnergised at *
  rw [f.aside, f.plantReady, f.capacity, f.loader, f.engine]
  exact h

theorem OutputsStill.kept {given : Prop} {s t : State} (f : OutputsStill s t) (h : s.OutputsKept given) :
    t.OutputsKept given :=
  ⟨f.sound h.sound, fun hg => f.safe (h.safe hg)⟩

theorem State.settle_outputsStill (s : State) : OutputsStill s s.settle :=
  ⟨rfl, LineState.settle_yielded _ _, rfl, rfl⟩

theorem State.settlePlant_outputsStill (s : State) : OutputsStill s s.settlePlant := by
  obtain ⟨hl, _, _, _, _, _, _, hc, _⟩ := s.settlePlant_blocks
  exact ⟨hl, s.settlePlant_plant.yielded, hc, by rw [s.settlePlant_engine]⟩

theorem State.OutputsKept.settlePlant {given : Prop} {s : State} (h : s.OutputsKept given) :
    s.settlePlant.OutputsKept given := s.settlePlant_outputsStill.kept h

/-- A zone's recomputation leaves the outputs alone (R76). -/
theorem State.recompute_outputsStill (s : State) : OutputsStill s s.recompute.settle :=
  (OutputsStill.ofCalm s.recompute_calmFrame s.recompute_zone.capacity).trans (State.settle_outputsStill _)

/-- The thresholds of the table's entries leave the controller alone (R26 to R28). -/
theorem State.ageEntry_capacity (a : Nat) (s : State) : (s.ageEntry a).capacity = s.capacity := by
  unfold State.ageEntry State.ageOut
  split
  · rfl
  · split
    · split
      · split <;> rfl
      · split
        · dsimp only
          split
          · exact (State.evaluatePlant_zone _ _).capacity
          · rfl
          · rfl
        · rfl
    · rfl

theorem State.ageEntries_capacity (l : List Nat) : ∀ s : State, (l.foldl State.ageEntry s).capacity = s.capacity := by
  induction l with
  | nil => exact fun _ => rfl
  | cons a l ih => exact fun s => (ih _).trans (s.ageEntry_capacity a)

/-- The head link moves no output (R37 to R40). -/
theorem State.headOctets_outputsStill (octets : List Byte) (s : State) :
    OutputsStill s (octets.foldl State.headOctet s) := by
  have hf := s.headOctets_headFrame octets
  unfold State.HeadFrame at hf
  rw [hf]
  exact ⟨rfl, rfl, rfl, rfl⟩

/-- The timers of the table and of the zone, and the head link, leave the outputs alone. -/
theorem exec_zone_outputsStill {c : Instr} {s t : State}
    (hc : c = .ageTimer ∨ c = .graceTimer ∨ (∃ l, c = .headFrameArrival l) ∨ (∃ l, c = .headFrameAbandoned l) ∨
      c = .lossTimer ∨ c = .demandTimer ∨ (∃ b, c = .homingStepCompletion b) ∨ (∃ b, c = .stepCompletion b) ∨
      c = .budgetRefillTimer ∨ c = .rehomeAgeTimer)
    (h : exec c s = .next t) : OutputsStill s t := by
  have still : advance s = .next t → OutputsStill s t := next_of_advance (.refl s)
  have damper (x : Damper) : OutputsStill s (s.setDamper x) := ⟨rfl, rfl, rfl, rfl⟩
  obtain rfl | rfl | ⟨octets, rfl⟩ | ⟨octets, rfl⟩ | rfl | rfl | ⟨stall, rfl⟩ | ⟨stall, rfl⟩ | rfl | rfl := hc
  · refine next_of_ite h (fun _ => next_of_advance (OutputsStill.trans ?_ (State.settle_outputsStill _))) still
    exact (OutputsStill.ofCalm (State.ageEntries_calmFrame _ _) (State.ageEntries_capacity _ _)).after
      ⟨rfl, rfl, rfl, rfl⟩
  · refine next_of_ite h (fun _ h => next_of_ite h (fun _ => next_of_advance ?_) (next_of_advance ?_)) still
    · exact (State.recompute_outputsStill _).after ⟨rfl, rfl, rfl, rfl⟩
    · exact ⟨rfl, rfl, rfl, rfl⟩
  · exact next_of_ite h (fun _ => next_of_advance (s.headOctets_outputsStill octets)) still
  · refine next_of_ite h (fun _ => next_of_advance ((s.headOctets_outputsStill octets).trans ?_)) still
    exact ⟨rfl, rfl, rfl, rfl⟩
  · exact next_of_ite h (fun _ => next_of_advance ⟨rfl, rfl, rfl, rfl⟩) still
  · refine next_of_ite h (fun _ => next_of_advance (OutputsStill.after (State.recompute_outputsStill _) ?_)) still
    split <;> exact ⟨rfl, rfl, rfl, rfl⟩
  · exact next_of_ite h (fun _ => next_of_advance (damper _)) still
  · refine next_of_ite h (fun _ h => next_of_ite h (fun _ => next_of_advance ?_) (next_of_advance (damper _))) still
    exact (State.recompute_outputsStill _).after ⟨rfl, rfl, rfl, rfl⟩
  · exact next_of_ite h (fun _ => next_of_advance (damper _)) still
  · exact next_of_ite h (fun _ => next_of_advance (damper _)) still

/-! ## The plant's timers -/

/-- What an attending plant's command does keeps the outputs where it keeps them sound. -/
theorem State.OutputsKept.moved {given : Prop} {s u : State} (hr : s.plantReady = true) (ha : s.aside = false)
    (hl : u.loader = s.loader) (hau : u.aside = s.aside) (h : u.PlantSound) : u.settlePlant.OutputsKept given :=
  (State.OutputsKept.attending h ((State.plantReady_of_loader hl).trans hr) (hau.trans ha)).settlePlant

/-- The mode's decision and its requests keep the outputs sound (R97 to R109). -/
theorem State.PlantSound.modeExpiry {s : State} (h : s.PlantSound) (hr : s.plantReady = true) :
    s.modeExpiry.PlantSound := by
  have hrequest (g : Option Group) (u : State) (hu : u.PlantSound) (hur : u.plantReady = true) :
      (u.requestForMode g).PlantSound := by
    unfold State.requestForMode
    split
    · split
      · split <;> exact hu.request hur _
      · exact hu
    · split
      · exact hu.request hur _
      · exact hu
  have hselect : s.selectMode.PlantSound := h.of rfl rfl rfl rfl rfl rfl rfl rfl rfl
  unfold State.modeExpiry
  dsimp only
  split
  · exact hrequest _ _ hselect.prompt hr
  · exact hrequest _ _ hselect hr

/-- A READY plant with sound outputs: what every protective stage leaves. -/
structure State.ReadySound (s : State) : Prop where
  sound : s.PlantSound
  ready : s.plantReady = true

theorem State.ReadySound.raised {s : State} (h : s.ReadySound) (b : Prop) [Decidable b] (p : Proc) :
    (if b then s.request p else s).ReadySound := by
  split
  · exact ⟨h.sound.request h.ready p, (State.request_plant p s).plantReady.trans h.ready⟩
  · exact h

theorem State.ReadySound.counted {s : State} (h : s.ReadySound) (static freeze airflow : Nat) (b : Prop)
    [Decidable b] (p : Proc) :
    (if b then
        (s.setCapacity
          { s.capacity with staticCount := static, freezeCount := freeze, airflowCount := airflow }).request p
      else
        s.setCapacity
          { s.capacity with staticCount := static, freezeCount := freeze, airflowCount := airflow }).ReadySound := by
  have hset : (s.setCapacity
      { s.capacity with staticCount := static, freezeCount := freeze, airflowCount := airflow }).PlantSound := by
    refine h.sound.ofCapacity h.ready _ ?_ ?_ ?_ ?_ h.sound.caps <;> rfl
  exact State.ReadySound.raised ⟨hset, h.ready⟩ b p

/-- The protective stages keep the outputs sound (R128 to R133). -/
theorem State.ReadySound.protectionStages {s : State} (h : s.ReadySound) : s.protectionStages.ReadySound := by
  have h1 : s.staticTrip.ReadySound := h.counted _ _ _ _ _
  have h2 : s.staticTrip.inverterTrip.ReadySound := h1.raised _ _
  have h3 : s.staticTrip.inverterTrip.condensateStop.ReadySound := h2.raised _ _
  have h4 : s.staticTrip.inverterTrip.condensateStop.freezeStop.ReadySound := h3.counted _ _ _ _ _
  have h5 : s.staticTrip.inverterTrip.condensateStop.freezeStop.supplyStop.ReadySound := h4.raised _ _
  exact h5.counted _ _ _ _ _

/-- With no step to apply or to end, the engine has nothing to do (R140, R141). -/
theorem State.run_noStep {s : State} (h : s.engine.step = none) (b : Bool) :
    s.run .apply = s ∧ s.run (.boundary b) = s := by
  constructor
  · rw [State.run, State.drive_succ, State.move, State.applyStep, h]
    exact State.drive_rest _ s
  · rw [State.run, State.drive_succ, State.move, State.boundary, h]
    exact State.drive_rest _ s

/-- The ages, the refill and the LOCKOUT's count move no output (R154, R161, R165). -/
theorem State.retainedAdvance_outputsStill (s : State) : OutputsStill s s.retainedAdvance := by
  obtain ⟨l, hl⟩ : ∃ l, s.retainedAdvance = _ := State.noteLockoutEnd_eq s.protection.lockout _
  have hy := s.retainedAdvance_plant.yielded
  rw [hl] at hy ⊢
  exact ⟨rfl, hy, rfl, rfl⟩

/-- The waiting request's answer goes on with the step, if there is one (R157). -/
theorem State.PlantSound.examineRequest {s : State} (h : s.PlantSound) (hr : s.plantReady = true) :
    s.examineRequest.PlantSound := by
  have answered (g : GuardRequest) : (s.answer g).PlantSound := h.of rfl rfl rfl rfl rfl rfl rfl rfl rfl
  unfold State.examineRequest
  split
  next g _ =>
    split
    · dsimp only
      split
      · exact (answered g).run hr trivial
      · exact (answered g).run hr trivial
    · exact h
  next => exact h

theorem State.examineRequest_outputsStill {s : State} (h : s.engine.step = none) :
    OutputsStill s s.examineRequest := by
  have answered (g : GuardRequest) : OutputsStill s (s.answer g) := ⟨rfl, rfl, rfl, rfl⟩
  unfold State.examineRequest
  split
  next g _ =>
    obtain ⟨happly, hboundary⟩ := State.run_noStep (s := s.answer g) h false
    dsimp only
    rw [happly, hboundary, ite_self]
    split
    · exact answered g
    · exact .refl s
  next => exact .refl s

/-- A station that stands aside drops requests (R35, R153). -/
theorem State.request_aside {s : State} (h : s.aside = true) (p : Proc) : s.request p = s :=
  if_neg (by simp [h])

/-- The plant's sensor timer moves the outputs of an attending plant alone (R44, R140). -/
theorem State.OutputsKept.plantSensorExpiry {given : Prop} {s : State} (h : s.OutputsKept given)
    (hr : s.plantReady = true) (pins : PinSample) (first : Bool) :
    (s.plantSensorExpiry pins first).settlePlant.OutputsKept given := by
  have hframe := State.plantSensorExpiry_plant pins first s
  have hstill : OutputsStill s (s.plantSensors pins) := by
    rw [State.plantSensors_eq]; exact ⟨rfl, rfl, rfl, rfl⟩
  have hready : (s.plantSensors pins).ReadySound := ⟨hstill.sound h.sound, hstill.plantReady.trans hr⟩
  cases ha : s.aside with
  | false =>
    refine .moved hr ha hframe.loader hframe.aside ?_
    have contacts (i c : Bool) {u : State} (hu : u.ReadySound) : (u.contactRequests i c).ReadySound :=
      (hu.raised (i = true) (.emergency .inverter)).raised _ _
    have exits {u : State} (hu : u.ReadySound) : u.examineSensorExit.ReadySound := by
      refine ⟨?_, (State.examineSensorExit_plant u).plantReady.trans hu.ready⟩
      unfold State.examineSensorExit
      split
      · split
        · exact hu.sound.run hu.ready trivial
        · exact hu.sound
      · exact hu.sound
    unfold State.plantSensorExpiry
    dsimp only
    split
    · exact (exits (contacts _ _ hready)).sound
    · exact (contacts _ _ (exits hready)).sound
  | true =>
    have hstep : (s.plantSensors pins).engine.step = none :=
      hready.sound.step_of_aside (hstill.aside.trans ha)
    have hcontacts (i c : Bool) : (s.plantSensors pins).contactRequests i c = s.plantSensors pins := by
      simp [State.contactRequests, State.request_aside (hstill.aside.trans ha)]
    have hexit : (s.plantSensors pins).examineSensorExit = s.plantSensors pins := by
      rw [State.examineSensorExit, hstep]
    have hall : s.plantSensorExpiry pins first = s.plantSensors pins := by
      unfold State.plantSensorExpiry
      dsimp only
      rw [hexit, hcontacts, hexit, ite_self]
    rw [hall]
    exact (hstill.kept h).settlePlant

/-- A second of an EMERGENCY's hold (R147). -/
def State.holdSecond (s : State) : State :=
  s.setEngine
    { s.engine with emergencyHold := s.engine.emergencyHold - 1, stepTime := s.engine.stepTime + 1 }

/-- The hold's second ends E2 where it takes the last one (R147). -/
theorem exec_emergencyHoldTick (s : State) :
    exec .emergencyHoldTick s = .next
      (if s.plantReady = true ∧ s.engine.step = some .e2 ∧ s.engine.acting = true then
        if s.engine.emergencyHold ≤ 1 then (s.holdSecond.run (.boundary false)).settlePlant else s.holdSecond
      else s) := by
  have hlast : s.engine.emergencyHold - 1 = 0 ↔ s.engine.emergencyHold ≤ 1 := by omega
  have hone : exec .emergencyHoldTick s =
      if s.plantReady && decide (s.engine.step = some .e2) && s.engine.acting then
        if s.engine.emergencyHold - 1 = 0 then advance (s.holdSecond.run (.boundary false)).settlePlant
        else advance s.holdSecond
      else advance s := rfl
  simp only [hone, hlast, Bool.and_eq_true, decide_eq_true_eq, and_assoc, advance]
  split
  · split <;> rfl
  · rfl

/-- The engine's events keep the outputs: only an attending plant has a step (R140, R147, R157). -/
theorem exec_engine_outputsKept {given : Prop} {c : Instr} {s t : State}
    (hc : c = .listeningTimer ∨ c = .stepDelayExpiry ∨ c = .stepTimeExit ∨ c = .stepTimeLimit ∨
      c = .emergencyHoldTick ∨ c = .retainedTimer)
    (hs : s.OutputsKept given) (h : exec c s = .next t) : t.OutputsKept given := by
  have still : advance s = .next t → t.OutputsKept given := next_of_advance hs
  have timed (n : Nat) : (s.stepTimeReaches n).PlantSound := hs.sound.of rfl rfl rfl rfl rfl rfl rfl rfl rfl
  have runs {u : State} (hr : u.plantReady = true) (ha : u.engine.state = .running) (hu : u.PlantSound) {m : Todo}
      (hm : m = .apply ∨ (∃ b, m = .boundary b) ∨ m = .rest) : (u.run m).settlePlant.OutputsKept given := by
    have f := State.run_plant m u
    exact .moved hr (hu.attends_of_state (by rw [ha]; nofun)) f.loader f.aside (hu.run hr (.of_rest hm))
  have running {e : Engine} (h : e.acting = true) : e.state = .running := by
    simp only [Engine.acting, Bool.and_eq_true, decide_eq_true_eq] at h
    exact h.1
  obtain rfl | rfl | rfl | rfl | rfl | rfl := hc
  · exact next_of_ite h (fun _ => next_of_advance (OutputsStill.kept (s := s) ⟨rfl, rfl, rfl, rfl⟩ hs)) still
  · refine next_of_ite h (fun hg => next_of_advance ?_) still
    simp only [Bool.and_eq_true, decide_eq_true_eq] at hg
    obtain ⟨⟨hr, hrunning⟩, _⟩ := hg
    exact runs hr hrunning hs.sound (.inl rfl)
  · simp only [exec, execStepTimeExit] at h
    split at h
    next n _ =>
      refine next_of_ite h (fun hg => next_of_advance ?_) still
      simp only [Bool.and_eq_true] at hg
      exact runs (u := s.stepTimeReaches n) hg.1 (running hg.2) (timed n) (.inr (.inl ⟨_, rfl⟩))
    next => exact still h
  · simp only [exec, execStepTimeLimit] at h
    split at h
    next n _ =>
      refine next_of_ite h (fun hg => next_of_advance ?_) still
      simp only [Bool.and_eq_true] at hg
      exact runs (u := s.stepTimeReaches n) hg.1 (running hg.2) (timed n) (.inr (.inl ⟨_, rfl⟩))
    next => exact still h
  · rw [exec_emergencyHoldTick] at h
    cases h
    have hsecond : s.holdSecond.PlantSound := hs.sound.of rfl rfl rfl rfl rfl rfl rfl rfl rfl
    split
    next hg =>
      obtain ⟨hr, hstep, hacting⟩ := hg
      split
      · exact runs (u := s.holdSecond) hr (running hacting) hsecond (.inr (.inl ⟨_, rfl⟩))
      · exact .attending hsecond hr (hs.sound.running_of_step hstep).1
    next => exact hs
  · have hadv := s.retainedAdvance_outputsStill.kept hs
    refine next_of_ite h (fun _ => still) fun h => next_of_ite h (fun hr => next_of_advance ?_) (next_of_advance hadv)
    have hra := s.retainedAdvance_outputsStill.plantReady.trans hr
    cases ha : s.retainedAdvance.aside with
    | false =>
      have f := State.examineRequest_plant s.retainedAdvance
      exact .moved hra ha f.loader f.aside (hadv.sound.examineRequest hra)
    | true => exact ((State.examineRequest_outputsStill (hadv.sound.step_of_aside ha)).kept hadv).settlePlant

/-- The off-hold timer moves no output (R111, R165). -/
theorem State.endOffHold_outputsStill (s : State) :
    OutputsStill s (s.endOffHold.noteLockoutEnd s.protection.lockout) := by
  obtain ⟨l, hl⟩ := State.noteLockoutEnd_eq s.protection.lockout s.endOffHold
  have hy := (State.noteLockoutEnd_plant s.protection.lockout s.endOffHold).yielded
  rw [hl] at hy ⊢
  exact ⟨rfl, hy, rfl, rfl⟩

/-- The controllers' timers and the sensor timer keep the outputs: in STANDBY and YIELDED they move none (R35, R112,
R114, R153). -/
theorem exec_controllers_outputsKept {given : Prop} {c : Instr} {s t : State}
    (hc : c = .plantControlTimer ∨ c = .offHoldTimer ∨ c = .protectionTimer ∨ c = .frostTimer ∨
      ∃ p b, c = .sensorTimer p b)
    (hs : s.OutputsKept given) (h : exec c s = .next t) : t.OutputsKept given := by
  have still : advance s = .next t → t.OutputsKept given := next_of_advance hs
  obtain rfl | rfl | rfl | rfl | ⟨pins, first, rfl⟩ := hc
  · refine next_of_ite h (fun hg => next_of_advance ?_) still
    simp only [Bool.and_eq_true, Bool.not_eq_true'] at hg
    obtain ⟨hr, ha⟩ := hg
    have fMode := s.modeExpiry_frames.1
    have fPeriod := State.capacityPeriod_plant s.modeExpiry
    have ham : s.modeExpiry.aside = s.aside := fMode.aside
    refine .moved hr ha (fPeriod.loader.trans fMode.loader) (fPeriod.aside.trans ham) ?_
    exact (hs.sound.modeExpiry hr).capacityPeriod (fMode.plantReady.trans hr) (ham.trans ha)
  · exact next_of_ite h (fun _ => next_of_advance (s.endOffHold_outputsStill.kept hs).settlePlant) still
  · refine next_of_ite h (fun hg => next_of_advance ?_) still
    simp only [Bool.and_eq_true, Bool.not_eq_true'] at hg
    have f := s.protectionStages_plant
    exact .moved hg.1 hg.2 f.loader f.aside (State.ReadySound.protectionStages ⟨hs.sound, hg.1⟩).sound
  · have hadv : OutputsStill s s.frostAdvance := ⟨rfl, rfl, rfl, rfl⟩
    refine next_of_ite h (fun hg h => ?_) still
    simp only [Bool.and_eq_true, Bool.not_eq_true'] at hg
    refine next_of_ite h (fun _ => next_of_advance ?_) (next_of_advance (hadv.kept hs))
    have f := State.request_plant .defrost s.frostAdvance
    exact .moved hg.1 hg.2 f.loader f.aside ((hadv.sound hs.sound).request hg.1 _)
  · refine next_of_ite h (fun hr h => ?_) still
    split at h
    next =>
      refine next_of_advance (OutputsStill.kept (OutputsStill.trans ?_ (State.settle_outputsStill _)) hs) h
      exact .ofCalm (State.zoneSensors_calmFrame s) (by unfold State.zoneSensors; dsimp only; split <;> rfl)
    next hp => exact next_of_advance (hs.plantSensorExpiry (State.plantReady_of_role hr hp) pins first) h

/-! ## The line's own events -/

/-- What a line event leaves: the line set, or octets taken with the line set before and after; neither setting touches
YIELDED. -/
inductive LineOutcome (s t : State) : Prop where
  | set (l : LineState) (hy : l.yielded = s.line.yielded) (e : t = s.setLine l)
  | taken (l : LineState) (octets : List Byte) (f : LineState → LineState) (hy : l.yielded = s.line.yielded)
      (hf : ∀ x, (f x).yielded = x.yielded)
      (e : t = (((s.setLine l).takeOctets octets).setLine (f ((s.setLine l).takeOctets octets).line)).settlePlant)

theorem LineOutcome.unchanged (s : State) : LineOutcome s s := .set s.line rfl rfl

@[simp] theorem LineState.setKind_yielded (l : LineState) (k : ReportKind) (x : KindState) :
    (l.setKind k x).yielded = l.yielded := by cases k <;> rfl

@[simp] theorem LineState.trigger_yielded (l : LineState) (k : ReportKind) : (l.trigger k).yielded = l.yielded :=
  l.setKind_yielded k _

@[simp] theorem LineState.gapAbandon_yielded (l : LineState) : l.gapAbandon.yielded = l.yielded := by
  rw [LineState.gapAbandon_eq]

@[simp] theorem LineState.framingAbandon_yielded (l : LineState) : l.framingAbandon.yielded = l.yielded := by
  rw [LineState.framingAbandon_eq]

theorem LineState.record_yielded (l : LineState) (role : Role) (a : Attempt) :
    (l.record role a).yielded = l.yielded := by
  unfold LineState.record
  split <;> rfl

/-- A frame's octets end the line's own octet, whether there are any or none (R2, R4). -/
theorem State.heard_eq (octets : List Byte) (s : State) :
    ∃ l, l.yielded = s.line.yielded ∧ s.heard octets = (s.setLine l).takeOctets octets := by
  cases octets with
  | nil => exact ⟨s.line, rfl, (ite_self s).symm⟩
  | cons o os => exact ⟨s.line.octetEnd, rfl, rfl⟩

/-- The line's own events, by what they leave (R2, R4, R7, R9, R13 to R15). -/
theorem exec_line_outcome {c : Instr} {s t : State}
    (hc : c = .tokenRefillTimer ∨ c = .lineIdle ∨ c = .attemptBegin ∨ c = .attemptComplete ∨
      (∃ b, c = .collision b) ∨ (∃ l, c = .frameReceived l) ∨ (∃ l, c = .frameAbandoned l) ∨
      c = .zonePeriodicTimer ∨ c = .plantPeriodicTimer ∨ c = .summaryTimer ∨ c = .startBitSeen ∨
      ∃ l, c = .framingError l)
    (h : exec c s = .next t) : LineOutcome s t := by
  have still : advance s = .next t → LineOutcome s t := next_of_advance (.unchanged s)
  have settled (l : LineState) (hy : l.yielded = s.line.yielded) : LineOutcome s (s.setLine l).settle :=
    .set (l.settle s.ready) ((LineState.settle_yielded _ l).trans hy) rfl
  have heard (octets : List Byte) (f : LineState → LineState) (hf : ∀ x, (f x).yielded = x.yielded) :
      LineOutcome s ((s.heard octets).setLine (f (s.heard octets).line)).settlePlant := by
    obtain ⟨l, hy, e⟩ := s.heard_eq octets
    rw [e]
    exact .taken l octets f hy hf rfl
  obtain rfl | rfl | rfl | rfl | ⟨bit, rfl⟩ | ⟨octets, rfl⟩ | ⟨octets, rfl⟩ | rfl | rfl | rfl | rfl |
    ⟨octets, rfl⟩ := hc
  · exact next_of_ite h (fun _ => next_of_advance (settled _ rfl)) still
  · refine next_of_ite h (fun _ => still) (next_of_advance ?_)
    exact .set (s.line.quietReaches 30).gapAbandon (LineState.gapAbandon_yielded _) rfl
  · simp only [exec, execAttemptBegin] at h
    split at h
    next k _ =>
      refine next_of_ite h (fun _ => next_of_advance (.set _ ?_ rfl)) still
      exact (LineState.setKind_yielded _ _ _).trans (LineState.gapAbandon_yielded _)
    next => exact still h
  · simp only [exec, execAttemptComplete] at h
    split at h
    next a _ =>
      refine next_of_advance (settled _ ?_) h
      exact (LineState.record_yielded _ _ a).trans (LineState.setKind_yielded _ _ _)
    next => exact still h
  · simp only [exec, execCollision] at h
    split at h
    next a _ =>
      refine next_of_ite h (fun _ => next_of_advance ?_) still
      exact .taken (s.line.collide a) _ id (LineState.setKind_yielded _ _ _) (fun _ => rfl) rfl
    next => exact still h
  · refine next_of_ite h (fun _ => still) (next_of_advance ?_)
    exact .taken s.line.octetEnd octets id rfl (fun _ => rfl) rfl
  · refine next_of_ite h (fun _ => still) (next_of_advance ?_)
    exact heard octets (fun x => (x.quietReaches 21).gapAbandon) fun _ => LineState.gapAbandon_yielded _
  · exact next_of_ite h (fun _ => next_of_advance (settled _ (s.line.trigger_yielded _))) still
  · exact next_of_ite h (fun _ => next_of_advance (settled _ (s.line.trigger_yielded _))) still
  · exact next_of_ite h (fun _ => next_of_advance (settled _ (s.line.trigger_yielded _))) still
  · exact next_of_ite h (fun _ => still) (next_of_advance (.set s.line.startBit rfl rfl))
  · refine next_of_ite h (fun _ => still) (next_of_advance ?_)
    exact heard octets (fun x => x.framingAbandon.octetEnd) fun x => LineState.framingAbandon_yielded x

/-! ## What the octets of a frame do (R4, R17, R34, R35) -/

/-- A dropped plant's outputs are safe (R35 step 1, R153). -/
theorem State.Dropped.safe {s t : State} (h : s.Dropped t) (hl : t.loader = s.loader) : t.EquipmentSafe := fun _ =>
  ⟨h.run, h.speed, h.blower, by rw [State.valveEnergised, hl, h.valve]; exact decide_eq_false (deEnergised_ne _)⟩

/-- A zone's operations leave the equipment of a station that is no plant as it stands. -/
theorem State.OutputsKept.ofZone {given : Prop} {s t : State} (h : s.OutputsKept given)
    (hz : s.loader.straps.role = .zone) (f : ZoneFrame s t) : t.OutputsKept given := by
  have hn := State.not_plantReady_of_role hz
  refine ⟨h.sound.ofZone f (.inl hn), fun hg _ => ?_⟩
  rw [State.valveEnergised, f.engine, f.capacity, f.loader]
  exact h.safe hg (.inr hn)

theorem State.OutputsKept.setLine {given : Prop} {s : State} (h : s.OutputsKept given) {l : LineState}
    (hy : l.yielded = s.line.yielded) : (s.setLine l).OutputsKept given := (OutputsStill.ofLine hy).kept h

theorem State.OutputsKept.setPeers {given : Prop} {s : State} (h : s.OutputsKept given) (p : Peers) :
    (s.setPeers p).OutputsKept given := OutputsStill.kept (s := s) ⟨rfl, rfl, rfl, rfl⟩ h

/-- Entry to YIELDED drops the equipment of a plant and leaves that of a zone as it stands (R17, R153). -/
theorem State.OutputsKept.enterYielded {given : Prop} {s : State} (h : s.OutputsKept given) (hr : s.ready = true) :
    s.enterYielded.OutputsKept given := by
  cases hy : s.line.yielded with
  | true =>
    have hsame : s.enterYielded = s := if_pos hy
    rw [hsame]
    exact h
  | false =>
    cases hrole : s.loader.straps.role with
    | zone =>
      refine h.ofZone hrole ?_
      have heq : s.enterYielded = (s.setLine s.line.yield).yieldDemand.recompute := by
        simp [State.enterYielded, hy, hrole]
      rw [heq]
      exact (ZoneFrame.trans (by constructor <;> rfl) (State.yieldDemand_zone _)).trans (State.recompute_zone _)
    | plant =>
      obtain ⟨hsound, hloader⟩ := h.sound.enterYielded hr
      exact ⟨hsound, fun _ => (State.enterYielded_plant hrole hy h.sound).1.safe hloader⟩

/-- The detection of a second plant drops the equipment, or counts at most (R34, R35). -/
theorem State.OutputsKept.detectPlant {given : Prop} {s : State} (h : s.OutputsKept given) (hr : s.plantReady = true)
    (a : Nat) (r : PlantRecord) (b : Bool) : (s.detectPlant a r b).OutputsKept given := by
  have hstandby : s.enterStandby.OutputsKept given := by
    cases hs : s.engine.standby with
    | true =>
      have hsame : s.enterStandby = s := if_pos hs
      rw [hsame]
      exact h
    | false =>
      exact ⟨h.sound.enterStandby hr, fun _ => (h.sound.enterStandby_dropped hs).1.safe s.enterStandby_plant.loader⟩
  unfold State.detectPlant
  split
  · exact h
  · split
    · exact hstandby
    · split
      · exact h
      · exact h.setLine (by rfl)

/-- A good report of another address keeps the outputs (R24, R31, R34). -/
theorem State.OutputsKept.takeReport {given : Prop} {s : State} (h : s.OutputsKept given) (hr : s.ready = true)
    (a : Nat) (c : Contents) : (s.takeReport a c).OutputsKept given := by
  have ht := h.setPeers (s.peers.take a c)
  unfold State.takeReport
  dsimp only
  split
  next hp => exact ht.detectPlant (State.plantReady_of_role hr hp) _ _ _
  next => exact ht
  next hz => exact ht.ofZone hz (State.evaluatePlant_zone _ _)
  next hz =>
    split
    · exact ht.ofZone hz (State.evaluatePlant_zone _ _)
    · exact ht

/-- A good frame keeps the outputs (R6, R16, R24, R25). -/
theorem State.OutputsKept.acceptFrame {given : Prop} {s : State} (h : s.OutputsKept given) (hr : s.ready = true)
    (x : Byte) (p : List Byte) : (s.acceptFrame x p).OutputsKept given := by
  have hcounted : s.countConflict.OutputsKept given := h.setLine (by rfl)
  unfold State.acceptFrame
  split
  · exact h
  · split
    · rw [State.compareTag_eq]
      split
      · exact hcounted.enterYielded hr
      · exact hcounted
    · exact h.takeReport hr _ _

/-- Octets taken keep the outputs (R4, R5). -/
theorem State.OutputsKept.takeOctet {given : Prop} {s : State} (h : s.OutputsKept given) (hr : s.ready = true)
    (o : Byte) : (s.takeOctet o).OutputsKept given := by
  have hrx : (s.setLine { s.line with rx := (s.line.rx.octet o).1 }).OutputsKept given :=
    h.setLine (by rfl)
  unfold State.takeOctet State.frameEvent
  split
  · exact hrx
  · exact hrx.setLine (by rfl)
  · exact hrx.setLine (by rfl)
  · refine State.OutputsKept.acceptFrame ?_ (by exact hr) _ _
    exact hrx.setLine (by rfl)

theorem State.OutputsKept.takeOctets {given : Prop} {s : State} (h : s.OutputsKept given) (octets : List Byte) :
    (s.takeOctets octets).OutputsKept given := by
  have hfold : ∀ (l : List Byte) {u : State}, u.OutputsKept given → u.ready = true →
      (l.foldl State.takeOctet u).OutputsKept given := by
    intro l
    induction l with
    | nil => exact fun hu _ => hu
    | cons o l ih =>
      exact fun hu hr => ih (hu.takeOctet hr o) (by rw [State.ready, State.takeOctet_loader]; exact hr)
  unfold State.takeOctets
  split
  · exact hfold octets h ‹_›
  · exact h

theorem LineOutcome.outputsKept {given : Prop} {s t : State} (h : LineOutcome s t) (hs : s.OutputsKept given) :
    t.OutputsKept given := by
  cases h with
  | set l hy e => exact e ▸ hs.setLine hy
  | taken l octets f hy hf e =>
    subst e
    exact (((hs.setLine hy).takeOctets octets).setLine (hf _)).settlePlant

/-! ## Resets and the load (R182 to R188) -/

/-- A station that attends no plant: the controller at its reset values, the engine at rest with the compressor off, and
the valve output de-energised where `given` holds. -/
structure State.Unattended (given : Prop) (s : State) : Prop where
  capacity : s.capacity = .reset
  resting : s.engine.Resting
  run : s.engine.run = false
  valve : given → s.valveEnergised = false

/-- Outside a READY plant nothing is attended (R187). -/
theorem State.OutputsKept.unattended {given : Prop} {s : State} (h : s.OutputsKept given)
    (hn : s.plantReady = false) : s.Unattended given := by
  obtain ⟨hc, he, hrun⟩ := h.sound.held hn
  exact ⟨hc, he, hrun, fun hg => (h.safe hg (.inr hn)).2.2.2⟩

/-- A station that attends nothing has sound and safe outputs, whatever its role and readiness. -/
theorem State.Unattended.outputsKept {given : Prop} {s : State} (h : s.Unattended given) (hl : s.loader.Sound) :
    s.OutputsKept given := by
  obtain ⟨hc, he, hrun, hvalve⟩ := h
  have hon : s.engine.run ≠ true := by simp [hrun]
  have hcmin := (State.pp_inRange hl).cmin
  refine ⟨?_, fun hg _ => ⟨hrun, by rw [hc]; rfl, by rw [hc]; rfl, hvalve hg⟩⟩
  exact
    { loader := hl
      held := fun _ => ⟨hc, he, hrun⟩
      off := fun _ => by rw [hc]; exact ⟨rfl, rfl⟩
      on := fun h => absurd h hon
      follows := fun h => absurd h hon
      air := fun h => absurd h hon
      caps := by rw [hc]; simp only [Capacity.reset]; omega
      idle := fun _ => he
      between := fun _ => he.running
      chain := fun p st hp => by rw [he.running] at hp; cases hp
      blower := fun hb => by rw [he.blowerHold] at hb; cases hb
      aside := fun _ => ⟨hrun, he.running⟩ }

/-- The engine at reset leaves the valve output de-energised (R182, R187). -/
theorem State.Unattended.ofReset {given : Prop} {s : State} (hc : s.capacity = .reset)
    (he : s.engine = .reset s.loader.straps.energised) : s.Unattended given where
  capacity := hc
  resting := by rw [he]; exact ⟨rfl, rfl, rfl, rfl, rfl⟩
  run := by rw [he]; rfl
  valve _ := by rw [State.valveEnergised, he]; exact decide_eq_false (deEnergised_ne _)

/-- The load moves the loader alone until READY (R183). -/
theorem State.Unattended.setLoader {given : Prop} {s : State} (h : s.Unattended given) {l : Loader}
    (hs : l.straps = s.loader.straps) : (s.setLoader l).Unattended given where
  capacity := h.capacity
  resting := h.resting
  run := h.run
  valve hg := by rw [State.valveEnergised, State.setLoader_loader, hs]; exact h.valve hg

theorem State.becomeReady_valve (s : State) : s.becomeReady.engine.valve = s.engine.valve := by
  unfold State.becomeReady
  dsimp only
  split
  · rfl
  · rw [State.settlePlant_engine]; rfl

/-- READY starts no output (R187). -/
theorem State.Unattended.becomeReady {given : Prop} {s : State} (h : s.Unattended given) :
    s.becomeReady.Unattended given := by
  obtain ⟨hl, hc, he⟩ := s.becomeReady_frame
  have hv := s.becomeReady_valve
  refine ⟨hc.trans h.capacity, ?_, by rw [he]; exact h.run, fun hg => ?_⟩
  · obtain ⟨h1, h2, h3, h4, h5⟩ := h.resting
    rw [he]
    exact ⟨h1, h2, h3, h4, h5⟩
  · rw [State.valveEnergised, hl, hv]; exact h.valve hg

/-- The loader holds a set in range once the load has ended, whatever the role (R183 to R185). -/
theorem State.loadDefaults_loader {s : State} (h : s.loader.Unloaded) (r : LoadResult) :
    (s.loadDefaults r).loader.Sound := by
  unfold State.loadDefaults
  rw [(State.becomeReady_frame _).1]
  cases hr : s.loader.straps.role with
  | zone => exact h.withZone hr zoneDefaults_inRange _ _ _ _
  | plant => exact h.withPlant hr plantDefaults_inRange _ _ _ _

theorem State.checkImage_loader {s : State} (h : s.loader.Unloaded) (image : List Byte) :
    (s.checkImage image).loader.Sound := by
  unfold State.checkImage
  split
  · exact State.loadDefaults_loader h _
  · unfold State.loadImage
    rw [(State.becomeReady_frame _).1]
    cases hr : s.loader.straps.role with
    | zone => exact h.withZone hr (zoneOfImage_inRange _) _ _ _ _
    | plant => exact h.withPlant hr (plantOfImage_inRange _) _ _ _ _

section
variable {given : Prop} {s : State} (h : s.Unattended given) (hl : s.loader.Unloaded)
include h hl

theorem State.Unattended.loadDefaults (r : LoadResult) : (s.loadDefaults r).OutputsKept given := by
  obtain ⟨l, hs, e⟩ := s.loadDefaults_cases r
  refine State.Unattended.outputsKept ?_ (State.loadDefaults_loader hl r)
  rw [e]
  exact (h.setLoader hs).becomeReady

theorem State.Unattended.checkImage (image : List Byte) : (s.checkImage image).OutputsKept given := by
  obtain ⟨l, hs, e⟩ := s.checkImage_cases image
  refine State.Unattended.outputsKept ?_ (State.checkImage_loader hl image)
  rw [e]
  exact (h.setLoader hs).becomeReady

/-- A failed read waits for the next attempt, or takes the defaults (R183). -/
theorem State.Unattended.readFailed (hs : s.loader.state = .reading) : s.readFailed.OutputsKept given := by
  unfold State.readFailed
  split
  next hlt =>
    refine (h.setLoader (by rfl)).outputsKept (Loader.Unloaded.sound ?_ (.inr hs))
    exact { hl with retry := fun _ => Nat.le_of_lt_succ hlt }
  next => exact h.loadDefaults hl _

/-- The load that begins at the latching (R183). -/
theorem State.Unattended.beginLoad : s.beginLoad.OutputsKept given := by
  unfold State.beginLoad
  split
  · exact (h.setLoader (by rfl)).outputsKept (Loader.Unloaded.sound { hl with } (.inl rfl))
  · split
    · refine (h.setLoader (by rfl)).outputsKept (Loader.Unloaded.sound ?_ (.inr rfl))
      exact { hl with attempts := by simp, retry := by simp }
    · exact h.loadDefaults hl _

end

/-- The resets and the load keep the outputs. -/
theorem exec_load_outputsKept {given : Prop} {c : Instr} {s t : State}
    (hc : c = .powerOnReset ∨ c = .resetInputAsserted ∨ (∃ k st, c = .resetRelease k st) ∨
      (∃ l, c = .readAttempt l) ∨ c = .readRetryTimer)
    (hs : s.OutputsKept given) (h : exec c s = .next t) : t.OutputsKept given := by
  have still : advance s = .next t → t.OutputsKept given := next_of_advance hs
  have hl := hs.sound.loader
  have hheld (e : s.loader.state ≠ .ready) : s.Unattended given :=
    hs.unattended (State.not_plantReady_of (by simp [State.ready, e]))
  obtain rfl | rfl | ⟨kind, straps, rfl⟩ | ⟨octets, rfl⟩ | rfl := hc
  · exact next_of_advance ((State.Unattended.ofReset rfl rfl).outputsKept (Loader.reset_sound _ _ _ _ (.inl rfl))) h
  · exact next_of_advance ((State.Unattended.ofReset rfl rfl).outputsKept (Loader.reset_sound _ _ _ _ (.inr rfl))) h
  · refine next_of_ite h (fun ha h => ?_) still
    have hi := hl.idle_of_asserted ha
    have hun := hheld (by rw [hi]; nofun)
    obtain ⟨hsound, hunloaded⟩ := hl.release hi kind
    split at h
    next hr =>
      refine next_of_advance (State.Unattended.outputsKept (hun.setLoader ?_) ?_) h
      · cases kind <;> rfl
      · exact hsound (by simpa [State.inReset] using hr)
    next hr =>
      have hu := hunloaded (by simpa [State.inReset] using hr)
      have hlatched : (State.latch straps (s.setLoader (s.loader.release kind))).Unattended given :=
        .ofReset hun.capacity rfl
      exact next_of_advance (hlatched.beginLoad { hu with }) h
  · refine next_of_ite h (fun hr h => ?_) still
    simp only [Bool.and_eq_true, decide_eq_true_eq] at hr
    have hun := hheld (by rw [hr.1]; nofun)
    have hu := hl.unloaded hr.1
    exact next_of_ite h (fun _ => next_of_advance (hun.readFailed hu hr.1)) (next_of_advance (hun.checkImage hu _))
  · refine next_of_ite h (fun hr => next_of_advance ?_) still
    simp only [Bool.and_eq_true, decide_eq_true_eq] at hr
    refine ((hheld (by rw [hr.1]; nofun)).setLoader (by rfl)).outputsKept (Loader.Unloaded.sound ?_ (.inr hr.1))
    exact { hl.unloaded hr.1 with attempts := Nat.succ_le_succ (hl.retry hr.2), retry := nofun }

/-! ## Every step -/

/-- Every command keeps the outputs. -/
theorem exec_outputsKept {given : Prop} {c : Instr} {s t : State} (hs : s.OutputsKept given)
    (h : exec c s = .next t) : t.OutputsKept given := by
  cases c with
  | powerOnReset | resetInputAsserted | resetRelease | readAttempt | readRetryTimer =>
    exact exec_load_outputsKept (by simp) hs h
  | tokenRefillTimer | lineIdle | attemptBegin | attemptComplete | collision | frameReceived | frameAbandoned
  | zonePeriodicTimer | plantPeriodicTimer | summaryTimer | startBitSeen | framingError =>
    exact (exec_line_outcome (by simp) h).outputsKept hs
  | ageTimer | graceTimer | headFrameArrival | headFrameAbandoned | lossTimer | demandTimer | homingStepCompletion
  | stepCompletion | budgetRefillTimer | rehomeAgeTimer => exact (exec_zone_outputsStill (by simp) h).kept hs
  | listeningTimer | stepDelayExpiry | stepTimeExit | stepTimeLimit | emergencyHoldTick | retainedTimer =>
    exact exec_engine_outputsKept (by simp) hs h
  | plantControlTimer | offHoldTimer | protectionTimer | frostTimer | sensorTimer =>
    exact exec_controllers_outputsKept (by simp) hs h

/-- Settles O9: every command keeps the outputs sound, and safe if they were; the queue is no part of them. -/
theorem plantOutputsStaySound : Obligations.PlantOutputsStaySound := by
  intro s t hsound h
  have hs : s.OutputsKept s.EquipmentSafe := ⟨hsound, id⟩
  have ht : t.OutputsKept s.EquipmentSafe := by
    obtain ⟨_, rfl⟩ | ⟨c, rest, _, hx⟩ := step_cases h
    · exact hs
    · exact exec_outputsKept (s := s.setPending rest) (OutputsStill.kept (s := s) ⟨rfl, rfl, rfl, rfl⟩ hs) hx
  exact ⟨ht.sound, ht.safe⟩

end Sys2Proof.Machine
end

