-- ==== Sys2Proof/Proofs/StaticTrip.lean ====
section
/-! PROOFS. The static trip of a protection timer expiry, with what the later stages make of the EMERGENCY it leaves,
and the seconds of an EMERGENCY's hold (R128, R141, R147, R149, R151). -/

namespace Sys2Proof.Machine

/-! ## The static count (R128) -/

/-- The static count of an expiry (R128). -/
def State.nextStatic (s : State) : Nat :=
  persist (s.sensors.staticPressure.valid && decide ((s.pp.ptrip : Int) < s.sensors.staticPressure.value)) 10
    s.capacity.staticCount

/-- The static count by its conditions (R128). -/
theorem State.nextStatic_eq (s : State) :
    s.nextStatic =
      if s.sensors.staticPressure.valid = true ∧ (s.pp.ptrip : Int) < s.sensors.staticPressure.value then
        min 10 (s.capacity.staticCount + 1) else 0 := by
  simp [State.nextStatic, persist]

/-- The plant as the static trip finds it, its count full. -/
def State.staticFull (s : State) : State := s.setCapacity { s.capacity with staticCount := 10 }

theorem State.staticTrip_trips {s : State} (hn : s.nextStatic = 10) (hb : 0 < s.capacity.blowerCommand) :
    s.staticTrip = s.staticFull.request (.emergency .static) := by
  unfold State.staticFull
  rw [← hn]
  refine if_pos ?_
  simp only [Bool.and_eq_true, decide_eq_true_eq]
  exact ⟨hn, hb⟩

/-- A request, raised or not, leaves the static count alone. -/
theorem State.raised_staticCount (s : State) (b : Prop) [Decidable b] (p : Proc) :
    (if b then s.request p else s).capacity.staticCount = s.capacity.staticCount := by
  split
  · rw [(State.request_engineFrame p s).capacity]
  · rfl

/-- Only the static trip's own stage moves the static count. -/
theorem State.protectionStages_staticCount (s : State) : s.protectionStages.capacity.staticCount = s.nextStatic := by
  have h1 : s.staticTrip.capacity.staticCount = s.nextStatic := State.raised_staticCount _ _ _
  have h2 : s.staticTrip.inverterTrip.capacity.staticCount = _ := State.raised_staticCount _ _ _
  have h3 : s.staticTrip.inverterTrip.condensateStop.capacity.staticCount = _ := State.raised_staticCount _ _ _
  have h4 : s.staticTrip.inverterTrip.condensateStop.freezeStop.capacity.staticCount =
      s.staticTrip.inverterTrip.condensateStop.capacity.staticCount := State.raised_staticCount _ _ _
  have h5 : s.staticTrip.inverterTrip.condensateStop.freezeStop.supplyStop.capacity.staticCount = _ :=
    State.raised_staticCount _ _ _
  have h6 : s.protectionStages.capacity.staticCount =
      s.staticTrip.inverterTrip.condensateStop.freezeStop.supplyStop.capacity.staticCount :=
    State.raised_staticCount _ _ _
  rw [h6, h5, h4, h3, h2, h1]

/-! ## An EMERGENCY that begins (R136, R147, R149) -/

/-- The static EMERGENCY has begun: it stands at E2 with its hold, the equipment off, the open run closed with its cause
and a procedure that ran aborted (R147, R149, R162). -/
structure State.StaticTripped (s t : State) : Prop where
  running : t.engine.running = some (.emergency .static)
  state : t.engine.state = .running
  step : t.engine.step = some .e2
  run : t.engine.run = false
  hold : t.engine.emergencyHold = 300
  valve : t.engine.valve = s.engine.valve
  speed : t.capacity.speedCommand = 0
  blower : t.capacity.blowerCommand = 0
  openRun : t.protection.run = none
  record : s.protection.run.isSome = true →
    ∃ rec, t.protection.history.getLast? = some rec ∧ rec.cause = .static
  aborted : s.engine.running.isSome = true → t.engine.aborted = s.engine.aborted + 1

theorem State.EmergencyAtE2.staticTripped {s t : State} (h : s.EmergencyAtE2 t .static 300) : s.StaticTripped t := by
  obtain ⟨hstep, hstate⟩ := h.step
  obtain ⟨hrun, hspeed, hblower⟩ := h.off
  exact ⟨h.running, hstate, hstep, hrun, h.hold, h.valve, hspeed, hblower, h.closed.1, h.record,
    fun hs => by rw [h.aborted, if_pos hs]⟩

theorem State.StaticTripped.kept {s t u : State} (h : s.StaticTripped t) (k : t.KeepsEquipment u) :
    s.StaticTripped u where
  running := by rw [k.engine]; exact h.running
  state := by rw [k.engine]; exact h.state
  step := by rw [k.engine]; exact h.step
  run := by rw [k.engine]; exact h.run
  hold := by rw [k.engine]; exact h.hold
  valve := by rw [k.engine]; exact h.valve
  speed := by rw [k.capacity]; exact h.speed
  blower := by rw [k.capacity]; exact h.blower
  openRun := by rw [k.protection]; exact h.openRun
  record := by rw [k.protection]; exact h.record
  aborted := by rw [k.engine]; exact h.aborted

theorem State.StaticTripped.since {s t u : State} (h : t.StaticTripped u) (k : s.KeepsEquipment t) :
    s.StaticTripped u where
  running := h.running
  state := h.state
  step := h.step
  run := h.run
  hold := h.hold
  valve := by rw [h.valve, k.engine]
  speed := h.speed
  blower := h.blower
  openRun := h.openRun
  record := by rw [← k.protection]; exact h.record
  aborted hs := by rw [h.aborted (by rw [k.engine]; exact hs), k.engine]

/-- The static EMERGENCY begins over whatever stands: with nothing running the engine's own start, otherwise the abort
before it (R136, R149). -/
theorem State.startEmergency_staticTripped (s : State) : s.StaticTripped (s.startEmergency .static) := by
  cases hrunning : s.engine.running with
  | some p => exact (State.startEmergency_atE2 .static (by rw [hrunning]; nofun)).staticTripped
  | none =>
    have hstart : s.startEmergency .static = (s.startProc (.emergency .static)).run (.take .e1) := by
      simp [State.startEmergency, hrunning]
    obtain ⟨t, ht, ⟨r, k, he⟩, ⟨hrun, _, hrecord⟩, hspeed, hblower⟩ :=
      State.drive_e1 (s := s.startProc (.emergency .static)) 59 rfl
    rw [hstart, State.run, ht]
    exact
      { running := by rw [he]; rfl, state := by rw [he], step := by rw [he], run := by rw [he], hold := by rw [he]; rfl
        valve := by rw [he]; rfl, speed := hspeed, blower := hblower, openRun := hrun, record := hrecord
        aborted := by rw [hrunning]; nofun }

/-- With the compressor off the stages behind the static trip only count. -/
theorem State.inverterTrip_off {s : State} (h : s.engine.run = false) :
    s.KeepsEquipment s.inverterTrip.condensateStop.freezeStop.supplyStop.airflowStop := by
  have hs : s.inverterTrip = s := if_neg (by simp [h])
  rw [hs]
  exact State.condensateStop_off h

/-- The trip of a station that takes requests, with no EMERGENCY running (R128). -/
theorem State.protectionStages_trips {s : State} (hn : s.nextStatic = 10) (hb : 0 < s.capacity.blowerCommand)
    (hl : s.engine.listening = .expired) (ha : s.aside = false) (he : s.engine.inEmergency = false) :
    s.StaticTripped s.protectionStages := by
  have htrip : s.StaticTripped s.staticTrip := by
    rw [State.staticTrip_trips hn hb, State.request_emergency (s := s.staticFull) hl ha he]
    exact (State.startEmergency_staticTripped _).since (s.counts_keepsEquipment 10 _ _)
  exact htrip.kept (State.inverterTrip_off htrip.run)

/-! ## An EMERGENCY already running (R136, R147) -/

/-- A count stands at its top only while its condition holds (R127). -/
theorem condition_of_persist_eq_top {condition : Bool} {top count : Nat} (htop : 0 < top)
    (h : persist condition top count = top) : condition = true := by
  unfold persist at h
  split at h
  · assumption
  · omega

/-- The hold stands, and whatever asks while the compressor is on meets an EMERGENCY. -/
structure State.Holds (n : Nat) (s : State) : Prop where
  hold : s.engine.emergencyHold = n
  emergency : s.engine.run = true → s.engine.inEmergency = true

/-- An EMERGENCY takes no part in a STOP's merging, so the STOP starts at most, and its T1 stops the compressor and
leaves the hold (R136, R143). -/
theorem State.request_stop_holds {s : State} {r : StopReason} (hr : r ≠ .demand) (he : s.engine.inEmergency = true) :
    State.Holds s.engine.emergencyHold (s.request (.stop r)) := by
  obtain ⟨c, hc⟩ : ∃ c, s.engine.running = some (.emergency c) := by
    unfold Engine.inEmergency at he
    split at he
    next c h => exact ⟨c, h⟩
    all_goals cases he
  have stands {u : State} (hu : u.engine.emergencyHold = s.engine.emergencyHold)
      (hru : u.engine.running = s.engine.running) : State.Holds s.engine.emergencyHold u :=
    ⟨hu, fun _ => by rw [Engine.inEmergency, hru, hc]⟩
  have hstopping : s.engine.stopping = false := by rw [Engine.stopping, hc]
  unfold State.request State.takeStop
  simp only [hstopping, Bool.false_eq_true, if_false]
  split
  · split
    · exact stands rfl rfl
    · generalize hu : s.setRequests { s.engine.requests with stop := some r, start := false } = u
      have hue : u.engine.emergencyHold = s.engine.emergencyHold := by rw [← hu]; rfl
      have hur : u.engine.running = some (.emergency c) := by rw [← hu]; exact hc
      have htop : u.engine.requests.top = some (.stop r) := by rw [← hu]; rfl
      unfold State.entered
      split
      · have hstart : u.startNext = (.take .t1,
            (u.setRequests (u.engine.requests.without (.stop r))).startProc (.stop r)) := by
          unfold State.startNext
          rw [htop]
          rfl
        obtain ⟨t, ht, ⟨q, k, he⟩, _⟩ :=
          State.drive_t1 (s := (u.setRequests (u.engine.requests.without (.stop r))).startProc (.stop r)) 58 rfl
            (by simp [State.guardOf, State.current, State.startProc, hr])
        rw [State.run, State.drive_succ, State.move, hstart, ht]
        exact ⟨by rw [he]; exact hue, by rw [he]; nofun⟩
      · next q _ hq =>
        have hlow : ¬ q.priority < (Proc.stop r).priority := by
          rw [hur] at hq
          cases hq
          simp [Proc.priority]
        rw [if_neg hlow]
        exact stands hue (hur.trans hc.symm)
      · exact stands hue (hur.trans hc.symm)
      · exact stands hue (hur.trans hc.symm)
  · exact stands rfl rfl

/-- A stage that asks for a protective STOP at most while the compressor is on keeps the hold. -/
theorem State.Holds.raised {n : Nat} {s : State} (h : s.Holds n) {b : Prop} [Decidable b] {r : StopReason}
    (hr : r ≠ .demand) (hb : b → s.engine.run = true) : (if b then s.request (.stop r) else s).Holds n := by
  split
  next hc => exact h.hold ▸ State.request_stop_holds hr (h.emergency (hb hc))
  next => exact h

/-- The stages behind the trips keep the hold (R130 to R133). -/
theorem State.Holds.stops {n : Nat} {s : State} (h : s.Holds n) :
    s.condensateStop.freezeStop.supplyStop.airflowStop.Holds n := by
  have counted {u : State} (hu : u.Holds n) (c : Capacity) : (u.setCapacity c).Holds n := ⟨hu.hold, hu.emergency⟩
  have h1 : s.condensateStop.Holds n := h.raised (by simp) fun hb => by
    simp only [Bool.and_eq_true] at hb
    exact ((s.coolingOn_iff).1 hb.2).2
  have h2 : s.condensateStop.freezeStop.Holds n := (counted h1 _).raised (by simp) fun hb => by
    have hc := condition_of_persist_eq_top (by decide) hb
    simp only [Bool.and_eq_true] at hc
    obtain ⟨⟨hcooling, _⟩, _⟩ := hc
    exact ((State.coolingOn_iff _).1 hcooling).2
  have h3 : s.condensateStop.freezeStop.supplyStop.Holds n := h2.raised (by simp) fun hb => by
    simp only [Bool.and_eq_true] at hb
    obtain ⟨⟨⟨_, hrun⟩, _⟩, _⟩ := hb
    exact hrun
  exact (counted h3 _).raised (by simp) fun hb => by
    have hc := condition_of_persist_eq_top (by decide) hb
    simp only [Bool.and_eq_true] at hc
    obtain ⟨⟨hrun, _⟩, _⟩ := hc
    exact hrun

/-- The greater hold stands, and the EMERGENCY runs on (R147). -/
theorem State.mergeEmergency_holds {s : State} (c : EmergencyCause) (he : s.engine.inEmergency = true) :
    State.Holds (max s.engine.emergencyHold c.hold) (s.mergeEmergency c) ∧
      (s.mergeEmergency c).engine.inEmergency = true := by
  unfold State.mergeEmergency
  split
  next h => exact ⟨⟨(Nat.max_eq_right (Nat.le_of_lt h)).symm, fun _ => rfl⟩, rfl⟩
  next h => exact ⟨⟨(Nat.max_eq_left (Nat.le_of_not_lt h)).symm, fun _ => he⟩, he⟩

/-- An EMERGENCY whose hold is no greater than the running one's changes nothing (R147). -/
theorem State.request_emergency_merged {s : State} {c : EmergencyCause} (he : s.engine.inEmergency = true)
    (h : c.hold ≤ s.engine.emergencyHold) : s.request (.emergency c) = s := by
  have hmerge : (if s.engine.inEmergency = true then s.mergeEmergency c else s.startEmergency c) = s :=
    (if_pos he).trans (if_neg (Nat.not_lt.2 h))
  exact (congrArg (ite _ · s) hmerge).trans (ite_self s)

/-- The static trip of a running EMERGENCY brings the hold to 300 s at least, which no later stage changes (R136,
R147). -/
theorem State.protectionStages_merges {s : State} (hn : s.nextStatic = 10) (hb : 0 < s.capacity.blowerCommand)
    (hl : s.engine.listening = .expired) (ha : s.aside = false) (he : s.engine.inEmergency = true) :
    s.protectionStages.engine.emergencyHold = max s.engine.emergencyHold 300 := by
  have htrip : s.staticTrip = s.staticFull.mergeEmergency .static := by
    rw [State.staticTrip_trips hn hb]
    have haf : s.staticFull.aside = false := ha
    have hlf : s.staticFull.engine.listening = .expired := hl
    have hef : s.staticFull.engine.inEmergency = true := he
    simp [State.request, hlf, haf, hef]
  obtain ⟨hholds, hrunning⟩ := State.mergeEmergency_holds (s := s.staticFull) .static he
  rw [← htrip] at hholds hrunning
  have hinverter : s.staticTrip.inverterTrip = s.staticTrip := by
    unfold State.inverterTrip
    rw [State.request_emergency_merged hrunning (by rw [hholds.hold]; simp [EmergencyCause.hold]), ite_self]
  have hstages := hholds.stops
  rw [← hinverter] at hstages
  exact hstages.hold

/-! ## The last second of a hold (R141, R147, R151) -/

theorem State.endProc_requests (o : ProcOutcome) (s : State) :
    (s.endProc o).engine.requests = s.engine.requests := by
  unfold State.endProc
  dsimp only
  split <;> cases o <;> rfl

theorem State.writeBoundary_requests (st : StepId) (b : Bool) (s : State) :
    (s.writeBoundary st b).engine.requests = s.engine.requests := by
  unfold State.writeBoundary
  dsimp only
  split <;> rfl

/-- A boundary but D5's writes the status record and the count (R141). -/
theorem State.writeBoundary_eq {s : State} {st : StepId} (b : Bool) (h : st ≠ .d5) :
    s.writeBoundary st b = s.setEngine
      { s.engine with
        status :=
          { s.engine.status with proc := s.engine.running, step := some st, limited := s.engine.status.limited || b }
        stepsLoaded := s.engine.stepsLoaded + 1 } := by
  unfold State.writeBoundary
  exact if_neg h

/-- A procedure but a DEFROST that ends with DONE leaves the engine between procedures (R151). -/
theorem State.endProc_done {s : State} (h : s.engine.defrosting = false) :
    (s.endProc .done).engine =
        { s.engine with
          done := s.engine.done + 1, state := .idle, running := none, step := none, delaying := false
          stepTime := 0, exitTime := none, timeLimit := none, emergencyHold := 0, speedHold := none
          blowerHold := none, d5 := none, status := s.engine.endStatus .done } ∧
      (s.endProc .done).protection = { s.protection with waiting := none } ∧
      (s.endProc .done).frost = s.frost ∧ (s.endProc .done).modeSel = s.modeSel := by
  unfold State.endProc
  dsimp only
  rw [if_neg (by simp [h])]
  exact ⟨rfl, rfl, rfl, rfl⟩

/-- The boundary of a chain's last step ends the procedure with DONE, and an engine with nothing pending rests (R141,
R151). -/
theorem State.run_lastBoundary {s : State} {st : StepId} (b : Bool) (hstep : s.engine.step = some st)
    (hnext : st.next = none) (hq : s.engine.requests = .empty) :
    s.run (.boundary b) = (s.writeBoundary st b).endProc .done := by
  have hend : s.boundary b = (.startNext, (s.writeBoundary st b).endProc .done) := by
    unfold State.boundary
    rw [hstep]
    dsimp only
    rw [hnext]
  have hrest : ((s.writeBoundary st b).endProc .done).startNext = (.rest, (s.writeBoundary st b).endProc .done) := by
    have htop : ((s.writeBoundary st b).endProc .done).engine.requests.top = none := by
      rw [State.endProc_requests, State.writeBoundary_requests, hq]
      rfl
    unfold State.startNext
    rw [htop]
  rw [State.run, State.drive_succ, State.move, hend, State.drive_succ, State.move, hrest]
  exact State.drive_rest _ _


/-- The last second of an EMERGENCY's hold over a plant with nothing pending: the procedure is done, the engine idle
(R141, R147, R151). -/
theorem State.run_holdSecond {s : State} {c : EmergencyCause} (hrunning : s.engine.running = some (.emergency c))
    (hstep : s.engine.step = some .e2) (hq : s.engine.requests = .empty) :
    ∃ u, s.holdSecond.run (.boundary false) = u ∧
      u.engine =
        { s.engine with
          state := .idle, running := none, step := none, delaying := false, stepTime := 0, exitTime := none
          timeLimit := none, emergencyHold := 0, speedHold := none, blowerHold := none, d5 := none
          stepsLoaded := s.engine.stepsLoaded + 1, done := s.engine.done + 1
          status := { s.engine.status with proc := some (.emergency c), step := some .e2, outcome := .done } } ∧
      u.protection = { s.protection with waiting := none } ∧ u.frost = s.frost ∧ u.modeSel = s.modeSel := by
  have hrun := State.run_lastBoundary (s := s.holdSecond) false hstep rfl hq
  have hboundary := State.writeBoundary_eq (s := s.holdSecond) (st := .e2) false (by simp)
  have hnot : (s.holdSecond.writeBoundary .e2 false).engine.defrosting = false := by
    rw [hboundary]
    simp [Engine.defrosting, State.holdSecond, hrunning]
  obtain ⟨hengine, hprotection, hfrost, hmode⟩ := State.endProc_done hnot
  rw [hboundary] at hengine hprotection hfrost hmode hrun
  refine ⟨_, hrun, hengine.trans ?_, hprotection, hfrost, hmode⟩
  simp [Engine.endStatus, State.holdSecond, hrunning]

theorem State.settlePlant_emergencyHold (s : State) :
    s.settlePlant.engine.emergencyHold = s.engine.emergencyHold := by rw [State.settlePlant_engine]

/-- Settles O53: the stages of an expiry by what the static count finds, and the hold's seconds by what is left. -/
theorem staticTripAndEmergencyHold : Obligations.StaticTripAndEmergencyHold := by
  refine ⟨fun s hr ha => ?_, fun s c hr hrunning hstep hstate hdelay => ?_⟩
  · obtain ⟨_, _, _, _, _, _, _, hcapacity, hprotection, _⟩ := s.protectionStages.settlePlant_blocks
    have hf := s.protectionStages_plant.trans s.protectionStages.settlePlant_plant
    have hcount : s.protectionStages.settlePlant.capacity.staticCount = s.nextStatic := by
      rw [hcapacity, State.protectionStages_staticCount]
    refine ⟨_, exec_protectionTimer hr ha, hcount.trans s.nextStatic_eq, hf.loader, hf.peers, hf.sensors, hf.demand,
      hf.share, hf.damper, hf.pending, fun htop hb hl => ⟨fun he => ?_, fun he => ?_⟩⟩
    · rw [State.settlePlant_emergencyHold, State.protectionStages_merges (hcount.symm.trans htop) hb hl ha he]
    · have h := (State.protectionStages_trips (hcount.symm.trans htop) hb hl ha he).kept
        s.protectionStages.settlePlant_keepsEquipment
      exact ⟨h.running, h.state, h.step, h.run, h.hold, h.valve, h.speed, h.blower, h.openRun, h.record, h.aborted⟩
  · have hexec := exec_emergencyHoldTick s
    rw [if_pos ⟨hr, hstep, by simp [Engine.acting, hstate, hdelay]⟩] at hexec
    refine ⟨fun h => ?_, fun h hq => ?_⟩
    · rw [hexec, if_neg (by omega)]
      rfl
    · rw [if_pos h] at hexec
      obtain ⟨u, hu, hengine, hprotection, hfrost, hmode⟩ := State.run_holdSecond hrunning hstep hq
      have hf := State.run_plant (.boundary false) s.holdSecond
      rw [hu] at hexec hf
      obtain ⟨hl, hp, hs, hd, hsh, hda, hms, _, hpr, hfr, hpe⟩ := u.settlePlant_blocks
      have he := u.settlePlant_engine
      rw [hengine] at he
      refine ⟨_, hexec, ?_⟩
      rw [he]
      exact ⟨rfl, rfl, rfl, rfl, rfl, rfl, rfl, rfl, rfl, rfl, rfl, hpr.trans hprotection, hfr.trans hfrost,
        hms.trans hmode, hs.trans hf.sensors, hp.trans hf.peers, hl.trans hf.loader, hd.trans hf.demand,
        hsh.trans hf.share, hda.trans hf.damper, hpe.trans hf.pending⟩

end Sys2Proof.Machine
end

