-- ==== Sys2Proof/Proofs/SpeedLoop.lean ====
section
/-! PROOFS. The speed command of a compressor that follows the loop through the requests of an expiry: no procedure that
starts there reaches a step that holds another speed (R118, R119, R138, R140). -/

namespace Sys2Proof.Machine

/-! ## The command follows the loop at a value -/

/-- A compressor that is on follows the loop, which stands at `v` (R118). -/
def State.FollowsAt (v : Nat) (s : State) : Prop :=
  s.engine.run = true →
    s.engine.speedHold = none ∧ s.capacity.speedFollows = true ∧ s.capacity.loopSpeed = v ∧
      s.capacity.speedCommand = v

theorem State.FollowsAt.of {v : Nat} {s t : State} (h : s.FollowsAt v) (hrun : t.engine.run = s.engine.run)
    (hhold : t.engine.speedHold = s.engine.speedHold) (hfollows : t.capacity.speedFollows = s.capacity.speedFollows)
    (hloop : t.capacity.loopSpeed = s.capacity.loopSpeed)
    (hspeed : t.capacity.speedCommand = s.capacity.speedCommand) : t.FollowsAt v := by
  unfold State.FollowsAt
  rw [hrun, hhold, hfollows, hloop, hspeed]
  exact h

theorem State.FollowsAt.ofOff {v : Nat} {s : State} (h : s.engine.run = false) : s.FollowsAt v := fun hrun =>
  absurd hrun (by simp [h])

/-- The engine's own items, the run output and the held speed apart, do not touch the speed. -/
theorem State.FollowsAt.setEngine {v : Nat} {s : State} (h : s.FollowsAt v) {e : Engine}
    (hrun : e.run = s.engine.run) (hhold : e.speedHold = s.engine.speedHold) : (s.setEngine e).FollowsAt v :=
  h.of hrun hhold rfl rfl rfl

/-- The outputs are driven as they stand (R118). -/
theorem State.FollowsAt.driveOutputs {v : Nat} {s : State} (h : s.FollowsAt v) : s.driveOutputs.FollowsAt v := by
  intro hrun
  obtain ⟨hhold, hfollows, hloop, _⟩ := h hrun
  have hon : s.engine.run = true := hrun
  simp [State.driveOutputs, hon, hhold, hfollows, hloop]

/-- A procedure that ends releases the speed to the loop that stands (R118, R148 to R151). -/
theorem State.FollowsAt.endProc {v : Nat} {s : State} (h : s.FollowsAt v) (o : ProcOutcome) :
    (s.endProc o).FollowsAt v := by
  have hended : ∀ u : State, u.engine = s.engine → u.capacity = s.capacity →
      (u.withdrawRequest.setEngine
        { u.withdrawRequest.engine.count o with
          state := .idle, running := none, step := none, delaying := false, stepTime := 0, exitTime := none
          timeLimit := none, emergencyHold := 0, speedHold := none, blowerHold := none, d5 := none
          status := u.withdrawRequest.engine.endStatus o }).driveOutputs.FollowsAt v := by
    intro u he hc
    refine State.FollowsAt.driveOutputs fun hrun => ?_
    have hon : s.engine.run = true := by
      rw [← he]
      cases o <;> exact hrun
    obtain ⟨_, hspeed⟩ := h hon
    rw [← hc] at hspeed
    exact ⟨rfl, hspeed⟩
  unfold State.endProc
  dsimp only
  split
  · exact hended _ rfl rfl
  · exact hended _ rfl rfl

/-! ## The first steps of the chains -/

/-- The steps from the first of each chain, an EMERGENCY's apart, to the one that takes time. -/
def firstSteps : List StepId := [.s1, .t1, .t2, .x1, .x2, .x3, .d1, .d2]

theorem stepsToRest_firstSteps : StepsToRest firstSteps := by
  simp [StepsToRest, firstSteps, StepId.next, State.exitHolds]

theorem Proc.first_mem_firstSteps {p : Proc} (h : ∀ c, p ≠ .emergency c) : p.first ∈ firstSteps := by
  cases p with
  | emergency c => exact absurd rfl (h c)
  | stop | defrost | changeover | start => simp [Proc.first, firstSteps]

/-- The first steps stop the compressor or leave its speed alone (R142 to R146). -/
theorem State.FollowsAt.act {v : Nat} {s : State} (h : s.FollowsAt v) {st : StepId} (hst : st ∈ firstSteps) :
    (s.act st).FollowsAt v := by
  obtain ⟨hcap, _, _, _, _, _, he⟩ := State.act_effect st s
  have kept (hr : (s.act st).engine.run = s.engine.run) (hh : (s.act st).engine.speedHold = s.engine.speedHold) :
      (s.act st).FollowsAt v := h.of hr hh (by rw [hcap]) (by rw [hcap]) (by rw [hcap])
  simp only [firstSteps, List.mem_cons, List.not_mem_nil, or_false] at hst
  obtain rfl | rfl | rfl | rfl | rfl | rfl | rfl | rfl := hst
  case inr.inl | inr.inr.inr.inl | inr.inr.inr.inr.inr.inr.inl => exact .ofOff (by rw [he])
  all_goals exact kept (by rw [he]) (by rw [he])

/-- The engine's next move begins a procedure or keeps to the first steps, and the compressor follows the loop. -/
structure State.Begins (v : Nat) (t : Todo) (s : State) : Prop where
  follows : s.FollowsAt v
  stays : t = .startNext ∨ t.StaysIn firstSteps s.engine

theorem State.Begins.startNext {v : Nat} {s : State} (h : s.FollowsAt v) : s.startNext.2.Begins v s.startNext.1 := by
  unfold State.startNext
  split
  · exact ⟨h, .inr trivial⟩
  next p htop =>
    dsimp only
    split
    · refine ⟨h.of rfl rfl rfl rfl rfl, .inr (Proc.first_mem_firstSteps fun c hc => ?_)⟩
      have hle := Requests.top_priority_le (hc ▸ htop)
      simp [Proc.priority] at hle
    · exact ⟨h.of rfl rfl rfl rfl rfl, .inl rfl⟩

theorem State.Begins.takeStep {v : Nat} {s : State} {st : StepId} (h : s.FollowsAt v) (hst : st ∈ firstSteps) :
    (s.takeStep st).2.Begins v (s.takeStep st).1 := by
  have hcurrent : (s.current st).FollowsAt v := h.of rfl rfl rfl rfl rfl
  unfold State.takeStep
  dsimp only
  split
  · exact ⟨hcurrent.endProc _, .inl rfl⟩
  · split
    next g _ =>
      have hwaits : (((s.current st).setEngine { (s.current st).engine with state := .waiting }).setProtection
          { (s.current st).protection with waiting := some g }).FollowsAt v := hcurrent.of rfl rfl rfl rfl rfl
      split
      · exact ⟨hwaits.endProc _, .inl rfl⟩
      · split
        · exact ⟨hwaits.of rfl rfl rfl rfl rfl, .inr ⟨st, hst, rfl⟩⟩
        · exact ⟨hwaits, .inr trivial⟩
    next =>
      split
      · exact ⟨hcurrent, .inr trivial⟩
      · exact ⟨hcurrent, .inr ⟨st, hst, rfl⟩⟩

theorem State.FollowsAt.mark {v : Nat} {s : State} (h : s.FollowsAt v) (st : StepId) : (s.mark st).FollowsAt v := by
  unfold State.mark
  split
  · exact h.of rfl rfl rfl rfl rfl
  · exact h

theorem State.Begins.applyStep {v : Nat} {s : State} (h : s.FollowsAt v)
    (hstays : Todo.apply.StaysIn firstSteps s.engine) : s.applyStep.2.Begins v s.applyStep.1 := by
  obtain ⟨st, hst, hstep⟩ := hstays
  obtain ⟨_, hnext⟩ := stepsToRest_firstSteps st hst
  have hready : (s.setEngine { s.engine with state := .running, delaying := false, stepTime := 0 }).FollowsAt v :=
    h.of rfl rfl rfl rfl rfl
  have hacted := ((hready.act hst).driveOutputs).mark st
  obtain ⟨_, hat, _⟩ := State.applied_procedure st
    (s.setEngine { s.engine with state := .running, delaying := false, stepTime := 0 })
  unfold State.applyStep
  rw [hstep]
  dsimp only
  generalize (((s.setEngine { s.engine with state := .running, delaying := false, stepTime := 0 }).act
    st).driveOutputs).mark st = u at hacted hat ⊢
  have hustep : u.engine.step = some st := hat.trans hstep
  split
  next hx2 =>
    have hon : ∃ n ∈ firstSteps, st.next = some n := hnext.resolve_right fun hno => hno.1 hx2
    unfold State.askSpacing
    split
    · exact ⟨hacted, .inr ⟨st, hustep, hon⟩⟩
    · exact ⟨hacted.of rfl rfl rfl rfl rfl, .inr trivial⟩
  next =>
    split
    next hx =>
      have hon : ∃ n ∈ firstSteps, st.next = some n := hnext.resolve_right fun hno => by simp [hno.2 u] at hx
      exact ⟨hacted, .inr ⟨st, hustep, hon⟩⟩
    next => exact ⟨hacted, .inr trivial⟩

theorem State.FollowsAt.writeBoundary {v : Nat} {s : State} (h : s.FollowsAt v) (st : StepId) (b : Bool) :
    (s.writeBoundary st b).FollowsAt v := by
  unfold State.writeBoundary
  dsimp only
  split <;> exact h.of rfl rfl rfl rfl rfl

theorem State.Begins.boundary {v : Nat} {s : State} {b : Bool} (h : s.FollowsAt v)
    (hstays : (Todo.boundary b).StaysIn firstSteps s.engine) : (s.boundary b).2.Begins v (s.boundary b).1 := by
  obtain ⟨st, hstep, n, hn, hnext⟩ := hstays
  have hwritten := h.writeBoundary st b
  unfold State.boundary
  rw [hstep]
  dsimp only
  rw [hnext]
  dsimp only
  split
  · exact ⟨hwritten.endProc _, .inl rfl⟩
  · exact ⟨hwritten, .inr hn⟩

theorem State.Begins.move {v : Nat} {t : Todo} {s : State} (h : s.Begins v t) :
    (s.move t).2.Begins v (s.move t).1 := by
  obtain ⟨hfollows, rfl | hstays⟩ := h
  · exact .startNext hfollows
  · cases t with
    | take st => exact .takeStep hfollows hstays
    | apply => exact .applyStep hfollows hstays
    | boundary b => exact .boundary hfollows hstays
    | startNext => exact hstays.elim
    | rest => exact ⟨hfollows, .inr trivial⟩

theorem State.Begins.run {v : Nat} {t : Todo} {s : State} (h : s.Begins v t) : (s.run t).FollowsAt v := by
  obtain ⟨_, hu⟩ := State.drive_keeps (P := fun t u => u.Begins v t) (fun _ _ hu => hu.move) 64 t s h
  exact hu.follows

/-! ## The requests of an expiry (R101, R102, R124, R125, R150) -/

theorem State.FollowsAt.startNext {v : Nat} {s : State} (h : s.FollowsAt v) : (s.run .startNext).FollowsAt v :=
  State.Begins.run ⟨h, .inl rfl⟩

theorem State.FollowsAt.entered {v : Nat} {s : State} (h : s.FollowsAt v) (p : Proc) : (s.entered p).FollowsAt v := by
  unfold State.entered
  split
  · exact h.startNext
  · split
    · exact (h.endProc _).startNext
    · exact h
  · exact h
  · exact h

/-- A pending procedure leaves the loop as it stands. -/
theorem State.FollowsAt.request {v : Nat} {s : State} (h : s.FollowsAt v) {p : Proc} (hp : ∀ c, p ≠ .emergency c) :
    (s.request p).FollowsAt v := by
  have joins (r : Requests) : (s.setRequests r).FollowsAt v := h.of rfl rfl rfl rfl rfl
  unfold State.request
  split
  swap
  · exact h
  cases p with
  | emergency c => exact absurd rfl (hp c)
  | stop r =>
    unfold State.takeStop State.mergeStop
    dsimp only
    split
    · split
      next hc =>
        simp only [Bool.and_eq_true, decide_eq_true_eq] at hc
        exact State.Begins.run ⟨h.of rfl rfl rfl rfl rfl, .inr ⟨.t1, by simp [firstSteps], hc.1.2⟩⟩
      next => exact h
    · split
      · exact joins _
      · exact (joins _).entered _
  | defrost =>
    unfold State.takeDefrost
    dsimp only
    split
    · exact h
    · exact (joins _).entered _
  | changeover =>
    unfold State.takeChangeover
    dsimp only
    split
    · exact h
    · exact (joins _).entered _
  | start =>
    unfold State.takeStart
    dsimp only
    split
    · exact h.of rfl rfl rfl rfl rfl
    · split
      · exact h
      · exact (joins _).entered _

/-- The mode's decision and its requests leave the loop as it stands (R101, R102). -/
theorem State.FollowsAt.modeExpiry {v : Nat} {s : State} (h : s.FollowsAt v) : s.modeExpiry.FollowsAt v := by
  have requested (g : Option Group) {u : State} (hu : u.FollowsAt v) : (u.requestForMode g).FollowsAt v := by
    unfold State.requestForMode
    split
    · split
      · split
        · exact hu.request nofun
        · exact hu.request nofun
      · exact hu
    · split
      · exact hu.request nofun
      · exact hu
  unfold State.modeExpiry
  dsimp only
  split
  · exact requested _ (h.of rfl rfl rfl rfl rfl)
  · exact requested _ (h.of rfl rfl rfl rfl rfl)

/-- The hand-off of C, the caps, the airflow, the counts and their requests leave the loop as it stands (R114). -/
theorem State.FollowsAt.beforeAirflow {v : Nat} {s : State} (h : s.FollowsAt v) : s.beforeAirflow.FollowsAt v := by
  have handed (u : State) (hu : u.FollowsAt v) : u.handOffC.FollowsAt v := by
    unfold State.handOffC
    split
    · exact (hu.endProc _).startNext
    · exact hu
  have raised (u : State) (hu : u.FollowsAt v) : u.raiseStart.raiseStop.FollowsAt v := by
    have hstart : u.raiseStart.FollowsAt v := by
      unfold State.raiseStart
      split
      · exact hu.request nofun
      · exact hu
    unfold State.raiseStop
    split
    · exact hstart.request nofun
    · exact hstart
  have hformed : s.formC.FollowsAt v := handed _ (h.of rfl rfl rfl rfl rfl)
  exact raised _ (hformed.of rfl rfl rfl rfl rfl)

end Sys2Proof.Machine
end

