-- ==== Sys2Proof/Proofs/CapacityLoops.lean ====
section
/-! PROOFS. The items of a capacity period: each stage's table on the state that the period ends in, and the one step
of the ramp (R116, R117, R119, R120, R122 to R125). -/

namespace Sys2Proof.Machine

/-! ## What each stage's table reads

Along a period the mode, the parameters, the Sensor Inputs and the table stand. -/

theorem State.nextFreezeCap_of {s t : State} (f : PlantFrame s t)
    (h : t.capacity.freezeCap = s.capacity.freezeCap) : t.nextFreezeCap = s.nextFreezeCap := by
  unfold State.nextFreezeCap
  rw [f.mode, f.sensors, f.pp, h]

theorem State.nextSupplyCap_of {s t : State} (f : PlantFrame s t)
    (h : t.capacity.supplyCap = s.capacity.supplyCap) : t.nextSupplyCap = s.nextSupplyCap := by
  unfold State.nextSupplyCap
  rw [f.mode, f.sensors, f.pp, h]

theorem State.startCounts_of {s t : State} (f : PlantFrame s t) (hc : t.capacity.c = s.capacity.c)
    (hr : t.capacity.effectiveRunning = s.capacity.effectiveRunning) : t.startCounts = s.startCounts := by
  unfold State.startCounts State.floatPermits
  rw [f.mode, f.sensors, f.pp, hc, hr]

theorem State.requiredAirflow_of {s t : State} (f : PlantFrame s t) (hc : t.capacity.c = s.capacity.c)
    (he : t.engine = { s.engine with shown := t.engine.shown }) : t.requiredAirflow = s.requiredAirflow := by
  unfold State.requiredAirflow State.conditioning
  rw [f.mode, f.sensors, f.pp, hc, he]
  rfl

theorem State.nextBlowerLimit_of {s t : State} (f : PlantFrame s t)
    (h : t.capacity.blowerLimit = s.capacity.blowerLimit) : t.nextBlowerLimit = s.nextBlowerLimit := by
  unfold State.nextBlowerLimit
  rw [f.sensors, f.pp, h]

theorem State.nextPressureLimiting_of {s t : State} (f : PlantFrame s t)
    (hl : t.capacity.blowerLimit = s.capacity.blowerLimit)
    (hp : t.capacity.pressureLimiting = s.capacity.pressureLimiting) :
    t.nextPressureLimiting = s.nextPressureLimiting := by
  unfold State.nextPressureLimiting
  rw [State.nextBlowerLimit_of f hl, f.sensors, f.pp, hp]

theorem State.speedTarget_of {s t : State} (f : PlantFrame s t) (hc : t.capacity.c = s.capacity.c)
    (hf : t.capacity.freezeCap = s.capacity.freezeCap) (hs : t.capacity.supplyCap = s.capacity.supplyCap) :
    t.speedTarget = s.speedTarget := by
  unfold State.speedTarget State.capInForce
  rw [f.mode, f.sensors, f.pp, hc, hf, hs]

theorem State.upwardRate_of {s t : State} (h : t.zoneEntries = s.zoneEntries) : t.upwardRate = s.upwardRate := by
  unfold State.upwardRate
  rw [h]

/-! ## The stages one after the other (R114) -/

/-- What the stages before the airflow leave of the controller (R114, R116, R124, R125). -/
structure State.CountsFormed (s t : State) : Prop where
  freezeCap : t.capacity.freezeCap = s.nextFreezeCap
  supplyCap : t.capacity.supplyCap = s.nextSupplyCap
  startCount : t.capacity.startCount = if t.startCounts = true then min 2 (s.capacity.startCount + 1) else 0
  stopCount : t.capacity.stopCount =
    if t.capacity.c < t.pp.stopThreshold then min 3 (s.capacity.stopCount + 1) else 0
  blowerLimit : t.capacity.blowerLimit = s.capacity.blowerLimit
  pressureLimiting : t.capacity.pressureLimiting = s.capacity.pressureLimiting

/-- The stages from the caps to the counts set what their tables give, and the requests that follow leave it (R116,
R124, R125). -/
theorem State.CountsFormed.of {s c t : State} (fC : PlantFrame s c)
    (hC : c.capacity = { s.capacity with
      c := c.capacity.c, loopSpeed := c.capacity.loopSpeed, speedCommand := c.capacity.speedCommand
      speedFollows := c.capacity.speedFollows, blowerCommand := c.capacity.blowerCommand })
    (f : PlantFrame c.adjustCaps.formRunning.formCounts t)
    (e : EngineFrame c.adjustCaps.formRunning.formCounts t) : s.CountsFormed t := by
  have hset := e.capacity
  have fCounts : PlantFrame c.adjustCaps.formRunning t := (State.setCapacity_plant _ _).trans f
  have hstart : t.startCounts = c.adjustCaps.formRunning.startCounts :=
    State.startCounts_of fCounts (by rw [hset]; rfl) (by rw [hset]; rfl)
  refine ⟨?_, ?_, ?_, ?_, ?_, ?_⟩
  · rw [hset]; exact State.nextFreezeCap_of fC (by rw [hC])
  · rw [hset]; exact State.nextSupplyCap_of fC (by rw [hC])
  · have hbefore : c.adjustCaps.formRunning.capacity.startCount = s.capacity.startCount :=
      (congrArg Capacity.startCount hC :)
    rw [hstart, ← hbefore, hset]
    rfl
  · have hbefore : c.adjustCaps.formRunning.capacity.stopCount = s.capacity.stopCount :=
      (congrArg Capacity.stopCount hC :)
    rw [fCounts.pp, ← hbefore, hset]
    rfl
  · rw [hset]; exact (congrArg Capacity.blowerLimit hC :)
  · rw [hset]; exact (congrArg Capacity.pressureLimiting hC :)

theorem State.beforeAirflow_counts (s : State) : s.CountsFormed s.beforeAirflow := by
  have hC := (State.handOffC_engineFrame (s.setCapacity { s.capacity with c := s.capacityRequest })).capacity
  refine .of s.formC_plant ?_ ((State.raiseStart_plant _).trans (State.raiseStop_plant _))
    ((State.raiseStart_engineFrame _).trans (State.raiseStop_engineFrame _))
  unfold State.formC
  rw [hC]
  rfl

/-- The airflow's stage sets its four items and the line's prompt (R11, R120, R121). -/
theorem State.formAirflow_eq (s : State) : ∃ l, s.formAirflow =
    (s.setCapacity
      { s.capacity with
        airflow := s.requiredAirflow, f := published s.requiredAirflow s.totalWeight s.capacity.fmax
        effective := carried s.requiredAirflow s.totalWeight s.capacity.fmax
        airflowLimited := limitsAirflow s.requiredAirflow s.totalWeight s.capacity.fmax }).setLine l := by
  unfold State.formAirflow
  dsimp only
  split
  · exact ⟨_, rfl⟩
  · exact ⟨s.line, rfl⟩

/-- What the last stages, from the airflow on, leave of the controller (R120 to R123). -/
structure State.OutputsFormed (s t : State) : Prop where
  engine : t.engine = s.engine
  request : t.capacity.c = s.capacity.c ∧ t.capacity.effectiveRunning = s.capacity.effectiveRunning
  caps : t.capacity.freezeCap = s.capacity.freezeCap ∧ t.capacity.supplyCap = s.capacity.supplyCap
  counts : t.capacity.startCount = s.capacity.startCount ∧ t.capacity.stopCount = s.capacity.stopCount
  airflow : t.capacity.airflow = s.requiredAirflow
  blowerLimit : t.capacity.blowerLimit = s.nextBlowerLimit
  pressureLimiting : t.capacity.pressureLimiting = s.nextPressureLimiting
  loopBlower : t.capacity.loopBlower = min t.capacity.effective t.capacity.blowerLimit
  blower : t.capacity.blowerCommand =
    if s.aside = true then 0
    else s.engine.blowerHold.getD
      (if (s.engine.run && decide (t.capacity.loopBlower < 100)) = true then 100 else t.capacity.loopBlower)
  unfollowed : t.capacity.speedFollows = false → t.capacity.loopSpeed = t.capacity.speedCommand
  followed : ∀ v, s.FollowsAt v → t.capacity.speedFollows = true →
    t.capacity.speedCommand = rampStep v t.speedTarget t.upwardRate ∧
      t.capacity.loopSpeed = t.capacity.speedCommand

/-- The ramp's stage moves the loop and the command (R119). -/
theorem State.formSpeed_eq (s : State) :
    ∃ v w, s.formSpeed = s.setCapacity { s.capacity with loopSpeed := v, speedCommand := w } := by
  unfold State.formSpeed
  split
  · exact ⟨_, _, rfl⟩
  · exact ⟨_, s.capacity.speedCommand, rfl⟩

theorem State.formSpeed_unfollowed {s : State} (h : s.capacity.speedFollows = false) :
    s.formSpeed.capacity.loopSpeed = s.formSpeed.capacity.speedCommand := by
  unfold State.formSpeed
  rw [if_neg (by simp [h])]
  rfl

/-- The command of a compressor that follows the loop takes one step of the ramp (R119). -/
theorem State.formSpeed_ramps {s : State} (hr : s.loader.straps.role = .plant) {v : Nat} (h : s.FollowsAt v)
    (hrun : s.engine.run = true) :
    s.formSpeed.capacity.speedCommand = rampStep v s.formSpeed.speedTarget s.formSpeed.upwardRate ∧
      s.formSpeed.capacity.loopSpeed = s.formSpeed.capacity.speedCommand := by
  obtain ⟨_, hfollows, hloop, _⟩ := h hrun
  obtain ⟨_, _, heq⟩ := s.formSpeed_eq
  have htarget : s.formSpeed.speedTarget = s.speedTarget :=
    State.speedTarget_of s.formSpeed_plant (by rw [heq]; rfl) (by rw [heq]; rfl) (by rw [heq]; rfl)
  have hrate : s.formSpeed.upwardRate = s.upwardRate :=
    State.upwardRate_of (State.zoneEntries_of s.formSpeed_plant.loader s.formSpeed_plant.peers hr)
  rw [htarget, hrate]
  unfold State.formSpeed
  rw [if_pos hfollows, ← hloop]
  exact ⟨rfl, rfl⟩

/-- The blower's stage sets its items and drives the outputs (R122, R123). -/
theorem State.formBlower_capacity (s : State) : ∃ v w, s.formBlower.capacity =
    { s.capacity with
      blowerLimit := s.nextBlowerLimit, pressureLimiting := s.nextPressureLimiting
      loopBlower := min s.capacity.effective s.nextBlowerLimit, loopSpeed := v, speedCommand := w
      speedFollows := s.engine.run && s.engine.speedHold.isNone
      blowerCommand := if s.aside = true then 0
        else s.engine.blowerHold.getD
          (if (s.engine.run && decide (min s.capacity.effective s.nextBlowerLimit < 100)) = true then 100
          else min s.capacity.effective s.nextBlowerLimit) } := ⟨_, _, rfl⟩

theorem State.finish_formed {s : State} (hr : s.loader.straps.role = .plant) :
    s.OutputsFormed s.formAirflow.formBlower.formSpeed := by
  obtain ⟨l, hair⟩ := s.formAirflow_eq
  have fair := s.formAirflow_plant
  generalize s.formAirflow = y at hair fair ⊢
  have hengine : y.engine = s.engine := by rw [hair]; rfl
  have hlimit : y.nextBlowerLimit = s.nextBlowerLimit := State.nextBlowerLimit_of fair (by rw [hair]; rfl)
  have hlimiting : y.nextPressureLimiting = s.nextPressureLimiting :=
    State.nextPressureLimiting_of fair (by rw [hair]; rfl) (by rw [hair]; rfl)
  have hfollows : ∀ v, s.FollowsAt v → y.formBlower.FollowsAt v := fun v h =>
    State.FollowsAt.driveOutputs (h.of (congrArg Engine.run hengine) (congrArg Engine.speedHold hengine)
      (by rw [hair]; rfl) (by rw [hair]; rfl) (by rw [hair]; rfl))
  obtain ⟨_, _, hblower⟩ := y.formBlower_capacity
  have hblowerEngine : y.formBlower.engine = y.engine := rfl
  have hrole : y.formBlower.loader.straps.role = .plant := by rw [y.formBlower_plant.loader, fair.loader]; exact hr
  generalize y.formBlower = x at hblower hblowerEngine hrole hfollows ⊢
  obtain ⟨_, _, hspeed⟩ := x.formSpeed_eq
  have hcapacity : x.formSpeed.capacity = _ := congrArg State.capacity hspeed
  have hfollowed : x.formSpeed.capacity.speedFollows = x.capacity.speedFollows := by rw [hcapacity]; rfl
  have hrun : x.capacity.speedFollows = true → x.engine.run = true := by
    rw [hblower, hblowerEngine]
    simp only [Bool.and_eq_true]
    exact And.left
  rw [State.setCapacity_capacity, hblower, (congrArg State.capacity hair : y.capacity = _)] at hcapacity
  exact
    { engine := by rw [hspeed]; exact hblowerEngine.trans hengine
      request := by rw [hcapacity]; exact ⟨rfl, rfl⟩
      caps := by rw [hcapacity]; exact ⟨rfl, rfl⟩
      counts := by rw [hcapacity]; exact ⟨rfl, rfl⟩
      airflow := by rw [hcapacity]; rfl
      blowerLimit := by rw [hcapacity]; exact hlimit
      pressureLimiting := by rw [hcapacity]; exact hlimiting
      loopBlower := by rw [hcapacity]
      blower := by rw [hcapacity, hengine, fair.aside]
      unfollowed := fun h => State.formSpeed_unfollowed (hfollowed.symm.trans h)
      followed := fun v hv h => State.formSpeed_ramps hrole (hfollows v hv) (hrun (hfollowed.symm.trans h)) }

/-! ## The tables (R116, R117, R120, R122, R124) -/

theorem State.nextFreezeCap_eq (s : State) : s.nextFreezeCap =
    if s.modeSel.mode ≠ .cool ∧ s.modeSel.mode ≠ .dry then 1000
    else if s.sensors.indoorCoil.valid = false then s.capacity.freezeCap
    else if s.sensors.indoorCoil.value < 100 then max s.pp.cmin (s.capacity.freezeCap - 100)
    else if s.sensors.indoorCoil.value < 400 then s.capacity.freezeCap
    else min 1000 (s.capacity.freezeCap + 50) := by
  have hgroup : s.modeSel.mode.group = .cooling ↔ ¬(s.modeSel.mode ≠ .cool ∧ s.modeSel.mode ≠ .dry) := by
    cases s.modeSel.mode <;> simp [Mode.group]
  unfold State.nextFreezeCap
  simp only [hgroup, ite_not]
  cases s.sensors.indoorCoil.valid with
  | false => simp
  | true =>
    simp only [if_true, Bool.true_eq_false, if_false]
    split_ifs <;> omega

theorem State.nextSupplyCap_eq (s : State) : s.nextSupplyCap =
    if s.modeSel.mode ≠ .heat then 1000
    else if s.sensors.supplyAir.valid = false then s.capacity.supplyCap
    else if 5500 ≤ s.sensors.supplyAir.value then max s.pp.cmin (s.capacity.supplyCap - 50)
    else if 5000 ≤ s.sensors.supplyAir.value then s.capacity.supplyCap
    else min 1000 (s.capacity.supplyCap + 50) := by
  unfold State.nextSupplyCap
  simp only [ne_eq, ite_not]
  cases s.sensors.supplyAir.valid with
  | false => simp
  | true =>
    simp only [if_true, Bool.true_eq_false, if_false]
    split_ifs <;> omega

/-- The conditions of the start count (R124). -/
theorem State.startCounts_iff (s : State) : s.startCounts = true ↔
    s.pp.startThreshold ≤ s.capacity.c ∧
      (s.modeSel.mode = .cool ∨ s.modeSel.mode = .dry ∨ s.modeSel.mode = .heat) ∧
      300 ≤ s.capacity.effectiveRunning ∧ s.sensors.inverter.asserted = false ∧
      (s.sensors.condensate.asserted = false ∨ s.modeSel.mode = .heat) := by
  have hgroup : s.modeSel.mode.group ≠ .none ↔
      s.modeSel.mode = .cool ∨ s.modeSel.mode = .dry ∨ s.modeSel.mode = .heat := by
    cases s.modeSel.mode <;> simp [Mode.group]
  simp only [State.startCounts, State.floatPermits, hgroup, Bool.and_eq_true, Bool.or_eq_true, Bool.not_eq_true',
    decide_eq_true_eq, and_assoc]

/-- The plant is conditioning (R120). -/
theorem State.conditioning_iff (s : State) : s.conditioning = true ↔
    s.engine.run = true ∨ s.engine.running = some .start ∨ s.engine.running = some .changeover ∨
      s.engine.running = some .defrost ∨ s.engine.requests.start = true ∨ s.engine.requests.changeover = true := by
  have hprocedure : s.engine.startsOrDefrosts = true ↔ s.engine.running = some .start ∨
      s.engine.running = some .changeover ∨ s.engine.running = some .defrost := by
    unfold Engine.startsOrDefrosts
    split <;> simp_all
  simp only [State.conditioning, Bool.or_eq_true, hprocedure, or_assoc]

/-- The running airflow by mode (R120). -/
theorem runningAirflow_eq (m : Mode) (c : Nat) : runningAirflow m c =
    if m = .cool ∨ m = .heat then max 400 (300 + c * 7 / 10)
    else if m = .dry then max 300 ((max 400 (300 + c * 7 / 10) * 55 + 99) / 100) else 0 := by
  cases m <;> rfl

/-- The required airflow by mode, and by whether the plant is conditioning (R120). -/
theorem State.requiredAirflow_eq (s : State) : s.requiredAirflow =
    if s.conditioning = true then
      if s.modeSel.mode = .off ∨ s.modeSel.mode = .fan then s.pp.fanAirflow
      else runningAirflow s.modeSel.mode s.capacity.c
    else if s.modeSel.mode = .fan ∨ (s.modeSel.mode ≠ .off ∧ s.sensors.continuousFan = true) then s.pp.fanAirflow
    else 0 := by
  unfold State.requiredAirflow
  cases s.modeSel.mode <;> simp

theorem State.nextBlowerLimit_eq (s : State) : s.nextBlowerLimit =
    if s.sensors.staticPressure.valid = false then 800
    else if (s.pp.pmax : Int) < s.sensors.staticPressure.value then s.capacity.blowerLimit - 50
    else if s.sensors.staticPressure.value < (s.pp.pmax : Int) - 30 then min 1000 (s.capacity.blowerLimit + 20)
    else s.capacity.blowerLimit := by
  unfold State.nextBlowerLimit
  cases hvalid : s.sensors.staticPressure.valid <;> simp [hvalid]

theorem State.nextPressureLimiting_iff (s : State) : s.nextPressureLimiting = true ↔
    s.sensors.staticPressure.valid = true ∧ s.nextBlowerLimit ≠ 1000 ∧
      (s.capacity.pressureLimiting = true ∨ (s.pp.pmax : Int) < s.sensors.staticPressure.value) := by
  simp only [State.nextPressureLimiting, Bool.and_eq_true, Bool.or_eq_true, decide_eq_true_eq]
  exact ⟨fun ⟨⟨hv, hb⟩, hn⟩ => ⟨hv, hn, hb⟩, fun ⟨hv, hn, hb⟩ => ⟨⟨hv, hb⟩, hn⟩⟩

/-- With the compressor on the loop gives the blower 100 at least (R123). -/
theorem loopBlower_atLeast (run : Bool) (n : Nat) :
    (if (run && decide (n < 100)) = true then 100 else n) = if run = true then max 100 n else n := by
  cases run with
  | false => simp
  | true =>
    simp only [Bool.true_and, decide_eq_true_eq, if_true]
    split_ifs <;> omega

/-- The cap in force, of which a supply cap is never above 1000 (R116, R117). -/
theorem State.capInForce_eq {s : State} (h : s.capacity.supplyCap ≤ 1000) : s.capInForce =
    if s.modeSel.mode = .cool ∨ s.modeSel.mode = .dry then
      min (if s.sensors.indoorCoil.valid = true then s.capacity.freezeCap else 600)
        (if s.modeSel.mode = .dry then 600 else 1000)
    else if s.modeSel.mode = .heat then
      (if s.sensors.supplyAir.valid = true then s.capacity.supplyCap else 800)
    else 1000 := by
  unfold State.capInForce
  cases s.modeSel.mode with
  | off | fan => simp
  | cool => simp [Nat.min_comm]
  | dry => simp
  | heat => simp; split <;> omega

/-! ## The whole period -/

/-- What a capacity period has formed of the controller's items, from the state the Mode Selector's part has left (R114,
R116 to R125). -/
structure State.PeriodFormed (s t : State) : Prop where
  freezeCap : t.capacity.freezeCap = s.nextFreezeCap
  supplyCap : t.capacity.supplyCap = s.nextSupplyCap
  startCount : t.capacity.startCount = if t.startCounts = true then min 2 (s.capacity.startCount + 1) else 0
  stopCount : t.capacity.stopCount =
    if t.capacity.c < t.pp.stopThreshold then min 3 (s.capacity.stopCount + 1) else 0
  airflow : t.capacity.airflow = t.requiredAirflow
  blowerLimit : t.capacity.blowerLimit = s.nextBlowerLimit
  pressureLimiting : t.capacity.pressureLimiting = s.nextPressureLimiting
  loopBlower : t.capacity.loopBlower = min t.capacity.effective t.capacity.blowerLimit
  blower : t.capacity.blowerCommand =
    if t.aside = true then 0
    else t.engine.blowerHold.getD
      (if (t.engine.run && decide (t.capacity.loopBlower < 100)) = true then 100 else t.capacity.loopBlower)
  unfollowed : t.capacity.speedFollows = false → t.capacity.loopSpeed = t.capacity.speedCommand
  followed : ∀ v, s.FollowsAt v → t.capacity.speedFollows = true →
    t.capacity.speedCommand = rampStep v t.speedTarget t.upwardRate ∧
      t.capacity.loopSpeed = t.capacity.speedCommand

/-- The period's end, with the shown plant state, leaves what the stages have formed. -/
theorem State.CountsFormed.period {s a u t : State} (hr : s.loader.straps.role = .plant) (hc : s.CountsFormed a)
    (ho : a.OutputsFormed u) (fa : PlantFrame s a) (fu : PlantFrame a u) (ft : PlantFrame u t)
    (hcap : t.capacity = u.capacity) (he : t.engine = { u.engine with shown := t.engine.shown })
    (hfollows : ∀ v, s.FollowsAt v → a.FollowsAt v) : s.PeriodFormed t := by
  have fat := fu.trans ft
  have hengine : t.engine = { a.engine with shown := t.engine.shown } := by rw [he, ho.engine]
  obtain ⟨hrequest, hrunning⟩ := ho.request
  obtain ⟨hfreeze, hsupply⟩ := ho.caps
  obtain ⟨hstart, hstop⟩ := ho.counts
  rw [← hcap] at hrequest hrunning hfreeze hsupply hstart hstop
  have hcounts : t.startCounts = a.startCounts := State.startCounts_of fat hrequest hrunning
  have hairflow : t.requiredAirflow = a.requiredAirflow := State.requiredAirflow_of fat hrequest hengine
  have htarget : t.speedTarget = u.speedTarget :=
    State.speedTarget_of ft (by rw [hcap]) (by rw [hcap]) (by rw [hcap])
  have hrole : u.loader.straps.role = .plant := by rw [fu.loader, fa.loader]; exact hr
  have hrate : t.upwardRate = u.upwardRate := State.upwardRate_of (State.zoneEntries_of ft.loader ft.peers hrole)
  exact
    { freezeCap := hfreeze.trans hc.freezeCap
      supplyCap := hsupply.trans hc.supplyCap
      startCount := by rw [hstart, hcounts, hc.startCount]
      stopCount := by rw [hstop, fat.pp, hrequest, hc.stopCount]
      airflow := by rw [hcap, ho.airflow, hairflow]
      blowerLimit := by rw [hcap, ho.blowerLimit]; exact State.nextBlowerLimit_of fa hc.blowerLimit
      pressureLimiting := by
        rw [hcap, ho.pressureLimiting]
        exact State.nextPressureLimiting_of fa hc.blowerLimit hc.pressureLimiting
      loopBlower := by rw [hcap]; exact ho.loopBlower
      blower := by rw [hcap, fat.aside, hengine]; exact ho.blower
      unfollowed := by rw [hcap]; exact ho.unfollowed
      followed := fun v hv => by rw [hcap, htarget, hrate]; exact ho.followed v (hfollows v hv) }

theorem State.capacityPeriod_eq (s : State) :
    s.capacityPeriod = s.beforeAirflow.formAirflow.formBlower.formSpeed := rfl

theorem State.capacityPeriod_period {s : State} (hr : s.loader.straps.role = .plant) :
    s.PeriodFormed s.capacityPeriod.settlePlant := by
  obtain ⟨_, fa⟩ := State.beforeAirflow_formed hr
  have hrole : s.beforeAirflow.loader.straps.role = .plant := by rw [fa.loader]; exact hr
  have fu := ((State.formAirflow_plant s.beforeAirflow).trans (State.formBlower_plant _)).trans
    (State.formSpeed_plant _)
  have ho := State.finish_formed hrole
  rw [← State.capacityPeriod_eq] at fu ho
  obtain ⟨_, _, _, _, _, _, _, hcap, _⟩ := s.capacityPeriod.settlePlant_blocks
  exact s.beforeAirflow_counts.period hr ho fa fu (State.settlePlant_plant _) hcap (State.settlePlant_engine _)
    fun _ h => h.beforeAirflow

/-- A compressor that follows the loop at the expiry follows it at the command that stands (R118). -/
theorem State.PlantSound.followsAt {s : State} (h : s.PlantSound) (hf : s.capacity.speedFollows = true) :
    s.FollowsAt s.capacity.speedCommand := by
  intro hrun
  have hfollows := h.follows hrun
  split at hfollows
  next hhold => exact ⟨hhold, hf, hfollows.2, rfl⟩
  next => exact absurd (hf.symm.trans hfollows.1) (by simp)

/-- What an expiry of the plant control timer has formed (R97, R112, R114). -/
theorem exec_plantControlTimer_period {s : State} (hr : s.plantReady = true) (ha : s.aside = false)
    (h : s.PlantSound) : ∃ t, exec .plantControlTimer s = .next t ∧ s.modeExpiry.PeriodFormed t ∧
      PlantFrame s.modeExpiry t ∧ t.RequestFormed ∧ t.PlantSound := by
  have hexec : exec .plantControlTimer s = advance s.modeExpiry.capacityPeriod.settlePlant :=
    if_pos (by simp [hr, ha])
  obtain ⟨t, ht, hformed, _⟩ := exec_plantControlTimer hr ha
  have heq : s.modeExpiry.capacityPeriod.settlePlant = t := by rwa [hexec, advance_eq_next] at ht
  have fMode := s.modeExpiry_frames.1
  have rMode : s.modeExpiry.loader.straps.role = .plant := by
    rw [fMode.loader]
    exact ((State.plantReady_iff s).1 hr).2
  have hperiod := State.capacityPeriod_period rMode
  have fPeriod := (State.capacityPeriod_plant s.modeExpiry).trans (State.settlePlant_plant _)
  have hsound := (h.modeExpiry hr).capacityPeriod (fMode.plantReady.trans hr) (fMode.aside.trans ha)
  have hsettled := s.modeExpiry.capacityPeriod.settlePlant_outputsStill.sound hsound
  rw [heq] at hperiod fPeriod hsettled
  exact ⟨t, ht, hperiod, fPeriod, hformed.toRequestFormed, hsettled⟩

/-- Settles O48: the period forms each item by its table, read on the mode, C and Fmax that stand at its end. -/
theorem capacityPeriodMovesItsLoops : Obligations.CapacityPeriodMovesItsLoops := by
  intro s m w x ar hr ha hsound hw
  have hrole := ((State.plantReady_iff s).1 hr).2
  obtain ⟨fMode, eMode⟩ := s.modeExpiry_frames
  have hbefore : s.modeExpiry.capacity = _ := eMode.capacity
  have hfollows : s.capacity.speedFollows = true → s.modeExpiry.FollowsAt s.capacity.speedCommand :=
    fun hf => (hsound.followsAt hf).modeExpiry
  obtain ⟨t, hexec, h, fPeriod, hformed, hplant⟩ := exec_plantControlTimer_period hr ha hsound
  refine ⟨t, hexec, ?_⟩
  generalize s.modeExpiry = b at fMode h fPeriod hfollows hbefore
  have f := fMode.trans fPeriod
  have hpp : t.pp = s.pp := f.pp
  have hsensors : t.sensors = s.sensors := f.sensors
  have hzones : t.zoneEntries = s.zoneEntries := State.zoneEntries_of f.loader f.peers hrole
  have htotal : t.totalWeight = w := by rw [State.totalWeight, hzones, hw]
  have hbsensors : b.sensors = s.sensors := fMode.sensors
  have hbpp : b.pp = s.pp := fMode.pp
  have hbmode : b.modeSel.mode = t.modeSel.mode := fPeriod.mode.symm
  have hbcaps : b.capacity.freezeCap = s.capacity.freezeCap ∧ b.capacity.supplyCap = s.capacity.supplyCap := by
    rw [hbefore]; exact ⟨rfl, rfl⟩
  have hbcounts : b.capacity.startCount = s.capacity.startCount ∧ b.capacity.stopCount = s.capacity.stopCount := by
    rw [hbefore]; exact ⟨rfl, rfl⟩
  have hblimit : b.capacity.blowerLimit = s.capacity.blowerLimit ∧
      b.capacity.pressureLimiting = s.capacity.pressureLimiting := by
    rw [hbefore]; exact ⟨rfl, rfl⟩
  have haside : t.aside = false := f.aside.trans ha
  intro hm hx har
  rw [hx, hm, ← runningAirflow_eq] at har
  subst hm
  refine ⟨?_, ?_, ?_, ?_, ?_, ?_, ?_, ?_, h.loopBlower, fun hhold => ?_, fun v hhold => ?_, h.unfollowed,
    fun cap target rate hs ht hcap htarget hrate => ?_⟩
  · rw [h.freezeCap, State.nextFreezeCap_eq, hbmode, hbsensors, hbpp, hbcaps.1]
  · rw [h.supplyCap, State.nextSupplyCap_eq, hbmode, hbsensors, hbpp, hbcaps.2]
  · rw [hformed.running, htotal, ← har]
    rfl
  · simp only [h.startCount, State.startCounts_iff, hpp, hsensors, hbcounts.1]
  · rw [h.stopCount, hpp, hbcounts.2]
  · simp only [h.airflow, State.requiredAirflow_eq, State.conditioning_iff, hpp, hsensors, har]
  · rw [h.blowerLimit, State.nextBlowerLimit_eq, hbsensors, hbpp, hblimit.1]
  · rw [h.pressureLimiting, State.nextPressureLimiting_iff, ← h.blowerLimit, hbsensors, hbpp, hblimit.2]
  · rw [h.blower, haside, hhold]
    exact loopBlower_atLeast _ _
  · rw [h.blower, haside, hhold]
    rfl
  · obtain ⟨hspeed, hloop⟩ := h.followed _ (hfollows hs) ht
    obtain ⟨_, _, _, hsupply⟩ := hplant.caps
    have hcap' : t.capInForce = cap := by rw [State.capInForce_eq hsupply, hsensors, hcap]
    have htarget' : t.speedTarget = target := by rw [State.speedTarget, clampNat, hcap', hpp, htarget]
    have hrate' : t.upwardRate = rate := by rw [State.upwardRate, hzones, hrate]
    refine ⟨?_, hloop⟩
    rw [hspeed, htarget', hrate']
    rfl

end Sys2Proof.Machine
end

