-- ==== Sys2Proof/Proofs/RetainedRecord.lean ====
section
/-! PROOFS. The retained record, the emergency hold and the frost items over every command: what each operation of the
plant makes of them, and what the other blocks, the resets and the load leave of them (R134, R147, R154, R161 to R168). -/

namespace Sys2Proof.Machine

/-! ## The Protection Unit's items (R154, R161 to R165) -/

/-- The request that waits, the LOCKOUT counter and the flag that holds the items have no range. -/
theorem Protection.Sound.bookkeeping {p : Protection} (h : p.Sound) (w : Option GuardRequest) (n : Counter) (b : Bool) :
    ({ p with waiting := w, lockouts := n, held := b } : Protection).Sound := { h with }

/-- The run history takes the record as its newest and holds no more than eight (R162). -/
theorem appendRecord_length {history : List RunRecord} (h : history.length ≤ 8) (r : RunRecord) :
    (appendRecord history r).length ≤ 8 := by
  unfold appendRecord
  split
  · simp only [List.length_append, List.length_tail, List.length_singleton]; omega
  · simp only [List.length_append, List.length_singleton]; omega

theorem mem_appendRecord {history : List RunRecord} {r x : RunRecord} (h : x ∈ appendRecord history r) :
    x ∈ history ∨ x = r := by
  unfold appendRecord at h
  obtain h | h := List.mem_append.1 h
  · split at h
    · exact .inl (List.mem_of_mem_tail h)
    · exact .inl h
  · exact .inr (List.mem_singleton.1 h)

theorem newestShort_appendRecord (history : List RunRecord) (r : RunRecord) :
    newestShort (appendRecord history r) = r.short := by
  simp [newestShort, appendRecord]

/-- A closed run's record is sound: only a protective cause makes it short (R162, R163). -/
theorem runRecord_sound (c : StopCause) {age : Nat} (h : age ≤ 65535) (minRun : Nat) :
    (runRecord c age minRun).Sound where
  startAge := h
  duration := h
  short hs := by
    simp only [runRecord, shortRun, Bool.and_eq_true, decide_eq_true_eq] at hs
    exact hs.1

/-- An open run is closed: its record joins the history, and the doubling flag follows it (R162, R163). -/
theorem Protection.Sound.closed {p : Protection} (h : p.Sound) {age : Nat} (hrun : p.run = some age) (c : StopCause)
    (minRun : Nat) :
    ({ p with
        run := none, history := appendRecord p.history (runRecord c age minRun)
        doubling := (runRecord c age minRun).short } : Protection).Sound :=
  { h with
    run := nofun
    history := appendRecord_length h.history _
    records := fun r hr => by
      obtain hr | rfl := mem_appendRecord hr
      · exact h.records r hr
      · exact runRecord_sound c (h.run age hrun) minRun
    doubling := (newestShort_appendRecord _ _).symm }

theorem State.beginLockout_sound {s : State} (h : s.protection.Sound) : s.beginLockout.protection.Sound := by
  have hlocked (n : Counter) :
      ({ s.protection with lockout := some 1800, lockouts := n } : Protection).Sound :=
    { h with lockout := fun n hn => by cases hn; decide }
  unfold State.beginLockout
  dsimp only
  split <;> exact hlocked _

theorem State.closeRun_sound (c : StopCause) {s : State} (h : s.protection.Sound) :
    (s.closeRun c).protection.Sound := by
  unfold State.closeRun
  split
  next => exact h
  next age hrun =>
    have hclosed := h.closed hrun c s.pp.minRun
    dsimp only
    split
    · exact State.beginLockout_sound hclosed
    · exact hclosed

/-- The ages count on, the retained ones always and the others in READY (R154). -/
theorem Protection.Sound.older {p : Protection} (h : p.Sound) : p.olderRetained.Sound ∧ p.olderRetained.olderLive.Sound := by
  have hretained : p.olderRetained.Sound :=
    { h with
      stopAge := ageUp_le _ _
      history := by rw [Protection.olderRetained, List.length_map]; exact h.history
      records := fun r hr => by
        obtain ⟨x, hx, rfl⟩ := List.mem_map.1 hr
        exact { h.records x hx with startAge := ageUp_le _ _ }
      doubling := by
        rw [Protection.olderRetained, h.doubling, newestShort, newestShort, List.getLast?_map]
        cases p.history.getLast? <;> rfl }
  refine ⟨hretained, { hretained with valveAge := ageUp_le _ _, run := fun a ha => ?_ }⟩
  obtain ⟨x, _, rfl⟩ := Option.map_eq_some_iff.1 ha
  exact ageUp_le _ _

/-- A budget that is not full takes its token at 900 (R161). -/
theorem Protection.Sound.refill {p : Protection} (h : p.Sound) : p.refill.Sound := by
  unfold Protection.refill
  split
  next => exact h
  next hb =>
    split
    next => exact { h with budget := by show p.budget + 1 ≤ 4; omega, progress := by simp, full := fun _ => rfl }
    next hp =>
      exact
        { h with
          progress := by show p.progress + 1 ≤ 899; omega
          full := fun hc => by have hc : p.budget = 4 := hc; omega }

/-- An active LOCKOUT counts down to its end (R165). -/
theorem Protection.Sound.countDown {p : Protection} (h : p.Sound) : p.countDown.Sound := by
  unfold Protection.countDown
  split
  next n hn =>
    obtain ⟨_, hle⟩ := h.lockout n hn
    refine { h with lockout := fun m hm => ?_ }
    dsimp only at hm
    split at hm
    · cases hm
    · cases hm; omega
  next => exact h

/-- A START grant takes a token; another answer takes none (R157, R161). -/
theorem Protection.Sound.answered {p : Protection} (h : p.Sound) (g : GuardRequest) :
    ({ p with waiting := none, budget := if g = .start then p.budget - 1 else p.budget } : Protection).Sound := by
  have hbudget := h.budget
  refine { h with budget := ?_, full := fun hc => ?_ }
  · dsimp only; split <;> omega
  · dsimp only at hc
    split at hc
    · omega
    · exact h.full hc

theorem Protection.reset_sound : Protection.reset.Sound := State.reset_recordSound.protection

/-! ## The Frost Estimator's items (R168, R170, R175, R176) -/

theorem Frost.Sound.settle {f : Frost} (h : f.Sound) (way : D5End) : (f.settle way).Sound :=
  { h with index := by cases way <;> simp [Frost.settle] }

theorem Frost.Sound.ended {f : Frost} (h : f.Sound) (o : ProcOutcome) (way : Option D5End) : (f.ended o way).Sound := by
  unfold Frost.ended
  split
  next => exact h
  next way =>
    have hcleared : ({ f with interval := 0, timed := 0 } : Frost).Sound :=
      { h with interval := Nat.zero_le _, timed := Nat.zero_le _ }
    dsimp only
    split
    · cases way <;> exact { hcleared with }
    · exact hcleared

/-- A second of the frost timer (R169 to R174). -/
theorem State.frostAdvance_sound {s : State} (h : s.frost.Sound) : s.frostAdvance.frost.Sound := by
  have hstep {f : Frost} (hf : f.Sound) (heat : Bool) (coil : Input) (speed : Nat) :
      (f.accumulateStep heat coil speed).Sound := by
    have hindex : accumulate f.index coil speed ≤ 10000 := by
      unfold accumulate
      split
      · exact satAdd_le _ _ _
      · exact hf.index
    unfold Frost.accumulateStep
    split
    · split
      next => exact { hf with index := hindex, accumulation := Nat.zero_le _ }
      next hn => exact { hf with accumulation := by show f.accumulation + 1 ≤ 59; omega }
    · exact hf
  have hadvanced := hstep (f := { s.frost with interval := ageUp s.frost.interval 1 })
    { h with interval := ageUp_le _ _ } s.heatRunning s.sensors.outdoorCoil s.capacity.speedCommand
  have htimed := hadvanced.timed
  unfold State.frostAdvance Frost.timedStep
  refine { hadvanced with gapTimer := ?_, timed := ?_ }
  · dsimp only [State.setFrost]
    split
    · exact satAdd_le _ _ _
    · exact Nat.zero_le _
  · dsimp only [State.setFrost]
    split
    · exact Nat.zero_le _
    · split
      · exact satAdd_le _ _ _
      · exact htimed

theorem Frost.reset_sound : Frost.reset.Sound := State.reset_recordSound.frost

/-! ## The invariant -/

/-- The plant's memory is sound and an IDLE engine runs no procedure: what every operation of the plant keeps by
itself. -/
structure State.RecordKept (s : State) : Prop extends s.RecordSound where
  between : s.engine.state = .idle → s.engine.running = none

/-- The hold depends on the running procedure alone. -/
theorem State.RecordKept.of {s t : State} (h : s.RecordKept) (hp : t.protection.Sound) (hf : t.frost.Sound)
    (hr : t.engine.running = s.engine.running) (hh : t.engine.emergencyHold = s.engine.emergencyHold)
    (hs : t.engine.state = .idle → s.engine.state = .idle) : t.RecordKept where
  protection := hp
  hold := by
    have hem : t.engine.inEmergency = s.engine.inEmergency := by unfold Engine.inEmergency; rw [hr]
    unfold Engine.HoldSound
    rw [hem, hh]
    exact h.hold
  frost := hf
  between hi := hr.trans (h.between (hs hi))

theorem State.RecordKept.setProtection {s : State} (h : s.RecordKept) {p : Protection} (hp : p.Sound) :
    (s.setProtection p).RecordKept := h.of hp h.frost rfl rfl id

theorem State.RecordKept.setFrost {s : State} (h : s.RecordKept) {f : Frost} (hf : f.Sound) :
    (s.setFrost f).RecordKept := h.of h.protection hf rfl rfl id

theorem State.RecordKept.setEngine {s : State} (h : s.RecordKept) {e : Engine} (hr : e.running = s.engine.running)
    (hh : e.emergencyHold = s.engine.emergencyHold) (hs : e.state = .idle → s.engine.state = .idle) :
    (s.setEngine e).RecordKept := h.of h.protection h.frost hr hh hs

/-- Of the engine the listening timer and the shown plant state alone may move, and the record and the frost items
stand. -/
structure RecordStill (s t : State) : Prop where
  engine : t.engine = { s.engine with listening := t.engine.listening, shown := t.engine.shown }
  protection : t.protection = s.protection
  frost : t.frost = s.frost

theorem RecordStill.kept {s t : State} (f : RecordStill s t) (h : s.RecordKept) : t.RecordKept :=
  h.of (f.protection ▸ h.protection) (f.frost ▸ h.frost) (by rw [f.engine]) (by rw [f.engine])
    (by rw [f.engine]; exact id)

theorem ZoneFrame.recordStill {s t : State} (f : ZoneFrame s t) : RecordStill s t :=
  ⟨by rw [f.engine], f.protection, f.frost⟩

theorem State.settlePlant_recordStill (s : State) : RecordStill s s.settlePlant := by
  obtain ⟨_, _, _, _, _, _, _, _, hprotection, hfrost, _⟩ := s.settlePlant_blocks
  exact ⟨by rw [s.settlePlant_engine], hprotection, hfrost⟩

/-! ## The plant's operations (R139 to R149, R156, R162) -/

theorem State.RecordKept.runOff {s : State} (h : s.RecordKept) : s.runOff.RecordKept := by
  unfold State.runOff
  split
  · exact h.of { h.protection with stopAge := Nat.zero_le _ } h.frost rfl rfl id
  · exact h

theorem State.RecordKept.driveValve {s : State} (h : s.RecordKept) (v : Valve) : (s.driveValve v).RecordKept := by
  unfold State.driveValve
  split
  · exact h
  · exact h.of { h.protection with valveAge := Nat.zero_le _ } h.frost rfl rfl id

theorem State.RecordKept.driveModeValve {s : State} (h : s.RecordKept) : s.driveModeValve.RecordKept := by
  unfold State.driveModeValve
  split
  · exact h.driveValve _
  · exact h

theorem State.RecordKept.closeRun {s : State} (h : s.RecordKept) (c : StopCause) : (s.closeRun c).RecordKept := by
  obtain ⟨_, _, he⟩ := State.closeRun_engine c s
  obtain ⟨_, hfrost, _⟩ := State.closeRun_record c s
  exact h.of (State.closeRun_sound c h.protection) (hfrost ▸ h.frost) (by rw [he]) (by rw [he])
    (by rw [he]; exact id)

theorem State.RecordKept.openRun {s : State} (h : s.RecordKept) : s.openRun.RecordKept :=
  h.setProtection { h.protection with run := fun a ha => by cases ha; exact Nat.zero_le _ }

/-- The hold that E1 brings is the running EMERGENCY's, and none without one (R135, R147). -/
theorem Engine.holdSound_requestHold (e : Engine) : ({ e with emergencyHold := e.requestHold } : Engine).HoldSound := by
  unfold Engine.HoldSound Engine.inEmergency Engine.requestHold
  dsimp only
  split
  · rename_i c _
    cases c <;> simp [EmergencyCause.hold]
  all_goals simp

/-- A step's action keeps the record (R142 to R147). -/
theorem State.RecordKept.act {s : State} (h : s.RecordKept) (st : StepId) : (s.act st).RecordKept := by
  have held {u : State} (hu : u.RecordKept) (v : Option Nat) : (u.holdSpeed v).RecordKept := hu.setEngine rfl rfl id
  have blown {u : State} (hu : u.RecordKept) (v : Option Nat) : (u.holdBlower v).RecordKept := hu.setEngine rfl rfl id
  have on {u : State} (hu : u.RecordKept) : u.runOn.RecordKept := hu.setEngine rfl rfl id
  cases st with
  | s1 | t2 | t3 | x2 | d10 => exact blown h _
  | s2 | x3 => exact h.driveModeValve
  | s3 => exact held (on h).openRun _
  | s4 => exact held h _
  | t1 | x1 => exact held (h.runOff.closeRun _) _
  | d1 => exact blown (held h.runOff _) _
  | d2 | d5 | d7 | e2 => exact h
  | d3 | d8 => exact h.driveValve _
  | d4 | d9 => exact held (on h) _
  | d6 => exact held h.runOff _
  | e1 =>
    have hoff := blown (held (h.runOff.closeRun s.engine.stopCause) (some 0)) (some 0)
    obtain ⟨⟨_, _, he⟩, _⟩ := s.runOff_closeRun s.engine.stopCause
    refine ⟨⟨hoff.protection, ?_, hoff.frost⟩, hoff.between⟩
    have hhold := s.engine.holdSound_requestHold
    simp only [Engine.HoldSound, Engine.inEmergency] at hhold ⊢
    simp only [State.act, State.setEngine_engine, State.holdBlower, State.holdSpeed, he]
    exact hhold

theorem State.RecordKept.withdrawRequest {s : State} (h : s.RecordKept) : s.withdrawRequest.RecordKept :=
  h.setProtection (h.protection.bookkeeping _ _ _)

/-- The end of a procedure leaves no hold, and none runs (R148 to R151, R176). -/
theorem State.RecordKept.endProc {s : State} (h : s.RecordKept) (o : ProcOutcome) :
    (s.endProc o).RecordKept ∧ (s.endProc o).engine.running = none := by
  have hwaits : ({ s.protection with waiting := none } : Protection).Sound := h.protection.bookkeeping _ _ _
  have hnone (e : Engine) (hr : e.running = none) (hh : e.emergencyHold = 0) : e.HoldSound :=
    ⟨by omega, fun _ => hh⟩
  unfold State.endProc
  dsimp only
  split
  · exact ⟨⟨⟨hwaits, hnone _ rfl rfl, h.frost.ended _ _⟩, fun _ => rfl⟩, rfl⟩
  · exact ⟨⟨⟨hwaits, hnone _ rfl rfl, h.frost⟩, fun _ => rfl⟩, rfl⟩

/-- A procedure that starts finds no hold, since none runs (R138, R147). -/
theorem State.RecordKept.startProc {s : State} (h : s.RecordKept) (hn : s.engine.running = none) (p : Proc) :
    (s.startProc p).RecordKept := by
  have hzero : s.engine.emergencyHold = 0 := h.hold.2 (by unfold Engine.inEmergency; rw [hn])
  exact ⟨⟨h.protection, ⟨h.hold.1, fun _ => hzero⟩, h.frost⟩, nofun⟩

/-! ## The engine's moves (R138 to R141) -/

/-- The record through an event: a procedure is started only when none runs. -/
structure State.RecordMoves (t : Todo) (s : State) : Prop where
  kept : s.RecordKept
  free : t = .startNext → s.engine.running = none

theorem State.RecordKept.rests {s : State} (h : s.RecordKept) {t : Todo} (ht : t ≠ .startNext) : s.RecordMoves t :=
  ⟨h, fun hc => absurd hc ht⟩

theorem State.RecordKept.ends {s : State} (h : s.RecordKept) (o : ProcOutcome) : (s.endProc o).RecordMoves .startNext :=
  ⟨(h.endProc o).1, fun _ => (h.endProc o).2⟩

theorem State.RecordKept.takeStep {s : State} (h : s.RecordKept) (st : StepId) :
    (s.takeStep st).2.RecordMoves (s.takeStep st).1 := by
  have hcurrent : (s.current st).RecordKept := h.setEngine rfl rfl nofun
  unfold State.takeStep
  dsimp only
  split
  · exact hcurrent.ends _
  · split
    next g _ =>
      have hwaits : (((s.current st).setEngine { (s.current st).engine with state := .waiting }).setProtection
          { (s.current st).protection with waiting := some g }).RecordKept :=
        hcurrent.of (hcurrent.protection.bookkeeping _ _ _) hcurrent.frost rfl rfl nofun
      split
      · exact hwaits.ends _
      · split
        · exact (hwaits.setProtection (hwaits.protection.answered g)).rests nofun
        · exact hwaits.rests nofun
    next => split <;> exact hcurrent.rests nofun

theorem State.RecordKept.driveOutputs {s : State} (h : s.RecordKept) : s.driveOutputs.RecordKept :=
  h.of h.protection h.frost rfl rfl id

theorem State.RecordKept.mark {s : State} (h : s.RecordKept) (st : StepId) : (s.mark st).RecordKept := by
  unfold State.mark
  split
  · exact h.of h.protection h.frost rfl rfl id
  · exact h

theorem State.RecordKept.applyStep {s : State} (h : s.RecordKept) : s.applyStep.2.RecordMoves s.applyStep.1 := by
  unfold State.applyStep
  split
  next => exact h.rests nofun
  next st _ =>
    have hready : (s.setEngine { s.engine with state := .running, delaying := false, stepTime := 0 }).RecordKept :=
      h.setEngine rfl rfl nofun
    have hmarked := (hready.act st).driveOutputs.mark st
    dsimp only
    split
    · unfold State.askSpacing
      split
      · exact hmarked.rests nofun
      · exact (hmarked.setProtection (hmarked.protection.bookkeeping _ _ _)).rests nofun
    · split <;> exact hmarked.rests nofun

theorem State.RecordKept.writeBoundary {s : State} (h : s.RecordKept) (st : StepId) (b : Bool) :
    (s.writeBoundary st b).RecordKept := by
  unfold State.writeBoundary
  dsimp only
  split
  · exact h.of h.protection (h.frost.settle _) rfl rfl id
  · exact h.setEngine rfl rfl id

theorem State.RecordKept.boundary {s : State} (h : s.RecordKept) (b : Bool) :
    (s.boundary b).2.RecordMoves (s.boundary b).1 := by
  unfold State.boundary
  split
  next => exact h.rests nofun
  next st _ =>
    have hwritten := h.writeBoundary st b
    dsimp only
    split
    · exact hwritten.ends _
    · split
      · exact hwritten.ends _
      · exact hwritten.rests nofun

theorem State.RecordKept.startNext {s : State} (h : s.RecordKept) (hn : s.engine.running = none) :
    s.startNext.2.RecordMoves s.startNext.1 := by
  unfold State.startNext
  split
  next => exact h.rests nofun
  next p _ =>
    have htaken : (s.setEngine { s.engine with requests := s.engine.requests.without p }).RecordKept :=
      h.setEngine rfl rfl id
    dsimp only
    split
    · exact (htaken.startProc hn p).rests nofun
    · exact ⟨htaken, fun _ => hn⟩

theorem State.RecordMoves.move {t : Todo} {s : State} (h : s.RecordMoves t) : (s.move t).2.RecordMoves (s.move t).1 := by
  cases t with
  | take st => exact h.kept.takeStep st
  | apply => exact h.kept.applyStep
  | boundary b => exact h.kept.boundary b
  | startNext => exact h.kept.startNext (h.free rfl)
  | rest => exact h

theorem State.RecordMoves.run {t : Todo} {s : State} (h : s.RecordMoves t) : (s.run t).RecordKept := by
  obtain ⟨_, hu⟩ := State.drive_keeps (P := fun t u => u.RecordMoves t) (fun _ _ hu => hu.move) 64 t s h
  exact hu.kept

theorem State.RecordKept.run {s : State} (h : s.RecordKept) (t : Todo) (ht : t ≠ .startNext) : (s.run t).RecordKept :=
  (h.rests ht).run

/-! ## Requests, and what asks for them (R134 to R150) -/

theorem State.RecordKept.entered {s : State} (h : s.RecordKept) (p : Proc) : (s.entered p).RecordKept := by
  unfold State.entered
  split
  next hidle => exact State.RecordMoves.run ⟨h, fun _ => h.between hidle⟩
  next =>
    split
    · exact (h.ends .preempted).run
    · exact h
  next => exact h
  next => exact h

theorem State.RecordKept.startEmergency {s : State} (h : s.RecordKept) (c : EmergencyCause) :
    (s.startEmergency c).RecordKept := by
  have hstart {u : State} (hu : u.RecordKept) (hn : u.engine.running = none) :
      ((u.startProc (.emergency c)).run (.take .e1)).RecordKept := (hu.startProc hn _).run _ nofun
  unfold State.startEmergency
  dsimp only
  split
  next => exact hstart (h.endProc _).1 (h.endProc _).2
  next hn => exact hstart h (by simpa using hn)

/-- The greater of two holds, each at most 300 s, stands (R147). -/
theorem State.RecordKept.mergeEmergency {s : State} (h : s.RecordKept) (hem : s.engine.inEmergency = true)
    (c : EmergencyCause) : (s.mergeEmergency c).RecordKept := by
  unfold State.mergeEmergency
  split
  · refine ⟨⟨h.protection, ⟨by cases c <;> simp [EmergencyCause.hold], nofun⟩, h.frost⟩, fun hidle => ?_⟩
    have hn := h.between hidle
    rw [Engine.inEmergency, hn] at hem
    cases hem
  · exact h

theorem State.RecordKept.mergeStop {s : State} (h : s.RecordKept) (r : StopReason) : (s.mergeStop r).RecordKept := by
  unfold State.mergeStop
  split
  next hc =>
    simp only [Bool.and_eq_true, decide_eq_true_eq] at hc
    obtain ⟨⟨⟨hstop, hwaits⟩, _⟩, _⟩ := hc
    have hrenamed : (s.setEngine { s.engine with running := some (.stop r) }).RecordKept := by
      refine ⟨⟨h.protection, ⟨h.hold.1, fun _ => h.hold.2 ?_⟩, h.frost⟩, fun hidle => ?_⟩
      · unfold Engine.inEmergency; rw [hstop]
      · have hidle : s.engine.state = .idle := hidle
        rw [hwaits] at hidle
        cases hidle
    exact hrenamed.withdrawRequest.run _ nofun
  next => exact h

theorem State.RecordKept.request {s : State} (h : s.RecordKept) (p : Proc) : (s.request p).RecordKept := by
  have asked (r : Requests) : (s.setRequests r).RecordKept := h.setEngine rfl rfl id
  unfold State.request
  split
  · cases p with
    | emergency c =>
      dsimp only
      split
      next hem => exact h.mergeEmergency hem c
      next => exact h.startEmergency c
    | stop r =>
      dsimp only [State.takeStop]
      split
      · exact h.mergeStop r
      · split
        · exact asked _
        · exact (asked _).entered _
    | defrost =>
      dsimp only [State.takeDefrost]
      split
      · exact h
      · exact (asked _).entered _
    | changeover =>
      dsimp only [State.takeChangeover]
      split
      · exact h
      · exact (asked _).entered _
    | start =>
      dsimp only [State.takeStart]
      split
      · exact h.setEngine rfl rfl id
      · split
        · exact h
        · exact (asked _).entered _
  · exact h

/-- A stage that may raise a request. -/
theorem State.RecordKept.raised {s : State} (h : s.RecordKept) (b : Prop) [Decidable b] (p : Proc) :
    (if b then s.request p else s).RecordKept := by
  split
  · exact h.request p
  · exact h

theorem State.RecordKept.setCapacity {s : State} (h : s.RecordKept) (c : Capacity) : (s.setCapacity c).RecordKept :=
  h.of h.protection h.frost rfl rfl id

theorem State.RecordKept.prompt {s : State} (h : s.RecordKept) : s.prompt.RecordKept :=
  h.of h.protection h.frost rfl rfl id

/-- The protective stages raise requests and move counts (R128 to R133). -/
theorem State.RecordKept.protectionStages {s : State} (h : s.RecordKept) : s.protectionStages.RecordKept := by
  have hstatic : s.staticTrip.RecordKept := (h.setCapacity _).raised _ _
  have hfloat : s.staticTrip.inverterTrip.condensateStop.RecordKept := (hstatic.raised _ _).raised _ _
  have hfreeze : s.staticTrip.inverterTrip.condensateStop.freezeStop.RecordKept := (hfloat.setCapacity _).raised _ _
  have hsupply : s.staticTrip.inverterTrip.condensateStop.freezeStop.supplyStop.RecordKept := hfreeze.raised _ _
  exact (hsupply.setCapacity _).raised _ _

theorem State.RecordKept.modeExpiry {s : State} (h : s.RecordKept) : s.modeExpiry.RecordKept := by
  have asked (g : Option Group) {u : State} (hu : u.RecordKept) : (u.requestForMode g).RecordKept := by
    unfold State.requestForMode
    split
    · split
      · split <;> exact hu.request _
      · exact hu
    · exact hu.raised _ _
  have hselected : s.selectMode.RecordKept := h.of h.protection h.frost rfl rfl id
  unfold State.modeExpiry
  dsimp only
  split
  · exact asked _ hselected.prompt
  · exact asked _ hselected

/-- A capacity period raises requests at the hand-off of C and at its counts (R114, R124, R125, R150). -/
theorem State.RecordKept.capacityPeriod {s : State} (h : s.RecordKept) : s.capacityPeriod.RecordKept := by
  have handed {u : State} (hu : u.RecordKept) : u.handOffC.RecordKept := by
    unfold State.handOffC
    split
    · exact (hu.ends _).run
    · exact hu
  have blown {u : State} (hu : u.RecordKept) : u.formAirflow.RecordKept := by
    unfold State.formAirflow
    dsimp only
    split
    · exact (hu.setCapacity _).prompt
    · exact hu.setCapacity _
  have ramped {u : State} (hu : u.RecordKept) : u.formSpeed.RecordKept := by
    unfold State.formSpeed
    split <;> exact hu.setCapacity _
  have hcounts : s.formC.adjustCaps.formRunning.formCounts.RecordKept :=
    (((handed (h.setCapacity _)).setCapacity _).setCapacity _).setCapacity _
  have hraised : s.formC.adjustCaps.formRunning.formCounts.raiseStart.raiseStop.RecordKept :=
    (hcounts.raised _ _).raised _ _
  exact ramped ((blown hraised).setCapacity _ |>.setCapacity _)

/-! ## The plant's timers -/

theorem State.RecordKept.settlePlant {s : State} (h : s.RecordKept) : s.settlePlant.RecordKept :=
  s.settlePlant_recordStill.kept h

theorem State.RecordKept.noteLockoutEnd {s : State} (h : s.RecordKept) (before : Option Nat) :
    (s.noteLockoutEnd before).RecordKept := by
  obtain ⟨l, hl⟩ := State.noteLockoutEnd_eq before s
  rw [hl]
  exact h.of h.protection h.frost rfl rfl id

theorem State.RecordKept.retainedAdvance {s : State} (h : s.RecordKept) : s.retainedAdvance.RecordKept := by
  obtain ⟨hretained, hlive⟩ := h.protection.older
  refine State.RecordKept.noteLockoutEnd (h.setProtection (Protection.Sound.countDown (Protection.Sound.refill ?_))) _
  split
  · exact hlive
  · exact hretained

theorem State.RecordKept.examineRequest {s : State} (h : s.RecordKept) : s.examineRequest.RecordKept := by
  unfold State.examineRequest
  split
  next g _ =>
    have hanswered : (s.answer g).RecordKept := h.setProtection (h.protection.answered g)
    split
    · dsimp only
      split <;> exact hanswered.run _ nofun
    · exact h
  next => exact h

/-- A second of the hold takes one from it (R147). -/
theorem State.RecordKept.holdSecond {s : State} (h : s.RecordKept) : s.holdSecond.RecordKept := by
  obtain ⟨hle, hnone⟩ := h.hold
  refine ⟨⟨h.protection, ⟨?_, fun he => ?_⟩, h.frost⟩, h.between⟩
  · show s.engine.emergencyHold - 1 ≤ 300
    omega
  · show s.engine.emergencyHold - 1 = 0
    rw [hnone he]

/-- A first outdoor reading raises the index to 6000 at most (R178). -/
theorem State.RecordKept.plantSensors {s : State} (h : s.RecordKept) (pins : PinSample) :
    (s.plantSensors pins).RecordKept := by
  rw [State.plantSensors_eq]
  have hindex := h.frost.index
  refine h.of h.protection { h.frost with index := ?_ } rfl rfl id
  dsimp only [State.setFrost]
  split <;> omega

theorem State.RecordKept.plantSensorExpiry {s : State} (h : s.RecordKept) (pins : PinSample) (first : Bool) :
    (s.plantSensorExpiry pins first).RecordKept := by
  have contacts (i c : Bool) {u : State} (hu : u.RecordKept) : (u.contactRequests i c).RecordKept :=
    (hu.raised (i = true) (.emergency .inverter)).raised _ _
  have exits {u : State} (hu : u.RecordKept) : u.examineSensorExit.RecordKept := by
    unfold State.examineSensorExit
    split
    · split
      · exact hu.run _ nofun
      · exact hu
    · exact hu
  unfold State.plantSensorExpiry
  dsimp only
  split
  · exact exits (contacts _ _ (h.plantSensors pins))
  · exact contacts _ _ (exits (h.plantSensors pins))

/-- The plant's timers keep the record. -/
theorem exec_plant_recordKept {c : Instr} {s t : State}
    (hc : c = .plantControlTimer ∨ c = .offHoldTimer ∨ c = .protectionTimer ∨ c = .listeningTimer ∨
      c = .stepDelayExpiry ∨ c = .stepTimeExit ∨ c = .stepTimeLimit ∨ c = .emergencyHoldTick ∨
      c = .retainedTimer ∨ c = .frostTimer)
    (hs : s.RecordKept) (h : exec c s = .next t) : t.RecordKept := by
  have still : advance s = .next t → t.RecordKept := next_of_advance hs
  have timed (n : Nat) : (s.stepTimeReaches n).RecordKept := hs.setEngine rfl rfl id
  have runs {u : State} (hu : u.RecordKept) {m : Todo} (hm : m ≠ .startNext) : (u.run m).settlePlant.RecordKept :=
    (hu.run m hm).settlePlant
  obtain rfl | rfl | rfl | rfl | rfl | rfl | rfl | rfl | rfl | rfl := hc
  · exact next_of_ite h (fun _ => next_of_advance hs.modeExpiry.capacityPeriod.settlePlant) still
  · refine next_of_ite h (fun _ => next_of_advance (State.RecordKept.settlePlant (.noteLockoutEnd ?_ _))) still
    exact hs.of { hs.protection with lockout := nofun } hs.frost rfl rfl id
  · exact next_of_ite h (fun _ => next_of_advance hs.protectionStages.settlePlant) still
  · exact next_of_ite h (fun _ => next_of_advance (hs.setEngine rfl rfl id)) still
  · exact next_of_ite h (fun _ => next_of_advance (runs hs nofun)) still
  · simp only [exec, execStepTimeExit] at h
    split at h
    · exact next_of_ite h (fun _ => next_of_advance (runs (timed _) nofun)) still
    · exact still h
  · simp only [exec, execStepTimeLimit] at h
    split at h
    · exact next_of_ite h (fun _ => next_of_advance (runs (timed _) nofun)) still
    · exact still h
  · rw [exec_emergencyHoldTick] at h
    cases h
    split
    · split
      · exact runs hs.holdSecond nofun
      · exact hs.holdSecond
    · exact hs
  · refine next_of_ite h (fun _ => still) fun h => next_of_ite h (fun _ => ?_) (next_of_advance hs.retainedAdvance)
    exact next_of_advance hs.retainedAdvance.examineRequest.settlePlant
  · have hadvanced : s.frostAdvance.RecordKept := hs.setFrost (State.frostAdvance_sound hs.frost)
    refine next_of_ite h (fun _ h => ?_) still
    exact next_of_ite h (fun _ => next_of_advance (hadvanced.request _).settlePlant) (next_of_advance hadvanced)

/-! ## The table, the zone's blocks, the head link and the sensors -/

theorem State.RecordKept.settle {s : State} (h : s.RecordKept) : s.settle.RecordKept :=
  h.of h.protection h.frost rfl rfl id

theorem State.RecordKept.ageEntry {s : State} (h : s.RecordKept) (a : Nat) : (s.ageEntry a).RecordKept := by
  have setPeers (p : Peers) : (s.setPeers p).RecordKept := h.of h.protection h.frost rfl rfl id
  unfold State.ageEntry
  split
  · exact h
  · split
    · unfold State.ageOut
      split
      · split
        · exact setPeers _
        · exact h
      · split
        · dsimp only
          split
          · exact (State.evaluatePlant_zone _ _).recordStill.kept (setPeers _)
          · exact setPeers _
          · exact setPeers _
        · exact h
    · exact h

theorem State.ageEntries_recordKept (l : List Nat) :
    ∀ {s : State}, s.RecordKept → (l.foldl State.ageEntry s).RecordKept := by
  induction l with
  | nil => exact id
  | cons a l ih => exact fun h => ih (h.ageEntry a)

/-- The timers of the table and of the zone, the head link and the sensors keep the record. -/
theorem exec_zone_recordKept {c : Instr} {s t : State}
    (hc : c = .ageTimer ∨ c = .graceTimer ∨ (∃ l, c = .headFrameArrival l) ∨ (∃ l, c = .headFrameAbandoned l) ∨
      c = .lossTimer ∨ c = .demandTimer ∨ (∃ b, c = .homingStepCompletion b) ∨ (∃ b, c = .stepCompletion b) ∨
      c = .budgetRefillTimer ∨ c = .rehomeAgeTimer ∨ ∃ p b, c = .sensorTimer p b)
    (hs : s.RecordKept) (h : exec c s = .next t) : t.RecordKept := by
  have still : advance s = .next t → t.RecordKept := next_of_advance hs
  have moved {u : State} (f : RecordStill s u) : advance u = .next t → t.RecordKept := next_of_advance (f.kept hs)
  have recomputed {u : State} (f : RecordStill s u) : advance u.recompute.settle = .next t → t.RecordKept :=
    next_of_advance (u.recompute_zone.recordStill.kept (f.kept hs)).settle
  have headed (octets : List Byte) : RecordStill s (octets.foldl State.headOctet s) := by
    rw [s.headOctets_headFrame octets]
    exact ⟨rfl, rfl, rfl⟩
  obtain rfl | rfl | ⟨octets, rfl⟩ | ⟨octets, rfl⟩ | rfl | rfl | ⟨stall, rfl⟩ | ⟨stall, rfl⟩ | rfl | rfl |
    ⟨pins, first, rfl⟩ := hc
  · refine next_of_ite h (fun _ => next_of_advance ?_) still
    have haged : (s.setPeers (s.peers.older s.address)).RecordKept := hs.of hs.protection hs.frost rfl rfl id
    exact (State.ageEntries_recordKept _ haged).settle
  · refine next_of_ite h (fun _ h => next_of_ite h (fun _ => recomputed ?_) (moved ?_)) still
    · exact ⟨rfl, rfl, rfl⟩
    · exact ⟨rfl, rfl, rfl⟩
  · exact next_of_ite h (fun _ => moved (headed octets)) still
  · refine next_of_ite h (fun _ => moved ?_) still
    exact ⟨(headed octets).engine, (headed octets).protection, (headed octets).frost⟩
  · exact next_of_ite h (fun _ => moved ⟨rfl, rfl, rfl⟩) still
  · refine next_of_ite h (fun _ => recomputed ?_) still
    split <;> exact ⟨rfl, rfl, rfl⟩
  · exact next_of_ite h (fun _ => moved ⟨rfl, rfl, rfl⟩) still
  · refine next_of_ite h (fun _ h => next_of_ite h (fun _ => recomputed ?_) (moved ?_)) still
    · exact ⟨rfl, rfl, rfl⟩
    · exact ⟨rfl, rfl, rfl⟩
  · exact next_of_ite h (fun _ => moved ⟨rfl, rfl, rfl⟩) still
  · exact next_of_ite h (fun _ => moved ⟨rfl, rfl, rfl⟩) still
  · refine next_of_ite h (fun _ h => ?_) still
    split at h
    · refine moved ?_ h
      unfold State.zoneSensors
      dsimp only
      split <;> exact ⟨rfl, rfl, rfl⟩
    · exact next_of_advance (hs.plantSensorExpiry pins first).settlePlant h

/-! ## The line's own events (R17, R35, R153) -/

/-- A plant that stands aside closes its run and has no procedure and no hold (R35, R153, R162). -/
theorem State.RecordKept.dropPlant {s : State} (h : s.RecordKept) : s.dropPlant.RecordKept := by
  have hclosed := (h.runOff.driveValve (deEnergised s.loader.straps.energised)).closeRun .standby
  have hend {u : State} (hu : u.RecordKept) : (u.withdrawRequest.setRequests .empty).driveOutputs.RecordKept :=
    hu.of (hu.protection.bookkeeping _ _ _) hu.frost rfl rfl id
  unfold State.dropPlant
  dsimp only
  split
  · exact hend (hclosed.endProc _).1
  · exact hend hclosed

theorem State.RecordKept.setLine {s : State} (h : s.RecordKept) (l : LineState) : (s.setLine l).RecordKept :=
  h.of h.protection h.frost rfl rfl id

theorem State.RecordKept.enterYielded {s : State} (h : s.RecordKept) : s.enterYielded.RecordKept := by
  unfold State.enterYielded
  split
  · exact h
  · dsimp only
    split
    · exact ((State.yieldDemand_zone _).trans (State.recompute_zone _)).recordStill.kept (h.setLine _)
    · exact (h.setLine _).dropPlant

theorem State.RecordKept.detectPlant {s : State} (h : s.RecordKept) (a : Nat) (r : PlantRecord) (b : Bool) :
    (s.detectPlant a r b).RecordKept := by
  unfold State.detectPlant
  split
  · exact h
  · split
    · unfold State.enterStandby
      split
      · exact h
      · exact State.RecordKept.dropPlant (h.setEngine rfl rfl id)
    · split
      · exact h
      · exact h.setLine _

theorem State.RecordKept.acceptFrame {s : State} (h : s.RecordKept) (x : Byte) (p : List Byte) :
    (s.acceptFrame x p).RecordKept := by
  unfold State.acceptFrame
  split
  · exact h
  · split
    · rw [State.compareTag_eq]
      split
      · exact State.RecordKept.enterYielded (h.setLine _)
      · exact h.setLine _
    · have htaken (q : Peers) : (s.setPeers q).RecordKept := h.of h.protection h.frost rfl rfl id
      unfold State.takeReport
      dsimp only
      split
      · exact (htaken _).detectPlant _ _ _
      · exact htaken _
      · exact (State.evaluatePlant_zone _ _).recordStill.kept (htaken _)
      · split
        · exact (State.evaluatePlant_zone _ _).recordStill.kept (htaken _)
        · exact htaken _

theorem State.RecordKept.keptByOctets : KeptByOctets State.RecordKept State.RecordKept :=
  ⟨id, fun l h => h.setLine l, fun x p _ h => h.acceptFrame x p, State.RecordKept.settlePlant⟩

/-! ## Resets and the load (R166 to R168, R179, R187) -/

/-- READY starts the valve age from 0 in a plant and lets the retained items go on (R167, R187). -/
theorem State.RecordKept.becomeReady {s : State} (h : s.RecordKept) : s.becomeReady.RecordKept := by
  have hheld : ({ s.protection with held := false } : Protection).Sound := h.protection.bookkeeping _ _ _
  unfold State.becomeReady
  dsimp only
  split
  · exact h.of hheld h.frost rfl rfl id
  · refine State.RecordKept.settlePlant ?_
    exact h.of { hheld with valveAge := Nat.zero_le _ } h.frost rfl rfl id

theorem State.RecordKept.setLoader {s : State} (h : s.RecordKept) (l : Loader) : (s.setLoader l).RecordKept :=
  h.of h.protection h.frost rfl rfl id

theorem State.RecordKept.loadDefaults {s : State} (h : s.RecordKept) (r : LoadResult) :
    (s.loadDefaults r).RecordKept := by
  obtain ⟨l, _, e⟩ := s.loadDefaults_cases r
  rw [e]
  exact (h.setLoader l).becomeReady

/-- An engine at its reset values has no hold and no procedure (R134). -/
theorem State.RecordKept.ofReset {s : State} (hp : s.protection.Sound) (hf : s.frost.Sound) {v : Valve}
    (he : s.engine = .reset v) : s.RecordKept where
  protection := hp
  hold := by rw [he]; exact ⟨Nat.zero_le _, fun _ => rfl⟩
  frost := hf
  between _ := by rw [he]; rfl

/-- What the RESET input leaves of the record: the run closed, the retained items, and the index (R166, R168, R179). -/
theorem State.RecordKept.retain {s : State} (h : s.RecordKept) :
    s.closeAtReset.protection.retain.Sound ∧ s.closeAtReset.frost.retain.Sound := by
  have hclosed : s.closeAtReset.protection.Sound ∧ s.closeAtReset.frost.Sound := by
    have hrun := h.closeRun .reset
    unfold State.closeAtReset
    split
    · exact ⟨{ hrun.protection with stopAge := Nat.zero_le _ }, hrun.frost⟩
    · exact ⟨h.protection, h.frost⟩
  obtain ⟨hp, hf⟩ := hclosed
  exact ⟨{ hp with valveAge := Nat.zero_le _, run := nofun }, { Frost.reset_sound with index := hf.index }⟩

/-- The resets and the load keep the record. -/
theorem exec_load_recordKept {c : Instr} {s t : State}
    (hc : c = .powerOnReset ∨ c = .resetInputAsserted ∨ (∃ k st, c = .resetRelease k st) ∨
      (∃ l, c = .readAttempt l) ∨ c = .readRetryTimer)
    (hs : s.RecordKept) (h : exec c s = .next t) : t.RecordKept := by
  have still : advance s = .next t → t.RecordKept := next_of_advance hs
  obtain rfl | rfl | ⟨kind, straps, rfl⟩ | ⟨octets, rfl⟩ | rfl := hc
  · exact next_of_advance (.ofReset Protection.reset_sound Frost.reset_sound rfl) h
  · exact next_of_advance (.ofReset hs.retain.1 hs.retain.2 rfl) h
  · refine next_of_ite h (fun _ h => next_of_ite h (fun _ => ?_) (next_of_advance ?_)) still
    · exact next_of_advance (hs.setLoader _)
    · have hlatched : (State.latch straps (s.setLoader (s.loader.release kind))).RecordKept :=
        .ofReset hs.protection hs.frost rfl
      unfold State.beginLoad
      split
      · exact hlatched.setLoader _
      · split
        · exact hlatched.setLoader _
        · exact hlatched.loadDefaults _
  · refine next_of_ite h (fun _ h => next_of_ite h (fun _ => next_of_advance ?_) (next_of_advance ?_)) still
    · unfold State.readFailed
      split
      · exact hs.setLoader _
      · exact hs.loadDefaults _
    · obtain ⟨l, _, e⟩ := s.checkImage_cases (octets.take imageLength)
      rw [e]
      exact (hs.setLoader l).becomeReady
  · exact next_of_ite h (fun _ => next_of_advance (hs.setLoader _)) still

/-! ## Every step -/

theorem exec_recordKept {c : Instr} {s t : State} (hs : s.RecordKept) (h : exec c s = .next t) : t.RecordKept := by
  cases c with
  | powerOnReset | resetInputAsserted | resetRelease | readAttempt | readRetryTimer =>
    exact exec_load_recordKept (by simp) hs h
  | tokenRefillTimer | lineIdle | attemptBegin | attemptComplete | collision | frameReceived | frameAbandoned
  | zonePeriodicTimer | plantPeriodicTimer | summaryTimer | startBitSeen | framingError =>
    exact State.RecordKept.keptByOctets.exec_line (fun l hu => hu.setLine l) (by simp) hs h
  | ageTimer | graceTimer | headFrameArrival | headFrameAbandoned | lossTimer | demandTimer | homingStepCompletion
  | stepCompletion | budgetRefillTimer | rehomeAgeTimer | sensorTimer => exact exec_zone_recordKept (by simp) hs h
  | listeningTimer | stepDelayExpiry | stepTimeExit | stepTimeLimit | emergencyHoldTick | retainedTimer
  | plantControlTimer | offHoldTimer | protectionTimer | frostTimer => exact exec_plant_recordKept (by simp) hs h

/-- Settles O10: every command keeps the record of an engine that runs no procedure while IDLE, which a sound plant's
does not; the queue is no part of it. -/
theorem protectionStaysSound : Obligations.ProtectionStaysSound := by
  intro s t hplant hs h
  have hkept : s.RecordKept := ⟨hs, hplant.between⟩
  obtain ⟨_, rfl⟩ | ⟨c, rest, _, hx⟩ := step_cases h
  · exact hs
  · exact (exec_recordKept (s := s.setPending rest) (hkept.of hs.protection hs.frost rfl rfl id) hx).toRecordSound

end Sys2Proof.Machine
end

