-- ==== Sys2Proof/Proofs/EngineRests.lean ====
section
/-! PROOFS. The engine comes to rest inside one event: each of its moves makes a rank smaller, which the pending set and
the links of a chain bound (R138, R140, R141, R148). -/

namespace Sys2Proof.Machine

/-! ## The pending set inside an event (R137, R138) -/

/-- How many requests are pending. -/
def Requests.size (r : Requests) : Nat :=
  r.stop.isSome.toNat + r.defrost.toNat + r.changeover.toNat + r.start.toNat

theorem Requests.size_le (r : Requests) : r.size ≤ 4 := by
  have := r.stop.isSome.toNat_le
  have := r.defrost.toNat_le
  have := r.changeover.toNat_le
  have := r.start.toNat_le
  unfold Requests.size
  omega

/-- The request that is taken leaves its place (R138). -/
theorem Requests.size_without_top {r : Requests} {p : Proc} (h : r.top = some p) : (r.without p).size + 1 = r.size := by
  unfold Requests.top at h
  split at h
  next reason hstop => cases h; simp [Requests.without, Requests.size, hstop]; omega
  next hstop =>
    split at h
    next hd => cases h; simp [Requests.without, Requests.size, hstop, hd]; omega
    next =>
      split at h
      next hc => cases h; simp [Requests.without, Requests.size, hstop, hc]; omega
      next =>
        split at h
        next hs => cases h; simp [Requests.without, Requests.size, hstop, hs]
        next => cases h

/-- A pending set that has lost at most its START. -/
def Requests.MayLoseStart (q r : Requests) : Prop := r = q ∨ r = { q with start := false }

theorem Requests.MayLoseStart.size_le {q r : Requests} (h : q.MayLoseStart r) : r.size ≤ q.size := by
  obtain rfl | rfl := h
  · exact Nat.le_refl _
  · exact Nat.le_add_right _ _

/-- A run that closes can begin a LOCKOUT, which removes a pending START (R137, R164). -/
theorem State.closeRun_mayLoseStart (c : StopCause) (s : State) :
    s.engine.requests.MayLoseStart (s.closeRun c).engine.requests := by
  unfold State.closeRun
  split
  · exact .inl rfl
  · dsimp only
    split
    · unfold State.beginLockout
      dsimp only
      split <;> exact .inr rfl
    · exact .inl rfl

/-- No action of a step asks for a procedure (R142 to R147). -/
theorem State.act_mayLoseStart (st : StepId) (s : State) :
    s.engine.requests.MayLoseStart (s.act st).engine.requests := by
  have hoff : s.runOff.engine.requests = s.engine.requests := by rw [s.runOff_engine]
  have hvalve (v : Valve) : (s.driveValve v).engine.requests = s.engine.requests := by
    rw [State.driveValve_engine]
  have hmode : s.driveModeValve.engine.requests = s.engine.requests := by
    unfold State.driveModeValve
    split
    · exact hvalve _
    · rfl
  have hclosed (c : StopCause) : s.engine.requests.MayLoseStart (s.runOff.closeRun c).engine.requests :=
    hoff ▸ State.closeRun_mayLoseStart c s.runOff
  cases st with
  | s2 | x3 => exact .inl hmode
  | d3 | d8 => exact .inl (hvalve _)
  | t1 | x1 | e1 => exact hclosed _
  | d1 | d6 => exact .inl hoff
  | s1 | s3 | s4 | t2 | t3 | x2 | d2 | d4 | d5 | d7 | d9 | d10 | e2 => exact .inl rfl

/-! ## The rank of a move -/

/-- A bound of the moves from a step that is taken to the next procedure's start or to rest. -/
def StepId.ahead (st : StepId) : Nat :=
  match st with
  | .s1 => 1 | .s2 => 7 | .s3 => 4 | .s4 => 1
  | .t1 => 4 | .t2 => 1 | .t3 => 3
  | .x1 => 10 | .x2 => 7 | .x3 => 4
  | .d1 => 4 | .d2 => 1 | .d3 => 4 | .d4 => 1 | .d5 => 7 | .d6 => 4 | .d7 => 1 | .d8 => 4 | .d9 => 1 | .d10 => 3
  | .e1 => 6 | .e2 => 3

/-- The same bound at the step's boundary. -/
def StepId.aheadOfBoundary (st : StepId) : Nat :=
  match st.next with
  | none => 1
  | some n => n.ahead + 1

/-- The same bound as the step's action is applied; a step that takes time rests there. -/
def StepId.aheadOfAction (st : StepId) : Nat :=
  match st with
  | .s1 | .s4 | .t2 | .d2 | .d7 => 0
  | .s2 | .s3 | .t1 | .t3 | .x1 | .x2 | .x3 | .d1 | .d3 | .d4 | .d5 | .d6 | .d8 | .d9 | .d10 | .e1 | .e2 =>
    st.aheadOfBoundary + 1

theorem StepId.ahead_le (st : StepId) : st.ahead ≤ 10 := by cases st <;> decide

theorem StepId.ahead_pos (st : StepId) : 0 < st.ahead := by cases st <;> decide

theorem StepId.aheadOfBoundary_le (st : StepId) : st.aheadOfBoundary ≤ 10 := by cases st <;> decide

theorem StepId.aheadOfBoundary_pos (st : StepId) : 0 < st.aheadOfBoundary := by cases st <;> decide

theorem StepId.aheadOfAction_le (st : StepId) : st.aheadOfAction ≤ 10 := by cases st <;> decide

/-- A step without a delay comes before its action. -/
theorem StepId.aheadOfAction_lt {st : StepId} (h : st.delay = none) : st.aheadOfAction < st.ahead := by
  revert h; cases st <;> decide

/-- A step with a guard has no delay (R142, R143, R145, R146). -/
theorem State.delay_of_guardOf {s : State} {st : StepId} {g : GuardRequest} (h : s.guardOf st = some g) :
    st.delay = none := by
  cases st with
  | d4 | d9 => cases h
  | s1 | s2 | s3 | s4 | t1 | t2 | t3 | x1 | x2 | x3 | d1 | d2 | d3 | d5 | d6 | d7 | d8 | d10 | e1 | e2 => rfl

/-- The steps that take time reach no boundary as their action is applied (R140). -/
theorem State.aheadOfAction_of_exitHolds {s : State} {st : StepId} (h : s.exitHolds st = true) :
    st.aheadOfAction = st.aheadOfBoundary + 1 := by
  cases st with
  | s1 | s4 | t2 | d2 | d7 => cases h
  | s2 | s3 | t1 | t3 | x1 | x2 | x3 | d1 | d3 | d4 | d5 | d6 | d8 | d9 | d10 | e1 | e2 => rfl

/-- The moves ahead of the running procedure. -/
def State.movesAhead (s : State) (t : Todo) : Nat :=
  match t with
  | .take st => st.ahead
  | .apply => (s.engine.step.map StepId.aheadOfAction).getD 0
  | .boundary _ => (s.engine.step.map StepId.aheadOfBoundary).getD 0
  | .startNext | .rest => 0

/-- The rank of a move: every procedure that may start has 11 moves, and rest has none. -/
def State.moveRank (s : State) (t : Todo) : Nat :=
  match t with
  | .rest => 0
  | .take _ | .apply | .boundary _ | .startNext => s.movesAhead t + 11 * s.engine.requests.size + 1

theorem State.movesAhead_le (s : State) (t : Todo) : s.movesAhead t ≤ 10 := by
  have hstep (f : StepId → Nat) (hf : ∀ st, f st ≤ 10) : (s.engine.step.map f).getD 0 ≤ 10 := by
    cases s.engine.step with
    | none => exact Nat.zero_le _
    | some st => exact hf st
  cases t with
  | take st => exact st.ahead_le
  | apply => exact hstep _ StepId.aheadOfAction_le
  | boundary b => exact hstep _ StepId.aheadOfBoundary_le
  | startNext | rest => exact Nat.zero_le _

theorem State.moveRank_le (s : State) (t : Todo) : s.moveRank t ≤ 55 := by
  have := s.movesAhead_le t
  have := s.engine.requests.size_le
  cases t <;> simp only [State.moveRank] <;> omega

/-- The moves of a procedure come before those of the requests that stand. -/
theorem State.moveRank_lt {s u : State} {t t' : Todo} (ht : t ≠ .rest)
    (hsize : u.engine.requests.size ≤ s.engine.requests.size)
    (hahead : t' = .rest ∨ u.movesAhead t' < s.movesAhead t) : u.moveRank t' < s.moveRank t := by
  have hrank : s.moveRank t = s.movesAhead t + 11 * s.engine.requests.size + 1 := by
    cases t with
    | rest => exact absurd rfl ht
    | take st => rfl
    | apply => rfl
    | boundary b => rfl
    | startNext => rfl
  have hnext : u.moveRank t' ≤ u.movesAhead t' + 11 * u.engine.requests.size + 1 := by
    cases t' with
    | rest => exact Nat.zero_le _
    | take st => exact Nat.le_refl _
    | apply => exact Nat.le_refl _
    | boundary b => exact Nat.le_refl _
    | startNext => exact Nat.le_refl _
  obtain rfl | hahead := hahead
  · rw [hrank]; exact Nat.succ_pos _
  · omega

/-! ## Each move makes the rank smaller -/

theorem State.takeStep_rank (s : State) (st : StepId) :
    (s.takeStep st).2.moveRank (s.takeStep st).1 < s.moveRank (.take st) := by
  have hend (u : State) (o : ProcOutcome) (hu : u.engine.requests = s.engine.requests) :
      (u.endProc o).moveRank .startNext < s.moveRank (.take st) :=
    State.moveRank_lt nofun (by rw [State.endProc_requests, hu]) (.inr st.ahead_pos)
  have hrest (u : State) : u.moveRank .rest < s.moveRank (.take st) := Nat.succ_pos _
  unfold State.takeStep
  dsimp only
  split
  · exact hend _ _ rfl
  · split
    next g hg =>
      split
      · exact hend _ _ rfl
      · split
        · exact State.moveRank_lt nofun (Nat.le_refl _) (.inr (StepId.aheadOfAction_lt (State.delay_of_guardOf hg)))
        · exact hrest _
    next =>
      split
      · exact hrest _
      next hdelay =>
        have hdelay : st.delay = none := Option.not_isSome_iff_eq_none.1 hdelay
        exact State.moveRank_lt nofun (Nat.le_refl _) (.inr (StepId.aheadOfAction_lt hdelay))

theorem State.applyStep_rank (s : State) : s.applyStep.2.moveRank s.applyStep.1 < s.moveRank .apply := by
  have hrest (u : State) : u.moveRank .rest < s.moveRank .apply := Nat.succ_pos _
  unfold State.applyStep
  split
  next => exact hrest _
  next st hst =>
    generalize hready : s.setEngine { s.engine with state := .running, delaying := false, stepTime := 0 } = u
    have hrequests : u.engine.requests = s.engine.requests := by rw [← hready]; rfl
    have hstep : u.engine.step = some st := by rw [← hready]; exact hst
    obtain ⟨_, hmarked, _⟩ := State.applied_procedure st u
    have hsize : ((u.act st).driveOutputs.mark st).engine.requests.size ≤ s.engine.requests.size := by
      have hacted := (State.act_mayLoseStart st u).size_le
      have hmark (v : State) : (v.mark st).engine.requests = v.engine.requests := by unfold State.mark; split <;> rfl
      rw [hmark, ← hrequests]
      exact hacted
    have hboundary (v : State) (hv : v = (u.act st).driveOutputs.mark st)
        (hwaits : st.aheadOfAction = st.aheadOfBoundary + 1) : v.moveRank (.boundary false) < s.moveRank .apply := by
      refine State.moveRank_lt nofun (by rw [hv]; exact hsize) (.inr ?_)
      simp only [State.movesAhead, hv, hmarked, hstep, hst, Option.map_some, Option.getD_some, hwaits]
      omega
    dsimp only
    split
    next hx2 =>
      unfold State.askSpacing
      split
      · exact hboundary _ rfl (by rw [hx2]; rfl)
      · exact hrest _
    · split
      next hexit =>
        exact hboundary _ rfl (State.aheadOfAction_of_exitHolds hexit)
      next => exact hrest _

theorem State.boundary_rank (s : State) (b : Bool) :
    (s.boundary b).2.moveRank (s.boundary b).1 < s.moveRank (.boundary b) := by
  unfold State.boundary
  split
  next => exact Nat.succ_pos _
  next st hst =>
    have hwritten : (s.writeBoundary st b).engine.requests = s.engine.requests := State.writeBoundary_requests st b s
    have hahead : s.movesAhead (.boundary b) = st.aheadOfBoundary := by simp [State.movesAhead, hst]
    have hend (o : ProcOutcome) :
        ((s.writeBoundary st b).endProc o).moveRank .startNext < s.moveRank (.boundary b) := by
      refine State.moveRank_lt nofun (by rw [State.endProc_requests, hwritten]) (.inr ?_)
      rw [hahead]
      exact st.aheadOfBoundary_pos
    dsimp only
    split
    · exact hend _
    next n hn =>
      split
      · exact hend _
      · refine State.moveRank_lt nofun (by rw [hwritten]) (.inr ?_)
        rw [hahead]
        show n.ahead < st.aheadOfBoundary
        unfold StepId.aheadOfBoundary
        rw [hn]
        exact Nat.lt_succ_self _

theorem State.startNext_rank (s : State) : s.startNext.2.moveRank s.startNext.1 < s.moveRank .startNext := by
  unfold State.startNext
  split
  next => exact Nat.succ_pos _
  next p hp =>
    have hsize := Requests.size_without_top hp
    dsimp only
    split
    · have hahead := p.first.ahead_le
      show p.first.ahead + 11 * (s.engine.requests.without p).size + 1 < 0 + 11 * s.engine.requests.size + 1
      omega
    · show 0 + 11 * (s.engine.requests.without p).size + 1 < 0 + 11 * s.engine.requests.size + 1
      omega

theorem State.move_rank (s : State) {t : Todo} (ht : t ≠ .rest) : (s.move t).2.moveRank (s.move t).1 < s.moveRank t := by
  cases t with
  | take st => exact s.takeStep_rank st
  | apply => exact s.applyStep_rank
  | boundary b => exact s.boundary_rank b
  | startNext => exact s.startNext_rank
  | rest => exact absurd rfl ht

/-- As many moves as the rank bring the engine to rest: no more of them change anything (R138, R140). -/
theorem State.drive_of_moveRank_le (m : Nat) :
    ∀ (n : Nat) (t : Todo) (s : State), s.moveRank t ≤ n → s.drive (n + m) t = s.drive n t := by
  intro n
  induction n with
  | zero =>
    intro t s h
    cases t with
    | rest => rw [State.drive_rest, State.drive_rest]
    | take st => exact absurd h (Nat.not_succ_le_zero _)
    | apply => exact absurd h (Nat.not_succ_le_zero _)
    | boundary b => exact absurd h (Nat.not_succ_le_zero _)
    | startNext => exact absurd h (Nat.not_succ_le_zero _)
  | succ n ih =>
    intro t s h
    by_cases ht : t = .rest
    · rw [ht, State.drive_rest, State.drive_rest]
    · have hless := s.move_rank ht
      rw [Nat.add_right_comm, State.drive_succ, State.drive_succ]
      exact ih _ _ (by omega)

/-- Settles O13: the rank of every move is at most 55, and each move makes it smaller. -/
theorem engineRestsWithinItsMoves : Obligations.EngineRestsWithinItsMoves := fun m t s =>
  State.drive_of_moveRank_le m 64 t s ((s.moveRank_le t).trans (by decide))

end Sys2Proof.Machine
end

