-- ==== Sys2Proof/Proofs/PendingSet.lean ====
section
/-! PROOFS. What becomes of a request: dropped, refused, merged with one of its kind, or taken into the pending set, where
it stands while a step of no lower priority runs (R136, R137, R144). -/

namespace Sys2Proof.Machine

section
variable {s : State}

/-! ## The engine takes requests (R134, R136) -/

theorem State.request_stop_heard (hl : s.engine.listening = .expired) (ha : s.aside = false) (r : StopReason) :
    s.request (.stop r) = s.takeStop r := by simp [State.request, hl, ha]

theorem State.request_start_heard (hl : s.engine.listening = .expired) (ha : s.aside = false) :
    s.request .start = s.takeStart := by simp [State.request, hl, ha]

theorem State.request_changeover_heard (hl : s.engine.listening = .expired) (ha : s.aside = false) :
    s.request .changeover = s.takeChangeover := by simp [State.request, hl, ha]

theorem State.request_defrost_heard (hl : s.engine.listening = .expired) (ha : s.aside = false) :
    s.request .defrost = s.takeDefrost := by simp [State.request, hl, ha]

/-! ## A procedure that stands (R136, R148) -/

/-- A running step is not displaced. -/
theorem State.entered_running (h : s.engine.state = .running) (p : Proc) : s.entered p = s := by
  simp [State.entered, h]

/-- Nothing outranked by START waits, since START is the lowest priority. -/
theorem State.entered_start_waiting (h : s.engine.state = .waiting) : s.entered .start = s := by
  unfold State.entered
  rw [h]
  cases hr : s.engine.running with
  | none => rfl
  | some q =>
    have hlow : ¬ q.priority < Proc.start.priority := by cases q <;> simp [Proc.priority]
    exact if_neg hlow

theorem Engine.stopping_eq_false {e : Engine} (h : ∀ q, e.running ≠ some (.stop q)) : e.stopping = false := by
  unfold Engine.stopping
  split
  next q hq => exact absurd hq (h q)
  all_goals rfl

theorem Engine.stopping_of_running {e : Engine} {q : StopReason} (h : e.running = some (.stop q)) :
    e.stopping = true := by rw [Engine.stopping, h]

/-! ## Each kind of request -/

theorem State.takeStart_refused (h : s.protection.lockout.isSome = true) :
    s.takeStart = s.setEngine { s.engine with refused := s.engine.refused + 1 } := if_pos h

theorem State.takeStart_stands (hk : s.protection.lockout = none)
    (h : s.engine.running = some .start ∨ s.engine.requests.start = true) : s.takeStart = s := by
  unfold State.takeStart
  obtain h | h := h <;> simp [hk, h]

/-- A START that is taken withdraws a pending STOP (R137). -/
theorem State.takeStart_enters (hk : s.protection.lockout = none) (hr : s.engine.running ≠ some .start)
    (hq : s.engine.requests.start = false) :
    s.takeStart = (s.setRequests { s.engine.requests with start := true, stop := none }).entered .start := by
  simp [State.takeStart, hk, hr, hq]

theorem State.takeChangeover_stands
    (h : s.engine.running = some .changeover ∨ s.engine.requests.changeover = true) : s.takeChangeover = s := by
  unfold State.takeChangeover
  obtain h | h := h <;> simp [h]

/-- A CHANGEOVER that is taken withdraws a pending START (R137). -/
theorem State.takeChangeover_enters (hr : s.engine.running ≠ some .changeover)
    (hq : s.engine.requests.changeover = false) :
    s.takeChangeover =
      (s.setRequests { s.engine.requests with changeover := true, start := false }).entered .changeover := by
  simp [State.takeChangeover, hr, hq]

/-- A DEFROST makes sense in HEAT-running alone (R136, R138). -/
theorem State.takeDefrost_drops
    (h : s.engine.running = some .defrost ∨ s.engine.requests.defrost = true ∨ s.modeSel.mode ≠ .heat ∨
      s.engine.run = false ∨ s.engine.valve = .cooling) : s.takeDefrost = s := by
  unfold State.takeDefrost
  obtain h | h | h | h | h := h <;> simp [Engine.defrosting, State.sensible, h]

theorem State.takeDefrost_enters (hr : s.engine.running ≠ some .defrost) (hq : s.engine.requests.defrost = false)
    (hm : s.modeSel.mode = .heat) (hon : s.engine.run = true) (hv : s.engine.valve = .heating) :
    s.takeDefrost = (s.setRequests { s.engine.requests with defrost := true }).entered .defrost := by
  simp [State.takeDefrost, Engine.defrosting, State.sensible, hr, hq, hm, hon, hv]

/-- A STOP that meets a running one changes nothing, but for a protective one over an ordinary one at T1 (R136, R144). -/
theorem State.takeStop_meets {q r : StopReason} (hr : s.engine.running = some (.stop q))
    (h : q ≠ .demand ∨ s.engine.step ≠ some .t1 ∨ s.engine.state ≠ .waiting ∨ r = .demand) : s.takeStop r = s := by
  have hmerge : s.mergeStop r = s := by
    unfold State.mergeStop
    obtain h | h | h | h := h <;> simp [hr, h]
  simp [State.takeStop, Engine.stopping_of_running hr, hmerge]

/-- Of two STOPs that merge the protective one stands, and the newer when both are (R136). -/
theorem State.takeStop_merges {old : StopReason} (hn : ∀ q, s.engine.running ≠ some (.stop q))
    (hq : s.engine.requests.stop = some old) (r : StopReason) :
    s.takeStop r = s.setRequests { s.engine.requests with stop := some (if r = .demand then old else r) } := by
  simp [State.takeStop, Engine.stopping_eq_false hn, hq, mergeReason]

end

/-- A LOCKOUT that begins removes a pending START and counts it (R137, R164). -/
theorem State.beginLockout_withdraws (s : State) :
    s.beginLockout.engine.requests = { s.engine.requests with start := false } ∧
      s.beginLockout.engine.refused =
        (if s.engine.requests.start = true then s.engine.refused + 1 else s.engine.refused) ∧
      s.beginLockout.protection.lockout = some 1800 := by
  unfold State.beginLockout
  dsimp only
  split <;> exact ⟨rfl, rfl, rfl⟩

/-- Settles O50: each kind of request by the running procedure, the pending set and LOCKOUT. -/
theorem requestsJoinThePendingSet : Obligations.RequestsJoinThePendingSet := by
  refine ⟨fun s p ha => State.request_aside ha p, fun s hl ha => ?_, fun s hl ha p hp => ?_,
    State.beginLockout_withdraws⟩
  · rw [State.request_start_heard hl ha, State.request_changeover_heard hl ha, State.request_defrost_heard hl ha]
    refine ⟨State.takeStart_refused, State.takeStart_stands, State.takeChangeover_stands, State.takeDefrost_drops,
      fun q r hr h => ?_, fun old r hq hn => ?_⟩
    · rw [State.request_stop_heard hl ha, State.takeStop_meets hr h]
    · rw [State.request_stop_heard hl ha, State.takeStop_merges hn hq]
      rfl
  · have hne {q : Proc} (h : p ≠ q) : s.engine.running ≠ some q := fun hq => h (Option.some.inj (hp.symm.trans hq))
    rw [State.request_start_heard hl ha, State.request_changeover_heard hl ha, State.request_defrost_heard hl ha]
    refine ⟨fun hs => ⟨fun hk hn hq => ?_, fun hn hq => ?_, fun hn hq hm hon hv => ?_, fun r hn hq => ?_⟩,
      fun hs hk hn hq => ?_⟩
    · rw [State.takeStart_enters hk (hne hn) hq, State.entered_running (by exact hs)]
      rfl
    · rw [State.takeChangeover_enters (hne hn) hq, State.entered_running (by exact hs)]
      rfl
    · rw [State.takeDefrost_enters (hne hn) hq hm hon hv, State.entered_running (by exact hs)]
      rfl
    · rw [State.request_stop_joins hl ha hs (Engine.stopping_eq_false fun q => hne (hn q)) hq]
      rfl
    · rw [State.takeStart_enters hk (hne hn) hq, State.entered_start_waiting (by exact hs)]
      rfl

end Sys2Proof.Machine
end

