-- ==== Sys2Proof/Proofs/ProcedureChains.lean ====
section
/-! PROOFS. The chains of the procedures, one move after the other: what a step's action, its guard and its boundary make
of the plant, and the stretches from one step that waits or takes time to the next (R138 to R148, R157 to R160). -/

namespace Sys2Proof.Machine

/-! ## One move (R140, R141) -/

/-- A step whose action is about to be applied (R140). -/
def State.readied (s : State) : State :=
  s.setEngine { s.engine with state := .running, delaying := false, stepTime := 0 }

/-- The current step's action is applied, with the outputs that follow and its mark (R140). -/
def State.applied (st : StepId) (s : State) : State := ((s.readied.act st).driveOutputs).mark st

/-- A step without a guard is entered by its action at once. -/
theorem State.enter_eq_applied (st : StepId) (s : State) : s.enter st = (s.current st).applied st := rfl

/-- A step that waits for its guard, with its request at the Protection Unit (R140, R157). -/
def State.asking (st : StepId) (g : GuardRequest) (s : State) : State :=
  ((s.current st).setEngine { (s.current st).engine with state := .waiting }).setProtection
    { s.protection with waiting := some g }

/-- A grant is answered, and the action may follow (R157, R161). -/
def State.granted (st : StepId) (g : GuardRequest) (s : State) : State := (s.asking st g).answer g

theorem State.applied_keepsProcedure (st : StepId) (u : State) :
    (u.applied st).engine.running = u.engine.running ∧ (u.applied st).engine.step = u.engine.step ∧
      (u.engine.requests = .empty → (u.applied st).engine.requests = .empty) :=
  State.applied_procedure st u.readied

theorem State.applied_plant (st : StepId) (u : State) : PlantFrame u (u.applied st) :=
  (PlantFrame.trans (by constructor <;> rfl) (State.act_plant st _)).trans
    ((State.driveOutputs_plant _).trans (State.mark_plant st _))

theorem State.drive_apply {u : State} {st : StepId} (n : Nat) (hstep : u.engine.step = some st) (hx : st ≠ .x2) :
    u.drive (n + 1) .apply =
      (u.applied st).drive n (if (u.applied st).exitHolds st then .boundary false else .rest) := by
  have happly : u.applyStep = (if (u.applied st).exitHolds st then .boundary false else .rest, u.applied st) := by
    unfold State.applyStep
    rw [hstep]
    dsimp only
    rw [if_neg hx]
    show (if (u.applied st).exitHolds st = true then _ else _) = _
    split <;> rfl
  rw [State.drive_succ, State.move, happly]

/-- An action whose exit holds at once leads to the next link (R140, R141). -/
theorem State.drive_apply_on {u : State} {st next : StepId} (n : Nat) (hstep : u.engine.step = some st) (hx : st ≠ .x2)
    (hexit : (u.applied st).exitHolds st = true) (hnext : st.next = some next)
    (ho : (u.applied st).engine.outranked = false) :
    u.drive (n + 2) .apply = ((u.applied st).writeBoundary st false).drive n (.take next) := by
  obtain ⟨_, hs, _⟩ := u.applied_keepsProcedure st
  rw [State.drive_apply (n + 1) hstep hx, hexit]
  exact State.drive_boundary n false (hs.trans hstep) hnext ho

/-- A guarded step that nothing displaces waits, or goes on with its grant (R140, R157). -/
theorem State.drive_take_guarded {s : State} {st : StepId} {g : GuardRequest} (n : Nat)
    (hw : (s.current st).withdrawnAtS3 st = false) (hg : (s.current st).guardOf st = some g)
    (ho : s.engine.outranked = false) :
    s.drive (n + 1) (.take st) =
      if (s.asking st g).permitted g = true then (s.granted st g).drive n .apply else s.asking st g := by
  have htake : s.takeStep st =
      if (s.asking st g).permitted g = true then (.apply, s.granted st g) else (.rest, s.asking st g) := by
    have ho' : (s.asking st g).engine.outranked = false := ho
    unfold State.takeStep
    dsimp only
    rw [hw, hg, if_neg Bool.false_ne_true]
    exact if_neg (c := (s.asking st g).engine.outranked = true) (by simp [ho'])
  rw [State.drive_succ, State.move, htake]
  split
  · rfl
  · exact State.drive_rest _ _

/-- A plain step without a guard goes on to its action (R140). -/
theorem State.drive_take_unguarded {s : State} {st : StepId} (n : Nat) (hst : st.plain)
    (hg : (s.current st).guardOf st = none) : s.drive (n + 1) (.take st) = (s.current st).drive n .apply := by
  obtain ⟨hs3, _, hd⟩ := hst
  have htake : s.takeStep st = (.apply, s.current st) := by
    have hw : (s.current st).withdrawnAtS3 st = false := by simp [State.withdrawnAtS3, hs3]
    have hdelay : (s.current st).engine.delaying = false := congrArg Option.isSome hd
    simp [State.takeStep, hw, hg, hdelay]
  rw [State.drive_succ, State.move, htake]

/-- The pending set's STOP starts (R138). -/
theorem State.drive_startNext_stop {u : State} {r : StopReason} (n : Nat) (h : u.engine.requests.stop = some r) :
    u.drive (n + 1) .startNext =
      ((u.setRequests { u.engine.requests with stop := none }).startProc (.stop r)).drive n (.take .t1) := by
  have hstart : u.startNext =
      (.take .t1, (u.setRequests { u.engine.requests with stop := none }).startProc (.stop r)) := by
    unfold State.startNext
    have htop : u.engine.requests.top = some (.stop r) := by rw [Requests.top, h]
    rw [htop]
    rfl
  rw [State.drive_succ, State.move, hstart]

/-- The only pending request starts its procedure, or is dropped (R138). -/
theorem State.startNext_only {s : State} {q : Requests} {p : Proc} (htop : q.top = some p)
    (hrest : q.without p = s.engine.requests) :
    (s.setRequests q).startNext = if s.sensible p = true then (.take p.first, s.startProc p) else (.startNext, s) := by
  have hback : (s.setRequests q).setEngine
      { (s.setRequests q).engine with requests := (s.setRequests q).engine.requests.without p } = s := by
    rw [show (s.setRequests q).engine.requests.without p = s.engine.requests from hrest]
    rfl
  unfold State.startNext
  rw [show (s.setRequests q).engine.requests.top = some p from htop]
  dsimp only
  rw [hback]

/-- With nothing pending the engine rests (R138). -/
theorem State.drive_startNext_rest {u : State} (n : Nat) (h : u.engine.requests = .empty) :
    u.drive (n + 1) .startNext = u := by
  have hrest : u.startNext = (.rest, u) := by
    unfold State.startNext
    rw [h]
    rfl
  rw [State.drive_succ, State.move, hrest]
  exact State.drive_rest _ _

/-- A boundary displaced by a pending STOP (R141, R148). -/
theorem State.drive_boundary_outranked {s : State} {st next : StepId} (n : Nat) (b : Bool)
    (hstep : s.engine.step = some st) (hnext : st.next = some next) (ho : s.engine.outranked = true) :
    s.drive (n + 1) (.boundary b) = ((s.writeBoundary st b).endProc .preempted).drive n .startNext := by
  have ho' : (s.writeBoundary st b).engine.outranked = true := by
    rw [← ho]; unfold State.writeBoundary; dsimp only; split <;> rfl
  rw [State.drive_succ, State.move, State.boundary, hstep]
  simp [hnext, ho']

/-- What the end of a procedure leaves (R148 to R151, R176). -/
theorem State.endProc_blocks (o : ProcOutcome) (s : State) :
    (s.endProc o).engine =
        { s.engine.count o with
          state := .idle, running := none, step := none, delaying := false, stepTime := 0, exitTime := none
          timeLimit := none, emergencyHold := 0, speedHold := none, blowerHold := none, d5 := none
          status := s.engine.endStatus o } ∧
      (s.endProc o).protection = { s.protection with waiting := none } ∧
      (s.endProc o).frost = (if s.engine.defrosting = true then s.frost.ended o s.engine.d5 else s.frost) ∧
      (s.endProc o).modeSel = s.modeSel := by
  unfold State.endProc
  dsimp only
  split <;> exact ⟨rfl, rfl, rfl, rfl⟩

/-! ## The actions that stop the compressor (R143, R145, R156, R162) -/

/-- Of the pending set a run's end can take the START alone (R137, R164). -/
theorem State.closeRun_pendingSet (c : StopCause) (s : State) :
    ∃ b k, (s.closeRun c).engine =
      { s.engine with requests := { s.engine.requests with start := b }, refused := k } := by
  obtain ⟨q, k, he⟩ := State.closeRun_engine c s
  have hq := State.closeRun_mayLoseStart c s
  rw [he] at hq
  obtain hq | hq := hq
  · have hq : q = s.engine.requests := hq
    exact ⟨s.engine.requests.start, k, by rw [he, hq]⟩
  · have hq : q = { s.engine.requests with start := false } := hq
    exact ⟨false, k, by rw [he, hq]⟩

theorem State.closeRun_stopAge (c : StopCause) (s : State) :
    (s.closeRun c).protection.stopAge = s.protection.stopAge := by
  unfold State.closeRun State.beginLockout
  dsimp only
  (repeat' split) <;> rfl

theorem State.runOff_stopAge (s : State) :
    s.runOff.protection.stopAge = if s.engine.run = true then 0 else s.protection.stopAge := by
  unfold State.runOff
  split <;> rfl

/-- The compressor has been stopped and the open run closed by T1 or X1 (R143, R145). -/
structure State.Stops (u t : State) (c : StopCause) : Prop where
  engine : ∃ b k, t.engine =
    { u.engine with
      state := .running, delaying := false, stepTime := 0, run := false
      requests := { u.engine.requests with start := b }, refused := k, speedHold := some 0
      marks := u.engine.marks + 1 }
  closes : u.protection.Closes t.protection c
  stopAge : t.protection.stopAge = if u.engine.run = true then 0 else u.protection.stopAge
  frost : t.frost = u.frost

theorem State.runOff_frost (s : State) : s.runOff.frost = s.frost := by unfold State.runOff; split <;> rfl

theorem State.applied_stops (c : StopCause) (u : State) {st : StepId} (hm : st.marked = true)
    (hact : ∀ v : State, v.engine.running = u.engine.running →
      v.act st = (v.runOff.closeRun c).holdSpeed (some 0)) : u.Stops (u.applied st) c := by
  unfold State.applied
  generalize hv : u.readied = v
  have hve : v.engine = { u.engine with state := .running, delaying := false, stepTime := 0 } := by rw [← hv]; rfl
  have hvp : v.protection = u.protection := by rw [← hv]; rfl
  have hvf : v.frost = u.frost := by rw [← hv]; rfl
  obtain ⟨_, hclosed⟩ := v.runOff_closeRun c
  obtain ⟨b, k, he⟩ := State.closeRun_pendingSet c v.runOff
  obtain ⟨_, hfrost, _⟩ := State.closeRun_record c v.runOff
  have hage := (State.closeRun_stopAge c v.runOff).trans v.runOff_stopAge
  rw [State.runOff_engine] at he
  rw [State.runOff_frost] at hfrost
  rw [hact v (by rw [hve]), State.mark, if_pos hm]
  generalize v.runOff.closeRun c = w at hclosed he hfrost hage ⊢
  rw [hvp] at hclosed hage
  rw [hve] at he hage
  refine ⟨⟨b, k, ?_⟩, hclosed, hage, hfrost.trans hvf⟩
  simp only [State.driveOutputs, State.holdSpeed, State.setEngine_engine, State.setCapacity_engine, State.prompt_engine, he]

theorem State.applied_t1 {u : State} {r : StopReason} (h : u.engine.running = some (.stop r)) :
    u.Stops (u.applied .t1) r.cause := by
  refine u.applied_stops r.cause rfl fun v hv => ?_
  have hcause : v.engine.stopCause = r.cause := by rw [Engine.stopCause, hv, h]
  rw [← hcause]
  rfl

theorem State.applied_x1 (u : State) : u.Stops (u.applied .x1) .changeover :=
  u.applied_stops .changeover rfl fun _ _ => rfl

theorem State.driveValve_frost (v : Valve) (s : State) : (s.driveValve v).frost = s.frost := by
  unfold State.driveValve; split <;> rfl

theorem State.driveModeValve_frost (s : State) : s.driveModeValve.frost = s.frost := by
  unfold State.driveModeValve
  split
  · exact State.driveValve_frost _ _
  · rfl

/-- No action moves the Frost Estimator (R142 to R147). -/
theorem State.act_frost (st : StepId) (s : State) : (s.act st).frost = s.frost := by
  have hclosed (c : StopCause) : (s.runOff.closeRun c).frost = s.frost :=
    (State.closeRun_record c s.runOff).2.1.trans s.runOff_frost
  cases st with
  | s2 | x3 => exact s.driveModeValve_frost
  | d3 | d8 => exact s.driveValve_frost _
  | t1 | x1 | e1 =>
    simp only [State.act, State.holdSpeed, State.holdBlower, State.setEngine_frost]
    exact hclosed _
  | d1 | d6 => exact s.runOff_frost
  | s1 | s3 | s4 | t2 | t3 | x2 | d2 | d4 | d5 | d7 | d9 | d10 | e2 => rfl

@[simp] theorem State.mark_frost (st : StepId) (s : State) : (s.mark st).frost = s.frost := by
  unfold State.mark; split <;> rfl

@[simp] theorem State.mark_protection (st : StepId) (s : State) : (s.mark st).protection = s.protection := by
  unfold State.mark; split <;> rfl

@[simp] theorem State.mark_modeSel (st : StepId) (s : State) : (s.mark st).modeSel = s.modeSel := by
  unfold State.mark; split <;> rfl

@[simp] theorem State.mark_capacity (st : StepId) (s : State) : (s.mark st).capacity = s.capacity := by
  unfold State.mark; split <;> rfl

/-- A mark counts (R140). -/
theorem State.mark_engine (st : StepId) (s : State) :
    (s.mark st).engine =
      { s.engine with marks := if st.marked = true then s.engine.marks + 1 else s.engine.marks } := by
  unfold State.mark; split <;> rfl


theorem State.applied_engine (st : StepId) (s : State) :
    (s.applied st).engine =
      { (s.readied.act st).engine with
        marks := if st.marked = true then (s.readied.act st).engine.marks + 1 else (s.readied.act st).engine.marks } :=
  State.mark_engine st _

theorem State.applied_protection (st : StepId) (s : State) :
    (s.applied st).protection = (s.readied.act st).protection := State.mark_protection st _

@[simp] theorem State.readied_protection (s : State) : s.readied.protection = s.protection := rfl
theorem State.readied_engine (s : State) :
    s.readied.engine = { s.engine with state := .running, delaying := false, stepTime := 0 } := rfl

@[simp] theorem State.current_protection (st : StepId) (s : State) : (s.current st).protection = s.protection := rfl
@[simp] theorem State.current_modeSel (st : StepId) (s : State) : (s.current st).modeSel = s.modeSel := rfl
@[simp] theorem State.current_pp (st : StepId) (s : State) : (s.current st).pp = s.pp := rfl

/-- Only a compressor that was on restarts the stop age as its output falls (R156). -/
theorem State.runOff_protection_eq (s : State) :
    s.runOff.protection =
      { s.protection with stopAge := if s.engine.run = true then 0 else s.protection.stopAge } := by
  unfold State.runOff; split <;> rfl

theorem State.applied_frost (st : StepId) (s : State) : (s.applied st).frost = s.frost :=
  (State.mark_frost st _).trans (State.act_frost st _)

theorem State.enter_frost (st : StepId) (s : State) : (s.enter st).frost = s.frost :=
  State.applied_frost st (s.current st)

/-- No action but those that close the run can move the off-hold (R110, R142 to R147). -/
theorem State.act_modeSel {st : StepId} (h : st ∉ [StepId.t1, .x1, .e1]) (s : State) : (s.act st).modeSel = s.modeSel := by
  have hoff : s.runOff.modeSel = s.modeSel := by unfold State.runOff; split <;> rfl
  have hvalve (v : Valve) : (s.driveValve v).modeSel = s.modeSel := by unfold State.driveValve; split <;> rfl
  have hmode : s.driveModeValve.modeSel = s.modeSel := by
    unfold State.driveModeValve
    split
    · exact hvalve _
    · rfl
  cases st with
  | s2 | x3 => exact hmode
  | d3 | d8 => exact hvalve _
  | t1 | x1 | e1 => simp at h
  | d1 | d6 => exact hoff
  | s1 | s3 | s4 | t2 | t3 | x2 | d2 | d4 | d5 | d7 | d9 | d10 | e2 => rfl

theorem State.applied_modeSel {st : StepId} (h : st ∉ [StepId.t1, .x1, .e1]) (s : State) :
    (s.applied st).modeSel = s.modeSel := by
  rw [State.applied, State.mark_modeSel]
  exact State.act_modeSel h _

theorem State.writeBoundary_modeSel (st : StepId) (b : Bool) (s : State) :
    (s.writeBoundary st b).modeSel = s.modeSel := by
  unfold State.writeBoundary
  dsimp only
  split <;> rfl

/-- The speed output after an action is the value that the step holds, with the compressor on (R118). -/
theorem State.applied_speed (st : StepId) (u : State) :
    ((u.applied st).engine.run = false → (u.applied st).capacity.speedCommand = 0) ∧
      ∀ v, (u.applied st).engine.run = true → (u.applied st).engine.speedHold = some v →
        (u.applied st).capacity.speedCommand = v := by
  unfold State.applied
  generalize u.readied.act st = w
  rw [State.mark_capacity, State.mark_engine]
  simp +contextual [State.driveOutputs]

/-- Applying a step prompts at most, and moves the outputs alone of the Capacity Controller. -/
theorem State.applied_engineFrame (st : StepId) (s : State) : EngineFrame s (s.applied st) :=
  .after (State.mark_engineFrame _ _) (.after (State.driveOutputs_engineFrame _)
    (.after (State.act_engineFrame st _) (.same rfl rfl rfl rfl rfl)))

theorem State.enter_engineFrame (st : StepId) (s : State) : EngineFrame s (s.enter st) := by
  have h : EngineFrame s (s.current st) := .same rfl rfl rfl rfl rfl
  rw [State.enter_eq_applied]
  exact h.trans (State.applied_engineFrame st _)

/-- A mark raises the report (R140). -/
theorem State.applied_pending {st : StepId} (h : st.marked = true) (s : State) :
    (s.applied st).line.main.pending = true := by
  rw [State.applied, State.mark, if_pos h]
  rfl

/-! ## A STOP from T1 on (R143) -/

/-- T1's action, its boundary, and T2 entered. -/
def State.stopped (u : State) : State := ((u.applied .t1).writeBoundary .t1 false).enter .t2

theorem State.drive_apply_t1 {u : State} {r : StopReason} (n : Nat) (hrunning : u.engine.running = some (.stop r))
    (hstep : u.engine.step = some .t1) : u.drive (n + 4) .apply = u.stopped := by
  have ho : (u.applied .t1).engine.outranked = false :=
    Engine.not_outranked (p := .stop r) ((u.applied_keepsProcedure .t1).1.trans hrunning) (by simp [Proc.priority])
  rw [State.drive_apply_on (n + 2) hstep (by simp) rfl rfl ho]
  exact State.drive_stand n (StepId.plain_of_mem (by simp)) rfl rfl

/-- A STOP has been taken through T1 to T2: what stands there. -/
theorem State.stopped_blocks {u : State} {r : StopReason} (h : u.engine.running = some (.stop r)) :
    (∃ b k, u.stopped.engine =
      { u.engine with
        state := .running, step := some .t2, delaying := false, stepTime := 0
        exitTime := some (if u.modeSel.mode = .heat then 90 else 60), timeLimit := none, run := false
        requests := { u.engine.requests with start := b }, refused := k, speedHold := some 0
        blowerHold := some u.pp.fanAirflow, marks := u.engine.marks + 1
        stepsLoaded := u.engine.stepsLoaded + 1
        status := { u.engine.status with proc := some (.stop r), step := some .t1 } }) ∧
    u.protection.Closes u.stopped.protection r.cause ∧ u.stopped.frost = u.frost := by
  obtain ⟨⟨b, k, he⟩, hcloses, _, hfrost⟩ := State.applied_t1 h
  have hf := (u.applied_plant .t1).trans (State.writeBoundary_plant .t1 false _)
  rw [State.stopped]
  rw [State.writeBoundary_eq false (by simp)] at hf ⊢
  generalize u.applied .t1 = w at he hcloses hfrost hf ⊢
  obtain ⟨he2, hp2⟩ := State.enter_t2 (w.setEngine
    { w.engine with
      status := { w.engine.status with proc := w.engine.running, step := some .t1, limited := w.engine.status.limited || false }
      stepsLoaded := w.engine.stepsLoaded + 1 })
  refine ⟨⟨b, k, ?_⟩, ?_, ?_⟩
  · rw [he2, hf.mode, hf.pp]
    simp only [State.setEngine_engine, he, h, Bool.or_false]
  · rw [hp2]
    exact hcloses
  · rw [State.enter_frost]
    exact hfrost

/-- With no request waiting that is R143's stop. -/
theorem State.stopped_atT2 {u : State} {r : StopReason} (h : u.engine.running = some (.stop r))
    (ha : u.aside = false) (hw : u.protection.waiting = none) : u.StoppedAtT2 u.stopped r := by
  obtain ⟨⟨b, k, he⟩, ⟨hrun, hwait, hrec⟩, _⟩ := State.stopped_blocks h
  have hf : PlantFrame u ((u.applied .t1).writeBoundary .t1 false) :=
    (u.applied_plant .t1).trans (State.writeBoundary_plant .t1 false _)
  obtain ⟨hspeed, hblower⟩ := ((u.applied .t1).writeBoundary .t1 false).enter_outputs .t2
  have hoff : u.stopped.engine.run = false := by rw [he]
  have hair : u.stopped.engine.blowerHold = some u.pp.fanAirflow := by rw [he]
  refine
    { running := by rw [he]; exact h, step := by rw [he]; exact ⟨rfl, rfl⟩, time := by rw [he]
      off := ⟨hoff, hspeed hoff, ?_⟩, closed := ⟨hrun, hwait.trans hw⟩, record := hrec }
  rw [State.stopped, hblower _ hair, hf.aside, ha]
  rfl

/-- T1 lets the STOP through at once: it is protective, no run is open, or the run has lasted its minimum (R143, R159). -/
def State.StopsAtOnce (s : State) (r : StopReason) : Prop :=
  r ≠ .demand ∨ ∀ age, s.protection.run = some age → s.pp.minRun ≤ age

theorem State.not_stopsAtOnce {s : State} {r : StopReason} :
    ¬ s.StopsAtOnce r ↔ r = .demand ∧ ∃ age, s.protection.run = some age ∧ age < s.pp.minRun := by
  simp [State.StopsAtOnce]

/-- A STOP that begins stops the compressor at T1, or waits there with the compressor as it stands (R143, R148, R159). -/
structure State.StopBegins (s t : State) (r : StopReason) : Prop where
  stops : s.aside = false → s.StopsAtOnce r → s.StoppedAtT2 t r
  waits : ¬ s.StopsAtOnce r → t.WaitsAt (.stop r) .t1 .stop ∧ t.engine.run = s.engine.run ∧
    t.protection.run = s.protection.run
  preempted : t.engine.preempted = s.engine.preempted
  running : t.engine.running = some (.stop r)
  stopRequest : t.engine.requests.stop = s.engine.requests.stop
  status : t.engine.status.proc = some (.stop r) ∧ t.engine.status.outcome = s.engine.status.outcome
  frost : t.frost = s.frost

/-- What T1's stop depends on: mode, parameters and run (R143, R162). -/
theorem State.StoppedAtT2.seen {s u t : State} {r : StopReason} (h : u.StoppedAtT2 t r)
    (hm : u.modeSel.mode = s.modeSel.mode) (hp : u.pp = s.pp) (hrun : u.protection.run = s.protection.run) :
    s.StoppedAtT2 t r :=
  { h with
    time := by rw [← hm]; exact h.time
    off := by rw [← hp]; exact h.off
    record := by rw [← hrun]; exact h.record }

theorem State.StopBegins.of_stopped {s u : State} {r : StopReason} (h : s.engine.running = some (.stop r))
    (hf : PlantFrame s u)
    (he : u.engine = { (s.current .t1).engine with state := u.engine.state })
    (hrun : u.protection.run = s.protection.run) (hw : u.protection.waiting = none) (hfrost : u.frost = s.frost)
    (hs : s.StopsAtOnce r) : s.StopBegins u.stopped r := by
  have hrunning : u.engine.running = some (.stop r) := by rw [he]; exact h
  obtain ⟨⟨b, k, het⟩, _, hft⟩ := State.stopped_blocks hrunning
  exact
    { stops := fun ha _ => (State.stopped_atT2 hrunning (hf.aside.trans ha) hw).seen hf.mode hf.pp hrun
      waits := fun hn => absurd hs hn
      preempted := by rw [het, he]; rfl
      running := by rw [het, he]; exact h
      stopRequest := by rw [het, he]; rfl
      status := by rw [het, he]; exact ⟨rfl, rfl⟩
      frost := hft.trans hfrost }

/-- T1 taken (R143). -/
theorem State.drive_stop {s : State} {r : StopReason} (n : Nat) (h : s.engine.running = some (.stop r))
    (hp : s.engine.status.proc = some (.stop r)) (hw : s.protection.waiting = none) :
    s.StopBegins (s.drive (n + 5) (.take .t1)) r := by
  by_cases hg : r = .demand ∧ s.protection.run.isSome = true
  · obtain ⟨rfl, hrun⟩ := hg
    have hguard : (s.current .t1).guardOf .t1 = some .stop := if_pos (by
      show (decide (s.engine.running = _) && s.protection.run.isSome) = true
      simp [h, hrun])
    have hpermitted : (s.asking .t1 .stop).permitted .stop = true ↔ s.StopsAtOnce .demand := by
      obtain ⟨age, hage⟩ := Option.isSome_iff_exists.1 hrun
      have hopen : (s.asking .t1 .stop).protection.run = some age := hage
      have hpp : (s.asking .t1 .stop).pp = s.pp := rfl
      simp [State.permitted, State.stopPermitted, hopen, hpp, State.StopsAtOnce, hage]
    rw [State.drive_take_guarded (n + 4) (by simp [State.withdrawnAtS3]) hguard
      (Engine.not_outranked h (by simp [Proc.priority]))]
    split
    next hyes =>
      have hf : PlantFrame s (s.granted .t1 .stop) := by constructor <;> rfl
      rw [State.drive_apply_t1 (u := s.granted .t1 .stop) n h rfl]
      exact .of_stopped h hf rfl rfl rfl rfl (hpermitted.1 hyes)
    next hno =>
      exact
        { stops := fun _ hs => absurd (hpermitted.2 hs) hno
          waits := fun _ => ⟨⟨rfl, h, rfl, rfl⟩, rfl, rfl⟩
          preempted := rfl, running := h, stopRequest := rfl, status := ⟨hp, rfl⟩, frost := rfl }
  · have hguard : (s.current .t1).guardOf .t1 = none := if_neg (by
      show ¬ (decide (s.engine.running = _) && s.protection.run.isSome) = true
      simpa [h] using hg)
    have hs : s.StopsAtOnce r := by
      by_cases hr : r = .demand
      · refine .inr fun age hage => absurd ⟨hr, ?_⟩ hg
        rw [hage]
        rfl
      · exact .inl hr
    have hf : PlantFrame s (s.current .t1) := by constructor <;> rfl
    rw [State.drive_take_unguarded (n + 4) (StepId.plain_of_mem (by simp)) hguard,
      State.drive_apply_t1 (u := s.current .t1) n h rfl]
    exact .of_stopped h hf rfl rfl hw rfl hs

/-- A STOP takes over from a plant `s` as `u` is left by what it displaces (R138, R143, R148). -/
structure State.StopTakesOver (s u t : State) (r : StopReason) : Prop where
  stops : s.aside = false → s.StopsAtOnce r → s.StoppedAtT2 t r
  waits : ¬ s.StopsAtOnce r → t.WaitsAt (.stop r) .t1 .stop ∧ t.engine.run = s.engine.run ∧
    t.protection.run = s.protection.run
  preempted : t.engine.preempted = u.engine.preempted
  running : t.engine.running = some (.stop r)
  stopRequest : t.engine.requests.stop = u.engine.requests.stop
  status : t.engine.status.proc = some (.stop r) ∧ t.engine.status.outcome = .inProgress
  frost : t.frost = u.frost

theorem State.startProc_stop {s u : State} (r : StopReason) (n : Nat) (hf : PlantFrame s u)
    (hw : u.protection.waiting = none) (hrun : u.protection.run = s.protection.run)
    (hon : u.engine.run = s.engine.run) :
    s.StopTakesOver u ((u.startProc (.stop r)).drive (n + 5) (.take .t1)) r := by
  have hstop := State.drive_stop (s := u.startProc (.stop r)) n rfl rfl hw
  have hat : (u.startProc (.stop r)).StopsAtOnce r ↔ s.StopsAtOnce r := by
    have hrun' : (u.startProc (.stop r)).protection.run = s.protection.run := hrun
    have hpp : (u.startProc (.stop r)).pp = s.pp := hf.pp
    rw [State.StopsAtOnce, State.StopsAtOnce, hrun', hpp]
  exact
    { stops := fun ha hs => (hstop.stops (hf.aside.trans ha) (hat.2 hs)).seen hf.mode hf.pp hrun
      waits := fun hn =>
        have ⟨hwait, hengine, hopen⟩ := hstop.waits fun hs => hn (hat.1 hs)
        ⟨hwait, hengine.trans hon, hopen.trans hrun⟩
      preempted := hstop.preempted
      running := hstop.running
      stopRequest := hstop.stopRequest
      status := hstop.status
      frost := hstop.frost }

theorem State.WaitsAt.settled {s : State} {p : Proc} {st : StepId} {g : GuardRequest} (h : s.WaitsAt p st g) :
    s.settlePlant.WaitsAt p st g := by
  have k := s.settlePlant_keepsEquipment
  obtain ⟨hstate, hrunning, hstep, hrequest⟩ := h
  exact ⟨by rw [k.engine]; exact hstate, by rw [k.engine]; exact hrunning, by rw [k.engine]; exact hstep,
    by rw [k.protection]; exact hrequest⟩

/-- The end of an event moves nothing of that. -/
theorem State.StopTakesOver.settled {s u t : State} {r : StopReason} (h : s.StopTakesOver u t r) :
    s.StopTakesOver u t.settlePlant r := by
  have k := t.settlePlant_keepsEquipment
  obtain ⟨_, _, _, _, _, _, _, _, _, hfrost, _⟩ := t.settlePlant_blocks
  exact
    { stops := fun ha hs => (h.stops ha hs).kept k
      waits := fun hn => by
        obtain ⟨hwait, hon, hrun⟩ := h.waits hn
        exact ⟨hwait.settled, by rw [k.engine]; exact hon, by rw [k.protection]; exact hrun⟩
      preempted := by rw [k.engine]; exact h.preempted
      running := by rw [k.engine]; exact h.running
      stopRequest := by rw [k.engine]; exact h.stopRequest
      status := by rw [k.engine]; exact h.status
      frost := hfrost.trans h.frost }

/-- The pending STOP of an engine that displaces a procedure (R148). -/
theorem State.preempted_stopTakesOver {s u : State} {r : StopReason} (n : Nat) (hf : PlantFrame s u)
    (hq : u.engine.requests.stop = some r) (hp : u.protection.run = s.protection.run)
    (hon : u.engine.run = s.engine.run) :
    ∃ v, v.engine.preempted = u.engine.preempted + 1 ∧ v.engine.requests.stop = none ∧
      v.frost = (u.endProc .preempted).frost ∧
      s.StopTakesOver v ((u.endProc .preempted).drive (n + 6) .startNext) r := by
  obtain ⟨hengine, hprotection, _⟩ := u.endProc_blocks .preempted
  have hend : (u.endProc .preempted).engine.requests = u.engine.requests := by rw [hengine]; rfl
  have hframe := hf.trans (State.endProc_plant .preempted u)
  rw [State.drive_startNext_stop (n + 5) (by rw [hend, hq]), hend]
  generalize u.endProc .preempted = w at hengine hprotection hframe ⊢
  refine ⟨w.setRequests { u.engine.requests with stop := none }, ?_, rfl, rfl,
    State.startProc_stop r n (hframe.trans (by constructor <;> rfl)) ?_ ?_ ?_⟩
  · rw [State.setRequests, State.setEngine_engine, hengine]
    rfl
  · rw [State.setRequests, State.setEngine_protection, hprotection]
  · rw [State.setRequests, State.setEngine_protection, hprotection]
    exact hp
  · rw [State.setRequests, State.setEngine_engine, hengine]
    exact hon

/-! ## The timers of a step (R140) -/

/-- The step timer moves itself alone. -/
theorem State.stepTimeReaches_blocks (n : Nat) (s : State) :
    ∃ u, u = s.stepTimeReaches n ∧ u.engine = { s.engine with stepTime := n } ∧ u.protection = s.protection ∧
      u.capacity = s.capacity ∧ u.frost = s.frost ∧ u.modeSel = s.modeSel ∧ PlantFrame s u :=
  ⟨_, rfl, rfl, rfl, rfl, rfl, rfl, by constructor <;> rfl⟩

section
variable {s : State}

theorem exec_stepTimeExit {n : Nat} (hr : s.plantReady = true) (hs : s.engine.state = .running)
    (hd : s.engine.delaying = false) (hn : s.engine.exitTime = some n) :
    exec .stepTimeExit s = .next ((s.stepTimeReaches n).run (.boundary false)).settlePlant := by
  simp [exec, execStepTimeExit, hn, hr, Engine.acting, hs, hd, advance]

theorem exec_stepTimeLimit {n : Nat} (hr : s.plantReady = true) (hs : s.engine.state = .running)
    (hd : s.engine.delaying = false) (hn : s.engine.timeLimit = some n) :
    exec .stepTimeLimit s = .next ((s.stepTimeReaches n).run (.boundary true)).settlePlant := by
  simp [exec, execStepTimeLimit, hn, hr, Engine.acting, hs, hd, advance]

theorem exec_stepDelayExpiry (hr : s.plantReady = true) (hs : s.engine.state = .running)
    (hd : s.engine.delaying = true) : exec .stepDelayExpiry s = .next (s.run .apply).settlePlant := by
  simp [exec, execStepDelayExpiry, hr, hs, hd, advance]

end

/-! ## The beginning of a chain (R142) -/

/-- S1 waits its time with the blower on the loop (R142). -/
theorem State.drive_s1 (n : Nat) (s : State) : s.drive (n + 2) (.take .s1) = s.enter .s1 :=
  State.drive_stand n ⟨by simp, by simp, rfl⟩ rfl rfl

theorem State.enter_s1 (s : State) :
    (s.enter .s1).engine =
      { s.engine with
        state := .running, step := some .s1, delaying := false, stepTime := 0, exitTime := some 30
        timeLimit := none, blowerHold := none } ∧
    (s.enter .s1).protection = s.protection ∧ (s.enter .s1).modeSel = s.modeSel ∧
    (s.enter .s1).sensors = s.sensors ∧ (s.enter .s1).loader = s.loader := ⟨rfl, rfl, rfl, rfl, rfl⟩

end Sys2Proof.Machine
end

