-- ==== Sys2Proof/Proofs/StopAndStart.lean ====
section
/-! PROOFS. How a STOP and a START begin: on an engine between procedures, over one that waits, at a boundary, and by the
merge of a protective STOP with an ordinary one at T1 (R136 to R144, R148). -/

namespace Sys2Proof.Machine

/-! ## A STOP takes over (R136, R138, R141, R148) -/

theorem Proc.priority_lt_stop {q : Proc} (h : q = .start ∨ q = .changeover ∨ q = .defrost) (r : StopReason) :
    q.priority < (Proc.stop r).priority := by
  obtain rfl | rfl | rfl := h <;> simp [Proc.priority]

theorem Engine.stopping_eq_false_of {e : Engine} {q : Proc} (hr : e.running = some q)
    (h : q = .start ∨ q = .changeover ∨ q = .defrost) : e.stopping = false :=
  Engine.stopping_eq_false fun r hs => by
    rw [hr] at hs
    obtain rfl | rfl | rfl := h <;> cases hs

/-- A pending STOP outranks a START, a CHANGEOVER and a DEFROST (R135). -/
theorem Engine.outranked_by_stop {e : Engine} {q : Proc} {r : StopReason} (hr : e.running = some q)
    (h : q = .start ∨ q = .changeover ∨ q = .defrost) (hq : e.requests.stop = some r) : e.outranked = true := by
  have htop : e.requests.top = some (.stop r) := by rw [Requests.top, hq]
  unfold Engine.outranked
  rw [hr, htop]
  exact decide_eq_true (Proc.priority_lt_stop h r)

/-- A STOP of an engine between procedures (R138). -/
theorem State.AtRest.stopTakesOver {s : State} (h : s.AtRest) (r : StopReason) :
    s.StopTakesOver s (s.request (.stop r)) r := by
  rw [h.request_stop r]
  exact State.startProc_stop r 58 (PlantFrame.rfl' s) h.waiting rfl rfl

/-- A STOP over a WAITING procedure of lower priority, which is PREEMPTED (R148). -/
theorem State.waiting_stopTakesOver {s : State} {q : Proc} (hl : s.engine.listening = .expired) (ha : s.aside = false)
    (hs : s.engine.state = .waiting) (hrunning : s.engine.running = some q)
    (hlow : q = .start ∨ q = .changeover ∨ q = .defrost) (hq : s.engine.requests = .empty) (r : StopReason) :
    ∃ u, u.engine.preempted = s.engine.preempted + 1 ∧ s.StopTakesOver u (s.request (.stop r)) r := by
  have hnone : s.engine.requests.stop = none := by rw [hq]; rfl
  have hentered : s.request (.stop r) =
      ((s.setRequests { s.engine.requests with stop := some r, start := false }).endProc .preempted).drive 64
        .startNext := by
    rw [State.request_stop_heard hl ha]
    simp [State.takeStop, Engine.stopping_eq_false_of hrunning hlow, hnone, State.entered, State.setRequests, hs,
      hrunning, Proc.priority_lt_stop hlow r, State.preempt, State.run]
  have hf : PlantFrame s (s.setRequests { s.engine.requests with stop := some r, start := false }) := by
    constructor <;> rfl
  obtain ⟨u, hcount, _, _, htakes⟩ := State.preempted_stopTakesOver 58 hf (r := r) rfl rfl rfl
  exact ⟨u, hcount, hentered ▸ htakes⟩

/-- A pending STOP at the boundary of a step of lower priority (R141, R148). -/
theorem State.run_boundary_stop {s : State} {q : Proc} {st next : StepId} {r : StopReason} (b : Bool)
    (hrunning : s.engine.running = some q)
    (hlow : q = .start ∨ q = .changeover ∨ q = .defrost) (hstep : s.engine.step = some st)
    (hnext : st.next = some next) (hq : s.engine.requests.stop = some r) :
    ∃ u, u.engine.preempted = s.engine.preempted + 1 ∧ u.engine.requests.stop = none ∧
      u.frost = ((s.writeBoundary st b).endProc .preempted).frost ∧
      s.StopTakesOver u (s.run (.boundary b)) r := by
  have hwritten : (s.writeBoundary st b).engine.requests = s.engine.requests := State.writeBoundary_requests st b s
  have hsame : (s.writeBoundary st b).engine.preempted = s.engine.preempted ∧
      (s.writeBoundary st b).protection.run = s.protection.run ∧
      (s.writeBoundary st b).engine.run = s.engine.run := by
    unfold State.writeBoundary
    dsimp only
    split <;> exact ⟨rfl, rfl, rfl⟩
  obtain ⟨hpreempted, hrun, hon⟩ := hsame
  rw [State.run, State.drive_boundary_outranked 63 b hstep hnext (Engine.outranked_by_stop hrunning hlow hq),
    ← hpreempted]
  exact State.preempted_stopTakesOver 57 (State.writeBoundary_plant st b s) (by rw [hwritten, hq]) hrun hon

/-! ## The merge of a protective STOP (R144) -/

theorem State.request_stop_merges {s : State} {r : StopReason} (hl : s.engine.listening = .expired)
    (ha : s.aside = false) (hw : s.WaitsAt (.stop .demand) .t1 .stop) (hr : r ≠ .demand) :
    s.StoppedAtT2 (s.request (.stop r)) r ∧
      (s.request (.stop r)).engine.requests =
        { s.engine.requests with start := (s.request (.stop r)).engine.requests.start } := by
  obtain ⟨hstate, hrunning, hstep, _⟩ := hw
  obtain ⟨u, hu⟩ : ∃ u, u = (s.setEngine { s.engine with running := some (.stop r) }).withdrawRequest := ⟨_, rfl⟩
  have hmerge : s.request (.stop r) = u.drive 64 .apply := by
    rw [State.request_stop_heard hl ha, hu]
    simp [State.takeStop, Engine.stopping_of_running hrunning, State.mergeStop, hrunning, hstate, hstep, hr, State.run]
  have hf : PlantFrame s u := by rw [hu]; constructor <;> rfl
  have hengine : u.engine = { s.engine with running := some (.stop r) } := by rw [hu]; rfl
  have hwaiting : u.protection.waiting = none := by rw [hu]; rfl
  have hrun : u.protection.run = s.protection.run := by rw [hu]; rfl
  have hstop : u.engine.running = some (.stop r) := by rw [hengine]
  rw [hmerge, State.drive_apply_t1 60 hstop (by rw [hengine]; exact hstep)]
  obtain ⟨⟨b, k, he⟩, _⟩ := State.stopped_blocks hstop
  exact ⟨(State.stopped_atT2 hstop (hf.aside.trans ha) hwaiting).seen hf.mode hf.pp hrun, by rw [he, hengine]⟩

/-! ## A START of an engine between procedures (R138, R142) -/

theorem State.request_start_idle {s : State} (hl : s.engine.listening = .expired) (ha : s.aside = false)
    (hs : s.engine.state = .idle) (hrunning : s.engine.running = none) (hq : s.engine.requests = .empty)
    (hk : s.protection.lockout = none) :
    (s.engine.run = true → s.request .start = s) ∧
      (s.engine.run = false → s.request .start = (s.startProc .start).enter .s1) := by
  have htaken : s.request .start =
      (s.setRequests { s.engine.requests with start := true, stop := none }).drive 64 .startNext := by
    rw [State.request_start_heard hl ha, State.takeStart_enters hk (by simp [hrunning]) (by rw [hq]; rfl)]
    simp [State.entered, State.setRequests, hs, State.run]
  have hmove := State.startNext_only (s := s) (q := { s.engine.requests with start := true, stop := none }) (p := .start)
    (by rw [hq]; rfl) (by rw [hq]; rfl)
  rw [htaken, State.drive_succ, State.move, hmove]
  refine ⟨fun hon => ?_, fun hoff => ?_⟩
  · rw [if_neg (by simp [State.sensible, hon]), State.drive_startNext_rest 62 hq]
  · rw [if_pos (by simp [State.sensible, hoff])]
    exact State.drive_s1 61 _

/-- Settles O51: a STOP takes over from an engine that is idle or waits and at a boundary, merges with one at T1, and a
START begins at S1. -/
theorem stopAndStartBegin : Obligations.StopAndStartBegin := by
  refine ⟨fun s r hl ha hq hfrom => ?_, fun s q st next r n hr ha hrunning hlow hstep hnext hstate hdelay hn hq => ?_,
    fun s r hl ha hw hr => State.request_stop_merges hl ha hw hr, fun s t hl ha hs hrunning hq hk ht => ?_⟩
  · obtain ⟨u, hcount, htakes⟩ : ∃ u, u.engine.preempted =
        (if s.engine.state = .idle then s.engine.preempted else s.engine.preempted + 1) ∧
        s.StopTakesOver u (s.request (.stop r)) r := by
      obtain ⟨hs, hrunning, hw⟩ | ⟨hs, q, hrunning, hlow⟩ := hfrom
      · exact ⟨s, (if_pos hs).symm, State.AtRest.stopTakesOver ⟨hl, ha, hs, hrunning, hq, hw⟩ r⟩
      · obtain ⟨u, hu, htakes⟩ := State.waiting_stopTakesOver hl ha hs hrunning hlow hq r
        exact ⟨u, by rw [hu, if_neg (by rw [hs]; exact nofun)], htakes⟩
    exact ⟨htakes.stops ha, fun hr hage => htakes.waits (State.not_stopsAtOnce.2 ⟨hr, hage⟩),
      htakes.preempted.trans hcount, htakes.status.1, htakes.status.2⟩
  · obtain ⟨u, hcount, hnone, _, htakes⟩ := State.run_boundary_stop (s := s.stepTimeReaches n) false hrunning hlow
      hstep hnext hq
    have hsettled := htakes.settled
    exact ⟨_, exec_stepTimeExit hr hstate hdelay hn, hsettled.preempted.trans hcount, hsettled.stopRequest.trans hnone,
      fun hs => (hsettled.stops ha hs).seen rfl rfl rfl, fun hd hage => (hsettled.waits (State.not_stopsAtOnce.2 ⟨hd, hage⟩)).1⟩
  · subst ht
    obtain ⟨hon, hoff⟩ := State.request_start_idle hl ha hs hrunning hq hk
    refine ⟨hon, fun hrun => ?_⟩
    obtain ⟨hengine, hprotection, hmode, hsensors, _⟩ := (s.startProc .start).enter_s1
    rw [hoff hrun]
    exact ⟨hengine, hprotection, hmode, hsensors⟩

end Sys2Proof.Machine
end

