-- ==== Sys2Proof/Proofs/DefrostChain.lean ====
section
/-! PROOFS. The chain of a DEFROST: the melt from D4 to D7, its end at D10, and what cuts it short, with what the Frost
Estimator is handed (R140, R141, R146, R148, R149, R175 to R177). -/

namespace Sys2Proof.Machine

/-! ## The melt (R146, R160, R177) -/

/-- D4's action, its boundary, and D5 entered. -/
def State.melting (s : State) : State := ((s.applied .d4).writeBoundary .d4 false).enter .d5

theorem State.run_melting {s : State} (hstep : s.engine.step = some .d4) (hq : s.engine.requests = .empty)
    (hcold : s.sensors.outdoorCoil.valid = false ∨ s.sensors.outdoorCoil.value < 1200) : s.run .apply = s.melting := by
  obtain ⟨_, _, hrequests⟩ := s.applied_keepsProcedure .d4
  have hexit : s.melting.exitHolds .d5 = false := by
    have hf : PlantFrame s s.melting :=
      ((s.applied_plant .d4).trans (State.writeBoundary_plant .d4 false _)).trans (State.enter_plant .d5 _)
    rw [State.exitHolds, State.sensorExit, hf.sensors]
    obtain h | h := hcold <;> simp [h]
  rw [State.run, State.drive_apply_on 62 hstep (by simp) rfl rfl (Engine.not_outranked_of_empty (hrequests hq))]
  exact State.drive_stand 60 ⟨by simp, by simp, rfl⟩ rfl hexit

theorem State.melting_engine (s : State) :
    s.melting.engine =
      { s.engine with
        state := .running, step := some .d5, delaying := false, stepTime := 0, exitTime := none
        timeLimit := some (if s.frost.first = true then 840 else 600), run := true, speedHold := some 700
        stepsLoaded := s.engine.stepsLoaded + 1
        status := { s.engine.status with proc := s.engine.running, step := some .d4 } } := by
  rw [State.melting, State.writeBoundary_eq false (by simp)]
  simp only [Bool.or_false]
  rfl

theorem State.melting_blocks (s : State) :
    s.melting.capacity.speedCommand = 700 ∧ s.melting.protection = s.protection ∧ s.melting.frost = s.frost ∧
      s.melting.modeSel = s.modeSel := by
  have he := s.melting_engine
  have hspeed := (State.applied_speed .d5 (((s.applied .d4).writeBoundary .d4 false).current .d5)).2 700
    (congrArg Engine.run he) (congrArg Engine.speedHold he)
  refine ⟨hspeed, ?_, ?_, ?_⟩
  · simp [State.melting, State.enter_eq_applied, State.applied_protection, State.writeBoundary_eq, State.act, State.runOn,
      State.holdSpeed]
  · simp [State.melting, State.enter_frost, State.applied_frost, State.writeBoundary_eq]
  · simp [State.melting, State.enter_eq_applied, State.applied_modeSel, State.writeBoundary_eq]

theorem State.melting_plant (s : State) : PlantFrame s s.melting :=
  ((s.applied_plant .d4).trans (State.writeBoundary_plant .d4 false _)).trans (State.enter_plant .d5 _)

/-! ## The end of the melt (R141, R146, R175) -/

/-- How D5 ended (R175). -/
def D5End.of (limited : Bool) : D5End := if limited then .limit else .exit

theorem State.writeBoundary_d5 (b : Bool) (s : State) :
    s.writeBoundary .d5 b =
      (s.setFrost (s.frost.settle (.of b))).setEngine
        { s.engine with
          status :=
            { s.engine.status with
              proc := s.engine.running, step := some .d5, limited := s.engine.status.limited || b }
          stepsLoaded := s.engine.stepsLoaded + 1, d5 := some (.of b) } := rfl

/-- D5's boundary, D6 at once, and D7 entered. -/
def State.melted (b : Bool) (s : State) : State := ((s.writeBoundary .d5 b).pass .d6).enter .d7

theorem State.run_melted {s : State} (b : Bool) (hstep : s.engine.step = some .d5) (hq : s.engine.requests = .empty) :
    s.run (.boundary b) = s.melted b := by
  have hq6 : ((s.writeBoundary .d5 b).enter .d6).engine.requests = .empty :=
    ((s.writeBoundary .d5 b).current .d6).applied_keepsProcedure .d6 |>.2.2
      ((State.writeBoundary_requests .d5 b s).trans hq)
  rw [State.run, State.drive_boundary 63 b hstep rfl (Engine.not_outranked_of_empty hq),
    State.drive_pass 60 ⟨by simp, by simp, rfl⟩ rfl rfl
      ((((s.writeBoundary .d5 b).current .d6).applied_keepsProcedure .d6).2.1) rfl (Engine.not_outranked_of_empty hq6)]
  exact State.drive_stand 58 ⟨by simp, by simp, rfl⟩ rfl rfl

theorem State.melted_plant (b : Bool) (s : State) : PlantFrame s (s.melted b) :=
  ((State.writeBoundary_plant .d5 b s).trans (State.pass_plant .d6 _)).trans (State.enter_plant .d7 _)

/-- D6 stops the compressor and nothing else (R146, R156). -/
theorem State.enter_d6 (s : State) :
    (s.enter .d6).engine =
      { s.engine with
        state := .running, step := some .d6, delaying := false, stepTime := 0, exitTime := none, timeLimit := none
        run := false, speedHold := some 0 } ∧
    (s.enter .d6).protection =
      { s.protection with stopAge := if s.engine.run = true then 0 else s.protection.stopAge } ∧
    (s.enter .d6).modeSel = s.modeSel := by
  refine ⟨?_, ?_, State.applied_modeSel (by simp) _⟩
  · rw [State.enter_eq_applied, State.applied_engine]
    simp only [State.act, State.holdSpeed, State.setEngine_engine, State.runOff_engine, State.readied_engine]
    rfl
  · rw [State.enter_eq_applied, State.applied_protection]
    simp [State.act, State.holdSpeed, State.runOff_protection_eq]
    rfl

theorem State.melted_engine (b : Bool) (s : State) :
    (s.melted b).engine =
      { s.engine with
        state := .running, step := some .d7, delaying := false, stepTime := 0, exitTime := some 30, timeLimit := none
        run := false, speedHold := some 0, stepsLoaded := s.engine.stepsLoaded + 2, d5 := some (.of b)
        status :=
          { s.engine.status with
            proc := s.engine.running, step := some .d6, limited := s.engine.status.limited || b } } := by
  obtain ⟨he, _⟩ := (s.writeBoundary .d5 b).enter_d6
  have h7 (v : State) : (v.enter .d7).engine =
      { v.engine with
        state := .running, step := some .d7, delaying := false, stepTime := 0, exitTime := some 30
        timeLimit := none } := rfl
  rw [State.melted, h7, (State.pass_blocks (st := .d6) (by simp) _).1, he, State.writeBoundary_d5]
  simp only [State.setEngine_engine, BitVec.add_assoc]
  rfl

theorem State.melted_blocks (b : Bool) (s : State) :
    (s.melted b).capacity.speedCommand = 0 ∧
      (s.melted b).protection =
        { s.protection with stopAge := if s.engine.run = true then 0 else s.protection.stopAge } ∧
      (s.melted b).frost = s.frost.settle (.of b) ∧ (s.melted b).modeSel = s.modeSel := by
  have he := s.melted_engine b
  obtain ⟨_, hp, hm⟩ := (s.writeBoundary .d5 b).enter_d6
  have hspeed := (State.applied_speed .d7 (((s.writeBoundary .d5 b).pass .d6).current .d7)).1 (congrArg Engine.run he)
  refine ⟨hspeed, ?_, ?_, ?_⟩
  · rw [State.melted, State.enter_eq_applied, State.applied_protection]
    simp only [State.act, State.readied_protection, State.current_protection, (State.pass_blocks (st := .d6) (by simp) _).2,
      hp]
    rfl
  · rw [State.melted, State.enter_frost, State.pass, State.writeBoundary_eq false (by simp), State.setEngine_frost,
      State.enter_frost]
    rfl
  · rw [State.melted, State.enter_eq_applied, State.applied_modeSel (by simp), State.current_modeSel, State.pass,
      State.writeBoundary_modeSel, hm]
    rfl

/-- Settles O57: the delay of D4 leads to the melt at D5, and the melt's limit to D7. -/
theorem defrostMeltsUntilItsLimit : Obligations.DefrostMeltsUntilItsLimit := by
  refine fun s hr _ hs hq => ⟨fun hstep hd hcold => ?_, fun n hstep hd hn => ?_⟩
  · have hf := s.melting_plant.trans (State.settlePlant_plant _)
    have he := s.melting_engine
    obtain ⟨hspeed, hprotection, hfrost, hmode⟩ := s.melting_blocks
    have k := s.melting.settlePlant_keepsEquipment
    obtain ⟨_, _, _, _, _, _, hmodeSel, hcapacity, _, hfrostSel, _⟩ := s.melting.settlePlant_blocks
    refine ⟨s.melting.settlePlant, by rw [exec_stepDelayExpiry hr hs hd, State.run_melting hstep hq hcold], ?_⟩
    rw [k.engine, k.protection, hcapacity, hmodeSel, hfrostSel, he]
    exact ⟨rfl, rfl, rfl, hspeed, rfl, rfl, hprotection, hfrost, rfl, hmode, hf.sensors, hf.peers, hf.loader, hf.demand,
      hf.share, hf.damper, hf.pending⟩
  · obtain ⟨u, hu, hengine, hprotected, _, hfrosted, hmoded, hframe⟩ := s.stepTimeReaches_blocks n
    have hf := (hframe.trans (u.melted_plant true)).trans (State.settlePlant_plant _)
    have he := u.melted_engine true
    obtain ⟨hspeed, hprotection, hfrost, hmode⟩ := u.melted_blocks true
    have k := (u.melted true).settlePlant_keepsEquipment
    obtain ⟨_, _, _, _, _, _, hmodeSel, hcapacity, _, hfrostSel, _⟩ := (u.melted true).settlePlant_blocks
    have hrun : u.run (.boundary true) = u.melted true :=
      State.run_melted true (by rw [hengine]; exact hstep) (by rw [hengine]; exact hq)
    refine ⟨(u.melted true).settlePlant, by rw [exec_stepTimeLimit hr hs hd hn, ← hu, hrun], ?_⟩
    rw [k.engine, k.protection, hcapacity, hmodeSel, hfrostSel, he, hprotection, hfrost, hmode, hengine, hprotected, hfrosted,
      hmoded]
    exact ⟨rfl, rfl, hspeed, Bool.or_true _, rfl, rfl, rfl, rfl, rfl, rfl, rfl, hf.sensors, hf.peers, hf.loader, hf.demand,
      hf.share, hf.damper, hf.pending⟩

/-! ## The coil's reading ends the melt (R43, R45, R140) -/

/-- A GOOD reading moves a valid input by a fourth of the difference (R45). -/
theorem Input.measure_valid {i : Input} {f low high raw : Int} (hv : i.valid = true) (hf : i.filtered = some f)
    (hlow : low ≤ raw) (hhigh : raw ≤ high) :
    (i.measure 4 low high raw).valid = true ∧ (i.measure 4 low high raw).value = f + nearest (raw - f) 4 := by
  obtain ⟨_, hgood, _⟩ := i.measure_measures 4 low high raw
  have hstate : i.state = .tracking ∨ i.state = .holding := by
    unfold Input.valid at hv
    split at hv
    next h => exact .inl h
    next h => exact .inr h
    all_goals cases hv
  obtain ⟨htracking, hfiltered, _⟩ := (hgood ⟨hlow, hhigh⟩).moved f hstate hf
  exact ⟨by rw [Input.valid, htracking], by rw [Input.value, hfiltered]; rfl⟩

/-- A contact that reads released does not become asserted (R44). -/
theorem Contact.not_newly_asserted (c : Contact) : (!c.asserted && (c.sample false).asserted) = false := by
  rw [Contact.sample_eq]
  dsimp only
  split
  · exact Bool.and_false _
  · exact Bool.not_and_self _

/-- With both contacts released an expiry ends the melt of a coil that it brings to 1200 (R140, R146). -/
theorem State.plantSensorExpiry_melts {s : State} {pins : PinSample} {f : Int} (first : Bool)
    (hstep : s.engine.step = some .d5) (hs : s.engine.state = .running) (hd : s.engine.delaying = false)
    (hq : s.engine.requests = .empty) (hv : s.sensors.outdoorCoil.valid = true)
    (hf : s.sensors.outdoorCoil.filtered = some f) (hlow : -4000 ≤ pins.outdoorCoil) (hhigh : pins.outdoorCoil ≤ 9000)
    (hwarm : 1200 ≤ f + nearest (pins.outdoorCoil - f) 4) (hi : pins.inverterFault = false)
    (hc : pins.condensateFloat = false) :
    s.plantSensorExpiry pins first = (s.plantSensors pins).melted false := by
  obtain ⟨hvalid, hvalue⟩ := Input.measure_valid hv hf hlow hhigh
  have hengine : (s.plantSensors pins).engine = s.engine := by rw [State.plantSensors_eq]; rfl
  have hsensors : (s.plantSensors pins).sensors = s.sensors.plantExpiry pins := by rw [State.plantSensors_eq]; rfl
  have hexit : (s.plantSensors pins).sensorExit .d5 = true := by
    have hcoil : (s.plantSensors pins).sensors.outdoorCoil =
        s.sensors.outdoorCoil.measure 4 (-4000) 9000 pins.outdoorCoil := by rw [hsensors]; rfl
    rw [State.sensorExit, hcoil, hvalid, hvalue]
    exact decide_eq_true hwarm
  have hexits : (s.plantSensors pins).examineSensorExit = (s.plantSensors pins).melted false := by
    unfold State.examineSensorExit
    rw [hengine, hstep]
    dsimp only
    rw [hs, hd, hexit, if_pos (by simp)]
    exact State.run_melted false (hengine ▸ hstep) (hengine ▸ hq)
  have hinverter : (!s.sensors.inverter.asserted && (s.plantSensors pins).sensors.inverter.asserted) = false := by
    rw [hsensors]
    exact (congrArg (fun b => !s.sensors.inverter.asserted && (s.sensors.inverter.sample b).asserted) hi).trans
      s.sensors.inverter.not_newly_asserted
  have hcondensate : (!s.sensors.condensate.asserted && (s.plantSensors pins).sensors.condensate.asserted) = false := by
    rw [hsensors]
    exact (congrArg (fun b => !s.sensors.condensate.asserted && (s.sensors.condensate.sample b).asserted) hc).trans
      s.sensors.condensate.not_newly_asserted
  have hquiet (u : State) : u.contactRequests false false = u := rfl
  unfold State.plantSensorExpiry
  dsimp only
  rw [hinverter, hcondensate, hquiet, hquiet, hexits, ite_self]

/-! ## The end of a DEFROST (R141, R148, R149, R176) -/

theorem Frost.ended_done (f : Frost) (way : D5End) :
    f.ended .done (some way) =
      { f with
        interval := 0, timed := 0, first := false
        normal := if way = .exit then f.normal + 1 else f.normal
        limited := if way = .limit then f.limited + 1 else f.limited } := by
  cases way <;> rfl

/-- Cut short, a DEFROST restarts the interval and the timed count where D5 has ended, and else leaves all (R176). -/
theorem Frost.ended_cut (f : Frost) {o : ProcOutcome} (ho : o ≠ .done) (d5 : Option D5End) :
    f.ended o d5 = if d5 = none then f else { f with interval := 0, timed := 0 } := by
  cases d5 with
  | none => rfl
  | some way => exact if_neg ho

theorem State.endProc_frost_defrosting {s : State} (o : ProcOutcome) (h : s.engine.running = some .defrost) :
    (s.endProc o).frost = s.frost.ended o s.engine.d5 :=
  (s.endProc_blocks o).2.2.1.trans (if_pos (decide_eq_true h))

/-- An EMERGENCY's own steps leave the Frost Estimator (R147). -/
theorem State.run_e1_frost {s : State} {c : EmergencyCause} (h : s.engine.running = some (.emergency c)) :
    (s.run (.take .e1)).frost = s.frost := by
  obtain ⟨⟨r, k, he⟩, _⟩ := State.enter_e1 h
  have hrunning : (s.enter .e1).engine.running = some (.emergency c) := by rw [he]; exact h
  have hhold : ((s.pass .e1).enter .e2).engine.emergencyHold = c.hold := by
    rw [(State.enter_e2 _).1, (State.pass_blocks (st := .e1) (by simp) s).1, he]
  have hstand : ((s.pass .e1).enter .e2).exitHolds .e2 = false := by
    rw [State.exitHolds, hhold]
    cases c <;> rfl
  rw [State.run, State.drive_pass 61 (StepId.plain_of_mem (by simp)) rfl rfl (by rw [he]) rfl
      (Engine.not_outranked hrunning (by simp [Proc.priority])),
    State.drive_stand 59 (StepId.plain_of_mem (by simp)) rfl hstand, State.enter_frost, State.pass,
    State.writeBoundary_eq false (by simp), State.setEngine_frost, State.enter_frost]

/-- An EMERGENCY aborts a DEFROST (R149). -/
theorem State.startEmergency_frost {s : State} (c : EmergencyCause) (h : s.engine.running = some .defrost) :
    (s.startEmergency c).frost = s.frost.ended .aborted s.engine.d5 := by
  have hsome : s.engine.running.isSome = true := by rw [h]; rfl
  unfold State.startEmergency
  dsimp only
  rw [if_pos hsome, State.run_e1_frost (c := c) rfl]
  exact State.endProc_frost_defrosting .aborted h

/-- D10's limit ends a DEFROST with DONE (R141, R176). -/
theorem State.run_defrostEnds {s : State} {way : D5End} (hrunning : s.engine.running = some .defrost)
    (hstep : s.engine.step = some .d10) (hq : s.engine.requests = .empty) (hway : s.engine.d5 = some way) :
    ∃ u, s.run (.boundary true) = u ∧
      u.engine =
        { s.engine with
          done := s.engine.done + 1, state := .idle, running := none, step := none, delaying := false, stepTime := 0
          exitTime := none, timeLimit := none, emergencyHold := 0, speedHold := none, blowerHold := none, d5 := none
          stepsLoaded := s.engine.stepsLoaded + 1
          status := { proc := some .defrost, step := some .d10, outcome := .done, limited := true } } ∧
      u.frost = s.frost.ended .done (some way) := by
  obtain ⟨w, hw⟩ : ∃ w, w = s.writeBoundary .d10 true := ⟨_, rfl⟩
  have hwe : w.engine =
      { s.engine with
        status := { s.engine.status with proc := s.engine.running, step := some .d10, limited := true }
        stepsLoaded := s.engine.stepsLoaded + 1 } := by
    rw [hw, State.writeBoundary_eq true (by simp), Bool.or_true]
    rfl
  have hwf : w.frost = s.frost := by rw [hw, State.writeBoundary_eq true (by simp)]; rfl
  refine ⟨w.endProc .done, by rw [hw]; exact State.run_lastBoundary true hstep rfl hq, ?_, ?_⟩
  · rw [(w.endProc_blocks .done).1, hwe]
    simp [Engine.count, Engine.endStatus, hrunning]
  · rw [State.endProc_frost_defrosting .done (by rw [hwe]; exact hrunning), hwe, hwf, hway]

/-- Settles O58: the coil's reading, D10's limit, and what an EMERGENCY and a pending STOP make of a DEFROST. -/
theorem defrostEndsAreCounted : Obligations.DefrostEndsAreCounted := by
  refine ⟨fun s pins first f hr hrunning hstep hs hd hq hv hf hlow hhigh hwarm hi hc => ?_,
    fun s n way hr hrunning hstep hs hd hn hq hway => ?_, fun s c hl ha hrunning => ⟨?_, ?_⟩,
    fun s r n hr hrunning hstep hs hd hn hq => ?_⟩
  · have hengine : (s.plantSensors pins).engine = s.engine := by rw [State.plantSensors_eq]; rfl
    have hindex : ({ (s.plantSensors pins).frost with index := 0 } : Frost) = { s.frost with index := 0 } := by
      rw [State.plantSensors_eq]; rfl
    obtain ⟨u, hu⟩ : ∃ u, u = s.plantSensors pins := ⟨_, rfl⟩
    have k := (u.melted false).settlePlant_keepsEquipment
    obtain ⟨_, _, _, _, _, _, _, hcapacity, _, hfrostSel, _⟩ := (u.melted false).settlePlant_blocks
    obtain ⟨hspeed, _, hfrost, _⟩ := u.melted_blocks false
    refine ⟨(u.melted false).settlePlant, ?_, ?_⟩
    · rw [exec_sensorTimer_plant hr,
        State.plantSensorExpiry_melts first hstep hs hd hq hv hf hlow hhigh hwarm hi hc, hu]
    · rw [← hu] at hengine hindex
      rw [k.engine, hcapacity, hfrostSel, u.melted_engine, hengine]
      exact ⟨rfl, rfl, hspeed, rfl, rfl, Bool.or_false _, rfl, hfrost.trans hindex⟩
  · obtain ⟨u, hu, hengine, _, _, hfrosted, _⟩ := s.stepTimeReaches_blocks n
    obtain ⟨v, hv, he, hfrost⟩ := State.run_defrostEnds (s := u) (by rw [hengine]; exact hrunning)
      (by rw [hengine]; exact hstep) (by rw [hengine]; exact hq) (by rw [hengine]; exact hway)
    have k := v.settlePlant_keepsEquipment
    obtain ⟨_, _, _, _, _, _, _, _, _, hfrostSel, _⟩ := v.settlePlant_blocks
    refine ⟨v.settlePlant, by rw [exec_stepTimeLimit hr hs hd hn, ← hu, hv], ?_⟩
    rw [k.engine, hfrostSel, he, hengine]
    exact ⟨rfl, rfl, rfl, rfl, rfl, rfl, rfl, by rw [hfrost, hfrosted, Frost.ended_done]⟩
  · have hne : s.engine.inEmergency = false := by rw [Engine.inEmergency, hrunning]
    rw [State.request_emergency hl ha hne]
    have hat := State.startEmergency_atE2 c (s := s) (by rw [hrunning]; exact nofun)
    cases c <;> exact hat
  · have hne : s.engine.inEmergency = false := by rw [Engine.inEmergency, hrunning]
    rw [State.request_emergency hl ha hne, State.startEmergency_frost c hrunning, Frost.ended_cut _ (by simp)]
  · obtain ⟨u, hu, hengine, _, _, hfrosted, _⟩ := s.stepTimeReaches_blocks n
    obtain ⟨st, next, hst, hnext, hne⟩ : ∃ st next, s.engine.step = some st ∧ st.next = some next ∧ st ≠ .d5 := by
      obtain h | h := hstep
      · exact ⟨_, _, h, rfl, by simp⟩
      · exact ⟨_, _, h, rfl, by simp⟩
    obtain ⟨v, hcount, _, hfrost, htakes⟩ := State.run_boundary_stop (s := u) (next := next) false
      (by rw [hengine]; exact hrunning) (.inr (.inr rfl)) (by rw [hengine]; exact hst) hnext (by rw [hengine]; exact hq)
    have hsettled := htakes.settled
    refine ⟨_, by rw [exec_stepTimeExit hr hs hd hn, ← hu], hsettled.preempted.trans ?_, hsettled.running, ?_⟩
    · rw [hcount, hengine]
    · rw [hsettled.frost, hfrost, State.writeBoundary_eq false hne,
        State.endProc_frost_defrosting .preempted (by rw [State.setEngine_engine, hengine]; exact hrunning),
        Frost.ended_cut _ (by simp), State.setEngine_frost, State.setEngine_engine, hfrosted, hengine]

end Sys2Proof.Machine
end

