-- ==== Sys2Proof/Proofs/StartChain.lean ====
section
/-! PROOFS. The chain of a START and of a CHANGEOVER's end: S1's time, the valve, the grant that runs the compressor, and
S4 (R139, R142, R150, R157, R158, R161). -/

namespace Sys2Proof.Machine

/-! ## The grant of S3 (R142, R158, R161, R162) -/

/-- S3's action, its boundary, and S4 entered. -/
def State.warming (s : State) : State := ((s.applied .s3).writeBoundary .s3 false).enter .s4

theorem State.drive_warming {s : State} (n : Nat) (hstep : s.engine.step = some .s3)
    (hq : s.engine.requests = .empty) : s.drive (n + 4) .apply = s.warming := by
  obtain ⟨_, _, hrequests⟩ := s.applied_keepsProcedure .s3
  rw [State.drive_apply_on (n + 2) hstep (by simp) rfl rfl (Engine.not_outranked_of_empty (hrequests hq))]
  exact State.drive_stand n ⟨by simp, by simp, rfl⟩ rfl rfl

theorem State.warming_plant (s : State) : PlantFrame s s.warming :=
  ((s.applied_plant .s3).trans (State.writeBoundary_plant .s3 false _)).trans (State.enter_plant .s4 _)

theorem State.applied_s3_engine (s : State) :
    (s.applied .s3).engine =
      { s.engine with
        state := .running, delaying := false, stepTime := 0, run := true, speedHold := some s.pp.cmin
        marks := s.engine.marks + 1 } := by
  rw [State.applied_engine]
  simp only [State.act, State.holdSpeed, State.runOn, State.openRun, State.setEngine_engine, State.setProtection_engine,
    State.readied_engine]
  rfl

theorem State.enter_s4 (s : State) :
    (s.enter .s4).engine =
      { s.engine with
        state := .running, step := some .s4, delaying := false, stepTime := 0, exitTime := some 60
        timeLimit := none, speedHold := some s.pp.cmin } ∧
    (s.enter .s4).protection = s.protection := ⟨rfl, rfl⟩

theorem State.warming_engine (s : State) :
    s.warming.engine =
      { s.engine with
        state := .running, step := some .s4, delaying := false, stepTime := 0, exitTime := some 60
        timeLimit := none, run := true, speedHold := some s.pp.cmin, marks := s.engine.marks + 1
        stepsLoaded := s.engine.stepsLoaded + 1
        status := { s.engine.status with proc := s.engine.running, step := some .s3 } } := by
  have hf : PlantFrame s ((s.applied .s3).writeBoundary .s3 false) :=
    (s.applied_plant .s3).trans (State.writeBoundary_plant .s3 false _)
  rw [State.warming, (State.enter_s4 _).1, hf.pp, State.writeBoundary_eq false (by simp), State.setEngine_engine,
    State.applied_s3_engine]
  simp only [Bool.or_false]

/-- The warm-up's outputs, record and report (R118, R139, R140, R162). -/
theorem State.warming_blocks (s : State) :
    s.warming.capacity.speedCommand = s.pp.cmin ∧ s.warming.protection = { s.protection with run := some 0 } ∧
      s.warming.frost = s.frost ∧ s.warming.modeSel = s.modeSel ∧ s.warming.line.main.pending = true := by
  have he := s.warming_engine
  refine ⟨?_, ?_, ?_, ?_, ?_⟩
  · exact (State.applied_speed .s4 (((s.applied .s3).writeBoundary .s3 false).current .s4)).2 s.pp.cmin
      (congrArg Engine.run he) (congrArg Engine.speedHold he)
  · rw [State.warming, (State.enter_s4 _).2, State.writeBoundary_eq false (by simp), State.setEngine_protection,
      State.applied_protection]
    simp [State.act, State.openRun, State.runOn, State.holdSpeed]
  · rw [State.warming, State.enter_frost, State.writeBoundary_eq false (by simp), State.setEngine_frost,
      State.applied_frost]
  · rw [State.warming, State.enter_eq_applied, State.applied_modeSel (by simp), State.current_modeSel,
      State.writeBoundary_modeSel, State.applied_modeSel (by simp)]
  · exact ((State.writeBoundary_engineFrame .s3 false _).trans (State.enter_engineFrame .s4 _)).line.pending
      (State.applied_pending rfl s)

/-! ## S3's request (R142, R150, R157, R158) -/

/-- What the START grant's conditions read (R158). -/
theorem State.startPermitted_congr {s t : State} {w : Option GuardRequest}
    (hp : t.protection = { s.protection with waiting := w }) (hf : PlantFrame s t)
    (hh : t.engine.emergencyHold = s.engine.emergencyHold) : t.startPermitted = s.startPermitted := by
  unfold State.startPermitted State.floatPermits State.antiShortInterval
  rw [hp, hf.sensors, hf.mode, hf.pp, hh]

/-- A mode with a position for the valve has a group (R96, R139). -/
theorem Mode.group_ne_none_of_valve {m : Mode} {v : Valve} (h : m.valve = some v) : m.group ≠ .none := by
  cases m with
  | off | fan => cases h
  | cool | dry | heat => simp [Mode.group]

/-- A START is withdrawn at S3 neither with C at the stop threshold or above nor in a mode with a group (R150). -/
theorem State.not_withdrawnAtS3 {s : State} {v : Valve} (hv : s.modeSel.mode.valve = some v)
    (hc : s.pp.stopThreshold ≤ s.capacity.c) (st : StepId) : s.withdrawnAtS3 st = false := by
  simp [State.withdrawnAtS3, hc, Mode.group_ne_none_of_valve hv]

/-- S2 with the valve in the mode's position leaves the plant (R139, R142). -/
theorem State.enter_s2_placed {s : State} {v : Valve} (hm : s.modeSel.mode.valve = some v) (hv : s.engine.valve = v) :
    (s.enter .s2).engine =
      { s.engine with
        state := .running, step := some .s2, delaying := false, stepTime := 0, exitTime := none, timeLimit := none } ∧
    (s.enter .s2).protection = s.protection ∧ (s.enter .s2).modeSel = s.modeSel := by
  have hact : (s.atAction .s2).act .s2 = s.atAction .s2 := by
    have hm' : (s.atAction .s2).modeSel.mode.valve = some v := hm
    have hplaced : (s.atAction .s2).driveValve v = s.atAction .s2 := if_pos hv
    rw [State.act, State.driveModeValve, hm']
    exact hplaced
  rw [State.enter, hact]
  exact ⟨rfl, rfl, rfl⟩

/-- S1's time exit with the valve in place asks for the START grant at S3 (R142). -/
theorem State.drive_s1_boundary {s : State} {v : Valve} (n : Nat) (hstep : s.engine.step = some .s1)
    (hq : s.engine.requests = .empty) (hm : s.modeSel.mode.valve = some v) (hv : s.engine.valve = v) :
    s.drive (n + 4) (.boundary false) = ((s.writeBoundary .s1 false).pass .s2).drive n (.take .s3) := by
  have hw := State.writeBoundary_eq (s := s) (st := .s1) false (by simp)
  have hguard : ((s.writeBoundary .s1 false).current .s2).guardOf .s2 = none := by
    have hm' : ((s.writeBoundary .s1 false).current .s2).modeSel.mode.valve = some v := by rw [hw]; exact hm
    have hv' : v = ((s.writeBoundary .s1 false).current .s2).engine.valve := by rw [hw]; exact hv.symm
    rw [State.guardOf, hm']
    exact if_pos hv'
  have hq2 : ((s.writeBoundary .s1 false).enter .s2).engine.requests = .empty :=
    (((s.writeBoundary .s1 false).current .s2).applied_keepsProcedure .s2).2.2
      ((State.writeBoundary_requests .s1 false s).trans hq)
  rw [State.drive_boundary (n + 3) false hstep rfl (Engine.not_outranked_of_empty hq)]
  exact State.drive_pass n ⟨by simp, by simp, rfl⟩ hguard rfl
    (((s.writeBoundary .s1 false).current .s2).applied_keepsProcedure .s2).2.1 rfl (Engine.not_outranked_of_empty hq2)

theorem State.s2_passed {s : State} {v : Valve} (hm : s.modeSel.mode.valve = some v) (hv : s.engine.valve = v) :
    ∃ u, u = (s.writeBoundary .s1 false).pass .s2 ∧
      u.engine =
        { s.engine with
          state := .running, step := some .s2, delaying := false, stepTime := 0, exitTime := none, timeLimit := none
          stepsLoaded := s.engine.stepsLoaded + 2
          status := { s.engine.status with proc := s.engine.running, step := some .s2 } } ∧
      u.protection = s.protection ∧ u.modeSel = s.modeSel ∧ u.frost = s.frost ∧ PlantFrame s u ∧ EngineFrame s u := by
  have hw := State.writeBoundary_eq (s := s) (st := .s1) false (by simp)
  obtain ⟨w, hwe⟩ : ∃ w, w = s.writeBoundary .s1 false := ⟨_, rfl⟩
  have hwm : w.modeSel = s.modeSel := by rw [hwe, hw]; rfl
  have hwp : w.protection = s.protection := by rw [hwe, hw]; rfl
  have hwf : w.frost = s.frost := by rw [hwe, hw]; rfl
  have hwengine : w.engine =
      { s.engine with
        status := { s.engine.status with proc := s.engine.running, step := some .s1 }
        stepsLoaded := s.engine.stepsLoaded + 1 } := by rw [hwe, hw]; simp only [Bool.or_false]; rfl
  obtain ⟨he, hp, hmode⟩ := State.enter_s2_placed (s := w) (hwm ▸ hm) (by rw [hwengine]; exact hv)
  obtain ⟨hpe, hpp⟩ := State.pass_blocks (st := .s2) (by simp) w
  have hframe : EngineFrame s (w.pass .s2) :=
    (hwe ▸ State.writeBoundary_engineFrame .s1 false s).trans
      ((State.enter_engineFrame .s2 w).trans (State.writeBoundary_engineFrame .s2 false _))
  refine ⟨w.pass .s2, by rw [hwe], ?_, by rw [hpp, hp, hwp], ?_, ?_,
    (hwe ▸ State.writeBoundary_plant .s1 false s).trans (State.pass_plant .s2 w), hframe⟩
  · rw [hpe, he, hwengine]
    simp only [BitVec.add_assoc]
    rfl
  · rw [State.pass, State.writeBoundary_modeSel, hmode, hwm]
  · rw [State.pass, State.writeBoundary_eq false (by simp), State.setEngine_frost, State.enter_frost, hwf]

/-- The granted START at S3 runs on to the warm-up (R142, R158). -/
theorem State.drive_s3_granted {s : State} {v : Valve} (n : Nat) (hq : s.engine.requests = .empty)
    (hm : s.modeSel.mode.valve = some v) (hc : s.pp.stopThreshold ≤ s.capacity.c) (hs : s.startPermitted = true) :
    s.drive (n + 5) (.take .s3) = (s.granted .s3 .start).warming := by
  have hf : PlantFrame s (s.asking .s3 .start) := by constructor <;> rfl
  have hpermitted : (s.asking .s3 .start).permitted .start = true :=
    (State.startPermitted_congr (w := some .start) rfl hf rfl).trans hs
  rw [State.drive_take_guarded (n + 4) (State.not_withdrawnAtS3 (s := s.current .s3) hm hc .s3) rfl
    (Engine.not_outranked_of_empty hq), if_pos hpermitted]
  exact State.drive_warming n rfl hq

/-- Settles O56: S1's time exit passes S2 and S3 and warms up at S4. -/
theorem startGrantRunsTheCompressor : Obligations.StartGrantRunsTheCompressor := by
  intro s n v hr hrunning hstep hs hd hn hq hm hv hc hpermitted
  obtain ⟨u, hu, hue, hup, huc, huf, hum, hframe⟩ := s.stepTimeReaches_blocks n
  obtain ⟨w, hw, hwe, hwp, hwm, hwf, hwframe, hwengine⟩ :=
    State.s2_passed (s := u) (v := v) (by rw [hum]; exact hm) (by rw [hue]; exact hv)
  have hwc : w.capacity.c = s.capacity.c := (congrArg Capacity.c hwengine.capacity).trans (by rw [huc])
  have hsw := hframe.trans hwframe
  have hgrant : w.startPermitted = true := by
    rw [← hpermitted]
    refine State.startPermitted_congr (w := s.protection.waiting) ?_ hsw ?_
    · rw [hwp, hup]
    · rw [hwe, hue]
  have hrun : u.run (.boundary false) = (w.granted .s3 .start).warming := by
    rw [State.run, State.drive_s1_boundary 60 (by rw [hue]; exact hstep) (by rw [hue]; exact hq)
      (by rw [hum]; exact hm) (by rw [hue]; exact hv), ← hw]
    exact State.drive_s3_granted 55 (by rw [hwe, hue]; exact hq) (by rw [hwm, hum]; exact hm)
      (by rw [hsw.pp, hwc]; exact hc) hgrant
  obtain ⟨g, hg, hge, hgp, hgm, hgf, hgc, hgframe⟩ : ∃ g, g = w.granted .s3 .start ∧
      g.engine =
        { w.engine with
          state := .waiting, step := some .s3, delaying := false, stepTime := 0, exitTime := none, timeLimit := none } ∧
      g.protection = { w.protection with waiting := none, budget := w.protection.budget - 1 } ∧
      g.modeSel = w.modeSel ∧ g.frost = w.frost ∧ g.capacity = w.capacity ∧ PlantFrame w g :=
    ⟨_, rfl, rfl, rfl, rfl, rfl, rfl, by constructor <;> rfl⟩
  rw [← hg] at hrun
  have hf := ((hsw.trans hgframe).trans g.warming_plant).trans (State.settlePlant_plant _)
  have k := g.warming.settlePlant_keepsEquipment
  obtain ⟨_, _, _, _, _, _, hmodeSel, hcapacity, _, hfrostSel, _⟩ := g.warming.settlePlant_blocks
  obtain ⟨hspeed, hprotection, hfrost, hmode, hpending⟩ := g.warming_blocks
  have hwarmc : g.warming.capacity.c = s.capacity.c := by
    have hgw := (State.applied_engineFrame .s3 g).trans
      ((State.writeBoundary_engineFrame .s3 false _).trans (State.enter_engineFrame .s4 _))
    exact (congrArg Capacity.c hgw.capacity).trans (by rw [hgc]; exact hwc)
  refine ⟨g.warming.settlePlant, by rw [exec_stepTimeExit hr hs hd hn, ← hu, hrun], ?_⟩
  rw [k.engine, k.protection, hmodeSel, hcapacity, hfrostSel, g.warming_engine, hprotection, hfrost, hmode, hge, hgp, hgm, hgf,
    hwp, hwm, hwf, hup, hum, huf, hspeed, hwarmc, (hsw.trans hgframe).pp, hwe, hue]
  exact ⟨hrunning, rfl, rfl, rfl, rfl, rfl, hv, rfl, rfl, rfl, rfl, BitVec.add_assoc _ 2 1, rfl, State.settlePlant_pending hpending, rfl, rfl,
    hf.sensors, hf.peers, hf.loader, hf.demand, hf.share, hf.damper, hf.pending⟩

end Sys2Proof.Machine
end

