-- ==== Sys2Proof/Proofs/ChangeoverChain.lean ====
section
/-! PROOFS. The ends of the STOP and CHANGEOVER chains, and what the hand-off of C withdraws (R141, R143, R145, R150). -/

namespace Sys2Proof.Machine

/-! ## The end of a STOP (R141, R143) -/

theorem State.drive_lastBoundary {s : State} {st : StepId} (n : Nat) (b : Bool) (hstep : s.engine.step = some st)
    (hnext : st.next = none) (hq : s.engine.requests = .empty) :
    s.drive (n + 2) (.boundary b) = (s.writeBoundary st b).endProc .done := by
  have hend : s.boundary b = (.startNext, (s.writeBoundary st b).endProc .done) := by
    unfold State.boundary
    rw [hstep]
    dsimp only
    rw [hnext]
  have hempty : ((s.writeBoundary st b).endProc .done).engine.requests = .empty := by
    rw [State.endProc_requests, State.writeBoundary_requests, hq]
  rw [State.drive_succ, State.move, hend]
  exact State.drive_startNext_rest n hempty

/-- With no blower value held the blower follows the loop, at 100 at least with the compressor on (R123). -/
theorem State.driveOutputs_loopBlower {s w : State} (ha : w.aside = false) (hh : w.engine.blowerHold = none)
    (hc : w.capacity = s.capacity) (hr : w.engine.run = s.engine.run) :
    w.driveOutputs.capacity.blowerCommand =
      if s.engine.run = true then max 100 s.capacity.loopBlower else s.capacity.loopBlower := by
  simp only [State.driveOutputs, State.setCapacity_capacity, ha, hh, hc, hr, Option.getD_none]
  cases s.engine.run with
  | false => rfl
  | true =>
    simp only [Bool.true_and, decide_eq_true_eq, if_true, Bool.false_eq_true, if_false]
    split <;> omega

/-- The end of a procedure leaves the blower to the loop. -/
theorem State.endProc_blower (o : ProcOutcome) {s : State} (ha : s.aside = false) :
    (s.endProc o).capacity.blowerCommand =
      if s.engine.run = true then max 100 s.capacity.loopBlower else s.capacity.loopBlower := by
  have hrun : (s.engine.count o).run = s.engine.run := by cases o <;> rfl
  have hstandby : (s.engine.count o).standby = s.engine.standby := by cases o <;> rfl
  have haside : ((s.engine.count o).standby || s.line.yielded) = false := by rw [hstandby]; exact ha
  unfold State.endProc
  dsimp only
  split <;> exact State.driveOutputs_loopBlower haside rfl rfl hrun

/-- T3's action and its boundary end a STOP with DONE (R141, R143). -/
def State.stopEnded (s : State) : State :=
  (((s.writeBoundary .t2 false).enter .t3).writeBoundary .t3 false).endProc .done

theorem State.run_stopEnded {s : State} (hstep : s.engine.step = some .t2) (hq : s.engine.requests = .empty) :
    s.run (.boundary false) = s.stopEnded := by
  have hq2 : ((s.writeBoundary .t2 false).enter .t3).engine.requests = .empty :=
    (((s.writeBoundary .t2 false).current .t3).applied_keepsProcedure .t3).2.2
      ((State.writeBoundary_requests .t2 false s).trans hq)
  rw [State.run, State.drive_boundary 63 false hstep rfl (Engine.not_outranked_of_empty hq),
    State.drive_take 61 ⟨by simp, by simp, rfl⟩ rfl]
  exact State.drive_lastBoundary 59 false
    (((s.writeBoundary .t2 false).current .t3).applied_keepsProcedure .t3).2.1 rfl hq2

theorem State.stopEnded_blocks {s : State} {r : StopReason} (hrunning : s.engine.running = some (.stop r)) :
    s.stopEnded.engine =
      { s.engine with
        done := s.engine.done + 1, state := .idle, running := none, step := none, delaying := false, stepTime := 0
        exitTime := none, timeLimit := none, emergencyHold := 0, speedHold := none, blowerHold := none, d5 := none
        stepsLoaded := s.engine.stepsLoaded + 2
        status := { s.engine.status with proc := some (.stop r), step := some .t3, outcome := .done } } ∧
      s.stopEnded.protection = { s.protection with waiting := none } ∧ s.stopEnded.frost = s.frost ∧
      (s.aside = false → s.stopEnded.capacity.blowerCommand =
        if s.engine.run = true then max 100 s.capacity.loopBlower else s.capacity.loopBlower) := by
  obtain ⟨w, hw⟩ : ∃ w, w = ((s.writeBoundary .t2 false).enter .t3).writeBoundary .t3 false := ⟨_, rfl⟩
  have hframe : PlantFrame s w := by
    rw [hw]
    exact ((State.writeBoundary_plant .t2 false s).trans (State.enter_plant .t3 _)).trans
      (State.writeBoundary_plant .t3 false _)
  have hloop : w.capacity.loopBlower = s.capacity.loopBlower := by
    have h := ((State.writeBoundary_engineFrame .t2 false s).trans (State.enter_engineFrame .t3 _)).trans
      (State.writeBoundary_engineFrame .t3 false _)
    rw [hw, h.capacity]
  have h3 (v : State) : (v.enter .t3).engine =
      { v.engine with
        state := .running, step := some .t3, delaying := false, stepTime := 0, exitTime := none
        timeLimit := none, blowerHold := none } ∧ (v.enter .t3).protection = v.protection := ⟨rfl, rfl⟩
  have hwe : w.engine =
      { s.engine with
        state := .running, step := some .t3, delaying := false, stepTime := 0, exitTime := none
        timeLimit := none, blowerHold := none, stepsLoaded := s.engine.stepsLoaded + 2
        status := { s.engine.status with proc := s.engine.running, step := some .t3 } } := by
    rw [hw, State.writeBoundary_eq false (by simp), State.setEngine_engine, (h3 _).1,
      State.writeBoundary_eq false (by simp), State.setEngine_engine]
    simp only [Bool.or_false, BitVec.add_assoc]
    rfl
  have hwp : w.protection = s.protection := by
    rw [hw, State.writeBoundary_eq false (by simp), State.setEngine_protection, (h3 _).2,
      State.writeBoundary_eq false (by simp), State.setEngine_protection]
  have hwf : w.frost = s.frost := by
    rw [hw, State.writeBoundary_eq false (by simp), State.setEngine_frost, State.enter_frost,
      State.writeBoundary_eq false (by simp), State.setEngine_frost]
  have hnot : w.engine.defrosting = false := by rw [hwe]; simp [Engine.defrosting, hrunning]
  obtain ⟨hengine, hprotection, hfrost, _⟩ := State.endProc_done hnot
  rw [State.stopEnded, ← hw]
  refine ⟨?_, by rw [hprotection, hwp], by rw [hfrost, hwf], fun ha => ?_⟩
  · rw [hengine, hwe]
    simp [Engine.endStatus, hrunning]
  · rw [State.endProc_blower .done (hframe.aside.trans ha), hloop, hwe]

/-! ## Withdrawal at the hand-off of C (R150) -/

theorem Mode.group_eq_none {m : Mode} : m.group = .none ↔ m = .off ∨ m = .fan := by cases m <;> simp [Mode.group]

theorem State.wrongWay_iff (s : State) :
    s.wrongWay = true ↔ s.engine.run = true ∧ ∃ v, s.modeSel.mode.valve = some v ∧ v ≠ s.engine.valve := by
  unfold State.wrongWay
  cases s.modeSel.mode.valve with
  | none => simp
  | some v =>
    have hswap : s.engine.valve = v ↔ v = s.engine.valve := eq_comm
    simp [hswap]

theorem State.withdrawsNow_iff {s : State} {p : Proc} {st : StepId} (hs : s.engine.state = .waiting)
    (hrunning : s.engine.running = some p) (hstep : s.engine.step = some st) :
    s.withdrawsNow = true ↔
      (p = .stop .demand ∧ st = .t1 ∧ s.pp.startThreshold ≤ s.capacity.c ∧
          ¬(s.engine.run = true ∧ ∃ v, s.modeSel.mode.valve = some v ∧ v ≠ s.engine.valve)) ∨
        (p = .start ∧ st = .s3 ∧
          (s.capacity.c < s.pp.stopThreshold ∨ s.modeSel.mode = .off ∨ s.modeSel.mode = .fan)) := by
  rw [← s.wrongWay_iff, ← Mode.group_eq_none]
  simp [State.withdrawsNow, State.withdrawnAtS3, hs, hrunning, hstep]
  tauto

theorem State.handOffC_withdraws {s : State} (hw : s.withdrawsNow = true) (hq : s.engine.requests = .empty) :
    s.handOffC = s.endProc .withdrawn := by
  rw [State.handOffC, if_pos hw]
  exact State.drive_startNext_rest 63 ((State.endProc_requests .withdrawn s).trans hq)

/-! ## A CHANGEOVER from X1 on (R145) -/

theorem State.askSpacing_eq (s : State) :
    s.askSpacing =
      if 60 ≤ s.protection.stopAge then (.boundary false, s)
      else (.rest, s.setProtection { s.protection with waiting := some .spacing }) := by
  simp [State.askSpacing, State.permitted]

/-- X1's action, its boundary, and X2 entered. -/
def State.changing (s : State) : State := ((s.applied .x1).writeBoundary .x1 false).enter .x2

theorem State.drive_changing {s : State} (n : Nat) (hstep : s.engine.step = some .x1)
    (hq : s.engine.requests = .empty) :
    s.drive (n + 4) .apply =
      if 60 ≤ s.changing.protection.stopAge then s.changing.drive n (.boundary false)
      else s.changing.setProtection { s.changing.protection with waiting := some .spacing } := by
  obtain ⟨_, _, hrequests⟩ := s.applied_keepsProcedure .x1
  generalize hv : (s.applied .x1).writeBoundary .x1 false = v
  have hchanging : s.changing = v.enter .x2 := by rw [State.changing, hv]
  have htake : v.takeStep .x2 = (.apply, v.current .x2) := by
    have hw : (v.current .x2).withdrawnAtS3 .x2 = false := by simp [State.withdrawnAtS3]
    unfold State.takeStep
    dsimp only
    rw [hw]
    rfl
  have happly : (v.current .x2).applyStep = (v.enter .x2).askSpacing := rfl
  rw [State.drive_apply_on (n + 2) hstep (by simp) rfl rfl (Engine.not_outranked_of_empty (hrequests hq)), hv,
    State.drive_succ, State.move, htake, State.drive_succ, State.move, happly, State.askSpacing_eq, hchanging]
  split
  · rfl
  · exact State.drive_rest n _

theorem State.changing_plant (s : State) : PlantFrame s s.changing :=
  ((s.applied_plant .x1).trans (State.writeBoundary_plant .x1 false _)).trans (State.enter_plant .x2 _)

theorem State.enter_x2 (s : State) :
    (s.enter .x2).engine =
      { s.engine with
        state := .running, step := some .x2, delaying := false, stepTime := 0, exitTime := none, timeLimit := none
        blowerHold := some s.pp.fanAirflow } ∧
    (s.enter .x2).protection = s.protection := ⟨rfl, rfl⟩

theorem State.changing_blocks (s : State) :
    (∃ b k, s.changing.engine =
      { s.engine with
        state := .running, step := some .x2, delaying := false, stepTime := 0, exitTime := none, timeLimit := none
        run := false, requests := { s.engine.requests with start := b }, refused := k, speedHold := some 0
        blowerHold := some s.pp.fanAirflow, marks := s.engine.marks + 1
        stepsLoaded := s.engine.stepsLoaded + 1
        status := { s.engine.status with proc := s.engine.running, step := some .x1 } }) ∧
    s.protection.Closes s.changing.protection .changeover ∧
    s.changing.protection.stopAge = (if s.engine.run = true then 0 else s.protection.stopAge) ∧
    (s.engine.requests = .empty → s.changing.engine.requests = .empty) := by
  obtain ⟨⟨b, k, he⟩, hcloses, hage, _⟩ := s.applied_x1
  have hq := (s.applied_keepsProcedure .x1).2.2
  have hf := (s.applied_plant .x1).trans (State.writeBoundary_plant .x1 false _)
  have hwe := congrArg State.engine (State.writeBoundary_eq (s := s.applied .x1) (st := .x1) false (by simp))
  have hwp := congrArg State.protection (State.writeBoundary_eq (s := s.applied .x1) (st := .x1) false (by simp))
  rw [State.changing]
  generalize (s.applied .x1).writeBoundary .x1 false = w at hf hwe hwp ⊢
  rw [State.setEngine_engine, he, Bool.or_false] at hwe
  rw [State.setEngine_protection] at hwp
  rw [he] at hq
  obtain ⟨he2, hp2⟩ := w.enter_x2
  rw [he2, hp2, hwe, hwp, hf.pp]
  exact ⟨⟨b, k, rfl⟩, hcloses, hage, hq⟩

/-- X2's outputs: the compressor off and the blower at the fan airflow (R118, R123, R145). -/
theorem State.changing_outputs (s : State) :
    s.changing.capacity.speedCommand = 0 ∧ (s.aside = false → s.changing.capacity.blowerCommand = s.pp.fanAirflow) := by
  obtain ⟨⟨b, k, he⟩, _⟩ := s.changing_blocks
  have hf := (s.applied_plant .x1).trans (State.writeBoundary_plant .x1 false _)
  obtain ⟨hspeed, hblower⟩ := ((s.applied .x1).writeBoundary .x1 false).enter_outputs .x2
  refine ⟨hspeed (congrArg Engine.run he), fun ha => ?_⟩
  rw [State.changing, hblower _ (congrArg Engine.blowerHold he), hf.aside, ha]
  rfl

/-- X2's boundary, X3 at once, and S1 entered. -/
def State.changed (s : State) : State := ((s.writeBoundary .x2 false).pass .x3).enter .s1

theorem State.drive_changed {s : State} (n : Nat) (hstep : s.engine.step = some .x2)
    (hq : s.engine.requests = .empty) : s.drive (n + 6) (.boundary false) = s.changed := by
  have hq3 : ((s.writeBoundary .x2 false).enter .x3).engine.requests = .empty :=
    (((s.writeBoundary .x2 false).current .x3).applied_keepsProcedure .x3).2.2
      ((State.writeBoundary_requests .x2 false s).trans hq)
  rw [State.drive_boundary (n + 5) false hstep rfl (Engine.not_outranked_of_empty hq),
    State.drive_pass (n + 2) ⟨by simp, by simp, rfl⟩ rfl rfl
      (((s.writeBoundary .x2 false).current .x3).applied_keepsProcedure .x3).2.1 rfl (Engine.not_outranked_of_empty hq3)]
  exact State.drive_s1 n _

/-- The valve is driven to the mode's position, where the mode has one (R139). -/
theorem State.driveModeValve_blocks (s : State) :
    s.driveModeValve.engine = { s.engine with valve := s.modeSel.mode.valve.getD s.engine.valve } ∧
      s.driveModeValve.protection =
        { s.protection with
          valveAge := if s.modeSel.mode.valve.getD s.engine.valve = s.engine.valve then s.protection.valveAge else 0 } := by
  unfold State.driveModeValve
  cases s.modeSel.mode.valve with
  | none => exact ⟨rfl, by simp⟩
  | some v =>
    unfold State.driveValve
    by_cases hv : s.engine.valve = v
    · subst hv
      simp
    · have hne : v ≠ s.engine.valve := fun h => hv h.symm
      simp [hv, hne]

/-- A step that drives the valve to the mode's group, applied (R142, R145). -/
theorem State.applied_modeValve {st : StepId} (hst : st = .s2 ∨ st = .x3) (s : State) :
    (s.applied st).engine =
        { s.engine with
          state := .running, delaying := false, stepTime := 0
          valve := s.modeSel.mode.valve.getD s.engine.valve } ∧
      (s.applied st).protection =
        { s.protection with
          valveAge := if s.modeSel.mode.valve.getD s.engine.valve = s.engine.valve then s.protection.valveAge else 0 } := by
  have hact : s.readied.act st = s.readied.driveModeValve ∧ st.marked = false := by
    obtain rfl | rfl := hst <;> exact ⟨rfl, rfl⟩
  obtain ⟨he, hp⟩ := s.readied.driveModeValve_blocks
  rw [State.applied_engine, State.applied_protection, hact.1, hact.2, he, hp]
  exact ⟨rfl, rfl⟩

theorem State.changed_blocks (s : State) :
    s.changed.engine =
      { s.engine with
        state := .running, step := some .s1, delaying := false, stepTime := 0, exitTime := some 30
        timeLimit := none, blowerHold := none, valve := s.modeSel.mode.valve.getD s.engine.valve
        stepsLoaded := s.engine.stepsLoaded + 2
        status := { s.engine.status with proc := s.engine.running, step := some .x3 } } ∧
    s.changed.protection =
      { s.protection with
        valveAge := if s.modeSel.mode.valve.getD s.engine.valve = s.engine.valve then s.protection.valveAge else 0 } ∧
    (s.engine.run = false → s.changed.capacity.speedCommand = 0) := by
  obtain ⟨w, hw, hwe, hwp, hwm⟩ : ∃ w, w = (s.writeBoundary .x2 false).current .x3 ∧
      w.engine =
        { s.engine with
          state := .running, step := some .x3, delaying := false, stepTime := 0, exitTime := none, timeLimit := none
          stepsLoaded := s.engine.stepsLoaded + 1
          status := { s.engine.status with proc := s.engine.running, step := some .x2 } } ∧
      w.protection = s.protection ∧ w.modeSel = s.modeSel := by
    rw [State.writeBoundary_eq false (by simp), Bool.or_false]
    exact ⟨_, rfl, rfl, rfl, rfl⟩
  obtain ⟨he, hp⟩ := State.applied_modeValve (.inr rfl) w
  have hpass : (s.writeBoundary .x2 false).enter .x3 = w.applied .x3 := by rw [hw]; rfl
  have hengine : s.changed.engine =
      { s.engine with
        state := .running, step := some .s1, delaying := false, stepTime := 0, exitTime := some 30
        timeLimit := none, blowerHold := none, valve := s.modeSel.mode.valve.getD s.engine.valve
        stepsLoaded := s.engine.stepsLoaded + 2
        status := { s.engine.status with proc := s.engine.running, step := some .x3 } } := by
    rw [State.changed, (State.enter_s1 _).1, (State.pass_blocks (st := .x3) (by simp) _).1, hpass, he, hwe, hwm]
    simp only [BitVec.add_assoc]
    rfl
  refine ⟨hengine, ?_, fun hoff => ?_⟩
  · rw [State.changed, (State.enter_s1 _).2.1, (State.pass_blocks (st := .x3) (by simp) _).2, hpass, hp, hwe, hwp, hwm]
  · refine (State.applied_speed .s1 (((s.writeBoundary .x2 false).pass .x3).current .s1)).1 ?_
    exact (congrArg Engine.run hengine).trans hoff

/-- X1 let through stops the compressor and goes to X2, which waits for the stop age or goes on to S1 (R145, R157). -/
structure State.ChangesOver (s t : State) : Prop where
  running : t.engine.running = some .changeover ∧ t.engine.state = .running
  off : t.engine.run = false ∧ t.capacity.speedCommand = 0
  closed : t.protection.run = none
  record : s.protection.run.isSome = true →
    ∃ rec, t.protection.history.getLast? = some rec ∧ rec.cause = .changeover
  stopAge : t.protection.stopAge = if s.engine.run = true then 0 else s.protection.stopAge
  waits : s.engine.run = true ∨ s.protection.stopAge < 60 →
    t.engine.step = some .x2 ∧ (s.aside = false → t.capacity.blowerCommand = s.pp.fanAirflow) ∧
      t.protection.waiting = some .spacing ∧ t.engine.valve = s.engine.valve
  goesOn : s.engine.run = false → 60 ≤ s.protection.stopAge →
    t.engine.step = some .s1 ∧ t.engine.exitTime = some 30 ∧ t.engine.blowerHold = none ∧
      t.protection.waiting = none ∧ t.engine.valve = s.modeSel.mode.valve.getD s.engine.valve

theorem State.drive_x1 {s : State} (n : Nat) (hrunning : s.engine.running = some .changeover)
    (hstep : s.engine.step = some .x1) (hq : s.engine.requests = .empty) (hw : s.protection.waiting = none) :
    s.ChangesOver (s.drive (n + 10) .apply) := by
  obtain ⟨⟨b, k, he⟩, ⟨hrun, hwait, hrec⟩, hage, hempty⟩ := s.changing_blocks
  obtain ⟨hspeed, hblower⟩ := s.changing_outputs
  have hf := s.changing_plant
  rw [State.drive_changing (n + 6) hstep hq]
  generalize s.changing = c at he hrun hwait hrec hage hempty hspeed hblower hf ⊢
  split
  next hgo =>
    have hstopped : s.engine.run = false ∧ 60 ≤ s.protection.stopAge := by
      rw [hage] at hgo
      cases hon : s.engine.run <;> simp [hon] at hgo ⊢
      exact hgo
    obtain ⟨hce, hcp, hcs⟩ := c.changed_blocks
    rw [State.drive_changed n (by rw [he]) (hempty hq)]
    exact
      { running := by rw [hce, he]; exact ⟨hrunning, rfl⟩
        off := ⟨by rw [hce, he], hcs (by rw [he])⟩
        closed := by rw [hcp]; exact hrun
        record := by rw [hcp]; exact hrec
        stopAge := by rw [hcp]; exact hage
        waits := fun h => by
          obtain ⟨hoff, hold⟩ := hstopped
          obtain h | h := h
          · rw [hoff] at h; cases h
          · omega
        goesOn := fun _ _ => by rw [hce, hcp, he, hf.mode]; exact ⟨rfl, rfl, rfl, hwait.trans hw, rfl⟩ }
  next hstay =>
    rw [State.setProtection]
    exact
      { running := by rw [he]; exact ⟨hrunning, rfl⟩
        off := ⟨by rw [he], hspeed⟩
        closed := hrun
        record := hrec
        stopAge := hage
        waits := fun _ => by rw [he]; exact ⟨rfl, hblower, rfl, rfl⟩
        goesOn := fun hoff hold => by
          rw [hage, hoff] at hstay
          exact absurd hold hstay }

/-- X1 taken waits for the minimum run of an open run, and is let through else (R145, R159). -/
theorem State.drive_take_x1 {s : State} (n : Nat) (hrunning : s.engine.running = some .changeover)
    (hq : s.engine.requests = .empty) (hw : s.protection.waiting = none) :
    ((∃ age, s.protection.run = some age ∧ age < s.pp.minRun) →
      s.drive (n + 11) (.take .x1) = s.asking .x1 .stop) ∧
    ((∀ age, s.protection.run = some age → s.pp.minRun ≤ age) → s.ChangesOver (s.drive (n + 11) (.take .x1))) := by
  cases hrun : s.protection.run with
  | none =>
    refine ⟨fun ⟨_, h, _⟩ => (by cases h), fun _ => ?_⟩
    have hguard : (s.current .x1).guardOf .x1 = none := if_neg (by
      rw [State.current_protection, hrun]
      exact Bool.false_ne_true)
    rw [State.drive_take_unguarded (n + 10) ⟨by simp, by simp, rfl⟩ hguard]
    have h := State.drive_x1 (s := s.current .x1) n hrunning rfl hq hw
    exact ⟨h.running, h.off, h.closed, h.record, h.stopAge, h.waits, h.goesOn⟩
  | some age =>
    have hguard : (s.current .x1).guardOf .x1 = some .stop := if_pos (by rw [State.current_protection, hrun]; rfl)
    have hpermitted : (s.asking .x1 .stop).permitted .stop = decide (s.pp.minRun ≤ age) := by
      have hopen : (s.asking .x1 .stop).protection.run = some age := hrun
      have hpp : (s.asking .x1 .stop).pp = s.pp := rfl
      simp only [State.permitted, State.stopPermitted, hopen, hpp]
    rw [State.drive_take_guarded (n + 10) (by simp [State.withdrawnAtS3]) hguard (Engine.not_outranked_of_empty hq),
      hpermitted]
    refine ⟨fun ⟨a, ha, hless⟩ => if_neg ?_, fun hold => ?_⟩
    · cases ha
      simpa using hless
    · rw [if_pos (decide_eq_true (hold age rfl))]
      have h := State.drive_x1 (s := s.granted .x1 .stop) n hrunning rfl hq rfl
      exact ⟨h.running, h.off, h.closed, h.record, h.stopAge, h.waits, h.goesOn⟩

/-- A CHANGEOVER of an engine between procedures (R136, R138). -/
theorem State.request_changeover_idle {s : State} (hl : s.engine.listening = .expired) (ha : s.aside = false)
    (hs : s.engine.state = .idle) (hrunning : s.engine.running = none) (hq : s.engine.requests = .empty) :
    s.request .changeover = (s.startProc .changeover).drive 63 (.take .x1) := by
  have htaken : s.request .changeover =
      (s.setRequests { s.engine.requests with changeover := true, start := false }).drive 64 .startNext := by
    rw [State.request_changeover_heard hl ha, State.takeChangeover_enters (by simp [hrunning]) (by rw [hq]; rfl)]
    simp [State.entered, State.setRequests, hs, State.run]
  have hmove := State.startNext_only (s := s) (q := { s.engine.requests with changeover := true, start := false })
    (p := .changeover) (by rw [hq]; rfl) (by rw [hq]; rfl)
  rw [htaken, State.drive_succ, State.move, hmove, if_pos (by rfl)]
  rfl

/-- Settles O52: T3 ends a STOP, X1 to X3 lead a CHANGEOVER into S1, and the hand-off of C withdraws what waits in vain. -/
theorem chainsEndAndAreWithdrawn : Obligations.ChainsEndAndAreWithdrawn := by
  refine ⟨fun s r n hr ha hrunning hstep hs hd hn hq => ?_, fun s t hl ha hs hrunning hq hw ht => ?_,
    fun s t p st hs hrunning hstep hq ht => ?_⟩
  · obtain ⟨u, hu, hue, hup, huc, huf, _, hframe⟩ := s.stepTimeReaches_blocks n
    obtain ⟨he, hp, hf, hblower⟩ := State.stopEnded_blocks (s := u) (r := r) (by rw [hue]; exact hrunning)
    have k := u.stopEnded.settlePlant_keepsEquipment
    obtain ⟨_, _, _, _, _, _, _, hcapacity, _, hfrostSel, _⟩ := u.stopEnded.settlePlant_blocks
    refine ⟨u.stopEnded.settlePlant, by
      rw [exec_stepTimeExit hr hs hd hn, ← hu,
        State.run_stopEnded (by rw [hue]; exact hstep) (by rw [hue]; exact hq)], ?_⟩
    rw [k.engine, k.protection, hcapacity, hfrostSel, he, hp, hf, hblower (hframe.aside.trans ha), hue, hup, huc, huf]
    exact ⟨rfl, rfl, rfl, rfl, rfl, rfl, rfl, rfl, rfl, rfl, rfl, rfl, rfl, rfl⟩
  · subst ht
    obtain ⟨hwaits, hgoes⟩ := State.drive_take_x1 (s := s.startProc .changeover) 52 rfl hq hw
    rw [State.request_changeover_idle hl ha hs hrunning hq]
    refine ⟨fun hage => ?_, fun hold => ?_⟩
    · rw [hwaits hage]
      exact ⟨⟨rfl, rfl, rfl, rfl⟩, rfl, rfl⟩
    · have h := hgoes hold
      refine ⟨h.running.1, h.running.2, h.off.1, h.off.2, h.closed, h.record, fun hx2 => ?_, h.goesOn⟩
      obtain ⟨hstep, hblower, hwaiting, hvalve⟩ := h.waits hx2
      exact ⟨hstep, hblower ha, hwaiting, hvalve⟩
  · subst ht
    have hiff := State.withdrawsNow_iff hs hrunning hstep
    refine ⟨fun hc => ?_, fun hc => if_neg fun h => hc (hiff.1 h)⟩
    obtain ⟨hengine, hprotection, _⟩ := s.endProc_blocks .withdrawn
    rw [State.handOffC_withdraws (hiff.2 hc) hq, hengine, hprotection]
    simp [Engine.count, Engine.endStatus, hrunning, hstep]

end Sys2Proof.Machine
end

