-- ==== Sys2Proof/Proofs/RetainedTimer.lean ====
section
/-! PROOFS. A second of the retained timer: the ages, the refill and the LOCKOUT, and the answer to the request that waits
(R142, R145, R154, R157 to R162, R165, R167). -/

namespace Sys2Proof.Machine

/-! ## The ages, the refill and the LOCKOUT (R154, R161, R165, R167) -/

theorem Protection.refill_eq (p : Protection) :
    p.refill =
      { p with
        budget := if p.budget < 4 ∧ 899 ≤ p.progress then p.budget + 1 else p.budget
        progress := if 4 ≤ p.budget then p.progress else if 899 ≤ p.progress then 0 else p.progress + 1 } := by
  unfold Protection.refill
  by_cases hfull : 4 ≤ p.budget
  · rw [if_pos hfull, if_pos hfull, if_neg (by omega)]
  · by_cases hdue : 899 ≤ p.progress
    · rw [if_neg hfull, if_neg hfull, if_pos hdue, if_pos (by omega), if_pos (by omega)]
    · rw [if_neg hfull, if_neg hfull, if_neg hdue, if_neg (by omega), if_neg (by omega)]

theorem Protection.countDown_eq (p : Protection) :
    p.countDown = { p with lockout := p.lockout.bind fun n => if n ≤ 1 then none else some (n - 1) } := by
  unfold Protection.countDown
  split
  next n h => rw [h]; rfl
  next h => rw [h]; exact congrArg (fun l => { p with lockout := l }) h

theorem State.retainedAdvance_eq (s : State) :
    s.retainedAdvance =
      (s.setProtection (s.protection.afterSecond s.plantReady)).noteLockoutEnd s.protection.lockout := by
  unfold State.retainedAdvance
  dsimp only
  rw [Protection.countDown_eq, Protection.refill_eq]
  cases s.plantReady <;> rfl

/-- Stages 1 to 3 leave every block but the unit's own and the line. -/
theorem State.retainedAdvance_blocks (s : State) :
    s.retainedAdvance.protection = s.protection.afterSecond s.plantReady ∧ s.retainedAdvance.engine = s.engine ∧
      s.retainedAdvance.capacity = s.capacity ∧ s.retainedAdvance.modeSel = s.modeSel ∧
      s.retainedAdvance.frost = s.frost := by
  rw [s.retainedAdvance_eq]
  obtain ⟨l, hl⟩ := State.noteLockoutEnd_eq s.protection.lockout (s.setProtection (s.protection.afterSecond s.plantReady))
  rw [hl]
  exact ⟨rfl, rfl, rfl, rfl, rfl⟩

theorem State.retainedAdvance_notReady {s : State} (h : s.plantReady = false) :
    s.retainedAdvance = s.setProtection (s.protection.afterSecond s.plantReady) := by
  have hr : (s.setProtection (s.protection.afterSecond s.plantReady)).plantReady = false := h
  rw [s.retainedAdvance_eq, State.noteLockoutEnd, hr]
  rfl

/-- The last second of a LOCKOUT raises the report (R165). -/
theorem State.retainedAdvance_pending {s : State} (h : s.protection.lockout = some 1) (hr : s.plantReady = true) :
    s.retainedAdvance.line.main.pending = true := by
  rw [s.retainedAdvance_eq]
  refine State.noteLockoutEnd_pending hr (by rw [h]; rfl) ?_
  rw [State.setProtection_protection, Protection.afterSecond, h]
  rfl

/-! ## The answer (R157) -/

/-- The conditions of an answer, on the unit's items. -/
theorem State.permitted_iff (s : State) (g : GuardRequest) :
    s.permitted g = true ↔ s.AnswerConditions s.protection g := by
  cases g with
  | start =>
    have hinterval : (if s.protection.doubling = true then 2 * s.pp.antiShort else s.pp.antiShort) =
        s.antiShortInterval := rfl
    cases hlast : s.protection.history.getLast? with
    | none =>
      simp [State.permitted, State.startPermitted, State.AnswerConditions, State.StartConditions, hlast,
        hinterval, State.floatPermits, and_assoc]
    | some r =>
      simp [State.permitted, State.startPermitted, State.AnswerConditions, State.StartConditions, hlast,
        hinterval, State.floatPermits, and_assoc]
  | stop =>
    simp only [State.permitted, State.stopPermitted, State.AnswerConditions]
    cases s.protection.run <;> simp
  | valve => simp [State.permitted, State.AnswerConditions]
  | spacing => simp [State.permitted, State.AnswerConditions]

/-- The conditions read the parameters, the contacts, the mode and the hold beside the unit's items. -/
theorem State.answerConditions_congr {s t : State} (hf : PlantFrame s t)
    (hh : t.engine.emergencyHold = s.engine.emergencyHold) (p : Protection) (g : GuardRequest) :
    t.AnswerConditions p g ↔ s.AnswerConditions p g := by
  cases g <;> simp only [State.AnswerConditions, State.StartConditions, hf.sensors, hf.mode, hf.pp, hh]

/-- The plant as the answer of a request finds it: the unit's items are `p`'s, and nothing waits (R157, R161). -/
structure State.Answered (s : State) (p : Protection) (g : GuardRequest) (v : State) : Prop where
  engine : v.engine = s.engine
  protection : v.protection =
    { p with waiting := none, budget := if g = .start then p.budget - 1 else p.budget }
  capacity : v.capacity = s.capacity
  modeSel : v.modeSel = s.modeSel
  plant : PlantFrame s v

/-- A request that waits is left where its conditions do not hold, and answered else (R157). -/
theorem State.retainedAdvance_examined {s : State} {g : GuardRequest} {p : Protection} (hr : s.plantReady = true)
    (hw : s.protection.waiting = some g) (hp : p = s.protection.afterSecond true) :
    (¬ s.AnswerConditions p g → s.retainedAdvance.examineRequest = s.retainedAdvance) ∧
      (s.AnswerConditions p g →
        s.Answered p g (s.retainedAdvance.answer g) ∧
        s.retainedAdvance.examineRequest =
          (s.retainedAdvance.answer g).run (if g = .spacing then .boundary false else .apply)) := by
  obtain ⟨hprotection, hengine, hcapacity, hmode, _⟩ := s.retainedAdvance_blocks
  have hf := s.retainedAdvance_plant
  rw [hr, ← hp] at hprotection
  have hwaiting : s.retainedAdvance.protection.waiting = some g := by rw [hprotection, hp]; exact hw
  have hiff : s.retainedAdvance.permitted g = true ↔ s.AnswerConditions p g := by
    rw [State.permitted_iff, hprotection]
    exact State.answerConditions_congr hf (by rw [hengine]) p g
  have hexamine : s.retainedAdvance.examineRequest =
      if s.retainedAdvance.permitted g = true then
        (s.retainedAdvance.answer g).run (if g = .spacing then .boundary false else .apply)
      else s.retainedAdvance := by
    unfold State.examineRequest
    rw [hwaiting]
    dsimp only
    split
    · split <;> rfl
    · rfl
  rw [hexamine]
  refine ⟨fun hn => if_neg fun h => hn (hiff.1 h), fun h => ⟨?_, if_pos (hiff.2 h)⟩⟩
  exact
    { engine := hengine, protection := by rw [← hprotection]; rfl, capacity := hcapacity, modeSel := hmode
      plant := hf.trans (by constructor <;> rfl) }

/-! ## What an answer leads to (R142, R143, R145, R158, R159) -/

section
variable {s v : State} {p : Protection} {g : GuardRequest}

/-- A START's grant runs the compressor and warms up at S4 (R142, R158, R161). -/
theorem State.Answered.warms (h : s.Answered p .start v) (hstep : s.engine.step = some .s3)
    (hq : s.engine.requests = .empty) :
    v.run .apply = v.warming ∧ v.warming.engine.running = s.engine.running ∧
      v.warming.engine.state = .running ∧ v.warming.engine.step = some .s4 ∧ v.warming.engine.run = true ∧
      v.warming.capacity.speedCommand = s.pp.cmin ∧
      v.warming.protection = { p with run := some 0, budget := p.budget - 1, waiting := none } := by
  obtain ⟨hspeed, hprotection, _⟩ := v.warming_blocks
  have he := v.warming_engine
  rw [h.engine] at he
  refine ⟨State.drive_warming 60 (by rw [h.engine]; exact hstep) (by rw [h.engine]; exact hq), by rw [he], by rw [he],
    by rw [he], by rw [he], by rw [hspeed, h.plant.pp], ?_⟩
  rw [hprotection, h.protection]
  rfl

/-- A STOP's grant at T1 stops the compressor (R143, R159). -/
theorem State.Answered.stops (h : s.Answered p .stop v) (hw : s.WaitsAt (.stop .demand) .t1 .stop)
    (ha : s.aside = false) (hrun : s.protection.run.isSome = true → p.run.isSome = true) :
    v.run .apply = v.stopped ∧ s.StoppedAtT2 v.stopped .demand := by
  have hrunning : v.engine.running = some (.stop .demand) := by rw [h.engine]; exact hw.running
  have hstopped := State.stopped_atT2 hrunning (h.plant.aside.trans ha) (by rw [h.protection])
  refine ⟨State.drive_apply_t1 60 hrunning (by rw [h.engine]; exact hw.step), ?_⟩
  exact
    { hstopped with
      time := by rw [← h.modeSel]; exact hstopped.time
      off := by rw [← h.plant.pp]; exact hstopped.off
      record := fun hopen => hstopped.record (by rw [h.protection]; exact hrun hopen) }

/-- The grant of X1 stops the compressor, and X2 asks for the spacing (R145, R159). -/
theorem State.Answered.changes (h : s.Answered p .stop v) (hw : s.WaitsAt .changeover .x1 .stop)
    (hq : s.engine.requests = .empty) (hon : s.engine.run = true) :
    (v.run .apply).engine.running = some .changeover ∧ (v.run .apply).engine.step = some .x2 ∧
      (v.run .apply).engine.run = false ∧ (v.run .apply).protection.run = none ∧
      (v.run .apply).protection.stopAge = 0 ∧ (v.run .apply).protection.waiting = some .spacing := by
  have hchange := State.drive_x1 (s := v) 54 (by rw [h.engine]; exact hw.running) (by rw [h.engine]; exact hw.step)
    (by rw [h.engine]; exact hq) (by rw [h.protection])
  have hrun : v.engine.run = true := by rw [h.engine]; exact hon
  obtain ⟨hstep, _, hwaiting, _⟩ := hchange.waits (.inl hrun)
  exact ⟨hchange.running.1, hstep, hchange.off.1, hchange.closed, hchange.stopAge.trans (if_pos hrun), hwaiting⟩

/-- The valve grant drives the valve, and S3 asks for its START grant, which the new valve age holds back (R142, R158). -/
theorem State.Answered.asksStart {x : Valve} (h : s.Answered p .valve v) (hw : s.WaitsAt .start .s2 .valve)
    (hq : s.engine.requests = .empty) (hm : s.modeSel.mode.valve = some x) (hx : x ≠ s.engine.valve)
    (hc : s.pp.stopThreshold ≤ s.capacity.c) :
    (v.run .apply).WaitsAt .start .s3 .start ∧ (v.run .apply).engine.valve = x ∧
      (v.run .apply).protection.valveAge = 0 := by
  obtain ⟨he, hp⟩ := State.applied_modeValve (.inl rfl) v
  have hrequests := (v.applied_keepsProcedure .s2).2.2 (by rw [h.engine]; exact hq)
  have hframe := (v.applied_engineFrame .s2).trans (State.writeBoundary_engineFrame .s2 false _)
  have hplant := h.plant.trans ((v.applied_plant .s2).trans (State.writeBoundary_plant .s2 false _))
  have hwritten := State.writeBoundary_eq (s := v.applied .s2) (st := .s2) false (by simp)
  rw [State.run, State.drive_apply_on 62 (by rw [h.engine]; exact hw.step) (by simp) rfl rfl
    (Engine.not_outranked_of_empty hrequests)]
  have hwe := congrArg State.engine hwritten
  have hwp := congrArg State.protection hwritten
  rw [State.setEngine_engine, he] at hwe
  rw [State.setEngine_protection, hp, h.engine, h.modeSel, hm] at hwp
  have hwq : ((v.applied .s2).writeBoundary .s2 false).engine.requests = .empty :=
    (State.writeBoundary_requests .s2 false _).trans hrequests
  generalize (v.applied .s2).writeBoundary .s2 false = w at hframe hplant hwe hwp hwq ⊢
  have hage : w.protection.valveAge = 0 := by rw [hwp]; exact if_neg hx
  have hwithdrawn : (w.current .s3).withdrawnAtS3 .s3 = false := by
    refine State.not_withdrawnAtS3 (s := w.current .s3) (v := x) ?_ ?_ .s3
    · rw [State.current_modeSel, hplant.mode, hm]
    · have hwc : w.capacity.c = s.capacity.c := (congrArg Capacity.c hframe.capacity).trans (by rw [h.capacity])
      rw [State.current_pp, hplant.pp]
      exact hwc ▸ hc
  have hdenied : ¬ (w.asking .s3 .start).permitted .start = true := by
    have hyoung : (w.asking .s3 .start).protection.valveAge = 0 := hage
    rw [State.permitted_iff]
    rintro ⟨_, _, hold, _⟩
    omega
  rw [State.drive_take_guarded 61 hwithdrawn rfl (Engine.not_outranked_of_empty hwq), if_neg hdenied]
  refine ⟨⟨rfl, ?_, rfl, rfl⟩, ?_, hage⟩
  · show w.engine.running = some .start
    rw [hwe, h.engine]
    exact hw.running
  · show w.engine.valve = x
    rw [hwe, h.modeSel, hm]
    rfl

/-- The spacing report drives the valve, and S1 follows (R145). -/
theorem State.Answered.changed (h : s.Answered p .spacing v) (hrunning : s.engine.running = some .changeover)
    (hstep : s.engine.step = some .x2) (hq : s.engine.requests = .empty) :
    (v.run (.boundary false)).engine.running = some .changeover ∧ (v.run (.boundary false)).engine.state = .running ∧
      (v.run (.boundary false)).engine.step = some .s1 ∧ (v.run (.boundary false)).engine.exitTime = some 30 ∧
      (v.run (.boundary false)).protection.waiting = none ∧
      (v.run (.boundary false)).engine.valve = s.modeSel.mode.valve.getD s.engine.valve := by
  obtain ⟨he, hp, _⟩ := v.changed_blocks
  rw [State.run, State.drive_changed 58 (by rw [h.engine]; exact hstep) (by rw [h.engine]; exact hq), he, hp, h.engine,
    h.modeSel, h.protection]
  exact ⟨hrunning, rfl, rfl, rfl, rfl, rfl⟩

end

/-! ## The expiry -/

theorem exec_retainedTimer_ready {s : State} (hh : s.protection.held = false) (hr : s.plantReady = true) :
    exec .retainedTimer s = .next s.retainedAdvance.examineRequest.settlePlant := by
  simp [exec, execRetainedTimer, hh, hr, advance]

/-- With no request waiting, or before READY, the second moves the unit's items alone (R154, R161, R165, R167). -/
theorem exec_retainedTimer_unasked {s : State} (hh : s.protection.held = false)
    (hw : s.protection.waiting = none ∨ s.plantReady = false) :
    exec .retainedTimer s = .next (if s.plantReady = true then s.retainedAdvance.settlePlant else s.retainedAdvance) := by
  cases hr : s.plantReady with
  | false => simp [exec, execRetainedTimer, hh, hr, advance]
  | true =>
    have hnone : s.retainedAdvance.protection.waiting = none := by
      rw [s.retainedAdvance_blocks.1]
      exact hw.resolve_right (by rw [hr]; exact Bool.noConfusion)
    have hidle : s.retainedAdvance.examineRequest = s.retainedAdvance := by
      unfold State.examineRequest
      rw [hnone]
    rw [exec_retainedTimer_ready hh hr, hidle]
    rfl

theorem State.retainedSecond_blocks {s t : State}
    (ht : t = if s.plantReady = true then s.retainedAdvance.settlePlant else s.retainedAdvance) :
    t.protection = s.protection.afterSecond s.plantReady ∧ (s.plantReady = false → t = s.setProtection t.protection) ∧
      (s.protection.lockout = some 1 → s.plantReady = true → t.line.main.pending = true) ∧
      t.engine = { s.engine with shown := t.engine.shown } ∧ t.capacity = s.capacity ∧ t.modeSel = s.modeSel ∧
      t.frost = s.frost ∧ PlantFrame s t := by
  obtain ⟨hprotection, hengine, hcapacity, hmode, hfrost⟩ := s.retainedAdvance_blocks
  cases hr : s.plantReady with
  | false =>
    rw [hr, if_neg Bool.false_ne_true] at ht
    rw [hr] at hprotection
    subst ht
    refine ⟨hprotection, fun _ => ?_, fun _ h => Bool.noConfusion h, by rw [hengine], hcapacity, hmode, hfrost,
      s.retainedAdvance_plant⟩
    rw [hprotection, State.retainedAdvance_notReady hr, hr]
  | true =>
    rw [hr, if_pos rfl] at ht
    rw [hr] at hprotection
    subst ht
    obtain ⟨_, _, _, _, _, _, hmodeSel, hcap, hprot, hfr, _⟩ := s.retainedAdvance.settlePlant_blocks
    exact ⟨hprot.trans hprotection, fun h => Bool.noConfusion h,
      fun hlock _ => State.settlePlant_pending (State.retainedAdvance_pending hlock hr),
      by rw [State.settlePlant_engine, hengine], hcap.trans hcapacity, hmodeSel.trans hmode, hfr.trans hfrost,
      s.retainedAdvance_plant.trans (State.settlePlant_plant _)⟩

/-- Settles O59: the second of the unit's items, and the answer to the request that waits by the step it stands at. -/
theorem retainedTimerAdvances : Obligations.RetainedTimerAdvances := by
  refine ⟨fun s => ⟨fun hh => by simp [exec, execRetainedTimer, hh, advance], fun hh hw => ?_⟩,
    fun s p g hr ha hh hw hq hp => ?_⟩
  · obtain ⟨hprotection, hbefore, hpending, hengine, hcapacity, hmode, hfrost, hf⟩ :=
      State.retainedSecond_blocks (s := s) rfl
    exact ⟨_, exec_retainedTimer_unasked hh hw, hprotection, hbefore, hpending, hengine, hcapacity, hmode, hf.sensors,
      hfrost, hf.peers, hf.loader, hf.demand, hf.share, hf.damper, hf.pending⟩
  · obtain ⟨hleft, hanswered⟩ := State.retainedAdvance_examined hr hw hp
    have k := s.retainedAdvance.examineRequest.settlePlant_keepsEquipment
    obtain ⟨_, _, _, _, _, _, _, hcapacity, _⟩ := s.retainedAdvance.examineRequest.settlePlant_blocks
    refine ⟨_, exec_retainedTimer_ready hh hr, fun hlock => ?_, fun hn => ?_, fun q hwait hproc hc => ?_,
      fun hwait hc => ?_, fun hwait hc hon => ?_, fun x hwait hm hx hthreshold hstop hvalve => ?_,
      fun hrunning hstep hg hc => ?_⟩
    · exact State.settlePlant_pending
        ((State.examineRequest_engineFrame _).line.pending (State.retainedAdvance_pending hlock hr))
    · obtain ⟨hprotected, hengine, hcapacitied, _⟩ := s.retainedAdvance_blocks
      rw [k.engine, k.protection, hcapacity, hleft hn, hprotected, hengine, hcapacitied, hr, hp]
      exact ⟨rfl, rfl, rfl⟩
    · obtain rfl : g = .start := Option.some.inj (hw.symm.trans hwait.request)
      obtain ⟨hv, hrun⟩ := hanswered hc
      obtain ⟨hwarms, hrunning, hstate, hstep, hon, hspeed, hprotection⟩ := hv.warms hwait.step hq
      rw [k.engine, k.protection, hcapacity, hrun, if_neg (by simp), hwarms]
      exact ⟨hrunning.trans hwait.running, hstate, hstep, hon, hspeed, hprotection⟩
    · obtain rfl : g = .stop := Option.some.inj (hw.symm.trans hwait.request)
      obtain ⟨hv, hrun⟩ := hanswered hc
      obtain ⟨hstops, hat⟩ := hv.stops hwait ha fun hopen => by
        rw [hp]
        simpa [Protection.afterSecond] using hopen
      rw [hrun, if_neg (by simp), hstops] at k ⊢
      exact hat.kept k
    · obtain rfl : g = .stop := Option.some.inj (hw.symm.trans hwait.request)
      obtain ⟨hv, hrun⟩ := hanswered hc
      rw [k.engine, k.protection, hrun, if_neg (by simp)]
      exact hv.changes hwait hq hon
    · obtain rfl : g = .valve := Option.some.inj (hw.symm.trans hwait.request)
      obtain ⟨hv, hrun⟩ := hanswered ⟨hstop, hvalve⟩
      obtain ⟨hasks, hdriven, hage⟩ := hv.asksStart hwait hq hm hx hthreshold
      rw [k.engine, k.protection, hrun, if_neg (by simp)]
      exact ⟨hasks.settled, hdriven, hage⟩
    · subst hg
      obtain ⟨hv, hrun⟩ := hanswered hc
      rw [k.engine, k.protection, hrun, if_pos rfl]
      exact hv.changed hrunning hstep hq

end Sys2Proof.Machine
end

