-- ==== Sys2Proof/Proofs/Resets.lean ====
section
/-! PROOFS. The assertion of the two resets: which blocks return to their reset values, what the retained record keeps,
and the run that the RESET input closes (R162 to R164, R166, R167, R179, R182, R187, R188). -/

namespace Sys2Proof.Machine

/-! ## The blocks at an assertion (R182, R187, R188) -/

theorem Loader.reset_eq (straps : Straps) (power input : Bool) (latest : ResetKind) :
    Loader.reset straps power input latest =
      { State.reset.loader with
        straps := straps, powerAsserted := power, inputAsserted := input, latest := latest } := rfl

/-- An assertion gives the reset state, but for the items handed to it, the valve rest position of the straps, and the
queue. -/
theorem State.resetBlocks_eq (s : State) (l : Loader) (p : Protection) (f : Frost) :
    s.resetBlocks l p f =
      { State.reset with
        loader := l, engine := Engine.reset l.straps.energised, protection := p, frost := f
        pending := s.pending } := rfl

theorem exec_powerOnReset (s : State) :
    exec .powerOnReset s =
      .next (s.resetBlocks (.reset s.loader.straps true s.loader.inputAsserted .power) .reset .reset) := rfl

theorem exec_resetInputAsserted (s : State) :
    exec .resetInputAsserted s =
      .next (s.closeAtReset.resetBlocks (.reset s.loader.straps s.loader.powerAsserted true .input)
        s.closeAtReset.protection.retain s.closeAtReset.frost.retain) := rfl

/-- Settles O14: the blocks, the record and the frost items are handed over at their reset values, the straps and the
RESET line as they stand. -/
theorem powerOnResetClearsAll : Obligations.PowerOnResetClearsAll := by
  intro s
  rw [exec_powerOnReset, State.resetBlocks_eq, Loader.reset_eq]
  rfl

/-! ## The run that the RESET input closes (R162 to R164, R166) -/

/-- RESET is no cause that excuses a run below the minimum (R163). -/
theorem runRecord_reset (age minRun : Nat) :
    runRecord .reset age minRun =
      { startAge := age, duration := age, cause := .reset, short := decide (age < minRun) } := by
  simp [runRecord, shortRun]

theorem appendRecord_eq_drop (history : List RunRecord) (r : RunRecord) :
    appendRecord history r = (if 8 ≤ history.length then history.drop 1 else history) ++ [r] := by
  rw [appendRecord, List.drop_one]

/-- The beginning of a LOCKOUT moves its time and its count alone among the unit's items (R164). -/
theorem State.beginLockout_protection (s : State) :
    ∃ n, s.beginLockout.protection = { s.protection with lockout := some 1800, lockouts := n } := by
  unfold State.beginLockout
  dsimp only
  split <;> exact ⟨_, rfl⟩

/-- The unit's items after an open run is closed; the count of LOCKOUTs alone depends on more than they (R162 to
R164). -/
theorem State.closeRun_protection {s : State} {age : Nat} (h : s.protection.run = some age) (c : StopCause) :
    let r := runRecord c age s.pp.minRun
    ∃ n, (s.closeRun c).protection =
      { s.protection with
        run := none, history := appendRecord s.protection.history r, doubling := r.short, lockouts := n
        lockout := if r.short = true ∧ newestShort s.protection.history = true then some 1800
          else s.protection.lockout } := by
  intro r
  simp only [State.closeRun, h, Bool.and_eq_true]
  by_cases hsecond : r.short = true ∧ newestShort s.protection.history = true
  · rw [if_pos hsecond, if_pos hsecond]
    exact State.beginLockout_protection _
  · rw [if_neg hsecond, if_neg hsecond]
    exact ⟨s.protection.lockouts, rfl⟩

theorem State.closeAtReset_idle {s : State} (h : s.protection.run = none) : s.closeAtReset = s := by
  simp [State.closeAtReset, h]

theorem State.closeAtReset_running {s : State} {age : Nat} (h : s.protection.run = some age) :
    ∃ n, s.closeAtReset.protection =
      { s.protection with
        stopAge := 0, run := none, lockouts := n, doubling := decide (age < s.pp.minRun)
        history :=
          (if 8 ≤ s.protection.history.length then s.protection.history.drop 1 else s.protection.history) ++
          [{ startAge := age, duration := age, cause := .reset, short := decide (age < s.pp.minRun) }]
        lockout := if age < s.pp.minRun ∧ newestShort s.protection.history = true then some 1800
          else s.protection.lockout } := by
  obtain ⟨n, hclosed⟩ := State.closeRun_protection h .reset
  refine ⟨n, ?_⟩
  rw [State.closeAtReset, if_pos (by rw [h]; rfl), State.setProtection_protection, hclosed]
  simp only [runRecord_reset, appendRecord_eq_drop, decide_eq_true_eq]

/-- What the closing of a run leaves as it is: the index with the frost items, the queue, the start budget with its
progress, and the flag that holds the record. -/
theorem State.closeAtReset_keeps (s : State) :
    s.closeAtReset.frost = s.frost ∧ s.closeAtReset.pending = s.pending ∧
      s.closeAtReset.protection.budget = s.protection.budget ∧
      s.closeAtReset.protection.progress = s.protection.progress ∧
      s.closeAtReset.protection.held = s.protection.held := by
  cases hrun : s.protection.run with
  | none =>
    rw [State.closeAtReset_idle hrun]
    exact ⟨rfl, rfl, rfl, rfl, rfl⟩
  | some age =>
    obtain ⟨n, hclosed⟩ := State.closeAtReset_running hrun
    obtain ⟨_, hfrost, _⟩ := State.closeRun_record .reset s
    have hpending := (State.closeRun_plant .reset s).pending
    refine ⟨?_, ?_, by rw [hclosed], by rw [hclosed], by rw [hclosed]⟩ <;>
      rw [State.closeAtReset, if_pos (by rw [hrun]; rfl)]
    · exact hfrost
    · exact hpending

/-- Settles O15: the reset hands over the retained part of what the closing of the open run, if any, leaves. -/
theorem resetInputKeepsTheRetainedRecord : Obligations.ResetInputKeepsTheRetainedRecord := by
  intro s
  obtain ⟨hfrost, hpending, hbudget, hprogress, hheld⟩ := s.closeAtReset_keeps
  refine ⟨_, exec_resetInputAsserted s, ?_⟩
  rw [State.resetBlocks_eq, Loader.reset_eq, hfrost, hpending]
  refine ⟨rfl, rfl, rfl, rfl, rfl, rfl, rfl, rfl, rfl, rfl, rfl, rfl, rfl, rfl, rfl, rfl, hbudget, hprogress, hheld,
    fun hidle => ?_, fun age hrunning => ?_⟩
  · rw [State.closeAtReset_idle hidle]
    exact ⟨rfl, rfl, rfl, rfl⟩
  · obtain ⟨n, hclosed⟩ := State.closeAtReset_running hrunning
    rw [hclosed]
    refine ⟨rfl, rfl, rfl, ?_⟩
    cases hnewest : s.protection.history.getLast? with
    | none => simp [Protection.retain, newestShort, hnewest]
    | some r => simp [Protection.retain, newestShort, hnewest]

end Sys2Proof.Machine
end

