-- ==== Sys2Proof/Proofs/FrostTimer.lean ====
section
/-! PROOFS. A second of the frost timer: the clocks and the estimate, the triggers, and the DEFROST that they begin
(R138, R141, R146, R169 to R174, R180). -/

namespace Sys2Proof.Machine

/-! ## The clocks and the estimate (R169, R170, R172, R174) -/

/-- Each of the accumulation's items by the heat-running and its sixtieth second (R170). -/
theorem Frost.accumulateStep_eq (f : Frost) (heat : Bool) (coil : Input) (speed : Nat) :
    f.accumulateStep heat coil speed =
      { f with
        accumulation :=
          if heat = false then f.accumulation else if 59 ≤ f.accumulation then 0 else f.accumulation + 1
        index :=
          if heat = true ∧ 59 ≤ f.accumulation ∧ coil.valid = true then
            min 10000 (f.index + frostRate coil.value * speed / 1000)
          else f.index } := by
  unfold Frost.accumulateStep
  cases heat with
  | false => rfl
  | true =>
    by_cases hdue : 59 ≤ f.accumulation
    · cases hvalid : coil.valid <;> simp [hdue, hvalid, accumulate, satAdd]
    · simp [hdue]

theorem State.frostAdvance_frost (s : State) :
    s.frostAdvance.frost =
      { s.frost with
        interval := min 65535 (s.frost.interval + 1)
        accumulation :=
          if s.heatRunning = false then s.frost.accumulation
          else if 59 ≤ s.frost.accumulation then 0 else s.frost.accumulation + 1
        index :=
          if s.heatRunning = true ∧ 59 ≤ s.frost.accumulation ∧ s.sensors.outdoorCoil.valid = true then
            min 10000 (s.frost.index + frostRate s.sensors.outdoorCoil.value * s.capacity.speedCommand / 1000)
          else s.frost.index
        gapTimer :=
          if s.heatRunning = true ∧ s.sensors.outdoorCoil.valid = true ∧
              1000 ≤ s.sensors.outdoorAirValue - s.sensors.outdoorCoil.value then
            min 900 (s.frost.gapTimer + 1) else 0
        timed :=
          if s.sensors.outdoorCoil.valid = true then 0
          else if s.heatRunning = true then min 2700 (s.frost.timed + 1) else s.frost.timed } := by
  unfold State.frostAdvance Frost.timedStep
  dsimp only
  rw [Frost.accumulateStep_eq]
  simp [Sensors.gapWide, satAdd, ageUp]

/-- The triggers of a DEFROST (R171 to R174). -/
theorem State.defrostWanted_iff (s : State) :
    s.defrostWanted = true ↔
      s.pp.defrostInterval ≤ s.frost.interval ∧
        (s.sensors.outdoorCoil.valid = true ∧ (s.frost.index = 10000 ∨ s.frost.gapTimer = 900) ∨
          s.frost.timed = 2700 ∧ s.sensors.outdoorAirValue < 500) ∧
        s.heatRunning = true := by
  simp [State.defrostWanted, State.frostTrigger, State.timedTrigger, and_assoc]

/-! ## A DEFROST begins (R138, R141, R146) -/

/-- D1 passed, and D2 entered: the compressor and the blower are off and the coils settle (R146). -/
def State.defrostBegun (s : State) : State := (s.pass .d1).enter .d2

/-- Of the pending requests a STOP alone outranks a DEFROST (R135). -/
theorem Engine.not_outranked_of_no_stop {e : Engine} (hr : e.running = some .defrost)
    (hq : e.requests.stop = none) : e.outranked = false := by
  have htop {q : Proc} (h : e.requests.top = some q) : q.priority ≤ Proc.defrost.priority := by
    rw [Requests.top, hq] at h
    dsimp only at h
    (repeat' split at h) <;> cases h <;> simp [Proc.priority]
  unfold Engine.outranked
  rw [hr]
  split
  next q p hq' hp =>
    cases hp
    exact decide_eq_false (Nat.not_lt.2 (htop hq'))
  next => rfl

theorem State.enter_d1_engine (s : State) :
    (s.enter .d1).engine =
      { s.engine with
        state := .running, step := some .d1, delaying := false, stepTime := 0, exitTime := none, timeLimit := none
        run := false, speedHold := some 0, blowerHold := some 0, marks := s.engine.marks + 1 } := by
  rw [State.enter_eq_applied, State.applied_engine]
  simp only [State.act, State.holdSpeed, State.holdBlower, State.setEngine_engine, State.runOff_engine,
    State.readied_engine]
  rfl

theorem State.enter_d1_protection (s : State) :
    (s.enter .d1).protection =
      { s.protection with stopAge := if s.engine.run = true then 0 else s.protection.stopAge } := by
  rw [State.enter_eq_applied, State.applied_protection]
  simp [State.act, State.holdSpeed, State.holdBlower, State.runOff_protection_eq]
  rfl

theorem State.defrostBegun_engine (s : State) :
    s.defrostBegun.engine =
      { s.engine with
        state := .running, step := some .d2, delaying := false, stepTime := 0, exitTime := some 30, timeLimit := none
        run := false, speedHold := some 0, blowerHold := some 0, marks := s.engine.marks + 1
        stepsLoaded := s.engine.stepsLoaded + 1
        status := { s.engine.status with proc := s.engine.running, step := some .d1 } } := by
  have h2 (v : State) : (v.enter .d2).engine =
      { v.engine with
        state := .running, step := some .d2, delaying := false, stepTime := 0, exitTime := some 30
        timeLimit := none } := rfl
  rw [State.defrostBegun, h2, (State.pass_blocks (by simp) s).1, s.enter_d1_engine]

theorem State.defrostBegun_plant (s : State) : PlantFrame s s.defrostBegun :=
  (s.pass_plant .d1).trans (State.enter_plant .d2 _)

theorem State.defrostBegun_frost (s : State) : s.defrostBegun.frost = s.frost := by
  rw [State.defrostBegun, State.enter_frost, State.pass, State.writeBoundary_eq false (by simp), State.setEngine_frost,
    State.enter_frost]

/-- The outputs, the stop age and the report of a DEFROST that begins (R118, R123, R140, R156). -/
theorem State.defrostBegun_blocks (s : State) :
    s.defrostBegun.capacity.speedCommand = 0 ∧ s.defrostBegun.capacity.blowerCommand = 0 ∧
      s.defrostBegun.protection =
        { s.protection with stopAge := if s.engine.run = true then 0 else s.protection.stopAge } ∧
      s.defrostBegun.line.main.pending = true := by
  have he := s.defrostBegun_engine
  obtain ⟨hspeed, hblower⟩ := (s.pass .d1).enter_outputs .d2
  refine ⟨hspeed (congrArg Engine.run he), ?_, ?_, ?_⟩
  · exact (hblower 0 (congrArg Engine.blowerHold he)).trans (ite_self 0)
  · have h2 (v : State) : (v.enter .d2).protection = v.protection := rfl
    rw [State.defrostBegun, h2, (State.pass_blocks (by simp) s).2, s.enter_d1_protection]
  · have hmarked : (s.enter .d1).line.main.pending = true := State.applied_pending rfl (s.current .d1)
    exact ((State.writeBoundary_engineFrame .d1 false _).trans (State.enter_engineFrame .d2 _)).line.pending hmarked

/-- A DEFROST that no STOP follows goes through D1 to D2 (R146). -/
theorem State.drive_d1 {s : State} (n : Nat) (hr : s.engine.running = some .defrost)
    (hq : s.engine.requests.stop = none) : s.drive (n + 5) (.take .d1) = s.defrostBegun := by
  have he := s.enter_d1_engine
  have ho : (s.enter .d1).engine.outranked = false :=
    Engine.not_outranked_of_no_stop (by rw [he]; exact hr) (by rw [he]; exact hq)
  rw [State.drive_pass (n + 2) ⟨by simp, by simp, rfl⟩ rfl rfl (congrArg Engine.step he) rfl ho]
  exact State.drive_stand n ⟨by simp, by simp, rfl⟩ rfl rfl

/-- The pending DEFROST comes to its turn (R138). -/
def State.startsDefrost (s : State) : State :=
  (s.setRequests { s.engine.requests with defrost := false }).startProc .defrost

/-- With no STOP pending the DEFROST is the next procedure (R135, R138). -/
theorem State.drive_startNext_defrost {s : State} (n : Nat) (hd : s.engine.requests.defrost = true)
    (hq : s.engine.requests.stop = none) (hs : s.sensible .defrost = true) :
    s.drive (n + 6) .startNext = s.startsDefrost.defrostBegun := by
  have htop : s.engine.requests.top = some .defrost := by simp [Requests.top, hq, hd]
  have hstart : s.startNext = (.take .d1, s.startsDefrost) := by
    unfold State.startNext
    rw [htop]
    exact if_pos hs
  rw [State.drive_succ, State.move, hstart]
  exact State.drive_d1 n rfl hq

/-! ## The request leaves the Frost Estimator (R175, R176) -/

/-- A STOP's steps leave the Frost Estimator, whether T1 waits or not (R143). -/
theorem State.drive_stop_frost {s : State} {r : StopReason} (n : Nat) (h : s.engine.running = some (.stop r)) :
    (s.drive (n + 5) (.take .t1)).frost = s.frost := by
  cases hg : (s.current .t1).guardOf .t1 with
  | none =>
    rw [State.drive_take_unguarded (n + 4) (StepId.plain_of_mem (by simp)) hg,
      State.drive_apply_t1 (u := s.current .t1) n h rfl]
    exact (State.stopped_blocks (u := s.current .t1) h).2.2
  | some g =>
    rw [State.drive_take_guarded (n + 4) (by simp [State.withdrawnAtS3]) hg
      (Engine.not_outranked h (by simp [Proc.priority]))]
    split
    · rw [State.drive_apply_t1 (u := s.granted .t1 g) n h rfl]
      exact (State.stopped_blocks (u := s.granted .t1 g) h).2.2
    · rfl

/-- With a DEFROST pending that makes sense, the next procedure is a STOP or that DEFROST (R135, R138). -/
theorem State.run_startNext_frost {s : State} (hd : s.engine.requests.defrost = true)
    (hs : s.sensible .defrost = true) : (s.run .startNext).frost = s.frost := by
  unfold State.run
  cases hq : s.engine.requests.stop with
  | some r =>
    rw [State.drive_startNext_stop 63 hq]
    exact State.drive_stop_frost 58 rfl
  | none =>
    rw [State.drive_startNext_defrost 58 hd hq hs, State.defrostBegun_frost]
    rfl

/-- A procedure that is not a DEFROST hands the Frost Estimator nothing as it is preempted (R148, R176). -/
theorem State.preempt_frost {s : State} (hr : s.engine.running ≠ some .defrost)
    (hd : s.engine.requests.defrost = true) (hs : s.sensible .defrost = true) : s.preempt.frost = s.frost := by
  obtain ⟨hengine, _, hfrost, hmode⟩ := s.endProc_blocks .preempted
  have hd' : (s.endProc .preempted).engine.requests.defrost = true := by rw [hengine]; exact hd
  have hs' : (s.endProc .preempted).sensible .defrost = true := by
    rw [State.sensible, hmode, hengine]
    exact hs
  rw [State.preempt, State.run_startNext_frost hd' hs', hfrost, if_neg (by simpa [Engine.defrosting] using hr)]

theorem State.takeDefrost_frost (s : State) : s.takeDefrost.frost = s.frost := by
  unfold State.takeDefrost
  dsimp only
  split
  next => rfl
  next h =>
    simp only [Bool.or_eq_true, Bool.not_eq_true', not_or, Bool.not_eq_false, Engine.defrosting, decide_eq_true_eq] at h
    obtain ⟨⟨hr, hs⟩, _⟩ := h
    unfold State.entered
    split
    · exact State.run_startNext_frost rfl hs
    · split
      · exact State.preempt_frost hr rfl hs
      · rfl
    · rfl
    · rfl

theorem State.request_defrost_frost (s : State) : (s.request .defrost).frost = s.frost := by
  unfold State.request
  split
  · exact s.takeDefrost_frost
  · rfl

/-! ## The expiry (R169, R180) -/

/-- The station at the end of a second of the frost timer, with the DEFROST asked where it is wanted (R169, R171). -/
def State.frostSecond (s : State) : State :=
  if s.frostAdvance.defrostWanted = true then (s.frostAdvance.request .defrost).settlePlant else s.frostAdvance

theorem exec_frostTimer_aside {s : State} (h : s.aside = true) : exec .frostTimer s = .next s := by
  simp [exec, execFrostTimer, h, advance]

theorem exec_frostTimer_attending {s : State} (hr : s.plantReady = true) (ha : s.aside = false) :
    exec .frostTimer s = .next s.frostSecond := by
  simp only [exec, execFrostTimer, hr, ha, advance, Bool.not_false, Bool.and_self, if_true, State.frostSecond]
  split <;> rfl

/-- An engine between procedures that is heat-running begins the DEFROST that is asked (R136, R138, R169). -/
theorem State.request_defrost_idle {s : State} (hl : s.engine.listening = .expired) (ha : s.aside = false)
    (hs : s.engine.state = .idle) (hq : s.engine.requests = .empty) (hheat : s.heatRunning = true)
    (hv : s.engine.valve = .heating) : s.request .defrost = (s.startProc .defrost).defrostBegun := by
  simp only [State.heatRunning, Engine.defrosting, Bool.and_eq_true, decide_eq_true_eq, Bool.not_eq_true',
    decide_eq_false_iff_not] at hheat
  obtain ⟨⟨hmode, hon⟩, hr⟩ := hheat
  have hentered : s.request .defrost = (s.setRequests { s.engine.requests with defrost := true }).run .startNext := by
    rw [State.request_defrost_heard hl ha, State.takeDefrost_enters hr (by rw [hq]; rfl) hmode hon hv]
    simp [State.entered, State.setRequests, hs]
  have hback : (s.setRequests { s.engine.requests with defrost := true }).startsDefrost = s.startProc .defrost := by
    have hsame : ({ s.engine.requests with defrost := false } : Requests) = s.engine.requests := by rw [hq]; rfl
    simp only [State.startsDefrost, State.setRequests, State.setEngine_engine, State.setEngine_twice, hsame]
    rfl
  have hsensible : (s.setRequests { s.engine.requests with defrost := true }).sensible .defrost = true := by
    simp [State.sensible, State.setRequests, hmode, hon, hv]
  rw [hentered, State.run, State.drive_startNext_defrost 58 rfl (by rw [hq]; rfl) hsensible, hback]

theorem State.frostSecond_unwanted {s : State} (h : s.frostAdvance.defrostWanted ≠ true) :
    s.frostSecond = s.frostAdvance := if_neg h

theorem State.frostSecond_wanted {s : State} (h : s.frostAdvance.defrostWanted = true) :
    s.frostSecond = (s.frostAdvance.request .defrost).settlePlant := if_pos h

/-- Whatever the engine makes of the request, the Frost Estimator holds the advanced items. -/
theorem State.frostSecond_frost (s : State) : s.frostSecond.frost = s.frostAdvance.frost := by
  by_cases h : s.frostAdvance.defrostWanted = true
  · obtain ⟨_, _, _, _, _, _, _, _, _, hsettled, _⟩ := (s.frostAdvance.request .defrost).settlePlant_blocks
    rw [State.frostSecond_wanted h, hsettled, State.request_defrost_frost]
  · rw [State.frostSecond_unwanted h]

theorem State.frostSecond_plant (s : State) : PlantFrame s s.frostSecond := by
  have hadvance : PlantFrame s s.frostAdvance := by constructor <;> rfl
  by_cases h : s.frostAdvance.defrostWanted = true
  · rw [State.frostSecond_wanted h]
    exact (hadvance.trans (State.request_plant _ _)).trans (State.settlePlant_plant _)
  · rw [State.frostSecond_unwanted h]
    exact hadvance

/-- What the triggers read beside the advanced items is the same before the second and after it. -/
theorem State.frostSecond_wants_iff (s : State) :
    s.frostAdvance.defrostWanted = true ↔
      s.pp.defrostInterval ≤ s.frostSecond.frost.interval ∧
        (s.sensors.outdoorCoil.valid = true ∧
            (s.frostSecond.frost.index = 10000 ∨ s.frostSecond.frost.gapTimer = 900) ∨
          s.frostSecond.frost.timed = 2700 ∧ s.sensors.outdoorAirValue < 500) ∧
        s.heatRunning = true := by
  rw [s.frostSecond_frost]
  exact s.frostAdvance.defrostWanted_iff

/-- The DEFROST that a second begins on an engine between procedures (R138, R146, R171). -/
theorem State.frostSecond_defrosts {s : State} (hwanted : s.frostAdvance.defrostWanted = true)
    (ha : s.aside = false) (hheat : s.heatRunning = true) (hs : s.engine.state = .idle)
    (hq : s.engine.requests = .empty) (hl : s.engine.listening = .expired) (hv : s.engine.valve = .heating) :
    s.frostSecond.engine.running = some .defrost ∧ s.frostSecond.engine.step = some .d2 ∧
      s.frostSecond.engine.run = false ∧ s.frostSecond.capacity.speedCommand = 0 ∧
      s.frostSecond.capacity.blowerCommand = 0 ∧ s.frostSecond.engine.exitTime = some 30 ∧
      s.frostSecond.protection = { s.protection with stopAge := 0 } ∧ s.frostSecond.line.main.pending = true := by
  have hon : s.engine.run = true := by
    simp only [State.heatRunning, Bool.and_eq_true] at hheat
    exact hheat.1.2
  have hbegins : s.frostAdvance.request .defrost = (s.frostAdvance.startProc .defrost).defrostBegun :=
    State.request_defrost_idle hl ha hs hq hheat hv
  rw [State.frostSecond_wanted hwanted, hbegins]
  generalize hu : s.frostAdvance.startProc .defrost = u
  have hrunning : u.engine.running = some .defrost := by rw [← hu]; rfl
  have hprotected : u.protection = s.protection := by rw [← hu]; rfl
  have hrun : u.engine.run = true := by rw [← hu]; exact hon
  obtain ⟨hspeed, hblower, hprotection, hpending⟩ := u.defrostBegun_blocks
  obtain ⟨_, _, _, _, _, _, _, hcapacity, _⟩ := u.defrostBegun.settlePlant_blocks
  have k := u.defrostBegun.settlePlant_keepsEquipment
  rw [if_pos hrun, hprotected] at hprotection
  rw [k.engine, k.protection, hcapacity, u.defrostBegun_engine]
  exact ⟨hrunning, rfl, rfl, hspeed, hblower, rfl, hprotection, State.settlePlant_pending hpending⟩

/-- Settles O60: the items count on by their inputs, and a trigger begins the DEFROST. -/
theorem frostTimerAdvancesAndDefrosts : Obligations.FrostTimerAdvancesAndDefrosts := by
  refine fun s hr => ⟨exec_frostTimer_aside, fun ha => ?_⟩
  have hf := s.frostSecond_plant
  have hwants := s.frostSecond_wants_iff
  have hfrost := s.frostSecond_frost.trans s.frostAdvance_frost
  refine ⟨s.frostSecond, exec_frostTimer_attending hr ha, by rw [hfrost], by rw [hfrost], by rw [hfrost],
    by rw [hfrost], by rw [hfrost], by rw [hfrost], by rw [hfrost], by rw [hfrost], fun hnone => ?_,
    fun hheat hinterval htrigger hs hq hl hv => ?_, hf.modeSel_eq, hf.sensors, hf.peers, hf.loader, hf.demand, hf.share,
    hf.damper, hf.pending⟩
  · have hunwanted : s.frostAdvance.defrostWanted ≠ true := by
      rw [Ne, hwants]
      rintro ⟨hinterval, htrigger, hheat⟩
      obtain hearly | hoff | ⟨hnoFrost, hnoTimed⟩ := hnone
      · omega
      · exact Bool.noConfusion (hheat.symm.trans hoff)
      · obtain ⟨hcoil, hfull⟩ | ⟨htimed, hcold⟩ := htrigger
        · obtain hfault | ⟨hindex, hgap⟩ := hnoFrost
          · exact Bool.noConfusion (hcoil.symm.trans hfault)
          · exact hfull.elim hindex hgap
        · exact hnoTimed.elim (fun h => h htimed) fun h => absurd hcold (by omega)
    rw [State.frostSecond_unwanted hunwanted]
    rfl
  · exact State.frostSecond_defrosts (hwants.2 ⟨hinterval, htrigger, hheat⟩) ha hheat hs hq hl hv

end Sys2Proof.Machine
end

