-- ==== Sys2Proof/Proofs/ConfigurationLoad.lean ====
section
/-! PROOFS. The configuration load: what READY is entered with, the defaults and the image that the loader takes, the
read attempts, and the release that starts the load (R182 to R185, R187, R188, R195). -/

namespace Sys2Proof.Machine

/-! ## The entry to READY (R187) -/

/-- The load ends in READY, with the main report pending; the straps, the queue and the blocks that begin nothing at
READY stand. -/
structure State.EntersReady (s t : State) : Prop where
  state : t.loader.state = .ready
  straps : t.loader.straps = s.loader.straps
  report : t.line.main.pending = true
  demand : t.demand = s.demand
  modeSel : t.modeSel = s.modeSel
  capacity : t.capacity = s.capacity
  frost : t.frost = s.frost
  pending : t.pending = s.pending

theorem State.becomeReady_demand (s : State) : s.becomeReady.demand = s.demand := by
  cases hr : s.loader.straps.role with
  | zone => exact (State.becomeReady_zone hr).1
  | plant => exact (State.becomeReady_plant hr).1

theorem State.becomeReady_frost_pending (s : State) :
    s.becomeReady.frost = s.frost ∧ s.becomeReady.pending = s.pending := by
  unfold State.becomeReady
  dsimp only
  split
  · exact ⟨rfl, rfl⟩
  · obtain ⟨_, _, _, _, _, _, _, _, _, hfrost, hpending⟩ := State.settlePlant_blocks (State.beginPlant _)
    exact ⟨hfrost, hpending⟩

/-- In the plant role the listening interval begins (R134). -/
theorem State.becomeReady_listening {s : State} (h : s.loader.straps.role = .plant) :
    s.becomeReady.engine.listening = .running := by
  unfold State.becomeReady
  dsimp only
  split
  next hz => exact absurd (h.symm.trans hz) nofun
  next => rw [State.settlePlant_engine]; rfl

theorem State.becomeReady_entersReady (s : State) : s.EntersReady s.becomeReady := by
  obtain ⟨hloader, hcapacity, _⟩ := s.becomeReady_frame
  obtain ⟨_, _, hmodeSel⟩ := s.becomeReady_blocks
  obtain ⟨hfrost, hpending⟩ := s.becomeReady_frost_pending
  exact
    { state := by rw [hloader]
      straps := by rw [hloader]
      report := s.becomeReady_pending
      demand := s.becomeReady_demand
      modeSel := hmodeSel, capacity := hcapacity, frost := hfrost, pending := hpending }

/-- The loader's own items are settled before READY, and nothing else is. -/
theorem State.EntersReady.ofSetLoader {s t : State} {l : Loader} (hl : l.straps = s.loader.straps)
    (h : (s.setLoader l).EntersReady t) : s.EntersReady t :=
  { h with straps := h.straps.trans hl }

theorem State.loadDefaults_entersReady (result : LoadResult) (s : State) : s.EntersReady (s.loadDefaults result) := by
  obtain ⟨l, hl, e⟩ := s.loadDefaults_cases result
  rw [e]
  exact (State.becomeReady_entersReady _).ofSetLoader hl

theorem State.checkImage_entersReady (image : List Byte) (s : State) : s.EntersReady (s.checkImage image) := by
  obtain ⟨l, hl, e⟩ := s.checkImage_cases image
  rw [e]
  exact (State.becomeReady_entersReady _).ofSetLoader hl

/-! ## What the loader holds in READY (R183 to R185) -/

/-- The loader in READY with the defaults of its role. -/
def Loader.withDefaults (result : LoadResult) (l : Loader) : Loader :=
  { l with
    state := .ready, retryWait := false, result := result, defaulted := true, tag := 0
    zone := if l.straps.role = .zone then some zoneDefaults else l.zone
    plant := if l.straps.role = .plant then some plantDefaults else l.plant }

/-- Whether the image's parameter set of a role has a field to clamp. -/
def imageClamped (role : Role) (image : List Byte) : Bool :=
  match role with
  | .zone => zoneClamped image
  | .plant => plantClamped image

/-- The loader in READY with the station tag of an image and its role's parameter set, clamped. -/
def Loader.withImage (image : List Byte) (l : Loader) : Loader :=
  { l with
    state := .ready, retryWait := false, tag := BitVec.ofNat 24 (get24 image 3)
    clamped := imageClamped l.straps.role image
    result := if imageClamped l.straps.role image then .loadedClamped else .loaded
    zone := if l.straps.role = .zone then some (zoneOfImage image) else l.zone
    plant := if l.straps.role = .plant then some (plantOfImage image) else l.plant }

theorem State.loadDefaults_loader_eq (result : LoadResult) (s : State) :
    (s.loadDefaults result).loader = s.loader.withDefaults result := by
  unfold State.loadDefaults Loader.withDefaults
  rw [(State.becomeReady_frame _).1]
  cases s.loader.straps.role <;> simp

theorem State.loadImage_loader_eq (image : List Byte) (s : State) :
    (s.loadImage image).loader = s.loader.withImage image := by
  unfold State.loadImage Loader.withImage imageClamped
  rw [(State.becomeReady_frame _).1]
  cases s.loader.straps.role <;> simp

/-! ## The tests of CHECKING (R184, R195) -/

/-- The result of the first test that fails, and `passed` where none does. -/
theorem imageTest_getD (p : List Byte) (passed : LoadResult) :
    (imageTest p).getD passed =
      if octetAt p 0 ≠ 1 then .badVersion
      else if get16 p 1 ≠ 38 then .badLength
      else if (crc16 (p.take 36)).toNat ≠ get16 p 36 then .badCrc
      else passed := by
  unfold imageTest imageLength
  split_ifs <;> rfl

theorem imageTest_isSome_iff (p : List Byte) :
    (imageTest p).isSome = true ↔
      octetAt p 0 ≠ 1 ∨ get16 p 1 ≠ 38 ∨ (crc16 (p.take 36)).toNat ≠ get16 p 36 := by
  unfold imageTest imageLength
  split_ifs <;> simp [*]

theorem State.checkImage_rejects {image : List Byte} {bad : LoadResult} (h : imageTest image = some bad) (s : State) :
    (s.checkImage image).loader = s.loader.withDefaults bad := by
  rw [State.checkImage, h]
  exact s.loadDefaults_loader_eq bad

theorem State.checkImage_accepts {image : List Byte} (h : imageTest image = none) (s : State) :
    (s.checkImage image).loader = s.loader.withImage image := by
  rw [State.checkImage, h]
  exact s.loadImage_loader_eq image

/-! ### An image and the octets after it -/

theorem octetAt_take {i n : Nat} (h : i < n) (p : List Byte) : octetAt (p.take n) i = octetAt p i := by
  simp [octetAt, List.getD_eq_getElem?_getD, List.getElem?_take_of_lt h]

theorem get16_take {i n : Nat} (h : i + 1 < n) (p : List Byte) : get16 (p.take n) i = get16 p i := by
  rw [get16, get16, octetAt_take (by omega), octetAt_take h]

theorem get24_take {i n : Nat} (h : i + 2 < n) (p : List Byte) : get24 (p.take n) i = get24 p i := by
  rw [get24, get24, octetAt_take (by omega), get16_take h]

theorem imageTest_take (octets : List Byte) : imageTest (octets.take imageLength) = imageTest octets := by
  simp [imageTest, imageLength, octetAt_take, get16_take, List.take_take]

theorem zoneOfImage_take (octets : List Byte) : zoneOfImage (octets.take imageLength) = zoneOfImage octets := by
  simp [zoneOfImage, imageLength, octetAt_take, get16_take]

theorem plantOfImage_take (octets : List Byte) : plantOfImage (octets.take imageLength) = plantOfImage octets := by
  simp [plantOfImage, imageLength, get16_take]

theorem zoneClamped_take (octets : List Byte) : zoneClamped (octets.take imageLength) = zoneClamped octets := by
  have hfields : imageZone (octets.take imageLength) = imageZone octets := by
    simp [imageZone, imageLength, octetAt_take, get16_take]
  rw [zoneClamped, zoneClamped, zoneOfImage_take, hfields]

theorem plantClamped_take (octets : List Byte) : plantClamped (octets.take imageLength) = plantClamped octets := by
  have hfields : imagePlant (octets.take imageLength) = imagePlant octets := by
    simp [imagePlant, imageLength, get16_take]
  rw [plantClamped, plantClamped, plantOfImage_take, hfields]

/-- The loader reads an image's own octets alone (R183, R195). -/
theorem State.checkImage_take (octets : List Byte) (s : State) :
    s.checkImage (octets.take imageLength) = s.checkImage octets := by
  have htag : get24 (octets.take imageLength) 3 = get24 octets 3 := get24_take (by decide) octets
  rw [State.checkImage, State.checkImage, imageTest_take, State.loadImage, State.loadImage, zoneOfImage_take,
    plantOfImage_take, zoneClamped_take, plantClamped_take, htag]

/-! ### The clamped mark (R185) -/

theorem zoneClamped_iff (p : List Byte) :
    zoneClamped p = true ↔
      ¬((zoneOfImage p).weight = octetAt p 6 ∧ (zoneOfImage p).halfBand = get16 p 7 ∧
        (zoneOfImage p).rhTarget = get16 p 9 ∧ (zoneOfImage p).kp = get16 p 11 ∧ (zoneOfImage p).ki = octetAt p 13 ∧
        (zoneOfImage p).kl = octetAt p 14 ∧ (zoneOfImage p).omin = octetAt p 15 ∧
        (zoneOfImage p).faultOpening = octetAt p 16 ∧ octetAt p 17 ≤ 1) := by
  have hoptOut : octetAt p 17 = (if (zoneOfImage p).optOut then 1 else 0) ↔ octetAt p 17 ≤ 1 := by
    simp only [zoneOfImage, decide_eq_true_eq]
    split <;> omega
  simp only [zoneClamped, decide_eq_true_eq, imageZone, ne_eq, List.cons.injEq, and_true, hoptOut,
    @eq_comm Nat (octetAt p _), @eq_comm Nat (get16 p _)]

theorem plantClamped_iff (p : List Byte) :
    plantClamped p = true ↔
      ¬((plantOfImage p).startThreshold = get16 p 18 ∧ (plantOfImage p).stopThreshold = get16 p 20 ∧
        (plantOfImage p).cmin = get16 p 22 ∧ (plantOfImage p).fanAirflow = get16 p 24 ∧
        (plantOfImage p).pmax = get16 p 26 ∧ (plantOfImage p).ptrip = get16 p 28 ∧
        (plantOfImage p).minRun = get16 p 30 ∧ (plantOfImage p).antiShort = get16 p 32 ∧
        (plantOfImage p).defrostInterval = get16 p 34) := by
  simp only [plantClamped, decide_eq_true_eq, imagePlant, ne_eq, List.cons.injEq, and_true, @eq_comm Nat (get16 p _)]

/-! ## The release of a reset (R182, R183, R188) -/

/-- While the other reset stands asserted, the release is all that happens. -/
theorem exec_resetRelease_held {kind : ResetKind} {s : State} (straps : Straps) (h : s.loader.asserted kind = true)
    (hheld : (s.loader.release kind).powerAsserted = true ∨ (s.loader.release kind).inputAsserted = true) :
    exec (.resetRelease kind straps) s = .next (s.setLoader (s.loader.release kind)) := by
  have hin : (s.setLoader (s.loader.release kind)).inReset = true := Bool.or_eq_true_iff.2 hheld
  exact (if_pos h).trans (if_pos hin)

/-- The release of the only asserted reset latches the straps and begins the load. -/
theorem exec_resetRelease_last {kind : ResetKind} {s : State} (straps : Straps) (h : s.loader.asserted kind = true)
    (hpower : (s.loader.release kind).powerAsserted = false)
    (hinput : (s.loader.release kind).inputAsserted = false) :
    exec (.resetRelease kind straps) s = .next ((s.setLoader (s.loader.release kind)).latch straps).beginLoad := by
  have hin : (s.setLoader (s.loader.release kind)).inReset = false := Bool.or_eq_false_iff.2 ⟨hpower, hinput⟩
  exact (if_pos h).trans (if_neg (by rw [hin]; nofun))

theorem State.beginLoad_halts {s : State} (h : s.loader.straps.addr = 0) :
    s.beginLoad = s.setLoader { s.loader with state := .configHalt } := if_pos h

theorem State.beginLoad_reads {s : State} (h : s.loader.straps.addr ≠ 0) (hm : s.loader.straps.cfgmem = true) :
    s.beginLoad = s.setLoader { s.loader with state := .reading, attempts := 1 } := (if_neg h).trans (if_pos hm)

theorem State.beginLoad_noMemory {s : State} (h : s.loader.straps.addr ≠ 0) (hm : s.loader.straps.cfgmem = false) :
    s.beginLoad = s.loadDefaults .noMemory := (if_neg h).trans (if_neg (by rw [hm]; nofun))

/-- A zone that takes the defaults begins with the grace, homing, and the default Omin as its base (R33, R73, R85). -/
theorem State.loadDefaults_zone {s : State} (h : s.loader.straps.role = .zone) (result : LoadResult) :
    (s.loadDefaults result).loader.zone = some zoneDefaults ∧ (s.loadDefaults result).peers.grace = .running ∧
      (s.loadDefaults result).damper.state = .homing ∧ (s.loadDefaults result).share.base = .percent 10 := by
  refine ⟨by rw [State.loadDefaults_loader_eq]; exact if_pos h, ?_⟩
  unfold State.loadDefaults
  simp only [h]
  generalize hu : s.setLoader _ = u
  have hrole : u.loader.straps.role = .zone := by rw [← hu]; exact h
  have homin : u.zp.omin = 10 := by rw [← hu]; rfl
  obtain ⟨_, hshare, hdamper⟩ := State.becomeReady_zone hrole
  rw [u.becomeReady_beginsTable.peers, hshare, hdamper, homin]
  exact ⟨if_pos hrole, rfl, rfl⟩

/-- A plant that takes the defaults begins its listening interval with its outputs as they stood (R134, R187). -/
theorem State.loadDefaults_plant {s : State} (h : s.loader.straps.role = .plant) (result : LoadResult) :
    (s.loadDefaults result).loader.plant = some plantDefaults ∧
      (s.loadDefaults result).engine.listening = .running ∧ (s.loadDefaults result).engine.run = s.engine.run ∧
      (s.loadDefaults result).engine.valve = s.engine.valve := by
  refine ⟨by rw [State.loadDefaults_loader_eq]; exact if_pos h, ?_⟩
  obtain ⟨l, hl, e⟩ := s.loadDefaults_cases result
  have hrole : (s.setLoader l).loader.straps.role = .plant := by rw [← h, ← hl]; rfl
  obtain ⟨_, _, hengine⟩ := (s.setLoader l).becomeReady_frame
  rw [e]
  exact ⟨State.becomeReady_listening hrole, by rw [hengine]; rfl, State.becomeReady_valve _⟩

/-- Settles O16, by whether the other reset stands asserted and then by the latched address and CFGMEM. -/
theorem resetReleaseStartsTheLoad : Obligations.ResetReleaseStartsTheLoad := by
  refine fun kind straps s hasserted =>
    ⟨exec_resetRelease_held straps hasserted, fun hpower hinput => ?_⟩
  rw [exec_resetRelease_last straps hasserted hpower hinput]
  refine ⟨fun haddr => ?_, fun haddr hmemory => ?_, fun haddr hmemory => ?_⟩
  · rw [State.beginLoad_halts (by exact haddr)]; rfl
  · rw [State.beginLoad_reads (by exact haddr) (by exact hmemory)]; rfl
  · rw [State.beginLoad_noMemory (by exact haddr) (by exact hmemory)]
    generalize hlatched : (s.setLoader (s.loader.release kind)).latch straps = u
    have hstraps : u.loader.straps = straps := by rw [← hlatched]; rfl
    have hengine : u.engine = Engine.reset straps.energised := by rw [← hlatched]; rfl
    have k := u.loadDefaults_entersReady .noMemory
    have hloader := u.loadDefaults_loader_eq .noMemory
    refine ⟨_, rfl, k.state, k.straps.trans hstraps, by rw [hloader]; rfl, by rw [hloader]; rfl, by rw [hloader]; rfl,
      k.report, fun hzone => ?_, fun hplant => ?_, ?_⟩
    · exact State.loadDefaults_zone (by rw [hstraps]; exact hzone) .noMemory
    · obtain ⟨hset, hlistening, hrun, hvalve⟩ :=
        State.loadDefaults_plant (s := u) (by rw [hstraps]; exact hplant) .noMemory
      exact ⟨hset, hlistening, by rw [hrun, hengine]; rfl, by rw [hvalve, hengine]; rfl⟩
    · rw [k.demand, k.modeSel, k.capacity, k.frost, k.pending, ← hlatched]
      exact ⟨rfl, rfl, rfl, rfl, rfl⟩

/-! ## Read attempts (R183, R184) -/

theorem reading_attempt {s : State} (hr : s.loader.state = .reading) (hw : s.loader.retryWait = false) :
    (decide (s.loader.state = .reading) && !s.loader.retryWait) = true := by rw [hr, hw]; rfl

/-- An attempt that the memory does not acknowledge to its end fails. -/
theorem exec_readAttempt_short {octets : List Byte} {s : State} (hr : s.loader.state = .reading)
    (hw : s.loader.retryWait = false) (h : octets.length < 38) :
    exec (.readAttempt octets) s = .next s.readFailed :=
  (if_pos (reading_attempt hr hw)).trans (if_pos h)

/-- An attempt that completes hands the image to CHECKING. -/
theorem exec_readAttempt_whole {octets : List Byte} {s : State} (hr : s.loader.state = .reading)
    (hw : s.loader.retryWait = false) (h : 38 ≤ octets.length) :
    exec (.readAttempt octets) s = .next (s.checkImage octets) := by
  rw [← s.checkImage_take octets]
  exact (if_pos (reading_attempt hr hw)).trans (if_neg (Nat.not_lt.2 h))

theorem exec_readRetryTimer_waiting {s : State} (hr : s.loader.state = .reading) (hw : s.loader.retryWait = true) :
    exec .readRetryTimer s =
      .next (s.setLoader { s.loader with retryWait := false, attempts := s.loader.attempts + 1 }) :=
  if_pos (by rw [hr, hw]; rfl)

/-- Settles O17, by the number of the attempt that failed. -/
theorem failedReadAttemptsEndInDefaults : Obligations.FailedReadAttemptsEndInDefaults := by
  refine ⟨fun octets s hr hw hshort => ?_, fun s => exec_readRetryTimer_waiting⟩
  rw [exec_readAttempt_short hr hw hshort, State.readFailed]
  refine ⟨fun hlt => by rw [if_pos hlt], fun hlast => ?_⟩
  rw [if_neg (Nat.not_lt.2 hlast)]
  have k := s.loadDefaults_entersReady .noAck
  exact ⟨_, rfl, s.loadDefaults_loader_eq .noAck, k.report, k.demand, k.modeSel, k.capacity, k.frost, k.pending⟩

/-- Settles O18, by whether a test of CHECKING fails: the defaults, or the image's clamped set. -/
theorem imageIsTestedInOrder : Obligations.ImageIsTestedInOrder := by
  intro octets s hr hw hdefaulted hclamped hwhole
  have k := s.checkImage_entersReady octets
  have hresult := imageTest_getD octets
  refine ⟨_, exec_readAttempt_whole hr hw hwhole, k.state, k.straps, k.report, ?_⟩
  rw [← imageTest_isSome_iff, ← hresult]
  cases htest : imageTest octets with
  | some bad =>
    rw [State.checkImage_rejects htest]
    refine ⟨rfl, iff_of_true rfl rfl, rfl, fun _ => hclamped, fun hzone => ?_, fun hplant => ?_, k.demand, k.modeSel,
      k.capacity, k.frost, k.pending⟩
    · exact ⟨_, if_pos hzone, zoneDefaults_inRange, fun _ => rfl, nofun⟩
    · exact ⟨_, if_pos hplant, plantDefaults_inRange, fun _ => rfl, nofun⟩
  | none =>
    rw [State.checkImage_accepts htest]
    have hloaded : (s.loader.withImage octets).defaulted ≠ true := Bool.eq_false_iff.1 hdefaulted
    refine ⟨rfl, iff_of_false hloaded nofun, (if_neg hloaded).symm, fun h => absurd h hloaded, fun hzone => ?_,
      fun hplant => ?_, k.demand, k.modeSel, k.capacity, k.frost, k.pending⟩
    · have hmark : (s.loader.withImage octets).clamped = zoneClamped octets :=
        congrArg (imageClamped · octets) hzone
      rw [hmark]
      exact ⟨_, if_pos hzone, zoneOfImage_inRange octets, fun h => absurd h hloaded, fun _ =>
        ⟨rfl, rfl, rfl, Nat.zero_max _, Nat.zero_max _, rfl, Nat.zero_max _, Nat.zero_max _, decide_eq_true_iff,
          zoneClamped_iff octets⟩⟩
    · have hmark : (s.loader.withImage octets).clamped = plantClamped octets :=
        congrArg (imageClamped · octets) hplant
      rw [hmark]
      exact ⟨_, if_pos hplant, plantOfImage_inRange octets, fun h => absurd h hloaded, fun _ =>
        ⟨rfl, rfl, rfl, rfl, rfl, rfl, rfl, rfl, rfl, plantClamped_iff octets⟩⟩

end Sys2Proof.Machine
end

