-- ==== Sys2Proof/Proofs/LatchedRole.lean ====
section
/-! PROOFS. The latched straps, what the loader holds in READY, and the EQ pins in the latched role (R182, R186, R187,
section 11.6). -/

namespace Sys2Proof.Machine

/-! ## The loader through the commands (R182, R186) -/

theorem LineOutcome.loader {s t : State} (h : LineOutcome s t) : t.loader = s.loader := by
  cases h with
  | set l _ e => rw [e]; rfl
  | taken l octets f _ _ e =>
    rw [e]
    exact (State.settlePlant_plant _).loader.trans (State.takeOctets_keepsShown octets (s.setLine l)).1

theorem Concludes.loader {s t : State} (h : Concludes s t) : t.loader = s.loader := by
  cases h with
  | kept f _ => exact f.loader
  | settled u f _ e => rw [e]; exact f.loader
  | shown u f e => rw [e]; exact (State.settlePlant_plant u).loader.trans f.loader

/-- What becomes of a latched loader without a reset: it stands, or the load of a station that is not READY goes on
under the latched straps. -/
def State.LoadsOn (s t : State) : Prop :=
  t.loader = s.loader ∨ s.loader.state ≠ .ready ∧ t.loader.state ≠ .idle ∧ t.loader.straps = s.loader.straps

/-- A failed read stays in READING, or ends the load with the defaults (R183). -/
theorem State.readFailed_loadsOn {s : State} (hr : s.loader.state = .reading) :
    s.LoadsOn s.readFailed := by
  have hn : s.loader.state ≠ .ready := by rw [hr]; nofun
  unfold State.readFailed
  split
  · exact .inr ⟨hn, by rw [State.setLoader_loader, hr]; nofun, rfl⟩
  · have k := s.loadDefaults_entersReady .noAck
    exact .inr ⟨hn, by rw [k.state]; nofun, k.straps⟩

/-- The release finds no reset asserted, and the read attempts and their timer go on with the load (R183, R188). -/
theorem exec_load_loadsOn {c : Instr} {s t : State}
    (hc : (∃ k st, c = .resetRelease k st) ∨ (∃ l, c = .readAttempt l) ∨ c = .readRetryTimer)
    (hl : s.loader.Sound) (hi : s.loader.state ≠ .idle) (h : exec c s = .next t) : s.LoadsOn t := by
  have still : advance s = .next t → s.LoadsOn t := next_of_advance (.inl rfl)
  obtain ⟨kind, straps, rfl⟩ | ⟨octets, rfl⟩ | rfl := hc
  · exact next_of_ite h (fun ha => absurd (hl.idle_of_asserted ha) hi) still
  · refine next_of_ite h (fun hr h => ?_) still
    simp only [Bool.and_eq_true, decide_eq_true_eq] at hr
    have k := s.checkImage_entersReady (octets.take imageLength)
    have hchecked : s.LoadsOn (s.checkImage (octets.take imageLength)) :=
      .inr ⟨by rw [hr.1]; nofun, by rw [k.state]; nofun, k.straps⟩
    exact next_of_ite h (fun _ => next_of_advance (State.readFailed_loadsOn hr.1)) (next_of_advance hchecked)
  · refine next_of_ite h (fun hr => next_of_advance ?_) still
    simp only [Bool.and_eq_true, decide_eq_true_eq] at hr
    exact .inr ⟨by rw [hr.1]; nofun, hi, rfl⟩

/-- Every command but an assertion leaves a latched loader alone or goes on with its load. -/
theorem exec_loadsOn {c : Instr} {s t : State} (hl : s.loader.Sound) (hi : s.loader.state ≠ .idle)
    (hp : c ≠ .powerOnReset) (hn : c ≠ .resetInputAsserted) (h : exec c s = .next t) : s.LoadsOn t := by
  cases hc : leavesLine c with
  | true => exact .inl (exec_concludes hc h).loader
  | false =>
    cases c with
    | powerOnReset => exact absurd rfl hp
    | resetInputAsserted => exact absurd rfl hn
    | resetRelease | readAttempt | readRetryTimer => exact exec_load_loadsOn (by simp) hl hi h
    | tokenRefillTimer | lineIdle | attemptBegin | attemptComplete | collision | frameReceived | frameAbandoned
    | zonePeriodicTimer | plantPeriodicTimer | summaryTimer | startBitSeen | framingError =>
      exact .inl (exec_line_outcome (by simp) h).loader
    | ageTimer | graceTimer | headFrameArrival | headFrameAbandoned | lossTimer | sensorTimer | demandTimer
    | homingStepCompletion | stepCompletion | budgetRefillTimer | rehomeAgeTimer | plantControlTimer
    | offHoldTimer | protectionTimer | listeningTimer | stepDelayExpiry | stepTimeExit | stepTimeLimit
    | emergencyHoldTick | retainedTimer | frostTimer => cases hc

/-! ## The pins (R182, R187, section 11.6) -/

theorem State.eqPin_unlatched {s : State} (h : s.loader.state = .idle) (p : EqPin) : s.eqPin p = .unassigned :=
  if_neg (by simp [State.latched, h])

theorem State.eqPin_zone {s : State} (h : s.loader.state ≠ .idle) (hr : s.loader.straps.role = .zone) :
    s.eqPin = s.zonePin := by
  funext p
  simp [State.eqPin, State.latched, h, hr]

theorem State.eqPin_plant {s : State} (h : s.loader.state ≠ .idle) (hr : s.loader.straps.role = .plant) :
    s.eqPin = s.plantPin := by
  funext p
  simp [State.eqPin, State.latched, h, hr]

/-- Settles O4: the loader by the command, each pin by the latched role, and the safe levels by what the blocks hold
before READY. -/
theorem pinsTakeTheLatchedRole : Obligations.PinsTakeTheLatchedRole := by
  refine ⟨fun c s t hl hi hp hn h => ?_, fun s p hidle => State.eqPin_unlatched hidle p, fun s hi hzone => ?_,
    fun s hi hplant => ?_⟩
  · obtain e | ⟨hunready, hstate, hstraps⟩ := exec_loadsOn hl hi hp hn h
    · exact ⟨by rw [e]; exact hi, by rw [e], fun _ => e⟩
    · exact ⟨hstate, hstraps, fun hready => absurd (of_decide_eq_true hready) hunready⟩
  · rw [State.eqPin_zone hi hzone]
    refine ⟨rfl, fun hheld hunready => ?_⟩
    obtain ⟨_, _, hdamper⟩ := hheld (State.not_zoneReady hunready)
    simp only [State.zonePin, hdamper]
    exact ⟨rfl, rfl, rfl⟩
  · rw [State.eqPin_plant hi hplant]
    refine ⟨rfl, fun hsafe hunready => ?_⟩
    obtain ⟨hrun, hspeed, hblower, hvalve⟩ := hsafe (.inr (State.not_plantReady_of hunready))
    simp only [List.map, State.plantPin, hrun, hvalve, hspeed, hblower]

end Sys2Proof.Machine
end

