-- ==== Sys2Proof/Proofs/Queue.lean ====
section
/-! PROOFS. The queue of commands: a step takes the front one, and a command itself ends in a next state that has the
queue as it was (notes/assumptions/1.md, notes/assumptions/2.md). -/

namespace Sys2Proof.Machine

/-- Settles O1: the two branches of a step. -/
theorem stepTakesTheFrontCommand : Obligations.StepTakesTheFrontCommand := by
  refine ⟨fun c q s hfront => ?_, fun s hempty => ?_⟩
  · rw [step, hfront]
  · rw [step, hempty]

/-! ## A command that completes -/

/-- The outcome is a next state, with the queue `q`. -/
def Completes (q : List Instr) (o : Host.Outcome State Fault Refusal) : Prop :=
  ∃ t, o = .next t ∧ t.pending = q

theorem Completes.advance {q : List Instr} {t : State} (h : t.pending = q) : Completes q (advance t) := ⟨t, rfl, h⟩

theorem Completes.ite {q : List Instr} {g : Prop} [Decidable g] {o o' : Host.Outcome State Fault Refusal}
    (h : Completes q o) (h' : Completes q o') : Completes q (if g then o else o') := by
  split
  · exact h
  · exact h'

/-- An event that acts under a condition, and otherwise leaves the state as it is (notes/assumptions/2.md). -/
theorem Completes.guarded {g : Prop} [Decidable g] {s u : State} (h : u.pending = s.pending) :
    Completes s.pending (if g then Machine.advance u else Machine.advance s) :=
  .ite (.advance h) (.advance rfl)

/-- An event that leaves the state as it is under a condition, and otherwise acts. -/
theorem Completes.barred {g : Prop} [Decidable g] {s u : State} (h : u.pending = s.pending) :
    Completes s.pending (if g then Machine.advance s else Machine.advance u) :=
  .ite (.advance rfl) (.advance h)

/-! ## The resets and the load (R182 to R188) -/

theorem State.readFailed_queue (s : State) : s.readFailed.pending = s.pending := by
  unfold State.readFailed
  split
  · rfl
  · exact (s.loadDefaults_entersReady .noAck).pending

theorem State.beginLoad_queue (s : State) : s.beginLoad.pending = s.pending := by
  unfold State.beginLoad
  split
  · rfl
  · split
    · rfl
    · exact (s.loadDefaults_entersReady .noMemory).pending

theorem exec_load_completes {c : Instr} (s : State)
    (hc : c = .powerOnReset ∨ c = .resetInputAsserted ∨ (∃ k st, c = .resetRelease k st) ∨
      (∃ l, c = .readAttempt l) ∨ c = .readRetryTimer) : Completes s.pending (exec c s) := by
  obtain rfl | rfl | ⟨kind, straps, rfl⟩ | ⟨octets, rfl⟩ | rfl := hc
  · exact .advance rfl
  · obtain ⟨_, hclosed, _⟩ := s.closeAtReset_keeps
    exact .advance hclosed
  · exact .ite (.ite (.advance rfl) (.advance (State.beginLoad_queue _))) (.advance rfl)
  · exact .ite (.ite (.advance s.readFailed_queue) (.advance (s.checkImage_entersReady _).pending)) (.advance rfl)
  · exact .guarded rfl

/-! ## The line's events (R4 to R17, R24) -/

theorem State.detectPlant_queue (a : Nat) (r : PlantRecord) (active : Bool) (s : State) :
    (s.detectPlant a r active).pending = s.pending := by
  unfold State.detectPlant
  split
  · rfl
  · split
    · exact s.enterStandby_plant.pending
    · split <;> rfl

theorem State.takeReport_queue (a : Nat) (c : Contents) (s : State) : (s.takeReport a c).pending = s.pending := by
  unfold State.takeReport
  dsimp only
  split
  · exact State.detectPlant_queue _ _ _ _
  · rfl
  · exact (State.evaluatePlant_zone _ _).pending
  · split
    · exact (State.evaluatePlant_zone _ _).pending
    · rfl

theorem State.acceptFrame_queue (h : Byte) (p : List Byte) (s : State) : (s.acceptFrame h p).pending = s.pending := by
  unfold State.acceptFrame
  split
  · rfl
  · split
    · exact (State.compareTag_keeps _ s).1.pending
    · exact State.takeReport_queue _ _ s

/-- Octets taken from the line leave the queue alone. -/
theorem State.queue_keptByOctets (q : List Instr) :
    KeptByOctets (fun u => u.pending = q) (fun u => u.pending = q) where
  start h := h
  line _ h := h
  accept h p _ hq := (State.acceptFrame_queue h p _).trans hq
  finish hq := (State.settlePlant_plant _).pending.trans hq

theorem exec_line_completes {c : Instr} (s : State)
    (hc : c = .tokenRefillTimer ∨ c = .lineIdle ∨ c = .attemptBegin ∨ c = .attemptComplete ∨
      (∃ b, c = .collision b) ∨ (∃ l, c = .frameReceived l) ∨ (∃ l, c = .frameAbandoned l) ∨
      c = .zonePeriodicTimer ∨ c = .plantPeriodicTimer ∨ c = .summaryTimer ∨ c = .startBitSeen ∨
      ∃ l, c = .framingError l) : Completes s.pending (exec c s) := by
  have k := State.queue_keptByOctets s.pending
  obtain rfl | rfl | rfl | rfl | ⟨bit, rfl⟩ | ⟨octets, rfl⟩ | ⟨octets, rfl⟩ | rfl | rfl | rfl | rfl |
    ⟨octets, rfl⟩ := hc
  · exact .guarded rfl
  · exact .barred rfl
  · simp only [exec, execAttemptBegin]
    split
    · exact .guarded rfl
    · exact .advance rfl
  · simp only [exec, execAttemptComplete]
    split
    · exact .advance rfl
    · exact .advance rfl
  · simp only [exec, execCollision]
    split
    · exact .guarded (k.finish (k.takeOctets _ rfl))
    · exact .advance rfl
  · exact .barred (k.finish (k.takeOctets octets rfl))
  · exact .barred (k.finish (k.line _ (k.heard octets rfl)))
  · exact .guarded rfl
  · exact .guarded rfl
  · exact .guarded rfl
  · exact .barred rfl
  · exact .barred (k.finish (k.line _ (k.heard octets rfl)))

/-! ## The table, the sensors and the zone's blocks (chapters 2 to 5) -/

theorem State.ageOut_queue (a : Nat) (h : Presence) (s : State) : (s.ageOut a h).pending = s.pending := by
  unfold State.ageOut
  split
  · split <;> rfl
  · split
    · dsimp only
      split
      · exact (State.evaluatePlant_zone _ _).pending
      · rfl
      · rfl
    · rfl

theorem State.ageEntry_queue (s : State) (a : Nat) : (s.ageEntry a).pending = s.pending := by
  unfold State.ageEntry
  split
  · rfl
  · split
    · exact State.ageOut_queue _ _ s
    · rfl

theorem State.ageEntries_queue (l : List Nat) (s : State) : (l.foldl State.ageEntry s).pending = s.pending :=
  List.foldlRecOn l State.ageEntry (motive := fun u => u.pending = s.pending) rfl
    fun u hu a _ => (u.ageEntry_queue a).trans hu

theorem State.headOctets_queue (octets : List Byte) (s : State) :
    (octets.foldl State.headOctet s).pending = s.pending := by
  have hframe : octets.foldl State.headOctet s = _ := s.headOctets_headFrame octets
  rw [hframe]
  rfl

theorem State.zoneSensors_queue (s : State) : s.zoneSensors.pending = s.pending := by
  unfold State.zoneSensors
  dsimp only
  split <;> rfl

theorem State.handsOver_queue (s : State) : s.handsOver.pending = s.pending := by
  rw [s.handsOver_eq.1]
  rfl

theorem exec_zone_completes {c : Instr} (s : State)
    (hc : c = .ageTimer ∨ c = .graceTimer ∨ (∃ l, c = .headFrameArrival l) ∨ (∃ l, c = .headFrameAbandoned l) ∨
      c = .lossTimer ∨ (∃ p b, c = .sensorTimer p b) ∨ c = .demandTimer ∨ (∃ b, c = .homingStepCompletion b) ∨
      (∃ b, c = .stepCompletion b) ∨ c = .budgetRefillTimer ∨ c = .rehomeAgeTimer) :
    Completes s.pending (exec c s) := by
  obtain rfl | rfl | ⟨octets, rfl⟩ | ⟨octets, rfl⟩ | rfl | ⟨pins, first, rfl⟩ | rfl | ⟨stall, rfl⟩ | ⟨stall, rfl⟩ |
    rfl | rfl := hc
  · exact .guarded (State.ageEntries_queue _ _)
  · exact .ite (.ite (.advance (State.losePlant_zone _).pending) (.advance rfl)) (.advance rfl)
  · exact .guarded (s.headOctets_queue octets)
  · exact .guarded (s.headOctets_queue octets)
  · exact .guarded rfl
  · refine .ite ?_ (.advance rfl)
    split
    · exact .advance s.zoneSensors_queue
    · exact .advance ((State.plantSensorExpiry_plant pins first s).trans (State.settlePlant_plant _)).pending
  · exact .guarded ((State.recompute_zone _).pending.trans s.handsOver_queue)
  · exact .guarded rfl
  · exact .ite (.ite (.advance (State.recompute_zone _).pending) (.advance rfl)) (.advance rfl)
  · exact .guarded rfl
  · exact .guarded rfl

/-! ## The plant's blocks (chapters 6 to 10) -/

/-- The plant's operations, and the end of their command, leave the queue alone. -/
theorem PlantFrame.settles_queue {s t : State} (f : PlantFrame s t) : t.settlePlant.pending = s.pending :=
  (f.trans (State.settlePlant_plant t)).pending

theorem exec_plant_completes {c : Instr} (s : State)
    (hc : c = .plantControlTimer ∨ c = .offHoldTimer ∨ c = .protectionTimer ∨ c = .listeningTimer ∨
      c = .stepDelayExpiry ∨ c = .stepTimeExit ∨ c = .stepTimeLimit ∨ c = .emergencyHoldTick ∨ c = .retainedTimer ∨
      c = .frostTimer) : Completes s.pending (exec c s) := by
  have runs (todo : Todo) {u : State} (hu : u.pending = s.pending) :
      (u.run todo).settlePlant.pending = s.pending := (State.run_plant todo u).settles_queue.trans hu
  obtain rfl | rfl | rfl | rfl | rfl | rfl | rfl | rfl | rfl | rfl := hc
  · exact .guarded (s.modeExpiry_frames.1.trans (State.capacityPeriod_plant _)).settles_queue
  · exact .guarded (State.noteLockoutEnd_plant _ _).settles_queue
  · exact .guarded s.protectionStages_plant.settles_queue
  · exact .guarded rfl
  · exact .guarded (runs _ rfl)
  · simp only [exec, execStepTimeExit]
    split
    · exact .guarded (runs _ rfl)
    · exact .advance rfl
  · simp only [exec, execStepTimeLimit]
    split
    · exact .guarded (runs _ rfl)
    · exact .advance rfl
  · exact .ite (.ite (.advance (runs _ rfl)) (.advance rfl)) (.advance rfl)
  · refine .ite (.advance rfl) (.ite (.advance ?_) (.advance s.retainedAdvance_plant.pending))
    exact (s.retainedAdvance_plant.trans (State.examineRequest_plant _)).settles_queue
  · exact .ite (.ite (.advance (State.request_plant _ s.frostAdvance).settles_queue) (.advance rfl)) (.advance rfl)

/-! ## Every command -/

/-- Settles O2, block by block: each command ends in a next state, and no block's operations touch the queue. -/
theorem everyCommandCompletes : Obligations.EveryCommandCompletes := by
  intro c s
  cases c with
  | powerOnReset | resetInputAsserted | resetRelease | readAttempt | readRetryTimer =>
    exact exec_load_completes s (by simp)
  | tokenRefillTimer | lineIdle | attemptBegin | attemptComplete | collision | frameReceived | frameAbandoned
  | zonePeriodicTimer | plantPeriodicTimer | summaryTimer | startBitSeen | framingError =>
    exact exec_line_completes s (by simp)
  | ageTimer | graceTimer | headFrameArrival | headFrameAbandoned | lossTimer | sensorTimer | demandTimer
  | homingStepCompletion | stepCompletion | budgetRefillTimer | rehomeAgeTimer =>
    exact exec_zone_completes s (by simp)
  | plantControlTimer | offHoldTimer | protectionTimer | listeningTimer | stepDelayExpiry | stepTimeExit
  | stepTimeLimit | emergencyHoldTick | retainedTimer | frostTimer =>
    exact exec_plant_completes s (by simp)

end Sys2Proof.Machine
end
